-- ==== Sys2Proof/Word.lean ====
section
/-! DEFINITION. The words that cross the two sides of the part: bytes of a frame, words of the host bus. -/

namespace Sys2Proof

/-- A byte of a frame or of a payload (R9). -/
abbrev Byte := BitVec 8

/-- A word of the host bus, of a record or of a table (0.3: a word is 16 bits). -/
abbrev Word := BitVec 16

/-- The number of a station entry, 0 to 63 (R42). -/
abbrev StationIndex := Fin 64

/-- One of the sixteen data groups of a station (R12). -/
abbrev Group := BitVec 4

end Sys2Proof
end

