-- ==== Sys2Proof/Syntax.lean ====
section
/-! DEFINITION. The commands and events the part takes, one constructor for each row of spec/opcode_table.json. -/

namespace Sys2Proof

/-- The two lines of the part (0.1). -/
inductive Line where
  | a
  | b
  deriving DecidableEq, Repr

/-- The framing status a CHARACTER event carries (R5). -/
inductive Framing where
  | good
  | framingError
  deriving DecidableEq, Repr

/-- A host strobe that overlaps a DACK strobe, if there is one (R141). -/
inductive Overlap where
  | none
  | hostRead (address : BitVec 5)
  | hostWrite (address : BitVec 5) (value : Word)
  deriving DecidableEq, Repr

/-- The rows of the opcode table. The command rows (from `stationConfigure` to `partReset`) are writes of
their code to COMMAND; their parameters stand in PARAM 0 to PARAM 3 (R153, log entry 1). -/
inductive Instr where
  | hardwareResetAssert
  | hardwareResetRelease
  | initEnd
  | stationConfigure
  | stationEnable
  | stationDisable
  | stationClear
  | stationZeroCounts
  | listSwap
  | submit
  | queueRelease
  | queueFlush
  | queueSetThreshold
  | drainMode
  | lineSet
  | lineStart
  | lineStop
  | lineHalt
  | lineReset
  | partReset
  | unknownCommand (code : Word)
  | queueDataRead
  | tableDataRead
  | tableDataWrite (value : Word)
  | partStatusRead
  | intEnableWrite (value : Word)
  | intAckWrite (value : Word)
  | registerWrite (address : BitVec 5) (value : Word)
  | dackStrobe (overlap : Overlap)
  | startDetected (l : Line)
  | character (l : Line) (value : Byte) (framing : Framing)
  | waitMarkEnd (l : Line)
  | quietReached (l : Line)
  | noiseLimitExpiry (l : Line)
  | transmitCharacterEnd (l : Line)
  | responseTimeout (l : Line)
  | gapLimitExpiry (l : Line)
  | backoffEnd (l : Line)
  | settleEnd (l : Line)
  | intervalElapsed (l : Line)
  | unitStart (l : Line)
  | deferredDisable (station : StationIndex)
  | stoppingLineStopped (l : Line)
  | holdListGrant
  | workSelection (l : Line)
  | pendingSwapTakesEffect (l : Line)
  | cycleStart (l : Line)
  deriving DecidableEq, Repr

end Sys2Proof
end

