-- ==== Sys2Proof/Decode.lean ====
section
/-! DEFINITION. The command a word spells by the opcode table's bits: the table gives bits to no row. -/

namespace Sys2Proof

/-- The command that the word `w` of `nbits` bits spells by spec/opcode_table.json: no row of the table has bits
(98_reader.md: "n_rows_with_fixed": 0), so no word spells one. -/
def decodeTableWord (_nbits _w : Nat) : Option Instr :=
  none

end Sys2Proof
end

