-- ==== Sys2Proof/Config.lean ====
section
/-! DEFINITION. What is fixed for the part: sizes, codes and limits of the manual, and the one free value. -/

namespace Sys2Proof.Config

/-- START of every frame (R9). -/
def startByte : Byte := 0xC5#8

/-- The broadcast address (R11). -/
def broadcastAddress : Byte := 0x3F#8

/-- Largest payload of a frame, in bytes (R13). -/
def maxPayload : Nat := 40

/-- The alert group (R12). -/
def alertGroup : Group := 15#4

/-- Words of the reply queue's store (R103). -/
def storeWords : Nat := 1024

/-- Entries a directed queue can hold (R87). -/
def directedDepth : Nat := 8

/-- Slots of a poll list bank (R63). -/
def bankSlots : Nat := 96

/-- Consecutive CONTENTION attempts that fault a line (R35). -/
def contentionLimit : Nat := 4

/-- Quiet that ends GUARD, in CT (R21). -/
def quietCt : Nat := 3

/-- The noise limit of GUARD, in CT (R22). -/
def noiseCt : Nat := 64

/-- The inter-character gap limit, in CT (R27). -/
def gapCt : Nat := 2

/-- The contention backoff, in CT (R34). -/
def backoffCt : Nat := 8

/-- Where the interval timer stops counting, in CT (R80). -/
def intervalCapCt : Nat := 65536

/-- The longest INIT, in reference periods (R156). -/
def initPeriods : Nat := 4096

/-- Where a station count stops (R60). -/
def countLimit : Nat := 65535

/-- The generator of the frame check, x^16 + x^12 + x^5 + 1 (R15). -/
def crcPolynomial : Word := 0x1021#16

/-- What the check register is loaded with (R15, R16). -/
def crcLoad : Word := 0xFFFF#16

/-- FREE VALUE (log entry 6): for the n-th time the manual leaves the order of two claims open inside one step,
whether the first of the two is taken first (R171, R114). Nothing constrains it. -/
opaque raceFirst : Nat → Bool

/-- Bound on the arbiter invocations and hold-list grants of one step; no step needs as many (log entry 12). -/
def stepFuel : Nat := 256

end Sys2Proof.Config
end

