-- ==== Sys2Proof/Machine/State.lean ====
section
/-! DEFINITION. The state of the part as plain data, block by block (Table 0-1), its reset, and why a step can stop. -/

namespace Sys2Proof.Machine

/-! ### The station table (chapter 3) -/

/-- The six states of a station entry (R43, Table 3-2). -/
inductive StationState where
  | unconfigured
  | disabled
  | unknown
  | online
  | suspect
  | offline
  deriving DecidableEq, Repr

/-- A station entry (Table 3-1). Alert pending is membership in the line's alert set and has its home there
(note a of the table). -/
structure Entry where
  state : StationState
  line : Line
  address : Nat
  retryLimit : Nat
  failThreshold : Nat
  alertFollowUp : Bool
  inService : Bool
  disablePending : Bool
  consecutive : Nat
  answered : Nat
  failedAttempts : Nat
  deriving DecidableEq, Repr

/-- An entry after reset: UNCONFIGURED, every field 0 (R44). -/
def Entry.reset : Entry :=
  { state := .unconfigured, line := .a, address := 0, retryLimit := 0, failThreshold := 0,
    alertFollowUp := false, inService := false, disablePending := false, consecutive := 0,
    answered := 0, failedAttempts := 0 }

/-! ### Poll lists (chapter 4) -/

/-- A slot of a poll list bank, each field at its stored width (R63, R64). -/
structure Slot where
  station : StationIndex
  group : Group
  limit : BitVec 6
  divisor : BitVec 5
  deriving DecidableEq, Repr

/-- A slot after reset (R63). -/
def Slot.reset : Slot :=
  { station := 0, group := 0, limit := 0, divisor := 0 }

/-- A poll list bank: a length word and 96 slots (R63). -/
structure Bank where
  length : Word
  slots : Vector Slot 96
  deriving DecidableEq, Repr

/-- A bank after reset (R63). -/
def Bank.reset : Bank :=
  { length := 0, slots := Vector.replicate 96 Slot.reset }

/-- The number of a bank (R63). -/
inductive BankNumber where
  | zero
  | one
  deriving DecidableEq, Repr

/-! ### Directed requests (chapter 5) -/

/-- The kinds of a directed request (R85). -/
inductive RequestKind where
  | poll
  | set
  | bcast
  deriving DecidableEq, Repr

/-- A directed entry (R86). For a POLL the count is the acceptance limit and the payload is empty; for a SET or
BCAST the payload holds count bytes. -/
structure DirectedEntry where
  kind : RequestKind
  station : StationIndex
  group : Group
  count : Nat
  tag : Byte
  payload : List Byte
  deriving DecidableEq, Repr

/-! ### Records (chapter 6) -/

/-- The origin of a record (R105). -/
inductive Origin where
  | schedule
  | directed
  | alert
  | line
  deriving DecidableEq, Repr

/-- Outcome and cause codes of STATE and FAULT records (Table 11-9). -/
inductive RecordCause where
  | good
  | deferred
  | timeout
  | corrupt
  | mismatch
  | overlong
  | busy
  | station
  | aborted
  | line
  deriving DecidableEq, Repr

/-- A record of the reply queue with the fields its kind carries (Table 6-1). -/
inductive Record where
  | data (line : Line) (origin : Origin) (station : StationIndex) (group : Group) (ref : Byte) (alert : Bool)
      (payload : List Byte) (cycle : Word)
  | confirm (line : Line) (station : StationIndex) (group : Group) (tag : Byte) (alert broadcast : Bool)
      (cycle : Word)
  | fault (line : Line) (station : StationIndex) (group : Group) (tag : Byte) (cause : RecordCause) (cycle : Word)
  | state (line : Line) (origin : Origin) (station : StationIndex) (old new : StationState) (cause : RecordCause)
      (cycle : Word)
  | mark (line : Line) (visits : Nat) (overrun : Bool) (cycle : Word)
  deriving DecidableEq, Repr

/-! ### Line signals (chapter 1) -/

/-- The three states of a receiver (R5). -/
inductive Receiver where
  | hunt
  | assemble
  | waitMark
  deriving DecidableEq, Repr

/-- The transmitter while it sends (R3, R4): the character in the shifter, whether the bit time of DE lead stands
before its start bit, the reference periods since its echo window opened, and the reference periods of one bit at
the rate the transmission is made at (R8). -/
structure Shifter where
  char : Byte
  lead : Bool
  elapsed : Nat
  bitPeriods : Nat
  deriving DecidableEq, Repr

/-! ### Line engine (chapters 2, 4, 5, 7) -/

/-- The run states (R124). -/
inductive RunState where
  | stopped
  | running
  | stopping
  | faulted
  deriving DecidableEq, Repr

/-- The cycle conditions (R125); NONE outside RUNNING. -/
inductive CycleCondition where
  | none
  | inCycle
  | waiting
  | idleEmpty
  deriving DecidableEq, Repr

/-- The fault causes (R133). -/
inductive FaultCause where
  | none
  | noise
  | contention
  deriving DecidableEq, Repr

/-- The failing attempt outcomes (R31). -/
inductive FailingOutcome where
  | timeout
  | corrupt
  | mismatch
  | overlong
  deriving DecidableEq, Repr

/-- The station frame kinds (R13). -/
inductive AnswerKind where
  | reply
  | confirm
  | busy
  deriving DecidableEq, Repr

/-- A held answer (Table 2-2): kind, ALERT flag and payload; COUNT is the payload's length. -/
structure HeldAnswer where
  kind : AnswerKind
  alert : Bool
  payload : List Byte
  deriving DecidableEq, Repr

/-- What a line takes up as one unit (R18): a schedule visit of a slot with the slot's fields (R75), an alert
follow-up (R96), a directed unit for the head of the queue (R89), or a cycle-end mark with the visit count and
overrun flag fixed at the boundary (R77). -/
inductive Work where
  | visit (slot : Nat) (station : StationIndex) (group : Group) (limit : Nat)
  | alert (station : StationIndex)
  | directed (entry : DirectedEntry)
  | mark (visits : Nat) (overrun : Bool)
  deriving DecidableEq, Repr

/-- The unit context (Table 2-2). Kind, station index, origin and ref are those of `work`. -/
structure UnitContext where
  work : Work
  frame : List Byte
  budget : Nat
  used : Nat
  lastFailing : Option FailingOutcome
  held : Option HeldAnswer
  deriving DecidableEq, Repr

/-- What a unit in IDLE waits for, with the reference periods waited (R34, R36). `fallOfDe`: the transmission its
CONTENTION cut short has not ended yet (log entry 7). -/
inductive IdleWait where
  | none
  | fallOfDe
  | backoff (elapsed : Nat)
  | settle (elapsed : Nat)
  deriving DecidableEq, Repr

/-- The exchange phases with their timers in reference periods (Table 2-3): GUARD with quiet count and noise limit
(R21, R22); SEND with the number of the open echo window and whether its echo has come (R23, R24), and SEND while the
transmitter still finishes the character of an earlier transmission (R8, log entry 11); AWAIT with the response timer,
absent once stopped (R26); RECEIVE with the characters collected after START, the CRC register and the gap timer,
absent while stopped (R27). -/
inductive Phase where
  | idle (wait : IdleWait)
  | guard (quiet noise : Nat)
  | send (window : Nat) (echoed : Bool)
  | sendWaiting
  | await (timer : Option Nat)
  | receive (buffer : List Byte) (crc : Word) (gap : Option Nat)
  deriving DecidableEq, Repr

/-- The line parameters (Table 7-2). -/
structure Params where
  rate : Nat
  response : Nat
  settle : Nat
  interval : Nat
  probe : Nat
  burst : Nat
  mark : Bool
  deriving DecidableEq, Repr

/-- The parameters' reset values (R126). -/
def Params.reset : Params :=
  { rate := 51, response := 20, settle := 10, interval := 0, probe := 8, burst := 2, mark := false }

/-- Everything that exists once per line. -/
structure LineEngine where
  params : Params
  runState : RunState
  condition : CycleCondition
  faultCause : FaultCause
  phase : Phase
  current : Option UnitContext
  chosen : Option Work
  reservation : Option Nat
  cycleNumber : Word
  cursor : Nat
  interval : Nat
  burst : Nat
  visitCount : Nat
  contention : Nat
  receiver : Receiver
  shifter : Option Shifter
  bankZero : Bank
  bankOne : Bank
  active : BankNumber
  swapPending : Bool
  submitBuffer : Vector Word 20
  directed : List DirectedEntry
  alertSet : List StationIndex
  alertCursor : StationIndex
  deriving DecidableEq, Repr

/-- A line after reset (Table 9-5). -/
def LineEngine.reset : LineEngine :=
  { params := Params.reset, runState := .stopped, condition := .none, faultCause := .none, phase := .idle .none,
    current := none, chosen := none, reservation := none, cycleNumber := 0, cursor := 0, interval := 0, burst := 0,
    visitCount := 0, contention := 0, receiver := .waitMark, shifter := none, bankZero := Bank.reset,
    bankOne := Bank.reset, active := .zero, swapPending := false, submitBuffer := Vector.replicate 20 0,
    directed := [], alertSet := [], alertCursor := 63 }

/-! ### Reply queue (chapters 6 and 8) -/

/-- The drain modes (R138). -/
inductive DrainMode where
  | pioManual
  | pioAuto
  | dma
  deriving DecidableEq, Repr

/-- An entry of the hold list: the line and its request size (R111). -/
structure HoldEntry where
  line : Line
  request : Nat
  deriving DecidableEq, Repr

/-- The reply queue: records oldest first, read cursor, hold list in order of joining, drain mode, threshold. -/
structure ReplyQueue where
  records : List Record
  cursor : Nat
  holdList : List HoldEntry
  drainMode : DrainMode
  threshold : Nat
  deriving DecidableEq, Repr

/-- The queue after reset (R123). -/
def ReplyQueue.reset : ReplyQueue :=
  { records := [], cursor := 0, holdList := [], drainMode := .pioManual, threshold := 1 }

/-! ### Host window and interrupt unit (chapters 9 and 10) -/

/-- The result codes (Table 9-3). -/
inductive Result where
  | none
  | accepted
  | notReady
  | unknown
  | range
  | state
  | full
  | duplicate
  | pending
  | empty
  | mode
  deriving DecidableEq, Repr

/-- INIT, with the reference periods it has lasted, or READY (R156). -/
inductive Readiness where
  | init (elapsed : Nat)
  | ready
  deriving DecidableEq, Repr

/-- The host window: the reset input, the readiness, the command slot, the table port, the table-refused flag, and
the word last driven onto the data lines by the part (log entry 8). -/
structure Window where
  resetInput : Bool
  readiness : Readiness
  param0 : Word
  param1 : Word
  param2 : Word
  param3 : Word
  command : Word
  result : Result
  resultDetail : Word
  tableRegion : BitVec 4
  tableIndex : BitVec 12
  tableRefused : Bool
  dataLines : Word
  deriving DecidableEq, Repr

/-- The window after reset, as INIT begins (Table 9-5). -/
def Window.reset : Window :=
  { resetInput := false, readiness := .init 0, param0 := 0, param1 := 0, param2 := 0, param3 := 0, command := 0,
    result := .none, resultDetail := 0, tableRegion := 0, tableIndex := 0, tableRefused := false, dataLines := 0 }

/-- The interrupt unit: the pending states of the latched causes and the enables, the cause with code c at bit
c - 1 (Table 11-7). QUEUE THRESHOLD is a level and is not latched (R162). -/
structure InterruptUnit where
  latched : BitVec 12
  enables : BitVec 12
  deriving DecidableEq, Repr

/-- The interrupt unit after reset (R166). -/
def InterruptUnit.reset : InterruptUnit :=
  { latched := 0, enables := 0 }

/-! ### The whole part -/

/-- The state of the part, the counter of free orders (log entry 6), and the queue of commands not yet taken,
first in first out. -/
structure State where
  window : Window
  stations : Vector Entry 64
  lineA : LineEngine
  lineB : LineEngine
  queue : ReplyQueue
  interrupts : InterruptUnit
  raceCount : Nat
  pending : List Instr
  deriving DecidableEq, Repr

/-- The part right after reset, as INIT begins (R158, Table 9-5); nothing waits. -/
def State.reset : State :=
  { window := Window.reset, stations := Vector.replicate 64 Entry.reset, lineA := LineEngine.reset,
    lineB := LineEngine.reset, queue := ReplyQueue.reset, interrupts := InterruptUnit.reset, raceCount := 0,
    pending := [] }

/-- Why a step stops with a fault: nothing raises one. The manual describes no behaviour of the part that stops it;
line faults are run states (R133) and refused commands are results (R154). Safe: no step ends here. -/
inductive Fault where
  deriving DecidableEq, Repr

/-- Why a command is refused a meaning. -/
inductive Refusal where
  /-- Raised by an arm of exec whose command has no meaning yet; safe, since the model stops where the part goes on. -/
  | notModelled (mnemonic : String)
  deriving DecidableEq, Repr

end Sys2Proof.Machine
end

