-- ==== Sys2Proof/Machine/Operands.lean ====
section
/-! DEFINITION. The codes of chapter 11 and the fields the commands take from the PARAM registers. -/

namespace Sys2Proof.Machine

/-! ### Halves of a word (0.3) -/

/-- Bits 15 to 8 of a word. -/
def hiByte (w : Word) : Byte :=
  w.extractLsb' 8 8

/-- Bits 7 to 0 of a word. -/
def loByte (w : Word) : Byte :=
  w.extractLsb' 0 8

/-- Two bytes in one word, the first in the high half (0.3). -/
def joinBytes (first second : Byte) : Word :=
  first ++ second

/-- A flag as one bit. -/
def flagBit (b : Bool) : BitVec 1 :=
  BitVec.ofBool b

/-! ### Codes -/

/-- The line of a line code: 0 is A, 1 is B, any other code names no line (11.4, R170). -/
def lineOfCode (code : Nat) : Option Line :=
  match code with
  | 0 => some .a
  | 1 => some .b
  | _ => none

/-- The line bit of a record header or station entry (Tables 11-3, 11-5). -/
def lineBit : Line → BitVec 1
  | .a => 0
  | .b => 1

/-- Frame kind codes of the master kinds (Table 11-2). -/
def requestKindCode : RequestKind → BitVec 4
  | .poll => 1
  | .set => 2
  | .bcast => 3

/-- The kind a SUBMIT kind code names (R85 step 2). -/
def requestKindOfCode (code : Nat) : Option RequestKind :=
  match code with
  | 1 => some .poll
  | 2 => some .set
  | 3 => some .bcast
  | _ => none

/-- The station kind a received kind code names (Table 11-2); the master kinds and the unused codes name none. -/
def answerKindOfCode (code : BitVec 4) : Option AnswerKind :=
  if code = 8 then some .reply
  else if code = 9 then some .confirm
  else if code = 0xA then some .busy
  else none

/-- Station state codes (Table 11-8). -/
def stationStateCode : StationState → Nat
  | .unconfigured => 0
  | .disabled => 1
  | .unknown => 2
  | .online => 3
  | .suspect => 4
  | .offline => 5

/-- Run state codes (Table 11-8). -/
def runStateCode : RunState → Nat
  | .stopped => 0
  | .running => 1
  | .stopping => 2
  | .faulted => 3

/-- Cycle condition codes (Table 11-8). -/
def conditionCode : CycleCondition → Nat
  | .none => 0
  | .inCycle => 1
  | .waiting => 2
  | .idleEmpty => 3

/-- Exchange phase codes (Table 11-8). -/
def phaseCode : Phase → Nat
  | .idle _ => 0
  | .guard _ _ => 1
  | .send _ _ => 2
  | .sendWaiting => 2
  | .await _ => 3
  | .receive _ _ _ => 4

/-- Fault cause codes (Table 11-8). -/
def faultCauseCode : FaultCause → Nat
  | .none => 0
  | .noise => 1
  | .contention => 2

/-- Outcome and cause codes (Table 11-9). -/
def recordCauseCode : RecordCause → Nat
  | .good => 1
  | .deferred => 2
  | .timeout => 3
  | .corrupt => 4
  | .mismatch => 5
  | .overlong => 6
  | .busy => 7
  | .station => 8
  | .aborted => 9
  | .line => 10

/-- The record cause of a failing outcome (R37). -/
def failingCause : FailingOutcome → RecordCause
  | .timeout => .timeout
  | .corrupt => .corrupt
  | .mismatch => .mismatch
  | .overlong => .overlong

/-- Origin codes (Table 11-3). -/
def originCode : Origin → BitVec 2
  | .schedule => 0
  | .directed => 1
  | .alert => 2
  | .line => 3

/-- Result codes (Table 11-10). -/
def resultCode : Result → Nat
  | .none => 0
  | .accepted => 1
  | .notReady => 2
  | .unknown => 3
  | .range => 4
  | .state => 5
  | .full => 6
  | .duplicate => 7
  | .pending => 8
  | .empty => 9
  | .mode => 10

/-- Drain mode codes (Table 11-7). -/
def drainModeCode : DrainMode → Nat
  | .pioManual => 0
  | .pioAuto => 1
  | .dma => 2

/-- The drain mode a mode code names (R138 step 1). -/
def drainModeOfCode (code : Nat) : Option DrainMode :=
  match code with
  | 0 => some .pioManual
  | 1 => some .pioAuto
  | 2 => some .dma
  | _ => none

/-! ### Line parameters -/

/-- The seven parameters of LINE SET (Table 7-2). -/
inductive Parameter where
  | rate
  | response
  | settle
  | interval
  | probe
  | burst
  | mark
  deriving DecidableEq, Repr

/-- The parameter a parameter code names (Table 11-12 note a). -/
def parameterOfCode (code : Nat) : Option Parameter :=
  match code with
  | 1 => some .rate
  | 2 => some .response
  | 3 => some .settle
  | 4 => some .interval
  | 5 => some .probe
  | 6 => some .burst
  | 7 => some .mark
  | _ => none

/-- The parameter's code, which a refused value reports (R127 step 4). -/
def parameterCode : Parameter → Nat
  | .rate => 1
  | .response => 2
  | .settle => 3
  | .interval => 4
  | .probe => 5
  | .burst => 6
  | .mark => 7

/-- The ranges of Table 7-2. -/
def parameterInRange (p : Parameter) (value : Nat) : Bool :=
  match p with
  | .rate => decide (value ≤ 4095)
  | .response => decide (2 ≤ value ∧ value ≤ 255)
  | .settle => decide (2 ≤ value ∧ value ≤ 255)
  | .interval => decide (value ≤ 65535)
  | .probe => decide (1 ≤ value ∧ value ≤ 64)
  | .burst => decide (1 ≤ value ∧ value ≤ 8)
  | .mark => decide (value ≤ 1)

/-- The parameters with one of them at a new value (R127). -/
def Params.setParameter (ps : Params) (p : Parameter) (value : Nat) : Params :=
  match p with
  | .rate => { ps with rate := value }
  | .response => { ps with response := value }
  | .settle => { ps with settle := value }
  | .interval => { ps with interval := value }
  | .probe => { ps with probe := value }
  | .burst => { ps with burst := value }
  | .mark => { ps with mark := decide (value = 1) }

/-- One bit time in reference periods (R7). -/
def Params.bitPeriods (ps : Params) : Nat :=
  16 * (ps.rate + 1)

/-- One character time in reference periods (R6). -/
def Params.ct (ps : Params) : Nat :=
  160 * (ps.rate + 1)

/-! ### Command codes -/

/-- The commands of the command slot (Table 9-4). -/
inductive Command where
  | stationConfigure
  | stationEnable
  | stationDisable
  | stationClear
  | stationZeroCounts
  | listSwap
  | submit
  | queueRelease
  | queueFlush
  | queueSetThreshold
  | drainMode
  | lineSet
  | lineStart
  | lineStop
  | lineHalt
  | lineReset
  | partReset
  deriving DecidableEq, Repr

/-- The command codes (Table 11-11). -/
def commandCode : Command → Word
  | .stationConfigure => 0x0010
  | .stationEnable => 0x0011
  | .stationDisable => 0x0012
  | .stationClear => 0x0013
  | .stationZeroCounts => 0x0014
  | .listSwap => 0x0020
  | .submit => 0x0021
  | .queueRelease => 0x0030
  | .queueFlush => 0x0031
  | .queueSetThreshold => 0x0032
  | .drainMode => 0x0033
  | .lineSet => 0x0040
  | .lineStart => 0x0041
  | .lineStop => 0x0042
  | .lineHalt => 0x0043
  | .lineReset => 0x0044
  | .partReset => 0x00A5

/-- Every command of Table 9-4, in its order. -/
def allCommands : List Command :=
  [.stationConfigure, .stationEnable, .stationDisable, .stationClear, .stationZeroCounts, .listSwap, .submit,
    .queueRelease, .queueFlush, .queueSetThreshold, .drainMode, .lineSet, .lineStart, .lineStop, .lineHalt,
    .lineReset, .partReset]

/-- The command a COMMAND word names, compared as a whole word (R170). -/
def commandOfCode (code : Word) : Option Command :=
  allCommands.find? (fun c => commandCode c = code)

/-! ### Parameter placing (Table 11-12) -/

/-- PARAM 0 of a line command, LIST SWAP, SUBMIT and LINE SET: the line code. -/
def Window.lineParam (w : Window) : Option Line :=
  lineOfCode w.param0.toNat

/-- PARAM 0 of a STATION command: the station index, none above 63 (R46). -/
def Window.stationParam (w : Window) : Option StationIndex :=
  if h : w.param0.toNat < 64 then some ⟨w.param0.toNat, h⟩ else none

/-- The fields of STATION CONFIGURE beside the station index, each the whole of its bits (R170). -/
structure ConfigureFields where
  lineCode : Nat
  address : Nat
  retryLimit : Nat
  failThreshold : Nat
  alertFollowUp : Bool
  deriving DecidableEq, Repr

/-- Where Table 11-12 places the fields of STATION CONFIGURE. -/
def Window.configureFields (w : Window) : ConfigureFields :=
  { lineCode := (loByte w.param1).toNat, address := w.param2.toNat, retryLimit := (loByte w.param3).toNat,
    failThreshold := (hiByte w.param3).toNat, alertFollowUp := w.param1.getLsbD 15 }

/-- The fields of SUBMIT, each the whole of its bits (R170). -/
structure SubmitFields where
  lineCode : Nat
  kindCode : Nat
  station : Nat
  group : Nat
  count : Nat
  tag : Nat
  deriving DecidableEq, Repr

/-- Where Table 11-12 places the fields of SUBMIT. -/
def Window.submitFields (w : Window) : SubmitFields :=
  { lineCode := w.param0.toNat, kindCode := (hiByte w.param1).toNat, station := (loByte w.param1).toNat,
    group := (hiByte w.param2).toNat, count := (loByte w.param2).toNat, tag := w.param3.toNat }

end Sys2Proof.Machine
end

