-- ==== Sys2Proof/Machine/Flags.lean ====
section
/-! DEFINITION. The interrupt unit: causes, raising, the threshold level, INT and the identity (chapter 10). -/

namespace Sys2Proof.Machine

/-- The twelve causes in identity order (Table 10-1). -/
inductive Cause where
  | lineFault (l : Line)
  | queueHeld
  | queueThreshold
  | stationState (l : Line)
  | directedDone (l : Line)
  | lineStopped (l : Line)
  | cycleEnd (l : Line)
  deriving DecidableEq, Repr

/-- The code of a cause: its rank in Table 10-1 (11.4). -/
def causeCode : Cause → Nat
  | .lineFault .a => 1
  | .lineFault .b => 2
  | .queueHeld => 3
  | .queueThreshold => 4
  | .stationState .a => 5
  | .stationState .b => 6
  | .directedDone .a => 7
  | .directedDone .b => 8
  | .lineStopped .a => 9
  | .lineStopped .b => 10
  | .cycleEnd .a => 11
  | .cycleEnd .b => 12

/-- Every cause, highest rank first (Table 10-1). -/
def allCauses : List Cause :=
  [.lineFault .a, .lineFault .b, .queueHeld, .queueThreshold, .stationState .a, .stationState .b, .directedDone .a,
    .directedDone .b, .lineStopped .a, .lineStopped .b, .cycleEnd .a, .cycleEnd .b]

/-- The bit of a cause in INT PENDING and INT ENABLE: code c at bit c - 1 (Table 11-7). -/
def causeBit (c : Cause) : BitVec 12 :=
  BitVec.twoPow 12 (causeCode c - 1)

/-- The cause an INT ACK word names, compared as a whole word (R170). -/
def causeOfCode (code : Word) : Option Cause :=
  allCauses.find? (fun c => causeCode c = code.toNat)

/-- The unit after the event of a latched cause: the cause is pending, whether or not it is enabled (R161). -/
def InterruptUnit.raise (u : InterruptUnit) (c : Cause) : InterruptUnit :=
  { u with latched := u.latched ||| causeBit c }

/-- The unit after an acknowledge of a latched cause (R165). -/
def InterruptUnit.clear (u : InterruptUnit) (c : Cause) : InterruptUnit :=
  { u with latched := u.latched &&& ~~~(causeBit c) }

/-- A latched cause becomes pending. -/
def State.raise (s : State) (c : Cause) : State :=
  { s with interrupts := s.interrupts.raise c }

/-- QUEUE THRESHOLD is pending while the record count is at least the threshold (R121, R162). -/
def State.thresholdReached (s : State) : Bool :=
  decide (s.queue.threshold ≤ s.queue.records.length)

/-- INT PENDING: the latched causes and the level of QUEUE THRESHOLD (R160, R163). -/
def State.pendingCauses (s : State) : BitVec 12 :=
  s.interrupts.latched ||| (if s.thresholdReached then causeBit .queueThreshold else 0)

/-- A cause is pending. -/
def State.isPending (s : State) (c : Cause) : Bool :=
  s.pendingCauses.getLsbD (causeCode c - 1)

/-- A cause is enabled (R163). -/
def State.isEnabled (s : State) (c : Cause) : Bool :=
  s.interrupts.enables.getLsbD (causeCode c - 1)

/-- INT is asserted while at least one cause is both pending and enabled (R163). -/
def State.int (s : State) : Bool :=
  allCauses.any (fun c => s.isPending c && s.isEnabled c)

/-- The code INT IDENTITY returns: the highest-ranking cause both pending and enabled, or 0 (R164). -/
def State.identity (s : State) : Nat :=
  match allCauses.find? (fun c => s.isPending c && s.isEnabled c) with
  | some c => causeCode c
  | none => 0

end Sys2Proof.Machine
end

