-- ==== Sys2Proof/Machine/Frame.lean ====
section
/-! DEFINITION. Frames on the line: check sequence, building, validation of answers; records as words; the level of
TXD (chapters 1, 2, 6 and 11). -/

namespace Sys2Proof.Machine

/-! ### Check sequence (R15, R16) -/

/-- The check register after one data bit (R15 step 3). -/
def crcBit (crc : Word) (bit : Bool) : Word :=
  if bit ^^ crc.msb then (crc <<< 1) ^^^ Config.crcPolynomial else crc <<< 1

/-- The check register after one byte, fed most significant bit first (R15 step 2). -/
def crcByte (crc : Word) (x : Byte) : Word :=
  [7, 6, 5, 4, 3, 2, 1, 0].foldl (fun r k => crcBit r (x.getLsbD k)) crc

/-- The check register after the bytes in frame order. -/
def crcBytes (crc : Word) (xs : List Byte) : Word :=
  xs.foldl crcByte crc

/-! ### Master frames (R9, R14, Table 11-1) -/

/-- CTRL of a master frame: unused bits and ALERT 0 (R10). -/
def masterCtrl (kind : RequestKind) : Byte :=
  (0 : BitVec 4) ++ requestKindCode kind

/-- GROUP byte: the high four bits 0 (R12). -/
def groupByte (group : Group) : Byte :=
  (0 : BitVec 4) ++ group

/-- A frame from its fields, with its check sequence, high byte first (R9, R15). -/
def buildFrame (kind : RequestKind) (address : Byte) (group : Group) (count : Nat) (payload : List Byte) : List Byte :=
  let covered := [masterCtrl kind, address, groupByte group, BitVec.ofNat 8 count] ++ payload
  let crc := crcBytes Config.crcLoad covered
  [Config.startByte] ++ covered ++ [hiByte crc, loByte crc]

/-- The frame of a unit, from the line address of its station (Table 1-5). A mark sends none. -/
def workFrame (w : Work) (address : Nat) : List Byte :=
  match w with
  | .visit _ _ group limit => buildFrame .poll (BitVec.ofNat 8 address) group limit []
  | .alert _ => buildFrame .poll (BitVec.ofNat 8 address) Config.alertGroup Config.maxPayload []
  | .directed e =>
    match e.kind with
    | .poll => buildFrame .poll (BitVec.ofNat 8 address) e.group e.count []
    | .set => buildFrame .set (BitVec.ofNat 8 address) e.group e.count e.payload
    | .bcast => buildFrame .bcast Config.broadcastAddress e.group e.count e.payload
  | .mark _ _ => []

/-! ### Answers (R27 to R29) -/

/-- How an answer with a good CRC is judged (R29). -/
inductive Verdict where
  | good (answer : HeldAnswer)
  | deferred (answer : HeldAnswer)
  | failing (outcome : FailingOutcome)
  deriving DecidableEq, Repr

/-- Step 4 of Table 2-4: the answer's kind is allowed for the frame sent. -/
def answerAllowed (sent : RequestKind) (answer : AnswerKind) : Bool :=
  match sent, answer with
  | .poll, .reply => true
  | .poll, .busy => true
  | .poll, .confirm => false
  | .set, .confirm => true
  | .set, .busy => true
  | .set, .reply => false
  | .bcast, _ => false

/-- The kind of the frame a unit sends (Table 1-5). -/
def workKind (w : Work) : RequestKind :=
  match w with
  | .visit _ _ _ _ => .poll
  | .alert _ => .poll
  | .directed e => e.kind
  | .mark _ _ => .poll

/-- The group of the frame a unit sends (Table 1-5). -/
def workGroup (w : Work) : Group :=
  match w with
  | .visit _ _ group _ => group
  | .alert _ => Config.alertGroup
  | .directed e => e.group
  | .mark _ _ => 0

/-- The limit of the POLL a unit sends (Table 1-5); 0 for a unit that sends no POLL. -/
def workLimit (w : Work) : Nat :=
  match w with
  | .visit _ _ _ limit => limit
  | .alert _ => Config.maxPayload
  | .directed e =>
    match e.kind with
    | .poll => e.count
    | .set => 0
    | .bcast => 0
  | .mark _ _ => 0

/-- The five checks of Table 2-4, in order, on an answer whose CRC is good. `ctrl`, `addr` and `group` are the
received bytes; `address` is the ADDR of the frame sent, fixed at unit start. MODEL'S CHOICE (log entry 25): the payload
bytes of a CONFIRM or BUSY, which reach no record (R13 note b), stand in the held answer with the rest (R28). -/
def validate (w : Work) (address ctrl addr group : Byte) (payload : List Byte) : Verdict :=
  match answerKindOfCode (ctrl.extractLsb' 0 4) with
  | none => .failing .mismatch
  | some kind =>
    if addr ≠ address then .failing .mismatch
    else if group.extractLsb' 0 4 ≠ workGroup w then .failing .mismatch
    else if !answerAllowed (workKind w) kind then .failing .mismatch
    else
      let answer : HeldAnswer := { kind := kind, alert := ctrl.getLsbD 4, payload := payload }
      match kind with
      | .reply => if payload.length ≤ workLimit w then .good answer else .failing .overlong
      | .confirm => .good answer
      | .busy => .deferred answer

/-! ### Record words (R104, R167, R168) -/

/-- Payload bytes two to a word, the earlier in the high half; the low half of the last word is 00H when their
number is odd (R104). -/
def payloadWords : List Byte → List Word
  | [] => []
  | [x] => [joinBytes x 0]
  | x :: y :: rest => joinBytes x y :: payloadWords rest

/-- Header word 0 (Table 11-3). -/
def headerWord0 (kind : BitVec 3) (line : Line) (origin : Origin) (group : Group) (station : StationIndex) : Word :=
  kind ++ lineBit line ++ originCode origin ++ group ++ BitVec.ofFin (w := 6) station

/-- The words of a record: three header words, then the payload (Tables 11-3, 11-4). -/
def Record.words : Record → List Word
  | .data line origin station group ref alert payload cycle =>
    [headerWord0 1 line origin group station,
      ref ++ flagBit alert ++ (0 : BitVec 1) ++ BitVec.ofNat 6 payload.length, cycle] ++ payloadWords payload
  | .confirm line station group tag alert broadcast cycle =>
    [headerWord0 2 line .directed group station, tag ++ flagBit alert ++ flagBit broadcast ++ (0 : BitVec 6), cycle]
  | .fault line station group tag cause cycle =>
    [headerWord0 3 line .directed group station,
      tag ++ (0 : BitVec 4) ++ BitVec.ofNat 4 (recordCauseCode cause), cycle]
  | .state line origin station old new cause cycle =>
    [headerWord0 4 line origin 0 station,
      BitVec.ofNat 4 (stationStateCode old) ++ BitVec.ofNat 4 (stationStateCode new) ++ (0 : BitVec 4)
        ++ BitVec.ofNat 4 (recordCauseCode cause), cycle]
  | .mark line visits overrun cycle =>
    [headerWord0 5 line .line 0 0, (0 : Byte) ++ flagBit overrun ++ BitVec.ofNat 7 visits, cycle]

/-- The size of a record in words: 3, and ceil(byte count / 2) more for DATA (R104). -/
def Record.size : Record → Nat
  | .data _ _ _ _ _ _ payload _ => 3 + (payload.length + 1) / 2
  | .confirm _ _ _ _ _ _ _ => 3
  | .fault _ _ _ _ _ _ => 3
  | .state _ _ _ _ _ _ _ => 3
  | .mark _ _ _ _ => 3

/-- The line a record carries (R105). -/
def Record.line : Record → Line
  | .data line _ _ _ _ _ _ _ => line
  | .confirm line _ _ _ _ _ _ => line
  | .fault line _ _ _ _ _ => line
  | .state line _ _ _ _ _ _ => line
  | .mark line _ _ _ => line

/-! ### TXD (R1, R3, R4) -/

/-- The level of TXD, true for mark: the bit of the character the shifter is sending, after one bit time of DE lead
at mark before the first character of a transmission. -/
def Shifter.level (x : Shifter) : Bool :=
  let bits := x.elapsed / x.bitPeriods
  let bit := if x.lead then bits - 1 else bits
  if x.lead && bits == 0 then true
  else if bit == 0 then false
  else if bit ≤ 8 then x.char.getLsbD (bit - 1)
  else true

/-- The bit time of DE lead is still running: the start bit of the first character has not begun (R4). -/
def Shifter.inLead (x : Shifter) : Bool :=
  x.lead && decide (x.elapsed < x.bitPeriods)

/-- The reference periods the echo window of the character lasts: ten bit times, and one more of DE lead for the
first character (R4, R23). -/
def Shifter.windowPeriods (x : Shifter) : Nat :=
  x.bitPeriods * (if x.lead then 11 else 10)

end Sys2Proof.Machine
end

