-- ==== Sys2Proof/Machine/Ops.lean ====
section
/-! DEFINITION. The named operations over the blocks of the state: lines, stations, banks, alert sets, the reply queue
and its reservations, the command slot. -/

namespace Sys2Proof.Machine

/-! ### Access to the two lines and to the station table -/

/-- The other line. -/
def otherLine : Line → Line
  | .a => .b
  | .b => .a

/-- The engine of a line. -/
def State.line (s : State) : Line → LineEngine
  | .a => s.lineA
  | .b => s.lineB

/-- TXD of a line, true for mark (R1, R3). -/
def State.txd (s : State) (l : Line) : Bool :=
  match (s.line l).shifter with
  | some t => t.level
  | none => true

/-- DE of a line, true while asserted (R1, R4). -/
def State.de (s : State) (l : Line) : Bool :=
  (s.line l).shifter.isSome

/-- The state with the engine of one line replaced. -/
def State.setLine (s : State) (l : Line) (x : LineEngine) : State :=
  match l with
  | .a => { s with lineA := x }
  | .b => { s with lineB := x }

/-- The state with the engine of one line changed. -/
def State.modLine (s : State) (l : Line) (f : LineEngine → LineEngine) : State :=
  s.setLine l (f (s.line l))

/-- A station entry (R42). -/
def State.entry (s : State) (i : StationIndex) : Entry :=
  s.stations.get i

/-- The state with one station entry replaced. -/
def State.setEntry (s : State) (i : StationIndex) (e : Entry) : State :=
  { s with stations := s.stations.set i e }

/-- The state with one station entry changed. -/
def State.modEntry (s : State) (i : StationIndex) (f : Entry → Entry) : State :=
  s.setEntry i (f (s.entry i))

/-- The state with the host window changed. -/
def State.modWindow (s : State) (f : Window → Window) : State :=
  { s with window := f s.window }

/-- The part is READY and its reset input is not asserted. -/
def State.live (s : State) : Bool :=
  !s.window.resetInput && decide (s.window.readiness = .ready)

/-! ### Stations (chapter 3) -/

/-- The working states (R43). -/
def isWorking : StationState → Bool
  | .unconfigured => false
  | .disabled => false
  | .unknown => true
  | .online => true
  | .suspect => true
  | .offline => true

/-- The station-validity test of a unit of line `l` (R56). -/
def State.stationValid (s : State) (l : Line) (i : StationIndex) : Bool :=
  isWorking (s.entry i).state && decide ((s.entry i).line = l)

/-- A count one higher, saturating (R60). -/
def countUp (n : Nat) : Nat :=
  min (n + 1) Config.countLimit

/-! ### Alert sets (chapter 5): station indexes in ascending order -/

/-- The set with a station inserted; a member stays a member once (R93). -/
def alertInsert (i : StationIndex) : List StationIndex → List StationIndex
  | [] => [i]
  | j :: rest => if i < j then i :: j :: rest else if i = j then j :: rest else j :: alertInsert i rest

/-- The set without a station (R94). -/
def alertRemove (i : StationIndex) (xs : List StationIndex) : List StationIndex :=
  xs.filter (fun j => j ≠ i)

/-- The member that comes first after the cursor, counting upward and wrapping (R95). -/
def alertNext (cursor : StationIndex) (xs : List StationIndex) : Option StationIndex :=
  match xs.find? (fun j => cursor < j) with
  | some j => some j
  | none => xs.head?

/-- A station leaves the alert set of a line (R94). -/
def State.leaveAlertSet (s : State) (l : Line) (i : StationIndex) : State :=
  s.modLine l (fun x => { x with alertSet := alertRemove i x.alertSet })

/-- A disable takes effect: DISABLED, consecutive failures 0, the disable-pending mark clear, the station out of its
line's alert set (R50, R51). -/
def State.disableNow (s : State) (i : StationIndex) : State :=
  (s.modEntry i (fun e => { e with state := .disabled, consecutive := 0, disablePending := false })).leaveAlertSet
    (s.entry i).line i

/-! ### Banks (chapter 4) -/

/-- The other bank. -/
def otherBank : BankNumber → BankNumber
  | .zero => .one
  | .one => .zero

/-- A bank of a line by its number (R63). -/
def LineEngine.bank (x : LineEngine) : BankNumber → Bank
  | .zero => x.bankZero
  | .one => x.bankOne

/-- The line with a bank replaced. -/
def LineEngine.setBank (x : LineEngine) (n : BankNumber) (b : Bank) : LineEngine :=
  match n with
  | .zero => { x with bankZero := b }
  | .one => { x with bankOne := b }

/-- The bank the line engine reads (R63). -/
def LineEngine.activeBank (x : LineEngine) : Bank :=
  x.bank x.active

/-- The bank the host may write (R63). -/
def LineEngine.shadowBank (x : LineEngine) : Bank :=
  x.bank (otherBank x.active)

/-- The length of the active list. -/
def LineEngine.listLength (x : LineEngine) : Nat :=
  x.activeBank.length.toNat

/-- A slot of a bank; only slots 0 to 95 exist (R63). -/
def Bank.slot (b : Bank) (k : Nat) : Slot :=
  (b.slots[k]?).getD Slot.reset

/-- The banks exchange roles and swap-pending is cleared; nothing else changes (R68, R69, R172). -/
def LineEngine.swapBanks (x : LineEngine) : LineEngine :=
  { x with active := otherBank x.active, swapPending := false }

/-- A pending swap takes effect, if there is one (R69). -/
def State.applyPendingSwap (s : State) (l : Line) : State :=
  s.modLine l (fun x => if x.swapPending then x.swapBanks else x)

/-- A slot passes the validation of LIST SWAP (R67 step 2). -/
def Slot.acceptable (t : Slot) : Bool :=
  decide (t.limit.toNat ≤ Config.maxPayload) && decide (1 ≤ t.divisor.toNat ∧ t.divisor.toNat ≤ 16)

/-- The first of the slots 0 to length - 1 that fails validation (R67 step 2). -/
def Bank.firstBadSlot (b : Bank) : Option Nat :=
  (List.range b.length.toNat).find? (fun k => !(b.slot k).acceptable)

/-! ### Reply queue (chapter 6) -/

/-- Words used: the sum of the sizes of the records held (R103). -/
def wordsOf (records : List Record) : Nat :=
  (records.map Record.size).sum

/-- Words used (R103). -/
def State.wordsUsed (s : State) : Nat :=
  wordsOf s.queue.records

/-- The words of a line's reservation, 0 when it holds none. -/
def LineEngine.reservedWords (x : LineEngine) : Nat :=
  x.reservation.getD 0

/-- Words reserved: the sum of the reservations held by the two lines (R103). -/
def State.wordsReserved (s : State) : Nat :=
  s.lineA.reservedWords + s.lineB.reservedWords

/-- The record count (R103). -/
def State.recordCount (s : State) : Nat :=
  s.queue.records.length

/-- The head size: the size of the head record, or 0 when the queue is empty (R103). -/
def State.headSize (s : State) : Nat :=
  match s.queue.records with
  | [] => 0
  | r :: _ => r.size

/-- DREQ is asserted while the drain mode is DMA and the record count is above 0 (R139). -/
def State.dreq (s : State) : Bool :=
  decide (s.queue.drainMode = .dma) && !s.queue.records.isEmpty

/-- The line stands in the hold list (R111). -/
def State.isHeld (s : State) (l : Line) : Bool :=
  s.queue.holdList.any (fun h => decide (h.line = l))

/-- The word of the head record at the read cursor, absent when the queue is empty or the record is read out (R116). -/
def State.cursorWord (s : State) : Option Word :=
  match s.queue.records with
  | [] => none
  | r :: _ => r.words[s.queue.cursor]?

/-- The causes a record raises as it is enqueued (R106 step 5, Table 10-1 note a). -/
def recordCauses : Record → List Cause
  | .data line .directed _ _ _ _ _ _ => [.directedDone line]
  | .data _ _ _ _ _ _ _ _ => []
  | .confirm line _ _ _ _ _ _ => [.directedDone line]
  | .fault line _ _ _ _ _ => [.directedDone line]
  | .state line _ _ _ _ _ _ => [.stationState line]
  | .mark _ _ _ _ => []

/-- A record joins the tail of the queue. -/
def ReplyQueue.push (q : ReplyQueue) (r : Record) : ReplyQueue :=
  { q with records := q.records ++ [r], cursor := if q.records.isEmpty then 0 else q.cursor }

/-- A line writes a record from its reservation (R106). The threshold level and DREQ follow the records. -/
def State.writeRecord (s : State) (l : Line) (r : Record) : State :=
  let s1 := s.modLine l (fun x => { x with reservation := x.reservation.map (fun n => n - r.size) })
  let s2 : State := { s1 with queue := s1.queue.push r }
  (recordCauses r).foldl State.raise s2

/-- A line writes its record, if there is one. -/
def State.writeRecord? (s : State) (l : Line) (r : Option Record) : State :=
  match r with
  | some r => s.writeRecord l r
  | none => s

/-- The head record leaves the queue and the read cursor becomes 0 (R117 steps 1 to 4). -/
def State.dropHead (s : State) : State :=
  { s with queue := { s.queue with records := s.queue.records.tail, cursor := 0 } }

/-- The reservation of a line is returned (R110). -/
def State.dropReservation (s : State) (l : Line) : State :=
  s.modLine l (fun x => { x with reservation := none })

/-- A line joins the tail of the hold list, and QUEUE HELD is raised (R111). -/
def State.joinHoldList (s : State) (l : Line) (request : Nat) : State :=
  let s1 : State := { s with queue := { s.queue with holdList := s.queue.holdList ++ [⟨l, request⟩] } }
  s1.raise .queueHeld

/-- A line leaves the hold list (R112, R113). -/
def State.leaveHoldList (s : State) (l : Line) : State :=
  { s with queue := { s.queue with holdList := s.queue.holdList.filter (fun h => decide (h.line ≠ l)) } }

/-! ### Units (R18, R75, R89, R96, R108) -/

/-- The station a unit targets; a BCAST and a mark target none (Table 2-2). -/
def workStation : Work → Option StationIndex
  | .visit _ i _ _ => some i
  | .alert i => some i
  | .directed e =>
    match e.kind with
    | .poll => some e.station
    | .set => some e.station
    | .bcast => none
  | .mark _ _ => none

/-- The origin of a unit's records (Table 2-2). -/
def workOrigin : Work → Origin
  | .visit _ _ _ _ => .schedule
  | .alert _ => .alert
  | .directed _ => .directed
  | .mark _ _ => .line

/-- The ref of a unit's records: slot index, FFH, or tag (R105 note b). -/
def workRef : Work → Byte
  | .visit k _ _ _ => BitVec.ofNat 8 k
  | .alert _ => 0xFF
  | .directed e => e.tag
  | .mark _ _ => 0

/-- The words a unit's reservation asks for (Table 6-3). -/
def workRequest : Work → Nat
  | .visit _ _ _ limit => 6 + (limit + 1) / 2
  | .alert _ => 6 + (Config.maxPayload + 1) / 2
  | .directed e =>
    match e.kind with
    | .poll => 6 + (e.count + 1) / 2
    | .set => 6
    | .bcast => 3
  | .mark _ _ => 3

/-- The attempt budget, from the kind and the state read at start (Table 2-1); 0 stands for none (notes a, b). -/
def workBudget (w : Work) (e : Entry) : Nat :=
  match w with
  | .visit _ _ _ _ => if e.state = .offline then 1 else 1 + e.retryLimit
  | .alert _ => 1 + e.retryLimit
  | .directed d =>
    match d.kind with
    | .poll => if e.state = .offline then 1 else 1 + e.retryLimit
    | .set => if e.state = .offline then 1 else 1 + e.retryLimit
    | .bcast => 0
  | .mark _ _ => 0

/-- A unit is a directed one. -/
def isDirected : Work → Bool
  | .visit _ _ _ _ => false
  | .alert _ => false
  | .directed _ => true
  | .mark _ _ => false

/-- The engine of a line is free: RUNNING, no unit in progress and no pending unit (R97). -/
def LineEngine.free (x : LineEngine) : Bool :=
  decide (x.runState = .running) && x.current.isNone && x.chosen.isNone

/-- The next priority unit: the head of the directed queue, otherwise the next alert-set member (R97). -/
def LineEngine.priorityWork (x : LineEngine) : Option Work :=
  match x.directed with
  | e :: _ => some (.directed e)
  | [] => (alertNext x.alertCursor x.alertSet).map Work.alert

/-- The interval has elapsed: the timer has reached the larger of INTERVAL and 1 CT (R80). -/
def LineEngine.intervalReached (x : LineEngine) : Bool :=
  decide (max x.params.interval 1 * x.params.ct ≤ x.interval)

/-- The overrun flag of the cycle that ends: INTERVAL is not 0 and the cycle was longer (R80). -/
def LineEngine.overrun (x : LineEngine) : Bool :=
  decide (x.params.interval ≠ 0) && decide (x.params.interval * x.params.ct < x.interval)

/-! ### Command slot (R153, R154) -/

/-- RESULT and RESULT DETAIL take the decision of a command (R153). -/
def State.reply (s : State) (r : Result) (detail : Nat) : State :=
  s.modWindow (fun w => { w with result := r, resultDetail := BitVec.ofNat 16 detail })

/-- A word is driven onto the data lines. -/
def State.drive (s : State) (w : Word) : State :=
  s.modWindow (fun x => { x with dataLines := w })

/-- A write of COMMAND with the code `code`, whose decision once the part is READY is `decide` (R153). While the
reset input is asserted the write has no effect (R156); during INIT the command is refused NOTREADY (R157). -/
def State.issue (s : State) (code : Word) (decision : State → State) : State :=
  if s.window.resetInput then s
  else
    let s1 := s.modWindow (fun w => { w with command := code })
    match s.window.readiness with
    | .init _ => s1.reply .notReady 0
    | .ready => decision s1

/-- The effect of an event of the part, which acts neither during INIT nor under the reset input (R156, R166). -/
def State.whenLive (s : State) (effect : State → State) : State :=
  if s.live then effect s else s

/-- Every block takes its reset value and INIT begins (R158, Table 9-5); the commands not yet taken stay. -/
def State.resetEffects (s : State) : State :=
  { State.reset with raceCount := s.raceCount, pending := s.pending }

end Sys2Proof.Machine
end

