-- ==== Sys2Proof/Machine/Engine.lean ====
section
/-! DEFINITION. What the line engines do by themselves: unit start, cycle, work selection, serving of the hold list,
unit completion, entry into STOPPED and FAULTED (chapters 2 to 7). -/

namespace Sys2Proof.Machine

/-! ### Cycle boundary and cycle start (R72, R77 to R79) -/

/-- Steps 2 to 4 of the cycle boundary: CYCLE END, a pending swap, then IDLE-EMPTY or WAITING (R79). -/
def State.finishBoundary (s : State) (l : Line) : State :=
  ((s.raise (.cycleEnd l)).applyPendingSwap l).modLine l
    (fun x => { x with condition := if x.listLength = 0 then .idleEmpty else .waiting })

/-- A cycle starts (R72). -/
def LineEngine.startCycle (x : LineEngine) : LineEngine :=
  { x with cycleNumber := x.cycleNumber + 1, cursor := 0, interval := 0, burst := 0, visitCount := 0,
           condition := .inCycle }

/-! ### Unit start (R19, R78, R89, R96) -/

/-- The unit context a unit starts with (Table 2-2), from its station's entry as it stands. -/
def newContext (w : Work) (e : Entry) : UnitContext :=
  { work := w, frame := workFrame w e.address, budget := workBudget w e, used := 0, lastFailing := none, held := none }

/-- The unit starts and enters GUARD with the quiet count and the noise limit at 0 (R19, R21). -/
def LineEngine.begin (x : LineEngine) (c : UnitContext) : LineEngine :=
  { x with current := some c, phase := .guard 0 0 }

/-- A unit whose station is valid starts: the in-service mark is set, the frame is fixed, GUARD is entered; a schedule
visit raises the visit count (R72), a follow-up takes its station out of the alert set and moves the cursor (R96). -/
def State.beginTargeted (s : State) (l : Line) (w : Work) (i : StationIndex) : State :=
  let s1 := s.modEntry i (fun e => { e with inService := true })
  s1.modLine l (fun x =>
    let x1 := x.begin (newContext w (s.entry i))
    match w with
    | .visit _ _ _ _ => { x1 with visitCount := x1.visitCount + 1 }
    | .alert _ => { x1 with alertSet := alertRemove i x1.alertSet, alertCursor := i }
    | .directed _ => x1
    | .mark _ _ => x1)

/-- A directed POLL or SET whose station is invalid completes at once as FAULT STATION: the record, the entry out of
the queue, the rest of the reservation returned (R89, R110). -/
def State.faultStation (s : State) (l : Line) (e : DirectedEntry) : State :=
  let r := Record.fault l e.station e.group e.tag .station (s.line l).cycleNumber
  ((s.writeRecord l r).modLine l (fun x => { x with directed := x.directed.tail })).dropReservation l

/-- A unit starts, its reservation granted (R19). A unit skipped at its start, a FAULT STATION and a mark complete at
once and return their reservation; whoever granted it serves the hold list afterwards (R112). -/
def State.startWork (s : State) (l : Line) (w : Work) : State :=
  match w with
  | .visit _ i _ _ => if s.stationValid l i then s.beginTargeted l w i else s.dropReservation l
  | .alert i => if s.stationValid l i then s.beginTargeted l w i else s.dropReservation l
  | .directed e =>
    match e.kind with
    | .poll => if s.stationValid l e.station then s.beginTargeted l w e.station else s.faultStation l e
    | .set => if s.stationValid l e.station then s.beginTargeted l w e.station else s.faultStation l e
    | .bcast => s.modLine l (fun x => x.begin (newContext w Entry.reset))
  | .mark visits overrun =>
    ((s.writeRecord l (.mark l visits overrun (s.line l).cycleNumber)).dropReservation l).finishBoundary l

/-- The line has no pending unit. -/
def LineEngine.clearChosen (x : LineEngine) : LineEngine :=
  { x with chosen := none }

/-- The unit chosen by a line starts, its reservation granted (R19). -/
def State.startUnit (s : State) (l : Line) : State :=
  match (s.line l).chosen with
  | none => s
  | some w => (s.modLine l LineEngine.clearChosen).startWork l w

/-! ### Reservations and the hold list (R109, R111, R112) -/

/-- A reservation request of `n` words would be granted: the hold list is empty and the words fit (R109). -/
def State.grantable (s : State) (n : Nat) : Bool :=
  s.queue.holdList.isEmpty && decide (s.wordsUsed + s.wordsReserved + n ≤ Config.storeWords)

/-- A line holds a reservation of `n` words and its unit starts (R109, R112 step 3). -/
def State.grant (s : State) (l : Line) (n : Nat) : State :=
  (s.modLine l (fun x => { x with reservation := some n })).startUnit l

/-- A line takes up a unit and requests its reservation: the unit starts, or the line becomes HELD with it (R109, R111). -/
def State.requestUnit (s : State) (l : Line) (w : Work) : State :=
  let s1 := s.modLine l (fun x => { x with chosen := some w })
  if s.grantable (workRequest w) then s1.grant l (workRequest w) else s1.joinHoldList l (workRequest w)

/-! ### The walk and the arbiter (R73, R74, R97 to R99) -/

/-- A slot is due in the line's cycle: divisor, validity and probe tests (R74). -/
def State.slotDue (s : State) (l : Line) (k : Nat) : Bool :=
  let x := s.line l
  let t := x.activeBank.slot k
  let c := x.cycleNumber.toNat
  decide (c % t.divisor.toNat = 0) && s.stationValid l t.station &&
    (decide ((s.entry t.station).state ≠ .offline) || decide ((c + t.station.val) % x.params.probe = 0))

/-- The first due slot among the `n` slots from `k` on, or the slot after them (R73). -/
def State.walkFrom (s : State) (l : Line) : Nat → Nat → Nat
  | 0, k => k
  | n + 1, k => if s.slotDue l k then k else s.walkFrom l n (k + 1)

/-- Where the walk of the cursor stops: a due slot, or the list length (R73). -/
def State.walk (s : State) (l : Line) : Nat :=
  s.walkFrom l ((s.line l).listLength - (s.line l).cursor) (s.line l).cursor

/-- The cycle boundary: a mark is taken up if MARK is on, otherwise step 1 is passed (R77, R78, R79). -/
def State.boundary (s : State) (l : Line) : State :=
  let x := s.line l
  if x.params.mark then s.requestUnit l (.mark x.visitCount x.overrun) else s.finishBoundary l

/-- The slot under the cursor as a schedule visit (R75). -/
def LineEngine.slotVisit (x : LineEngine) (k : Nat) : Work :=
  let t := x.activeBank.slot k
  .visit k t.station t.group t.limit.toNat

/-- The choice within a cycle, with a due slot under the cursor: priority work within the BURST limit, otherwise the
slot, past which the cursor moves (R73, R98). -/
def State.chooseInCycle (s : State) (l : Line) : State :=
  let x := s.line l
  match x.priorityWork with
  | some w =>
    if x.burst < x.params.burst then (s.modLine l (fun y => { y with burst := y.burst + 1 })).requestUnit l w
    else (s.modLine l (fun y => { y with burst := 0, cursor := y.cursor + 1 })).requestUnit l (x.slotVisit x.cursor)
  | none => (s.modLine l (fun y => { y with burst := 0, cursor := y.cursor + 1 })).requestUnit l (x.slotVisit x.cursor)

/-- The choice while WAITING or IDLE-EMPTY: priority work without limit (R99). -/
def State.chooseOutside (s : State) (l : Line) : State :=
  match (s.line l).priorityWork with
  | some w => s.requestUnit l w
  | none => s

/-- A cycle may start outside a cycle: the interval has elapsed on a WAITING line (R81), or a swap has given an
IDLE-EMPTY line a list (R70). -/
def LineEngine.cycleDue (x : LineEngine) : Bool :=
  match x.condition with
  | .none => false
  | .inCycle => false
  | .waiting => x.intervalReached
  | .idleEmpty => decide (x.listLength ≠ 0)

/-- One invocation of the arbiter of a line (R97). -/
def State.invokeArbiter (s : State) (l : Line) : State :=
  let x := s.line l
  if !x.free then s
  else
    match x.condition with
    | .none => s
    | .inCycle =>
      let s1 := s.modLine l (fun y => { y with cursor := s.walk l })
      if x.listLength ≤ s.walk l then s1.boundary l else s1.chooseInCycle l
    | .waiting => if x.cycleDue then s.modLine l LineEngine.startCycle else s.chooseOutside l
    | .idleEmpty => if x.cycleDue then s.modLine l LineEngine.startCycle else s.chooseOutside l

/-- The arbiter of a line has something to do: a cycle to walk, a cycle to start, or priority work (R97, R100). -/
def LineEngine.arbiterDue (x : LineEngine) : Bool :=
  x.free &&
    match x.condition with
    | .none => false
    | .inCycle => true
    | .waiting => x.cycleDue || x.priorityWork.isSome
    | .idleEmpty => x.cycleDue || x.priorityWork.isSome

/-- The counter of free orders moves on (log entry 6). -/
def State.nextRace (s : State) : State :=
  { s with raceCount := s.raceCount + 1 }

/-- The arbiter of one line is invoked until it has nothing to do. -/
def State.settleLine (l : Line) : Nat → State → State
  | 0, s => s
  | n + 1, s => if (s.line l).arbiterDue then State.settleLine l n (s.invokeArbiter l) else s

/-- Whose arbiter is invoked next: the line whose arbiter is due, and in a free order when both are (log entry 6). -/
def State.nextArbiter (s : State) : Option Line :=
  match s.lineA.arbiterDue, s.lineB.arbiterDue with
  | true, true => some (if Config.raceFirst s.raceCount then .a else .b)
  | true, false => some .a
  | false, true => some .b
  | false, false => none

/-- The arbiters of both lines are invoked until they have nothing to do (R97, R100). -/
def State.settleArbiters : Nat → State → State
  | 0, s => s
  | n + 1, s =>
    match s.nextArbiter with
    | none => s
    | some l => State.settleArbiters n ((if s.lineA.arbiterDue && s.lineB.arbiterDue then s.nextRace else s).invokeArbiter l)

/-- After a grant: when the granted unit completed at once and another line waits, the granted line's next request may
be taken before serving goes on; the manual leaves the order open (R171, log entry 6). -/
def State.afterGrant (s : State) (l : Line) : State :=
  if (s.line l).arbiterDue && !s.queue.holdList.isEmpty then
    let s1 := s.nextRace
    if Config.raceFirst s.raceCount then State.settleLine l Config.stepFuel s1 else s1
  else s

/-- Serving of the hold list: the head is granted while its request fits, and its unit starts (R112). -/
def State.serveHoldList : Nat → State → State
  | 0, s => s
  | n + 1, s =>
    match s.queue.holdList with
    | [] => s
    | h :: rest =>
      if s.wordsUsed + s.wordsReserved + h.request ≤ Config.storeWords then
        let s1 : State := { s with queue := { s.queue with holdList := rest } }
        State.serveHoldList n ((s1.grant h.line h.request).afterGrant h.line)
      else s

/-- Words were freed, or the head of the hold list left it: the hold list is served (R112). -/
def State.serve (s : State) : State :=
  State.serveHoldList Config.stepFuel s

/-- The end of a step that may have freed an engine or added work: the arbiters take their turn at once (R97, R100,
log entry 4). -/
def State.finish (s : State) : State :=
  State.settleArbiters Config.stepFuel s

/-- The head record is released (R117). -/
def State.releaseHead (s : State) : State :=
  s.dropHead.serve

/-! ### Unit completion (R37, R38, R57, R58, R90) -/

/-- How a unit in progress ends: with a visit outcome (R37), at the end of a BCAST's settle time (R36), or cut short
by a command or by a line fault (R40). -/
inductive UnitEnd where
  | good (answer : HeldAnswer)
  | deferred (answer : HeldAnswer)
  | failed (outcome : FailingOutcome)
  | settled
  | aborted
  | lineFault
  deriving DecidableEq, Repr

/-- The FAULT record of a directed unit; none for any other (R90). -/
def faultRecord (l : Line) (cycle : Word) (w : Work) (cause : RecordCause) : Option Record :=
  match w with
  | .visit _ _ _ _ => none
  | .alert _ => none
  | .directed e => some (.fault l e.station e.group e.tag cause cycle)
  | .mark _ _ => none

/-- The unit's own record, if it writes one (R38 step 1, Tables 5-3 and 6-2). -/
def ownRecord (l : Line) (cycle : Word) (w : Work) (e : UnitEnd) : Option Record :=
  match e with
  | .good answer =>
    match w with
    | .visit _ i g _ => some (.data l .schedule i g (workRef w) answer.alert answer.payload cycle)
    | .alert i => some (.data l .alert i Config.alertGroup (workRef w) answer.alert answer.payload cycle)
    | .directed d =>
      match d.kind with
      | .poll => some (.data l .directed d.station d.group d.tag answer.alert answer.payload cycle)
      | .set => some (.confirm l d.station d.group d.tag answer.alert false cycle)
      | .bcast => none
    | .mark _ _ => none
  | .deferred _ => faultRecord l cycle w .busy
  | .failed outcome => faultRecord l cycle w (failingCause outcome)
  | .settled =>
    match w with
    | .visit _ _ _ _ => none
    | .alert _ => none
    | .directed d => some (.confirm l 0 d.group d.tag false true cycle)
    | .mark _ _ => none
  | .aborted => faultRecord l cycle w .aborted
  | .lineFault => faultRecord l cycle w .line

/-- A change of a station's state by a visit outcome writes a STATE record from the line's reservation (R61). -/
def State.recordChange (s : State) (l : Line) (w : Work) (i : StationIndex) (old new : StationState)
    (cause : RecordCause) : State :=
  s.writeRecord l (.state l (workOrigin w) i old new cause (s.line l).cycleNumber)

/-- The entry after a visit outcome of GOOD or DEFERRED (R57 steps 1 to 3). -/
def Entry.answer (e : Entry) : Entry :=
  { e with answered := countUp e.answered, consecutive := 0, state := .online }

/-- A visit outcome of GOOD or DEFERRED acts on the station (R57). The rule reaches entries in working states alone
(log entry 22). -/
def State.outcomeAnswered (s : State) (l : Line) (w : Work) (i : StationIndex) (cause : RecordCause)
    (answer : HeldAnswer) : State :=
  let e := s.entry i
  if !isWorking e.state then s
  else
    let s1 := s.modEntry i Entry.answer
    let s2 := if e.state = .online then s1 else s1.recordChange l w i e.state .online cause
    if answer.alert && e.alertFollowUp then s2.modLine l (fun x => { x with alertSet := alertInsert i x.alertSet })
    else s2

/-- A visit outcome of FAILED acts on the station (R58). The rule reaches entries in working states alone
(log entry 22). -/
def State.outcomeFailed (s : State) (l : Line) (w : Work) (i : StationIndex) (outcome : FailingOutcome) : State :=
  let e := s.entry i
  if !isWorking e.state || decide (e.state = .offline) then s
  else if e.consecutive + 1 = e.failThreshold then
    let s1 := s.modEntry i (fun y => { y with consecutive := y.consecutive + 1, state := .offline })
    (s1.recordChange l w i e.state .offline (failingCause outcome)).leaveAlertSet l i
  else if e.state = .online then
    let s1 := s.modEntry i (fun y => { y with consecutive := y.consecutive + 1, state := .suspect })
    s1.recordChange l w i .online .suspect (failingCause outcome)
  else s.modEntry i (fun y => { y with consecutive := y.consecutive + 1 })

/-- The visit outcome acts on the station of the unit, if it has one (R38 step 2, R57 to R59). -/
def State.applyOutcome (s : State) (l : Line) (w : Work) (e : UnitEnd) : State :=
  match workStation w with
  | none => s
  | some i =>
    match e with
    | .good answer => s.outcomeAnswered l w i .good answer
    | .deferred answer => s.outcomeAnswered l w i .deferred answer
    | .failed outcome => s.outcomeFailed l w i outcome
    | .settled => s
    | .aborted => s
    | .lineFault => s

/-- The in-service mark is cleared, and a deferred disable takes effect (R38 step 3, R51). -/
def State.leaveService (s : State) (w : Work) : State :=
  match workStation w with
  | none => s
  | some i =>
    let s1 := s.modEntry i (fun e => { e with inService := false })
    if (s.entry i).disablePending then s1.disableNow i else s1

/-- A directed unit's entry leaves the head of the queue (R38 step 4). -/
def State.leaveDirected (s : State) (l : Line) (w : Work) : State :=
  if isDirected w then s.modLine l (fun x => { x with directed := x.directed.tail }) else s

/-- The unused part of the reservation is returned, which serves the hold list when it frees words (R38 step 5, R110). -/
def State.returnReservation (s : State) (l : Line) : State :=
  if 0 < (s.line l).reservedWords then (s.dropReservation l).serve else s.dropReservation l

/-- A unit in progress completes (R38, R40). Records of the other line come between its own record and its STATE record
where both lines act in one step: `State.recordsApart` (R107, log entry 24). -/
def State.completeUnit (s : State) (l : Line) (e : UnitEnd) : State :=
  match (s.line l).current with
  | none => s
  | some c =>
    let s1 := s.writeRecord? l (ownRecord l (s.line l).cycleNumber c.work e)
    let s2 := s1.applyOutcome l c.work e
    let s3 := s2.leaveService c.work
    let s4 := s3.leaveDirected l c.work
    let s5 := s4.returnReservation l
    s5.modLine l (fun x => { x with current := none, phase := .idle .none })

/-! ### Entering STOPPED and FAULTED (R113, R133, R136) -/

/-- A line enters STOPPED: run state, cycle condition, pending swap, then LINE STOPPED (R136 steps 2 to 4). -/
def State.enterStopped (s : State) (l : Line) : State :=
  ((s.modLine l (fun x => { x with runState := .stopped, condition := .none })).applyPendingSwap l).raise (.lineStopped l)

/-- The line is the head of the hold list. -/
def State.headsHoldList (s : State) (l : Line) : Bool :=
  match s.queue.holdList with
  | [] => false
  | h :: _ => decide (h.line = l)

/-- The pending unit of a HELD line is discarded: its hold-list entry is removed, and the hold list is served if it
was the head (R113). -/
def State.discardPending (s : State) (l : Line) : State :=
  let s1 := ((s.leaveHoldList l).dropReservation l).modLine l LineEngine.clearChosen
  if s.headsHoldList l then s1.serve else s1

/-- A transmission ended by LINE HALT or LINE RESET ends with the character in the shifter (R3). In the bit time of DE
lead no character has begun, and DE falls at once: it falls within one CT of the command (R131, log entry 23). -/
def LineEngine.endLead (x : LineEngine) : LineEngine :=
  { x with shifter := x.shifter.filter (fun t => !t.inLead) }

/-- The unit in progress is cut short, or the pending unit discarded (R131 steps 1 and 2, R132 step 1). -/
def State.cutShort (s : State) (l : Line) : State :=
  if (s.line l).current.isSome then (s.modLine l LineEngine.endLead).completeUnit l .aborted
  else if (s.line l).chosen.isSome then s.discardPending l
  else s

/-- A line fault: the unit is ABANDONED, the line becomes FAULTED, a pending swap takes effect, LINE FAULT (R133). -/
def State.faultLine (s : State) (l : Line) (cause : FaultCause) : State :=
  let s1 := s.completeUnit l .lineFault
  let s2 := s1.modLine l (fun x => { x with faultCause := cause, runState := .faulted, condition := .none })
  (s2.applyPendingSwap l).raise (.lineFault l)

/-- After a unit has completed: a STOPPING line enters STOPPED instead of invoking the arbiter (R38, R130). -/
def State.afterCompletion (s : State) (l : Line) : State :=
  if (s.line l).runState = .stopping then s.enterStopped l else s

/-- A unit in progress completes of itself, and the line goes on (R38). -/
def State.endUnit (s : State) (l : Line) (e : UnitEnd) : State :=
  ((s.completeUnit l e).afterCompletion l).finish

end Sys2Proof.Machine
end

