-- ==== Sys2Proof/Machine/Exchange.lean ====
section
/-! DEFINITION. The exchange phases: attempts and their outcomes, echo check, contention, answers, and the meanings of
the receiver's, transmitter's and timers' events (chapters 1 and 2). -/

namespace Sys2Proof.Machine

/-! ### Attempts (R31 to R33) -/

/-- The engine goes into GUARD for the next attempt, the quiet count and the noise limit at 0 (R20, R21). -/
def State.nextAttempt (s : State) (l : Line) : State :=
  s.modLine l (fun x => { x with phase := .guard 0 0 })

/-- The unit context after a failing attempt (R31). -/
def UnitContext.fail (c : UnitContext) (outcome : FailingOutcome) : UnitContext :=
  { c with used := c.used + 1, lastFailing := some outcome, held := none }

/-- The unit context after a GOOD or DEFERRED attempt, which holds its answer (R31). -/
def UnitContext.answered (c : UnitContext) (answer : HeldAnswer) : UnitContext :=
  { c with used := c.used + 1, held := some answer }

/-- The failed-attempt count of the unit's station rises, at the attempt's end (R31, R60). -/
def State.chargeAttempt (s : State) (w : Work) : State :=
  match workStation w with
  | none => s
  | some i => s.modEntry i (fun e => { e with failedAttempts := countUp e.failedAttempts })

/-- An attempt ends TIMEOUT, CORRUPT, MISMATCH or OVERLONG: the next attempt, or the unit completes FAILED (R31 to R33). -/
def State.attemptFails (s : State) (l : Line) (outcome : FailingOutcome) : State :=
  match (s.line l).current with
  | none => s
  | some c =>
    let s1 := (s.modLine l (fun x => { x with current := some (c.fail outcome) })).chargeAttempt c.work
    if c.used + 1 < c.budget then s1.nextAttempt l else s1.endUnit l (.failed outcome)

/-- An attempt ends GOOD: the unit completes (R32, R33). -/
def State.attemptGood (s : State) (l : Line) (answer : HeldAnswer) : State :=
  match (s.line l).current with
  | none => s
  | some c => (s.modLine l (fun x => { x with current := some (c.answered answer) })).endUnit l (.good answer)

/-- An attempt ends DEFERRED: a directed unit tries again within its budget, any other unit completes (R32, R33). -/
def State.attemptDeferred (s : State) (l : Line) (answer : HeldAnswer) : State :=
  match (s.line l).current with
  | none => s
  | some c =>
    let s1 := s.modLine l (fun x => { x with current := some (c.answered answer) })
    if isDirected c.work && decide (c.used + 1 < c.budget) then s1.nextAttempt l else s1.endUnit l (.deferred answer)

/-- An attempt ends as its answer was judged (R29). -/
def State.attemptJudged (s : State) (l : Line) (v : Verdict) : State :=
  match v with
  | .good answer => s.attemptGood l answer
  | .deferred answer => s.attemptDeferred l answer
  | .failing outcome => s.attemptFails l outcome

/-! ### Send, echo check and contention (R23 to R25, R34, R35) -/

/-- A character of the frame of the unit in progress. -/
def LineEngine.frameChar (x : LineEngine) (k : Nat) : Byte :=
  match x.current with
  | none => 0
  | some c => c.frame.getD k 0

/-- The length of the frame of the unit in progress. -/
def LineEngine.frameLength (x : LineEngine) : Nat :=
  match x.current with
  | none => 0
  | some c => c.frame.length

/-- The transmitter takes a character of the frame into its shifter, at the line's present rate (R3, R8). -/
def LineEngine.shift (x : LineEngine) (k : Nat) (lead : Bool) : Shifter :=
  { char := x.frameChar k, lead := lead, elapsed := 0, bitPeriods := x.params.bitPeriods }

/-- The transmission begins with the first character of the frame and its bit time of DE lead (R4, R23). -/
def LineEngine.beginTransmission (x : LineEngine) : LineEngine :=
  { x with phase := .send 0 false, shifter := some (x.shift 0 true) }

/-- GUARD ends and SEND is entered (R21, R23). A transmitter that still finishes the character of an earlier transmission
begins the new one when that character has ended (R3, R8, log entry 11). -/
def LineEngine.enterSend (x : LineEngine) : LineEngine :=
  if x.shifter.isSome then { x with phase := .sendWaiting } else x.beginTransmission

/-- The echo of a character is good: its framing is good, its value is that sent in the window, and it is the first
of the window (R24). -/
def LineEngine.echoMatches (x : LineEngine) (window : Nat) (echoed : Bool) (value : Byte) (framing : Framing) : Bool :=
  decide (framing = .good) && decide (value = x.frameChar window) && !echoed

/-- The attempt ends CONTENTION at a CHARACTER event: the count rises, and the character in the shifter is finished
before the backoff starts or the line faults (R24, R34, R35, log entry 7). -/
def LineEngine.contentionInWindow (x : LineEngine) : LineEngine :=
  { x with contention := x.contention + 1, phase := .idle .fallOfDe }

/-- DE has fallen after a transmission cut short by CONTENTION: the fourth in a row faults the line, otherwise the
backoff starts (R34, R35). -/
def State.afterContention (s : State) (l : Line) : State :=
  if Config.contentionLimit ≤ (s.line l).contention then (s.faultLine l .contention).finish
  else s.modLine l (fun x => { x with phase := .idle (.backoff 0) })

/-- The next echo window opens with the next character (R23). -/
def LineEngine.nextWindow (x : LineEngine) (window : Nat) : LineEngine :=
  { x with phase := .send (window + 1) false, shifter := some (x.shift (window + 1) false) }

/-- The phase that follows a clean SEND: AWAIT with the response timer, or the settle time of a BCAST (R25). -/
def LineEngine.afterSend (x : LineEngine) : Phase :=
  match x.current with
  | none => .idle .none
  | some c =>
    match workKind c.work with
    | .poll => .await (some 0)
    | .set => .await (some 0)
    | .bcast => .idle (.settle 0)

/-- SEND completes cleanly: the contention count becomes 0 and DE falls (R25). -/
def LineEngine.cleanSend (x : LineEngine) : LineEngine :=
  { x with contention := 0, shifter := none, phase := x.afterSend }

/-! ### Receive (R26 to R28) -/

/-- The first answer character: START, or the attempt ends CORRUPT (R26). -/
def State.firstAnswerCharacter (s : State) (l : Line) (value : Byte) (framing : Framing) : State :=
  if framing = .good ∧ value = Config.startByte then
    s.modLine l (fun x => { x with phase := .receive [] Config.crcLoad (some 0) })
  else s.attemptFails l .corrupt

/-- COUNT of the answer being collected, the fourth character after START (R27). -/
def answerCount (buffer : List Byte) : Nat :=
  (buffer.getD 3 0).toNat

/-- The ADDR of the frame sent, fixed at unit start (R29 step 2). -/
def UnitContext.address (c : UnitContext) : Byte :=
  c.frame.getD 2 0

/-- The test at the second CRC byte: `buffer` holds CTRL to the first CRC byte, `low` is the second (R28, R29). -/
def judgeAnswer (c : UnitContext) (buffer : List Byte) (crc : Word) (low : Byte) : Verdict :=
  let count := answerCount buffer
  if crc = joinBytes (buffer.getD (4 + count) 0) low then
    validate c.work c.address (buffer.getD 0 0) (buffer.getD 1 0) (buffer.getD 2 0) ((buffer.drop 4).take count)
  else .failing .corrupt

/-- The next answer character in RECEIVE (R27): `buffer` holds the characters after START. -/
def State.nextAnswerCharacter (s : State) (l : Line) (buffer : List Byte) (crc : Word) (value : Byte)
    (framing : Framing) : State :=
  let n := buffer.length
  let collect (crc' : Word) : State := s.modLine l (fun x => { x with phase := .receive (buffer ++ [value]) crc' (some 0) })
  if framing = .framingError then s.attemptFails l .corrupt
  else if n < 3 then collect (crcByte crc value)
  else if n = 3 then
    if Config.maxPayload < value.toNat then s.attemptFails l .corrupt else collect (crcByte crc value)
  else if n < 4 + answerCount buffer then collect (crcByte crc value)
  else if n = 4 + answerCount buffer then collect crc
  else
    match (s.line l).current with
    | none => s
    | some c => s.attemptJudged l (judgeAnswer c buffer crc value)

/-! ### Disposal of receiver events (R30, Table 2-5) -/

/-- The engine's disposal of a START DETECTED event (Table 2-5). -/
def LineEngine.disposeStart (x : LineEngine) : LineEngine :=
  match x.phase with
  | .idle _ => x
  | .guard _ noise => { x with phase := .guard 0 noise }
  | .send _ _ => x
  | .sendWaiting => x
  | .await _ => { x with phase := .await none }
  | .receive buffer crc _ => { x with phase := .receive buffer crc none }

/-- The engine's disposal of a CHARACTER event (Table 2-5). Before the transmission begins no echo window is open, and a
character is discarded (R23, log entry 11). -/
def State.disposeCharacter (s : State) (l : Line) (value : Byte) (framing : Framing) : State :=
  match (s.line l).phase with
  | .idle _ => s
  | .guard _ noise => s.modLine l (fun x => { x with phase := .guard 0 noise })
  | .send window echoed =>
    if (s.line l).echoMatches window echoed value framing then
      s.modLine l (fun x => { x with phase := .send window true })
    else s.modLine l LineEngine.contentionInWindow
  | .sendWaiting => s
  | .await _ => s.firstAnswerCharacter l value framing
  | .receive buffer crc _ => s.nextAnswerCharacter l buffer crc value framing

/-- The receiver's state after a character (R5). -/
def afterCharacter : Framing → Receiver
  | .good => .hunt
  | .framingError => .waitMark

/-! ### Meanings: receiver events -/

/-- START_DETECTED: a receiver in HUNT confirms a start bit, enters ASSEMBLE, and its engine disposes of the event
(R5, R30). In another receiver state the event does not arise (log entry 5). -/
def State.startDetected (s : State) (l : Line) : State :=
  if s.window.resetInput then s
  else if (s.line l).receiver = .hunt then s.modLine l (fun x => { x with receiver := .assemble }.disposeStart)
  else s

/-- Meaning of START_DETECTED. -/
def execStartDetected (l : Line) (s : State) : Host.Outcome State Fault Refusal :=
  .next (s.startDetected l)

/-- CHARACTER: a receiver in ASSEMBLE delivers the character and enters HUNT or WAIT-MARK, and its engine disposes of
the event (R5, R30). In another receiver state the event does not arise (log entry 5). -/
def State.character (s : State) (l : Line) (value : Byte) (framing : Framing) : State :=
  if s.window.resetInput then s
  else if (s.line l).receiver = .assemble then
    (s.modLine l (fun x => { x with receiver := afterCharacter framing })).disposeCharacter l value framing
  else s

/-- Meaning of CHARACTER. -/
def execCharacter (l : Line) (value : Byte) (framing : Framing) (s : State) : Host.Outcome State Fault Refusal :=
  .next (s.character l value framing)

/-- WAIT_MARK_END: RXD has rested at mark for one bit time, and the receiver returns to HUNT (R5). -/
def State.waitMarkEnd (s : State) (l : Line) : State :=
  if s.window.resetInput then s
  else if (s.line l).receiver = .waitMark then s.modLine l (fun x => { x with receiver := .hunt })
  else s

/-- Meaning of WAIT_MARK_END. -/
def execWaitMarkEnd (l : Line) (s : State) : Host.Outcome State Fault Refusal :=
  .next (s.waitMarkEnd l)

/-! ### Meanings: GUARD and SEND -/

/-- The quiet count can be growing: GUARD, and the receiver in HUNT (R21). -/
def LineEngine.quietGrowing (x : LineEngine) : Bool :=
  match x.phase with
  | .guard _ _ => decide (x.receiver = .hunt)
  | .idle _ => false
  | .send _ _ => false
  | .sendWaiting => false
  | .await _ => false
  | .receive _ _ _ => false

/-- QUIET_REACHED: the quiet count reaches 3 CT, GUARD ends and SEND is entered (R21, R23). -/
def State.quietReached (s : State) (l : Line) : State :=
  s.whenLive (fun t => if (t.line l).quietGrowing then t.modLine l LineEngine.enterSend else t)

/-- Meaning of QUIET_REACHED. -/
def execQuietReached (l : Line) (s : State) : Host.Outcome State Fault Refusal :=
  .next (s.quietReached l)

/-- The line is in GUARD and its quiet count has not reached 3 CT (R22). -/
def LineEngine.quietLacking (x : LineEngine) : Bool :=
  match x.phase with
  | .guard quiet _ => decide (quiet < Config.quietCt * x.params.ct)
  | .idle _ => false
  | .send _ _ => false
  | .sendWaiting => false
  | .await _ => false
  | .receive _ _ _ => false

/-- NOISE_LIMIT_EXPIRY: the quiet count has not reached 3 CT in 64 CT of GUARD; the attempt ends ABORTED and the line
faults with cause NOISE. A quiet count of 3 CT is quiet reached, and the limit then faults nothing (R22, R133). -/
def State.noiseLimitExpiry (s : State) (l : Line) : State :=
  s.whenLive (fun t => if (t.line l).quietLacking then (t.faultLine l .noise).finish else t)

/-- Meaning of NOISE_LIMIT_EXPIRY. -/
def execNoiseLimitExpiry (l : Line) (s : State) : Host.Outcome State Fault Refusal :=
  .next (s.noiseLimitExpiry l)

/-- The stop bit of the character in the shifter ends: in SEND the echo window closes, with the next character, a clean
SEND or CONTENTION; otherwise the transmission was ended early and DE falls (R3, R4, R24, R25, R34). Where SEND waits
for that, DE rises again for its own transmission in the same step (log entry 11). -/
def State.characterSent (s : State) (l : Line) : State :=
  let x := s.line l
  let silent := s.modLine l (fun y => { y with shifter := none })
  match x.phase with
  | .send window true =>
    if window + 1 < x.frameLength then s.modLine l (fun y => y.nextWindow window) else s.modLine l LineEngine.cleanSend
  | .send _ false => (silent.modLine l (fun y => { y with contention := y.contention + 1 })).afterContention l
  | .sendWaiting => s.modLine l LineEngine.beginTransmission
  | .idle .fallOfDe => silent.afterContention l
  | .idle .none => silent
  | .idle (.backoff _) => silent
  | .idle (.settle _) => silent
  | .guard _ _ => silent
  | .await _ => silent
  | .receive _ _ _ => silent

/-- TRANSMIT_CHARACTER_END: the character in the shifter, if there is one, ends its stop bit (R24). -/
def State.transmitCharacterEnd (s : State) (l : Line) : State :=
  s.whenLive (fun t => if (t.line l).shifter.isSome then t.characterSent l else t)

/-- Meaning of TRANSMIT_CHARACTER_END. -/
def execTransmitCharacterEnd (l : Line) (s : State) : Host.Outcome State Fault Refusal :=
  .next (s.transmitCharacterEnd l)

/-! ### Meanings: timers of an exchange -/

/-- RESPONSE_TIMEOUT: the response timer expires before any start bit; the attempt ends TIMEOUT (R26). -/
def State.responseTimeout (s : State) (l : Line) : State :=
  s.whenLive (fun t =>
    match (t.line l).phase with
    | .await (some _) => t.attemptFails l .timeout
    | .await none => t
    | .idle _ => t
    | .guard _ _ => t
    | .send _ _ => t
    | .sendWaiting => t
    | .receive _ _ _ => t)

/-- Meaning of RESPONSE_TIMEOUT. -/
def execResponseTimeout (l : Line) (s : State) : Host.Outcome State Fault Refusal :=
  .next (s.responseTimeout l)

/-- GAP_LIMIT_EXPIRY: 2 CT pass in RECEIVE after a character with no new start bit; the attempt ends CORRUPT (R27). -/
def State.gapLimitExpiry (s : State) (l : Line) : State :=
  s.whenLive (fun t =>
    match (t.line l).phase with
    | .receive _ _ (some _) => t.attemptFails l .corrupt
    | .receive _ _ none => t
    | .idle _ => t
    | .guard _ _ => t
    | .send _ _ => t
    | .sendWaiting => t
    | .await _ => t)

/-- Meaning of GAP_LIMIT_EXPIRY. -/
def execGapLimitExpiry (l : Line) (s : State) : Host.Outcome State Fault Refusal :=
  .next (s.gapLimitExpiry l)

/-- BACKOFF_END: the contention backoff ends, and the engine enters GUARD for the same attempt (R34). -/
def State.backoffEnd (s : State) (l : Line) : State :=
  s.whenLive (fun t =>
    match (t.line l).phase with
    | .idle (.backoff _) => t.nextAttempt l
    | .idle .none => t
    | .idle .fallOfDe => t
    | .idle (.settle _) => t
    | .guard _ _ => t
    | .send _ _ => t
    | .sendWaiting => t
    | .await _ => t
    | .receive _ _ _ => t)

/-- Meaning of BACKOFF_END. -/
def execBackoffEnd (l : Line) (s : State) : Host.Outcome State Fault Refusal :=
  .next (s.backoffEnd l)

/-- SETTLE_END: the settle time of a BCAST ends, and the BCAST completes (R36). -/
def State.settleEnd (s : State) (l : Line) : State :=
  s.whenLive (fun t =>
    match (t.line l).phase with
    | .idle (.settle _) => t.endUnit l .settled
    | .idle .none => t
    | .idle .fallOfDe => t
    | .idle (.backoff _) => t
    | .guard _ _ => t
    | .send _ _ => t
    | .sendWaiting => t
    | .await _ => t
    | .receive _ _ _ => t)

/-- Meaning of SETTLE_END. -/
def execSettleEnd (l : Line) (s : State) : Host.Outcome State Fault Refusal :=
  .next (s.settleEnd l)

end Sys2Proof.Machine
end

