-- ==== Sys2Proof/Machine/Reset.lean ====
section
/-! DEFINITION. Hardware reset, INIT and PART RESET (9.6). -/

namespace Sys2Proof.Machine

/-- Asserting the hardware reset input ends every operation and holds every block at its reset value (R156, R158). -/
def State.assertReset (s : State) : State :=
  s.resetEffects.modWindow (fun w => { w with resetInput := true })

/-- Releasing the input begins INIT with its full length; an input that is not asserted has nothing to release (R156). -/
def State.releaseReset (s : State) : State :=
  if s.window.resetInput then s.modWindow (fun w => { w with resetInput := false, readiness := .init 0 }) else s

/-- INIT ends and the part is READY; no cause is raised (R156). -/
def State.endInit (s : State) : State :=
  if s.window.resetInput then s else s.modWindow (fun w => { w with readiness := .ready })

/-- Meaning of HARDWARE_RESET_ASSERT. -/
def execHardwareResetAssert (s : State) : Host.Outcome State Fault Refusal :=
  .next s.assertReset

/-- Meaning of HARDWARE_RESET_RELEASE. -/
def execHardwareResetRelease (s : State) : Host.Outcome State Fault Refusal :=
  .next s.releaseReset

/-- Meaning of INIT_END. -/
def execInitEnd (s : State) : Host.Outcome State Fault Refusal :=
  .next s.endInit

/-- PART RESET, decided in READY: the reset effects, among them COMMAND 0 and RESULT NONE, and INIT begins (R155). -/
def State.cmdPartReset (s : State) : State :=
  s.resetEffects

/-- Meaning of PART_RESET: the write of its code to COMMAND. -/
def execPartReset (s : State) : Host.Outcome State Fault Refusal :=
  .next (s.issue (commandCode .partReset) State.cmdPartReset)

end Sys2Proof.Machine
end

