-- ==== Sys2Proof/Machine/Events.lean ====
section
/-! DEFINITION. The inner events of the part as commands of their own, and the passing of one reference period
(chapters 4 to 7, log entries 2 and 4). -/

namespace Sys2Proof.Machine

/-! ### Inner events -/

/-- The interval timer of the line is running: RUNNING, IN CYCLE or WAITING (R80). -/
def LineEngine.intervalRunning (x : LineEngine) : Bool :=
  decide (x.runState = .running) &&
    match x.condition with
    | .none => false
    | .inCycle => true
    | .waiting => true
    | .idleEmpty => false

/-- INTERVAL_ELAPSED: the timer has reached the interval; on a WAITING line with a free engine the next cycle starts
(R80, R81). DESIGN CHOICE, log entry 27: the first choice of that cycle is made in the same step, so a SUBMIT of the same
moment is taken before the elapse or after that choice, and never weighed in it (R100). -/
def State.intervalElapsed (s : State) (l : Line) : State :=
  s.whenLive (fun t =>
    if (t.line l).intervalRunning then
      (t.modLine l (fun x => { x with interval := max x.interval (max x.params.interval 1 * x.params.ct) })).finish
    else t)

/-- Meaning of INTERVAL_ELAPSED. -/
def execIntervalElapsed (l : Line) (s : State) : Host.Outcome State Fault Refusal :=
  .next (s.intervalElapsed l)

/-- A unit of the line holds its reservation and has not started (R19). -/
def LineEngine.granted (x : LineEngine) : Bool :=
  x.chosen.isSome && x.current.isNone && x.reservation.isSome

/-- UNIT_START: a unit whose reservation was granted starts; words it returns at once serve the hold list (R19, R112). -/
def State.unitStart (s : State) (l : Line) : State :=
  s.whenLive (fun t => if (t.line l).granted then (t.startUnit l).serve.finish else t)

/-- Meaning of UNIT_START. -/
def execUnitStart (l : Line) (s : State) : Host.Outcome State Fault Refusal :=
  .next (s.unitStart l)

/-- DEFERRED_DISABLE: a pending disable of a station no longer in service takes effect (R51). -/
def State.deferredDisable (s : State) (i : StationIndex) : State :=
  s.whenLive (fun t => if (t.entry i).disablePending && !(t.entry i).inService then t.disableNow i else t)

/-- Meaning of DEFERRED_DISABLE. -/
def execDeferredDisable (station : StationIndex) (s : State) : Host.Outcome State Fault Refusal :=
  .next (s.deferredDisable station)

/-- STOPPING_LINE_STOPPED: a STOPPING line whose unit has completed enters STOPPED (R130, R136). -/
def State.stoppingLineStopped (s : State) (l : Line) : State :=
  s.whenLive (fun t =>
    if (t.line l).runState = .stopping ∧ (t.line l).current.isNone = true then t.enterStopped l else t)

/-- Meaning of STOPPING_LINE_STOPPED. -/
def execStoppingLineStopped (l : Line) (s : State) : Host.Outcome State Fault Refusal :=
  .next (s.stoppingLineStopped l)

/-- HOLD_LIST_GRANT: the head of the hold list is granted while it fits, and the pending unit starts (R112). -/
def State.holdListGrant (s : State) : State :=
  s.whenLive (fun t => t.serve.finish)

/-- Meaning of HOLD_LIST_GRANT. -/
def execHoldListGrant (s : State) : Host.Outcome State Fault Refusal :=
  .next s.holdListGrant

/-- WORK_SELECTION: the arbiter of a line with a free engine is invoked (R97). -/
def State.workSelection (s : State) (l : Line) : State :=
  s.whenLive (fun t => if (t.line l).free then (t.invokeArbiter l).finish else t)

/-- Meaning of WORK_SELECTION. -/
def execWorkSelection (l : Line) (s : State) : Host.Outcome State Fault Refusal :=
  .next (s.workSelection l)

/-- A pending swap has its occasion: the line is STOPPED or FAULTED (R69). The boundary's own step 3 stands inside
`State.finishBoundary`. -/
def LineEngine.swapDue (x : LineEngine) : Bool :=
  x.swapPending &&
    match x.runState with
    | .stopped => true
    | .running => false
    | .stopping => false
    | .faulted => true

/-- PENDING_SWAP_TAKES_EFFECT: the banks exchange roles and swap-pending clears (R69). -/
def State.pendingSwapTakesEffect (s : State) (l : Line) : State :=
  s.whenLive (fun t => if (t.line l).swapDue then t.modLine l LineEngine.swapBanks else t)

/-- Meaning of PENDING_SWAP_TAKES_EFFECT. -/
def execPendingSwapTakesEffect (l : Line) (s : State) : Host.Outcome State Fault Refusal :=
  .next (s.pendingSwapTakesEffect l)

/-- CYCLE_START: a cycle whose start is due on a free engine starts, and the arbiter takes its turn (R72, R97). -/
def State.cycleStart (s : State) (l : Line) : State :=
  s.whenLive (fun t =>
    if (t.line l).free && (t.line l).cycleDue then (t.modLine l LineEngine.startCycle).finish else t)

/-- Meaning of CYCLE_START. -/
def execCycleStart (l : Line) (s : State) : Host.Outcome State Fault Refusal :=
  .next (s.cycleStart l)

/-! ### One reference period (log entry 2) -/

/-- The timers of the exchange phase after one period. The quiet count grows while the receiver is in HUNT (R21). -/
def Phase.tick (p : Phase) (receiver : Receiver) : Phase :=
  match p with
  | .idle .none => p
  | .idle .fallOfDe => p
  | .idle (.backoff n) => .idle (.backoff (n + 1))
  | .idle (.settle n) => .idle (.settle (n + 1))
  | .guard quiet noise => .guard (if receiver = .hunt then quiet + 1 else 0) (noise + 1)
  | .send _ _ => p
  | .sendWaiting => p
  | .await timer => .await (timer.map (· + 1))
  | .receive buffer crc gap => .receive buffer crc (gap.map (· + 1))

/-- The line's timers, shifter and interval timer after one period; the interval timer stops at 65536 CT (R80). -/
def LineEngine.tick (x : LineEngine) : LineEngine :=
  { x with
    phase := x.phase.tick x.receiver
    shifter := x.shifter.map (fun t => { t with elapsed := t.elapsed + 1 })
    interval := if x.intervalRunning then min (x.interval + 1) (Config.intervalCapCt * x.params.ct) else x.interval }

/-- A time-driven event of a line. -/
inductive TimedEvent where
  | characterSent
  | quiet
  | noise
  | response
  | gap
  | backoff
  | settle
  | interval
  deriving DecidableEq, Repr

/-- The event of the exchange phase whose time has come. GUARD ends when quiet is reached or, 64 CT after it was entered,
with the noise limit, quiet coming first (R22). A START DETECTED at 2 CT is in time (R27), so the gap limit expires
after 2 CT. -/
def LineEngine.phaseEvent (x : LineEngine) : Option TimedEvent :=
  match x.phase with
  | .idle .none => none
  | .idle .fallOfDe => none
  | .idle (.backoff n) => if Config.backoffCt * x.params.ct ≤ n then some .backoff else none
  | .idle (.settle n) => if x.params.settle * x.params.ct ≤ n then some .settle else none
  | .guard quiet noise =>
    if Config.quietCt * x.params.ct ≤ quiet ∧ x.quietGrowing = true then some .quiet
    else if Config.noiseCt * x.params.ct ≤ noise ∧ x.quietLacking = true then some .noise
    else none
  | .send _ _ => none
  | .sendWaiting => none
  | .await none => none
  | .await (some n) => if x.params.response * x.params.ct ≤ n then some .response else none
  | .receive _ _ none => none
  | .receive _ _ (some n) => if Config.gapCt * x.params.ct < n then some .gap else none

/-- The stop bit of the character in the shifter has ended (R3, R4). -/
def LineEngine.characterDone (x : LineEngine) : Bool :=
  match x.shifter with
  | some t => decide (t.windowPeriods ≤ t.elapsed)
  | none => false

/-- The event of the line whose time has come: the end of a character first, then the phase's timer, then the interval
on a WAITING line whose next cycle can start. -/
def LineEngine.timedEvent (x : LineEngine) : Option TimedEvent :=
  if x.characterDone then some .characterSent
  else
    match x.phaseEvent with
    | some e => some e
    | none => if x.free && decide (x.condition = .waiting) && x.intervalReached then some .interval else none

/-- A time-driven event takes its effect, that of its row. -/
def State.fire (s : State) (l : Line) (e : TimedEvent) : State :=
  match e with
  | .characterSent => s.transmitCharacterEnd l
  | .quiet => s.quietReached l
  | .noise => s.noiseLimitExpiry l
  | .response => s.responseTimeout l
  | .gap => s.gapLimitExpiry l
  | .backoff => s.backoffEnd l
  | .settle => s.settleEnd l
  | .interval => s.intervalElapsed l

/-- The event of a line whose time has come takes its effect, if there is one. -/
def State.fireNext (s : State) (l : Line) : State :=
  match (s.line l).timedEvent with
  | none => s
  | some e => s.fire l e

/-- The events of a line in one period: one, and a second whose time has come too, as when the end of a character cut
short uncovers a timer that has run meanwhile. -/
def State.fireDue (s : State) (l : Line) : State :=
  (s.fireNext l).fireNext l

/-- A record put into a list of records, newest first, behind a free number of its newest; `n` counts the free values. -/
def slipBack (r : Record) : Nat → List Record → List Record
  | _, [] => [r]
  | n, x :: xs => if Config.raceFirst n then x :: slipBack r (n + 1) xs else r :: x :: xs

/-- Two records are those of one unit: its own record and the STATE record of its visit outcome (R107). -/
def recordsOfOneUnit (own change : Record) : Bool :=
  decide (own.line = change.line) &&
    match own, change with
    | .data _ _ _ _ _ _ _ _, .state _ _ _ _ _ _ _ => true
    | .confirm _ _ _ _ _ _ _, .state _ _ _ _ _ _ _ => true
    | .fault _ _ _ _ _ _, .state _ _ _ _ _ _ _ => true
    | _, _ => false

/-- The line that acts second in a period may have done step 1 of R38 before any of what the first has done, so that
records of the first stand between the two records of its unit (R107, log entry 24). Step 1 moves words from reserved
to used and their sum stands (R106): it bears on nothing the other line does, nor that on it, but for the order of the
records. `before` records stood when the period began and `middle` when the second line's turn came. -/
def State.recordsApart (s : State) (before middle : Nat) : State :=
  match s.queue.records.drop middle with
  | own :: change :: rest =>
    if recordsOfOneUnit own change then
      let other := (s.queue.records.take middle).drop before
      { s with
        raceCount := s.raceCount + other.length
        queue := { s.queue with
          records := s.queue.records.take before ++ (slipBack own s.raceCount other.reverse).reverse ++ change :: rest
          cursor := if before = 0 then 0 else s.queue.cursor } }
    else s
  | _ => s

/-- The events of both lines in one period, those of the first line first, the order of their records as free as R107
leaves it. -/
def State.fireInTurn (s : State) (first second : Line) : State :=
  let t := s.fireDue first
  (t.fireDue second).recordsApart s.queue.records.length t.queue.records.length

/-- The lines' events of one period; when both lines have one, their order is free (log entry 6). -/
def State.fireBoth (s : State) : State :=
  if s.lineA.timedEvent.isSome && s.lineB.timedEvent.isSome then
    if Config.raceFirst s.raceCount then s.nextRace.fireInTurn .a .b else s.nextRace.fireInTurn .b .a
  else (s.fireDue .a).fireDue .b

/-- INIT lasts one period longer, and ends when it has lasted 4096 (R156, log entry 18). -/
def Readiness.tick : Readiness → Readiness
  | .init n => if Config.initPeriods ≤ n + 1 then .ready else .init (n + 1)
  | .ready => .ready

/-- One reference period passes; while the reset input is asserted every block is held (R156). -/
def State.passTime (s : State) : State :=
  if s.window.resetInput then s
  else
    match s.window.readiness with
    | .init _ =>
      (s.modWindow (fun w => { w with readiness := w.readiness.tick })).modLine .a LineEngine.tick |>.modLine .b
        LineEngine.tick
    | .ready => ((s.modLine .a LineEngine.tick).modLine .b LineEngine.tick).fireBoth

end Sys2Proof.Machine
end

