-- ==== Sys2Proof/Machine/LineCommands.lean ====
section
/-! DEFINITION. The line commands (chapter 7). -/

namespace Sys2Proof.Machine

/-- A line command whose line code names neither line is refused RANGE with FEH (R127 to R132). -/
def State.withLine (s : State) (body : Line → State) : State :=
  match s.window.lineParam with
  | none => s.reply .range 0xFE
  | some l => body l

/-- The line is STOPPED or FAULTED. -/
def LineEngine.atRest (x : LineEngine) : Bool :=
  match x.runState with
  | .stopped => true
  | .running => false
  | .stopping => false
  | .faulted => true

/-- A refusal STATE of a line command, with the code of the run state. -/
def State.refuseRunState (s : State) (l : Line) : State :=
  s.reply .state (runStateCode (s.line l).runState)

/-- The line with a parameter set; a RATE divisor puts the receiver into WAIT-MARK, while a character in the shifter
goes on at its old rate (R8, R127). -/
def LineEngine.setParameter (x : LineEngine) (p : Parameter) (value : Nat) : LineEngine :=
  { x with params := x.params.setParameter p value, receiver := if p = .rate then .waitMark else x.receiver }

/-- LINE SET, decided in READY (R127). -/
def State.cmdLineSet (s : State) : State :=
  s.withLine (fun l =>
    match parameterOfCode s.window.param1.toNat with
    | none => s.reply .range 0xFD
    | some p =>
      if !(s.line l).atRest then s.refuseRunState l
      else if parameterInRange p s.window.param2.toNat then
        (s.modLine l (fun x => x.setParameter p s.window.param2.toNat)).reply .accepted 0
      else s.reply .range (parameterCode p))

/-- The line as LINE START leaves it, before its arbiter is invoked (R128 steps 1 to 5). -/
def LineEngine.start (x : LineEngine) : LineEngine :=
  let y := { x with runState := .running, faultCause := .none, contention := 0 }
  if x.listLength = 0 then { y with condition := .idleEmpty } else y.startCycle

/-- LINE START, decided in READY (R128). -/
def State.cmdLineStart (s : State) : State :=
  s.withLine (fun l =>
    if (s.line l).atRest then
      ((s.modLine l LineEngine.start).finish).reply .accepted (if (s.line l).listLength = 0 then 1 else 0)
    else s.refuseRunState l)

/-- LINE STOP of a RUNNING line (R129). -/
def State.stopRunning (s : State) (l : Line) : State :=
  if (s.line l).current.isSome then
    (s.modLine l (fun x => { x with runState := .stopping, condition := .none })).reply .accepted 1
  else if (s.line l).chosen.isSome then (((s.discardPending l).enterStopped l).finish).reply .accepted 0
  else ((s.enterStopped l).finish).reply .accepted 0

/-- LINE STOP, decided in READY (R129). -/
def State.cmdLineStop (s : State) : State :=
  s.withLine (fun l =>
    match (s.line l).runState with
    | .stopped => s.refuseRunState l
    | .faulted => s.refuseRunState l
    | .stopping => s.reply .accepted 2
    | .running => s.stopRunning l)

/-- LINE HALT, decided in READY (R131). -/
def State.cmdLineHalt (s : State) : State :=
  s.withLine (fun l =>
    if (s.line l).atRest then s.reply .accepted 2
    else (((s.cutShort l).enterStopped l).finish).reply .accepted 0)

/-- Every working station of the line becomes UNKNOWN with consecutive failures 0 (R62, R132 step 4). -/
def Entry.resetOnLine (e : Entry) (l : Line) : Entry :=
  if e.line = l ∧ isWorking e.state = true then { e with state := .unknown, consecutive := 0 } else e

/-- The stations after step 4 of LINE RESET (R132). -/
def State.resetStations (s : State) (l : Line) : State :=
  { s with stations := s.stations.map (fun e => e.resetOnLine l) }

/-- Steps 2, 3 and 5 of LINE RESET on the line: directed queue, alert set and cursor, counters, fault cause (R132). -/
def LineEngine.resetCounters (x : LineEngine) : LineEngine :=
  { x with directed := [], alertSet := [], alertCursor := 63, cycleNumber := 0, cursor := 0, burst := 0,
           visitCount := 0, contention := 0, faultCause := .none }

/-- LINE RESET, decided in READY (R132). -/
def State.cmdLineReset (s : State) : State :=
  s.withLine (fun l =>
    let s1 := s.cutShort l
    let removed := (s1.line l).directed.length
    let s2 := (s1.modLine l LineEngine.resetCounters).resetStations l
    ((s2.enterStopped l).finish).reply .accepted removed)

/-! ### Meanings -/

/-- Meaning of LINE_SET: the write of its code to COMMAND. -/
def execLineSet (s : State) : Host.Outcome State Fault Refusal :=
  .next (s.issue (commandCode .lineSet) State.cmdLineSet)

/-- Meaning of LINE_START: the write of its code to COMMAND. -/
def execLineStart (s : State) : Host.Outcome State Fault Refusal :=
  .next (s.issue (commandCode .lineStart) State.cmdLineStart)

/-- Meaning of LINE_STOP: the write of its code to COMMAND. -/
def execLineStop (s : State) : Host.Outcome State Fault Refusal :=
  .next (s.issue (commandCode .lineStop) State.cmdLineStop)

/-- Meaning of LINE_HALT: the write of its code to COMMAND. -/
def execLineHalt (s : State) : Host.Outcome State Fault Refusal :=
  .next (s.issue (commandCode .lineHalt) State.cmdLineHalt)

/-- Meaning of LINE_RESET: the write of its code to COMMAND. -/
def execLineReset (s : State) : Host.Outcome State Fault Refusal :=
  .next (s.issue (commandCode .lineReset) State.cmdLineReset)

end Sys2Proof.Machine
end

