-- ==== Sys2Proof/Machine/ListCommands.lean ====
section
/-! DEFINITION. LIST SWAP and SUBMIT (4.3, 5.2). -/

namespace Sys2Proof.Machine

/-- LIST SWAP finds the line in a condition in which the swap takes effect at once: STOPPED, FAULTED, or RUNNING with
an empty active list (Table 4-2). -/
def LineEngine.swapsAtOnce (x : LineEngine) : Bool :=
  match x.runState with
  | .stopped => true
  | .faulted => true
  | .running => decide (x.listLength = 0)
  | .stopping => false

/-- The RANGE detail of a shadow bank that fails validation, if it does: FFH for its length, otherwise the index of
its first bad slot (R67 step 2). -/
def Bank.swapRefusal (b : Bank) : Option Nat :=
  if Config.bankSlots < b.length.toNat then some 0xFF else b.firstBadSlot

/-- LIST SWAP, decided in READY (R67, R68, R70). -/
def State.cmdListSwap (s : State) : State :=
  match s.window.lineParam with
  | none => s.reply .range 0xFE
  | some l =>
    let x := s.line l
    match x.shadowBank.swapRefusal with
    | some detail => s.reply .range detail
    | none =>
      if x.swapPending then s.reply .pending 0
      else if x.swapsAtOnce then ((s.modLine l LineEngine.swapBanks).finish).reply .accepted 0
      else (s.modLine l (fun y => { y with swapPending := true })).reply .accepted 1

/-- Meaning of LIST_SWAP: the write of its code to COMMAND. -/
def execListSwap (s : State) : Host.Outcome State Fault Refusal :=
  .next (s.issue (commandCode .listSwap) State.cmdListSwap)

/-- The bytes of a submit buffer, the high half of each word first (R84). -/
def bufferBytes (buffer : Vector Word 20) : List Byte :=
  buffer.toList.flatMap (fun w => [hiByte w, loByte w])

/-- The payload SUBMIT copies: none for a POLL, otherwise bytes 0 to count - 1 of the buffer (R86). -/
def submitPayload (kind : RequestKind) (count : Nat) (buffer : Vector Word 20) : List Byte :=
  match kind with
  | .poll => []
  | .set => (bufferBytes buffer).take count
  | .bcast => (bufferBytes buffer).take count

/-- Steps 3 to 6 of Table 5-1 as the field number of the first field out of range; `station` is absent when the
index is above 63. -/
def SubmitFields.badField (f : SubmitFields) (kind : RequestKind) : Option Nat :=
  if kind ≠ .bcast ∧ 63 < f.station then some 2
  else if 15 < f.group then some 3
  else if Config.maxPayload < f.count then some 4
  else if 255 < f.tag then some 5
  else none

/-- The station index of a request: the parameter for POLL and SET, 0 for BCAST (R86). -/
def SubmitFields.stationIndex (f : SubmitFields) (kind : RequestKind) : StationIndex :=
  match kind with
  | .poll => Fin.ofNat 64 f.station
  | .set => Fin.ofNat 64 f.station
  | .bcast => 0

/-- Steps 7 and 8 of Table 5-1: the STATE detail of a POLL or SET whose entry does not allow the request. -/
def State.submitStateRefusal (s : State) (l : Line) (kind : RequestKind) (i : StationIndex) : Option Nat :=
  if kind = .bcast then none
  else if (s.entry i).state = .unconfigured then some (stationStateCode (s.entry i).state)
  else if (s.entry i).line ≠ l then some (stationStateCode (s.entry i).state + 0x80)
  else none

/-- The directed entry an accepted SUBMIT forms (R86). -/
def State.newDirected (s : State) (l : Line) (kind : RequestKind) (f : SubmitFields) : DirectedEntry :=
  { kind := kind, station := f.stationIndex kind, group := BitVec.ofNat 4 f.group, count := f.count,
    tag := BitVec.ofNat 8 f.tag, payload := submitPayload kind f.count (s.line l).submitBuffer }

/-- SUBMIT, decided in READY (R85, R86). The arbiter of an idle line takes its turn (R100). -/
def State.cmdSubmit (s : State) : State :=
  let f := s.window.submitFields
  match lineOfCode f.lineCode with
  | none => s.reply .range 0
  | some l =>
    match requestKindOfCode f.kindCode with
    | none => s.reply .range 1
    | some kind =>
      match f.badField kind with
      | some n => s.reply .range n
      | none =>
        match s.submitStateRefusal l kind (f.stationIndex kind) with
        | some detail => s.reply .state detail
        | none =>
          let n := (s.line l).directed.length
          if Config.directedDepth ≤ n then s.reply .full 8
          else ((s.modLine l (fun x => { x with directed := x.directed ++ [s.newDirected l kind f] })).finish).reply
            .accepted (n + 1)

/-- Meaning of SUBMIT: the write of its code to COMMAND. -/
def execSubmit (s : State) : Host.Outcome State Fault Refusal :=
  .next (s.issue (commandCode .submit) State.cmdSubmit)

end Sys2Proof.Machine
end

