-- ==== Sys2Proof/Machine/QueueCommands.lean ====
section
/-! DEFINITION. The queue commands, DRAIN MODE, QUEUE DATA reads and DACK strobes (6.6 to 6.8, chapter 8). -/

namespace Sys2Proof.Machine

/-- QUEUE RELEASE, decided in READY (R119). The detail counts every record of the same step (log entry 19). -/
def State.cmdQueueRelease (s : State) : State :=
  if s.queue.drainMode = .dma then s.reply .mode 0
  else if s.queue.records.isEmpty then s.reply .empty 0
  else
    let s1 := s.releaseHead.finish
    s1.reply .accepted s1.recordCount

/-- A line holds a reservation or waits in the hold list (R120). -/
def State.lineConcerned (s : State) (l : Line) : Bool :=
  (s.line l).reservation.isSome || s.isHeld l

/-- The number of lines that hold a reservation or wait, each counted once (R120). -/
def State.linesConcerned (s : State) : Nat :=
  (if s.lineConcerned .a then 1 else 0) + (if s.lineConcerned .b then 1 else 0)

/-- QUEUE FLUSH, decided in READY (R120). -/
def State.cmdQueueFlush (s : State) : State :=
  if s.linesConcerned ≠ 0 then s.reply .state s.linesConcerned
  else
    let s1 : State := { s with queue := { s.queue with records := [], cursor := 0 } }
    s1.reply .accepted (min s.recordCount 255)

/-- QUEUE SET THRESHOLD, decided in READY (R121). MODEL'S CHOICE (log entry 26): the manual gives no RESULT DETAIL for an
accepted one; the model answers 0. -/
def State.cmdQueueSetThreshold (s : State) : State :=
  let n := s.window.param0.toNat
  if n = 0 ∨ 255 < n then s.reply .range 0
  else
    let s1 : State := { s with queue := { s.queue with threshold := n } }
    s1.reply .accepted 0

/-- DRAIN MODE, decided in READY (R138). DREQ follows the mode (R139). -/
def State.cmdDrainMode (s : State) : State :=
  match drainModeOfCode s.window.param0.toNat with
  | none => s.reply .range 0
  | some m =>
    if m = .dma ∧ s.queue.drainMode ≠ .dma ∧ s.queue.cursor ≠ 0 then s.reply .mode s.queue.cursor
    else
      let s1 : State := { s with queue := { s.queue with drainMode := m } }
      s1.reply .accepted (if m = s.queue.drainMode then 1 else 0)

/-- The read cursor rises by 1 (R116, R140). -/
def State.advanceCursor (s : State) : State :=
  { s with queue := { s.queue with cursor := s.queue.cursor + 1 } }

/-- The cursor has reached the head size: the last word of the head record has been taken (R118, R140). -/
def State.readOut (s : State) : Bool :=
  decide (s.queue.cursor = s.headSize)

/-- A QUEUE DATA read by the host (R116, R118, R143). -/
def State.queueDataRead (s : State) : State :=
  if s.live then
    match s.queue.drainMode with
    | .dma => s.drive 0
    | .pioManual =>
      match s.cursorWord with
      | none => s.drive 0
      | some w => (s.drive w).advanceCursor
    | .pioAuto =>
      match s.cursorWord with
      | none => s.drive 0
      | some w =>
        let s1 := (s.drive w).advanceCursor
        if s1.readOut then s1.releaseHead.finish else s1
  else s.drive 0

/-- A DACK strobe (R140, R141). -/
def State.dackStrobe (s : State) : State :=
  if s.live then
    match s.queue.drainMode with
    | .pioManual => s.drive 0
    | .pioAuto => s.drive 0
    | .dma =>
      match s.cursorWord with
      | none => s.drive 0
      | some w =>
        let s1 := (s.drive w).advanceCursor
        if s1.readOut then s1.releaseHead.finish else s1
  else s.drive 0

/-! ### Meanings -/

/-- Meaning of QUEUE_RELEASE: the write of its code to COMMAND. -/
def execQueueRelease (s : State) : Host.Outcome State Fault Refusal :=
  .next (s.issue (commandCode .queueRelease) State.cmdQueueRelease)

/-- Meaning of QUEUE_FLUSH: the write of its code to COMMAND. -/
def execQueueFlush (s : State) : Host.Outcome State Fault Refusal :=
  .next (s.issue (commandCode .queueFlush) State.cmdQueueFlush)

/-- Meaning of QUEUE_SET_THRESHOLD: the write of its code to COMMAND. -/
def execQueueSetThreshold (s : State) : Host.Outcome State Fault Refusal :=
  .next (s.issue (commandCode .queueSetThreshold) State.cmdQueueSetThreshold)

/-- Meaning of DRAIN_MODE: the write of its code to COMMAND. -/
def execDrainMode (s : State) : Host.Outcome State Fault Refusal :=
  .next (s.issue (commandCode .drainMode) State.cmdDrainMode)

/-- Meaning of QUEUE_DATA_READ. -/
def execQueueDataRead (s : State) : Host.Outcome State Fault Refusal :=
  .next s.queueDataRead

/-- Meaning of DACK_STROBE. A host strobe that overlaps it is ignored: the part neither acts on it nor drives its read
(R141, log entry 20). -/
def execDackStrobe (overlap : Overlap) (s : State) : Host.Outcome State Fault Refusal :=
  match overlap with
  | .none => .next s.dackStrobe
  | .hostRead _ => .next s.dackStrobe
  | .hostWrite _ _ => .next s.dackStrobe

end Sys2Proof.Machine
end

