-- ==== Sys2Proof/Machine/StationCommands.lean ====
section
/-! DEFINITION. The STATION commands (3.2). -/

namespace Sys2Proof.Machine

/-- Every STATION command first checks its station index: above 63 it is refused RANGE with field number 0 (R46). -/
def State.withStation (s : State) (body : StationIndex → State) : State :=
  match s.window.stationParam with
  | none => s.reply .range 0
  | some i => body i

/-- A refusal STATE of a STATION command, with the code of the entry's state (Table 3-4). -/
def State.refuseState (s : State) (i : StationIndex) : State :=
  s.reply .state (stationStateCode (s.entry i).state)

/-- The number of the first configuration field out of range, in the order of R47 step 3, if there is one. -/
def ConfigureFields.badField (f : ConfigureFields) : Option Nat :=
  if (lineOfCode f.lineCode).isNone then some 1
  else if f.address < 1 ∨ 62 < f.address then some 2
  else if 7 < f.retryLimit then some 3
  else if f.failThreshold < 1 ∨ 15 < f.failThreshold then some 4
  else none

/-- Another entry that is not UNCONFIGURED and holds the same line and line address (R47 step 4). -/
def State.duplicateOf (s : State) (i : StationIndex) (l : Line) (address : Nat) : Option StationIndex :=
  (List.finRange 64).find? (fun j =>
    decide (j ≠ i) && decide ((s.entry j).state ≠ .unconfigured) && decide ((s.entry j).line = l)
      && decide ((s.entry j).address = address))

/-- The entry an accepted CONFIGURE leaves (R48). -/
def Entry.configure (e : Entry) (l : Line) (f : ConfigureFields) : Entry :=
  { e with state := .disabled, line := l, address := f.address, retryLimit := f.retryLimit,
           failThreshold := f.failThreshold, alertFollowUp := f.alertFollowUp, consecutive := 0 }

/-- The state of an entry that CONFIGURE may act on (R47 step 2). -/
def isIdle : StationState → Bool
  | .unconfigured => true
  | .disabled => true
  | .unknown => false
  | .online => false
  | .suspect => false
  | .offline => false

/-- STATION CONFIGURE, decided in READY (R47, R48). -/
def State.cmdStationConfigure (s : State) : State :=
  s.withStation (fun i =>
    let f := s.window.configureFields
    if !isIdle (s.entry i).state then s.refuseState i
    else
      match f.badField with
      | some n => s.reply .range n
      | none =>
        match lineOfCode f.lineCode with
        | none => s.reply .range 1
        | some l =>
          match s.duplicateOf i l f.address with
          | some j => s.reply .duplicate j.val
          | none => (s.modEntry i (fun e => e.configure l f)).reply .accepted 0)

/-- STATION ENABLE, decided in READY (R49). -/
def State.cmdStationEnable (s : State) : State :=
  s.withStation (fun i =>
    if (s.entry i).state = .disabled then
      (s.modEntry i (fun e => { e with state := .unknown, consecutive := 0 })).reply .accepted 0
    else s.refuseState i)

/-- STATION DISABLE, decided in READY (R50, R51). -/
def State.cmdStationDisable (s : State) : State :=
  s.withStation (fun i =>
    let e := s.entry i
    if isWorking e.state then
      if e.inService then (s.modEntry i (fun y => { y with disablePending := true })).reply .accepted 1
      else (s.disableNow i).reply .accepted 0
    else if e.state = .disabled then s.reply .accepted 2
    else s.refuseState i)

/-- STATION CLEAR, decided in READY (R53). -/
def State.cmdStationClear (s : State) : State :=
  s.withStation (fun i =>
    if (s.entry i).state = .disabled then
      (s.modEntry i (fun e => { e with state := .unconfigured })).reply .accepted 0
    else s.refuseState i)

/-- STATION ZERO COUNTS, decided in READY (R54). -/
def State.cmdStationZeroCounts (s : State) : State :=
  s.withStation (fun i =>
    if (s.entry i).state = .unconfigured then s.refuseState i
    else (s.modEntry i (fun e => { e with answered := 0, failedAttempts := 0 })).reply .accepted 0)

/-! ### Meanings -/

/-- Meaning of STATION_CONFIGURE: the write of its code to COMMAND. -/
def execStationConfigure (s : State) : Host.Outcome State Fault Refusal :=
  .next (s.issue (commandCode .stationConfigure) State.cmdStationConfigure)

/-- Meaning of STATION_ENABLE: the write of its code to COMMAND. -/
def execStationEnable (s : State) : Host.Outcome State Fault Refusal :=
  .next (s.issue (commandCode .stationEnable) State.cmdStationEnable)

/-- Meaning of STATION_DISABLE: the write of its code to COMMAND. -/
def execStationDisable (s : State) : Host.Outcome State Fault Refusal :=
  .next (s.issue (commandCode .stationDisable) State.cmdStationDisable)

/-- Meaning of STATION_CLEAR: the write of its code to COMMAND. -/
def execStationClear (s : State) : Host.Outcome State Fault Refusal :=
  .next (s.issue (commandCode .stationClear) State.cmdStationClear)

/-- Meaning of STATION_ZERO_COUNTS: the write of its code to COMMAND. -/
def execStationZeroCounts (s : State) : Host.Outcome State Fault Refusal :=
  .next (s.issue (commandCode .stationZeroCounts) State.cmdStationZeroCounts)

end Sys2Proof.Machine
end

