-- ==== Sys2Proof/Machine/Window.lean ====
section
/-! DEFINITION. The host window: the command slot, the table port, register views and register writes (chapter 9,
11.3, 11.4). -/

namespace Sys2Proof.Machine

/-! ### The command slot -/

/-- What a command decides once the part is READY (Table 9-4). -/
def State.decideCommand (s : State) (c : Command) : State :=
  match c with
  | .stationConfigure => s.cmdStationConfigure
  | .stationEnable => s.cmdStationEnable
  | .stationDisable => s.cmdStationDisable
  | .stationClear => s.cmdStationClear
  | .stationZeroCounts => s.cmdStationZeroCounts
  | .listSwap => s.cmdListSwap
  | .submit => s.cmdSubmit
  | .queueRelease => s.cmdQueueRelease
  | .queueFlush => s.cmdQueueFlush
  | .queueSetThreshold => s.cmdQueueSetThreshold
  | .drainMode => s.cmdDrainMode
  | .lineSet => s.cmdLineSet
  | .lineStart => s.cmdLineStart
  | .lineStop => s.cmdLineStop
  | .lineHalt => s.cmdLineHalt
  | .lineReset => s.cmdLineReset
  | .partReset => s.cmdPartReset

/-- The decision on a COMMAND word: its command, or UNKNOWN with the word as detail (R154, R170). -/
def State.decideWord (s : State) (code : Word) : State :=
  match commandOfCode code with
  | some c => s.decideCommand c
  | none => s.reply .unknown code.toNat

/-- A write of COMMAND (R153). -/
def State.writeCommand (s : State) (code : Word) : State :=
  s.issue code (fun t => t.decideWord code)

/-- Meaning of UNKNOWN_COMMAND: a write of COMMAND with the word given (R154). -/
def execUnknownCommand (code : Word) (s : State) : Host.Outcome State Fault Refusal :=
  .next (s.writeCommand code)

/-! ### Table words (Tables 11-5 and 11-6) -/

/-- A word of a station entry, `k` from 0 to 3; `alertPending` is membership in the line's alert set. -/
def Entry.word (e : Entry) (alertPending : Bool) (k : Nat) : Word :=
  match k with
  | 0 => BitVec.ofNat 3 (stationStateCode e.state) ++ lineBit e.line ++ flagBit e.alertFollowUp ++ flagBit alertPending
      ++ flagBit e.inService ++ flagBit e.disablePending ++ (0 : BitVec 2) ++ BitVec.ofNat 6 e.address
  | 1 => BitVec.ofNat 4 e.failThreshold ++ BitVec.ofNat 4 e.consecutive ++ (0 : BitVec 5) ++ BitVec.ofNat 3 e.retryLimit
  | 2 => BitVec.ofNat 16 e.answered
  | _ => BitVec.ofNat 16 e.failedAttempts

/-- The station is a member of the alert set of its line (Table 3-1 note a). -/
def State.alertPending (s : State) (i : StationIndex) : Bool :=
  (s.line (s.entry i).line).alertSet.contains i

/-- A word of the station table, region 0 (R45). -/
def State.stationWord (s : State) (index : Nat) : Word :=
  if h : index / 4 < 64 then (s.entry ⟨index / 4, h⟩).word (s.alertPending ⟨index / 4, h⟩) (index % 4) else 0

/-- A word of a slot: 1 + 2k station and group, 2 + 2k divisor and limit (Table 11-6). -/
def Slot.word (t : Slot) (second : Bool) : Word :=
  if second then (0 : BitVec 3) ++ t.divisor ++ (0 : BitVec 2) ++ t.limit
  else (0 : BitVec 2) ++ BitVec.ofFin (w := 6) t.station ++ (0 : BitVec 4) ++ t.group

/-- The slot with one of its words written; bits outside the stored fields are dropped (R64, R169). -/
def Slot.write (t : Slot) (second : Bool) (w : Word) : Slot :=
  if second then { t with divisor := w.extractLsb' 8 5, limit := w.extractLsb' 0 6 }
  else { t with station := (w.extractLsb' 8 6).toFin, group := w.extractLsb' 0 4 }

/-- A word of a bank region, index 0 to 192 (R65). -/
def Bank.word (b : Bank) (index : Nat) : Word :=
  if index = 0 then b.length else (b.slot ((index - 1) / 2)).word (index % 2 == 0)

/-- The bank with a word written, index 0 to 192 (R65). -/
def Bank.write (b : Bank) (index : Nat) (w : Word) : Bank :=
  if index = 0 then { b with length := w }
  else
    let k := (index - 1) / 2
    { b with slots := b.slots.setIfInBounds k ((b.slot k).write (index % 2 == 0) w) }

/-- The words of a bank region (Table 9-2). -/
def bankRegionWords : Nat := 193

/-- The words of region 0 (Table 9-2). -/
def stationRegionWords : Nat := 256

/-- The words of a submit buffer region (Table 9-2). -/
def bufferRegionWords : Nat := 20

/-- A store the table port reaches (Table 9-2). -/
inductive Region where
  | stations
  | bank (l : Line) (n : BankNumber)
  | buffer (l : Line)
  deriving DecidableEq, Repr

/-- The store of a region number; regions 7 to 15 have none (Table 9-2). -/
def regionOfNumber (r : BitVec 4) : Option Region :=
  match r.toNat with
  | 0 => some .stations
  | 1 => some (.bank .a .zero)
  | 2 => some (.bank .a .one)
  | 3 => some (.bank .b .zero)
  | 4 => some (.bank .b .one)
  | 5 => some (.buffer .a)
  | 6 => some (.buffer .b)
  | _ => none

/-- The word at a table location; 0000H at or beyond the size of its region (R151). -/
def State.tableWord (s : State) (region : BitVec 4) (index : Nat) : Word :=
  match regionOfNumber region with
  | none => 0
  | some .stations => if index < stationRegionWords then s.stationWord index else 0
  | some (.bank l n) => if index < bankRegionWords then ((s.line l).bank n).word index else 0
  | some (.buffer l) => ((s.line l).submitBuffer[index]?).getD 0

/-- The table-refused flag is set (R152). -/
def State.refuseTable (s : State) : State :=
  s.modWindow (fun w => { w with tableRefused := true })

/-- A bank may be written: it is the shadow and no swap is pending (R65). -/
def LineEngine.bankWritable (x : LineEngine) (n : BankNumber) : Bool :=
  decide (n ≠ x.active) && !x.swapPending

/-- A table write at a location, before the index advances: stored, refused with the flag set, or ignored (R65, R84,
R151, R152). -/
def State.tableStore (s : State) (region : BitVec 4) (index : Nat) (w : Word) : State :=
  match regionOfNumber region with
  | none => s
  | some .stations => if index < stationRegionWords then s.refuseTable else s
  | some (.bank l n) =>
    if index < bankRegionWords then
      if (s.line l).bankWritable n then s.modLine l (fun x => x.setBank n ((x.bank n).write index w)) else s.refuseTable
    else s
  | some (.buffer l) => s.modLine l (fun x => { x with submitBuffer := x.submitBuffer.setIfInBounds index w })

/-- The table index moves on by one, 4095 to 0 (R150). -/
def State.advanceTable (s : State) : State :=
  s.modWindow (fun w => { w with tableIndex := w.tableIndex + 1 })

/-- A TABLE DATA read (R150, R151). During INIT it returns 0000H and the index advances (R157). -/
def State.tableDataRead (s : State) : State :=
  if s.window.resetInput then s.drive 0
  else
    let w := if s.live then s.tableWord s.window.tableRegion s.window.tableIndex.toNat else 0
    (s.drive w).advanceTable

/-- A TABLE DATA write (R150, R151). During INIT it is ignored and the index advances (R157). -/
def State.tableDataWrite (s : State) (w : Word) : State :=
  if s.window.resetInput then s
  else (if s.live then s.tableStore s.window.tableRegion s.window.tableIndex.toNat w else s).advanceTable

/-- Meaning of TABLE_DATA_READ. -/
def execTableDataRead (s : State) : Host.Outcome State Fault Refusal :=
  .next s.tableDataRead

/-- Meaning of TABLE_DATA_WRITE. -/
def execTableDataWrite (value : Word) (s : State) : Host.Outcome State Fault Refusal :=
  .next (s.tableDataWrite value)

/-! ### Register views (R122, R137, R147, Table 11-7) -/

/-- The part is in INIT, or held in reset. -/
def Window.inInit (w : Window) : Bool :=
  match w.readiness with
  | .init _ => true
  | .ready => false

/-- PART STATUS: the part code field, the table-refused flag, INIT (R148). -/
def State.partStatus (s : State) : Word :=
  (0x1208 : BitVec 14) ++ flagBit s.window.tableRefused ++ flagBit s.window.inInit

/-- HEAD SIZE and CURSOR (R122). -/
def State.headSizeAndCursor (s : State) : Word :=
  BitVec.ofNat 8 s.headSize ++ BitVec.ofNat 8 s.queue.cursor

/-- DRAIN MODE and THRESHOLD (R121, R138). -/
def State.drainAndThreshold (s : State) : Word :=
  (0 : BitVec 6) ++ BitVec.ofNat 2 (drainModeCode s.queue.drainMode) ++ BitVec.ofNat 8 s.queue.threshold

/-- LINE STATUS word 0 (R137). -/
def State.lineStatus0 (s : State) (l : Line) : Word :=
  let x := s.line l
  BitVec.ofNat 2 (runStateCode x.runState) ++ BitVec.ofNat 2 (conditionCode x.condition) ++ flagBit (s.isHeld l)
    ++ flagBit x.reservation.isSome ++ BitVec.ofNat 3 (phaseCode x.phase) ++ BitVec.ofNat 2 (faultCauseCode x.faultCause)
    ++ flagBit (x.active == .one) ++ flagBit x.swapPending ++ (0 : BitVec 3)

/-- LINE STATUS word 2: directed count and slot cursor (R137). -/
def State.lineStatus2 (s : State) (l : Line) : Word :=
  BitVec.ofNat 4 (s.line l).directed.length ++ (0 : BitVec 5) ++ BitVec.ofNat 7 (s.line l).cursor

/-- LINE STATUS word 3: alert-set count (R137). -/
def State.lineStatus3 (s : State) (l : Line) : Word :=
  BitVec.ofNat 16 (s.line l).alertSet.length

/-- The word a LINE STATUS register shows (R137). -/
def State.lineStatus (s : State) (l : Line) (k : Nat) : Word :=
  match k with
  | 0 => s.lineStatus0 l
  | 1 => (s.line l).cycleNumber
  | 2 => s.lineStatus2 l
  | _ => s.lineStatus3 l

/-- The word a register holds as the host reads it, at each address of the window (Table 9-1, Table 11-7). A read of
QUEUE DATA, TABLE DATA or PART STATUS has effects besides, which are rows of their own (R146); every other read has
none. -/
def State.readyRegister (s : State) (address : Nat) : Word :=
  match address with
  | 0x00 => s.partStatus
  | 0x01 => s.window.command
  | 0x02 => s.window.param0
  | 0x03 => s.window.param1
  | 0x04 => s.window.param2
  | 0x05 => s.window.param3
  | 0x06 => BitVec.ofNat 16 (resultCode s.window.result)
  | 0x07 => s.window.resultDetail
  | 0x08 => s.window.tableRegion ++ s.window.tableIndex
  | 0x09 => if s.live then s.tableWord s.window.tableRegion s.window.tableIndex.toNat else 0
  | 0x0A => if s.live && decide (s.queue.drainMode ≠ .dma) then s.cursorWord.getD 0 else 0
  | 0x0B => BitVec.ofNat 16 s.recordCount
  | 0x0C => BitVec.ofNat 16 s.wordsUsed
  | 0x0D => BitVec.ofNat 16 s.wordsReserved
  | 0x0E => s.headSizeAndCursor
  | 0x0F => s.drainAndThreshold
  | 0x10 => (0 : BitVec 4) ++ s.pendingCauses
  | 0x11 => (0 : BitVec 4) ++ s.interrupts.enables
  | 0x12 => BitVec.ofNat 16 s.identity
  | 0x14 => s.lineStatus .a 0
  | 0x15 => s.lineStatus .a 1
  | 0x16 => s.lineStatus .a 2
  | 0x17 => s.lineStatus .a 3
  | 0x18 => s.lineStatus .b 0
  | 0x19 => s.lineStatus .b 1
  | 0x1A => s.lineStatus .b 2
  | 0x1B => s.lineStatus .b 3
  | _ => 0

/-- The word a host read of the register at an address returns: 0000H while the reset input is asserted (R156). -/
def State.readRegister (s : State) (address : BitVec 5) : Word :=
  if s.window.resetInput then 0 else s.readyRegister address.toNat

/-- A read of PART STATUS returns the flag as it stands and then clears it (R148). -/
def State.partStatusRead (s : State) : State :=
  if s.window.resetInput then s.drive 0
  else (s.drive s.partStatus).modWindow (fun w => { w with tableRefused := false })

/-- Meaning of PART_STATUS_READ. -/
def execPartStatusRead (s : State) : Host.Outcome State Fault Refusal :=
  .next s.partStatusRead

/-! ### Register writes -/

/-- A write of INT ENABLE keeps bits 11-0; it is ignored during INIT (R163, R157, R170). -/
def State.intEnableWrite (s : State) (w : Word) : State :=
  s.whenLive (fun t => { t with interrupts := { t.interrupts with enables := w.extractLsb' 0 12 } })

/-- Meaning of INT_ENABLE_WRITE. -/
def execIntEnableWrite (value : Word) (s : State) : Host.Outcome State Fault Refusal :=
  .next (s.intEnableWrite value)

/-- A write of INT ACK clears the latched cause it names; QUEUE THRESHOLD and other words have no effect (R165). -/
def State.intAckWrite (s : State) (w : Word) : State :=
  s.whenLive (fun t =>
    match causeOfCode w with
    | none => t
    | some .queueThreshold => t
    | some c => { t with interrupts := t.interrupts.clear c })

/-- Meaning of INT_ACK_WRITE. -/
def execIntAckWrite (value : Word) (s : State) : Host.Outcome State Fault Refusal :=
  .next (s.intAckWrite value)

/-- A host write of the register at an address (R147). PARAM and TABLE ADDRESS store the word; COMMAND, TABLE DATA,
INT ENABLE and INT ACK act as their own rows (log entry 17); every other write is ignored. -/
def State.registerWrite (s : State) (address : BitVec 5) (w : Word) : State :=
  if s.window.resetInput then s
  else
    match address.toNat with
    | 0x01 => s.writeCommand w
    | 0x02 => s.modWindow (fun x => { x with param0 := w })
    | 0x03 => s.modWindow (fun x => { x with param1 := w })
    | 0x04 => s.modWindow (fun x => { x with param2 := w })
    | 0x05 => s.modWindow (fun x => { x with param3 := w })
    | 0x08 => s.modWindow (fun x => { x with tableRegion := w.extractLsb' 12 4, tableIndex := w.extractLsb' 0 12 })
    | 0x09 => s.tableDataWrite w
    | 0x11 => s.intEnableWrite w
    | 0x13 => s.intAckWrite w
    | _ => s

/-- Meaning of REGISTER_WRITE. -/
def execRegisterWrite (address : BitVec 5) (value : Word) (s : State) : Host.Outcome State Fault Refusal :=
  .next (s.registerWrite address value)

end Sys2Proof.Machine
end

