-- ==== Sys2Proof/Machine/Dispatch.lean ====
section
/-! DEFINITION. The meaning of each row of the opcode table, one arm per constructor. -/

namespace Sys2Proof.Machine

/-- The effect of a command on everything but the queue of commands. -/
def exec (i : Instr) (s : State) : Host.Outcome State Fault Refusal :=
  match i with
  | .hardwareResetAssert => Sys2Proof.Machine.execHardwareResetAssert s
  | .hardwareResetRelease => Sys2Proof.Machine.execHardwareResetRelease s
  | .initEnd => Sys2Proof.Machine.execInitEnd s
  | .stationConfigure => Sys2Proof.Machine.execStationConfigure s
  | .stationEnable => Sys2Proof.Machine.execStationEnable s
  | .stationDisable => Sys2Proof.Machine.execStationDisable s
  | .stationClear => Sys2Proof.Machine.execStationClear s
  | .stationZeroCounts => Sys2Proof.Machine.execStationZeroCounts s
  | .listSwap => Sys2Proof.Machine.execListSwap s
  | .submit => Sys2Proof.Machine.execSubmit s
  | .queueRelease => Sys2Proof.Machine.execQueueRelease s
  | .queueFlush => Sys2Proof.Machine.execQueueFlush s
  | .queueSetThreshold => Sys2Proof.Machine.execQueueSetThreshold s
  | .drainMode => Sys2Proof.Machine.execDrainMode s
  | .lineSet => Sys2Proof.Machine.execLineSet s
  | .lineStart => Sys2Proof.Machine.execLineStart s
  | .lineStop => Sys2Proof.Machine.execLineStop s
  | .lineHalt => Sys2Proof.Machine.execLineHalt s
  | .lineReset => Sys2Proof.Machine.execLineReset s
  | .partReset => Sys2Proof.Machine.execPartReset s
  | .unknownCommand code => Sys2Proof.Machine.execUnknownCommand code s
  | .queueDataRead => Sys2Proof.Machine.execQueueDataRead s
  | .tableDataRead => Sys2Proof.Machine.execTableDataRead s
  | .tableDataWrite value => Sys2Proof.Machine.execTableDataWrite value s
  | .partStatusRead => Sys2Proof.Machine.execPartStatusRead s
  | .intEnableWrite value => Sys2Proof.Machine.execIntEnableWrite value s
  | .intAckWrite value => Sys2Proof.Machine.execIntAckWrite value s
  | .registerWrite address value => Sys2Proof.Machine.execRegisterWrite address value s
  | .dackStrobe overlap => Sys2Proof.Machine.execDackStrobe overlap s
  | .startDetected l => Sys2Proof.Machine.execStartDetected l s
  | .character l value framing => Sys2Proof.Machine.execCharacter l value framing s
  | .waitMarkEnd l => Sys2Proof.Machine.execWaitMarkEnd l s
  | .quietReached l => Sys2Proof.Machine.execQuietReached l s
  | .noiseLimitExpiry l => Sys2Proof.Machine.execNoiseLimitExpiry l s
  | .transmitCharacterEnd l => Sys2Proof.Machine.execTransmitCharacterEnd l s
  | .responseTimeout l => Sys2Proof.Machine.execResponseTimeout l s
  | .gapLimitExpiry l => Sys2Proof.Machine.execGapLimitExpiry l s
  | .backoffEnd l => Sys2Proof.Machine.execBackoffEnd l s
  | .settleEnd l => Sys2Proof.Machine.execSettleEnd l s
  | .intervalElapsed l => Sys2Proof.Machine.execIntervalElapsed l s
  | .unitStart l => Sys2Proof.Machine.execUnitStart l s
  | .deferredDisable station => Sys2Proof.Machine.execDeferredDisable station s
  | .stoppingLineStopped l => Sys2Proof.Machine.execStoppingLineStopped l s
  | .holdListGrant => Sys2Proof.Machine.execHoldListGrant s
  | .workSelection l => Sys2Proof.Machine.execWorkSelection l s
  | .pendingSwapTakesEffect l => Sys2Proof.Machine.execPendingSwapTakesEffect l s
  | .cycleStart l => Sys2Proof.Machine.execCycleStart l s

end Sys2Proof.Machine
end

