-- ==== Sys2Proof/Machine/Step.lean ====
section
/-! DEFINITION. One step of the part: the command at the front of the queue, or one reference period when none waits. -/

namespace Sys2Proof.Machine

/-- The state with the command that a word spells put at the front of its queue; no row of the table gives bits, so no
word spells one (spec/opcode_table.json). -/
def State.withFetchWord (s : State) (nbits w : Nat) : State :=
  match decodeTableWord nbits w with
  | some c => { s with pending := c :: s.pending }
  | none => s

/-- One step: the command at the front of the queue is taken and executed with the queue's rest; while the queue is
empty one period of the reference clock passes (log entry 2). -/
def step (s : State) : Host.Outcome State Fault Refusal :=
  match s.pending with
  | [] => .next s.passTime
  | c :: rest => exec c { s with pending := rest }

end Sys2Proof.Machine
end

