-- ==== Sys2Proof/Safety.lean ====
section
/-! DEFINITION. What the claims are stated in: the trace a command leaves in the command slot, what the engine leaves
alone when it selects work, and the properties that every step keeps. -/

namespace Sys2Proof.Machine

/-! ### The command slot -/

/-- The state with the command slot as the decision of a command leaves it (R153). -/
def State.decided (s : State) (code : Word) (r : Result) (detail : Nat) : State :=
  { s with window := { s.window with command := code, result := r, resultDetail := BitVec.ofNat 16 detail } }

/-- The command rows with the codes whose writes to COMMAND they are (Table 11-11). -/
def commandRows : List (Instr × Word) :=
  [(.stationConfigure, 0x0010), (.stationEnable, 0x0011), (.stationDisable, 0x0012), (.stationClear, 0x0013),
    (.stationZeroCounts, 0x0014), (.listSwap, 0x0020), (.submit, 0x0021), (.queueRelease, 0x0030),
    (.queueFlush, 0x0031), (.queueSetThreshold, 0x0032), (.drainMode, 0x0033), (.lineSet, 0x0040),
    (.lineStart, 0x0041), (.lineStop, 0x0042), (.lineHalt, 0x0043), (.lineReset, 0x0044), (.partReset, 0x00A5)]

/-- The event rows of the line engines, the receivers and the timers of a line: they have no effect while the part is
held in reset or in INIT, but for those of the receivers, which act in INIT too (R156, R157). -/
def engineRows (l : Line) : List Instr :=
  [.quietReached l, .noiseLimitExpiry l, .transmitCharacterEnd l, .responseTimeout l, .gapLimitExpiry l, .backoffEnd l,
    .settleEnd l, .intervalElapsed l, .unitStart l, .stoppingLineStopped l, .holdListGrant, .workSelection l,
    .pendingSwapTakesEffect l, .cycleStart l]

/-! ### What work selection and serving leave alone -/

/-- What an entry keeps when units are selected and started: all but the in-service mark, which is only set. -/
def Entry.onlyServed (e f : Entry) : Prop :=
  f = { e with inService := f.inService } ∧ (e.inService = true → f.inService = true)

/-- What a line keeps when units are selected and started: its parameters, run state, fault cause, receiver, shifter,
contention count, banks and submit buffer; a pending swap is only taken, never made; the alert set and the directed
queue only lose members from those they had. -/
structure LineEngine.Selected (x y : LineEngine) : Prop where
  params : y.params = x.params
  runState : y.runState = x.runState
  faultCause : y.faultCause = x.faultCause
  receiver : y.receiver = x.receiver
  shifter : y.shifter = x.shifter
  contention : y.contention = x.contention
  bankZero : y.bankZero = x.bankZero
  bankOne : y.bankOne = x.bankOne
  submitBuffer : y.submitBuffer = x.submitBuffer
  swap : y.swapPending = true → x.swapPending = true
  directed : y.directed <:+ x.directed
  alertSet : y.alertSet.Sublist x.alertSet

/-- What the part keeps when units are selected and started and the hold list is served (R97, R112): the host window,
the enables, the drain mode and the threshold, the commands not yet taken; the records stay in their order, new ones
behind them; no latched cause is cleared; the lines and the station entries keep what the two definitions above say. -/
structure State.Selected (s t : State) : Prop where
  window : t.window = s.window
  pending : t.pending = s.pending
  enables : t.interrupts.enables = s.interrupts.enables
  latched : s.interrupts.latched &&& t.interrupts.latched = s.interrupts.latched
  drainMode : t.queue.drainMode = s.queue.drainMode
  threshold : t.queue.threshold = s.queue.threshold
  records : s.queue.records <+: t.queue.records
  cursor : s.queue.records ≠ [] → t.queue.cursor = s.queue.cursor
  lines : ∀ l, (s.line l).Selected (t.line l)
  entries : ∀ i, (s.entry i).onlyServed (t.entry i)

/-! ### What every event of the engines leaves alone -/

/-- What an entry keeps whatever the engines do: its configuration (R42). -/
def Entry.SameConfiguration (e f : Entry) : Prop :=
  f.line = e.line ∧ f.address = e.address ∧ f.retryLimit = e.retryLimit ∧ f.failThreshold = e.failThreshold ∧
    f.alertFollowUp = e.alertFollowUp

/-- What a line keeps whatever the engines do: its parameters, the contents of both banks, the submit buffer; a pending
swap is only taken, never made; the directed queue only loses entries from its head. -/
structure LineEngine.Evolves (x y : LineEngine) : Prop where
  params : y.params = x.params
  bankZero : y.bankZero = x.bankZero
  bankOne : y.bankOne = x.bankOne
  submitBuffer : y.submitBuffer = x.submitBuffer
  swap : y.swapPending = true → x.swapPending = true
  directed : y.directed <:+ x.directed

/-- What the part keeps in every event of a line engine, a receiver, a transmitter or a timer: the host window, the
enables, the drain mode and the threshold, the commands not yet taken; every record, in its order, with the read
cursor; no latched cause is cleared; lines and entries keep what the two definitions above say. -/
structure State.Evolves (s t : State) : Prop where
  window : t.window = s.window
  pending : t.pending = s.pending
  enables : t.interrupts.enables = s.interrupts.enables
  latched : s.interrupts.latched &&& t.interrupts.latched = s.interrupts.latched
  drainMode : t.queue.drainMode = s.queue.drainMode
  threshold : t.queue.threshold = s.queue.threshold
  records : s.queue.records <+: t.queue.records
  cursor : s.queue.records ≠ [] → t.queue.cursor = s.queue.cursor
  lines : ∀ l, (s.line l).Evolves (t.line l)
  entries : ∀ i, (s.entry i).SameConfiguration (t.entry i)

/-! ### What is written into the queue -/

/-- From s to t the queue grew by the records `own` and, behind them, by records of the other line alone: line l wrote
no others. -/
def State.WroteThen (l : Line) (own : List Record) (s t : State) : Prop :=
  ∃ added, t.queue.records = s.queue.records ++ own ++ added ∧ ∀ r ∈ added, r.line ≠ l

/-- Nobody waits for words that are free: the hold list is empty, or the request of its head does not fit (R112). -/
def State.HoldListServed (s : State) : Prop :=
  ∀ h ∈ s.queue.holdList.head?, 1024 < s.wordsUsed + s.wordsReserved + h.request

/-! ### What a visit outcome does to an entry -/

/-- The entry after a visit outcome, out of service, and the cause of the STATE record if its state changed, as R57,
R58 and R59 give them. -/
def visitOutcome (e : Entry) (o : UnitEnd) : Entry × Option RecordCause :=
  let out := { e with inService := false }
  let answered := { out with answered := min (e.answered + 1) 65535, consecutive := 0, state := .online }
  match o with
  | .good _ => (answered, if e.state = .online then none else some .good)
  | .deferred _ => (answered, if e.state = .online then none else some .deferred)
  | .failed f =>
    if e.state = .offline then (out, none)
    else if e.consecutive + 1 = e.failThreshold then
      ({ out with consecutive := e.failThreshold, state := .offline }, some (failingCause f))
    else if e.state = .online then
      ({ out with consecutive := e.consecutive + 1, state := .suspect }, some (failingCause f))
    else ({ out with consecutive := e.consecutive + 1 }, none)
  | .settled => (out, none)
  | .aborted => (out, none)
  | .lineFault => (out, none)

/-! ### Properties every step keeps -/

/-- The seven parameters stand in the ranges of Table 7-2 (R126). -/
def Params.InRange (p : Params) : Prop :=
  p.rate ≤ 4095 ∧ (2 ≤ p.response ∧ p.response ≤ 255) ∧ (2 ≤ p.settle ∧ p.settle ≤ 255) ∧ p.interval ≤ 65535
    ∧ (1 ≤ p.probe ∧ p.probe ≤ 64) ∧ (1 ≤ p.burst ∧ p.burst ≤ 8)

/-- Both lines' parameters stand in their ranges. -/
def State.ParamsInRange (s : State) : Prop :=
  ∀ l, (s.line l).params.InRange

/-- An entry's configuration stands in the ranges of Table 3-1 once it has been configured, and within its upper bounds
always; an idle entry has no
consecutive failures and no marks; OFFLINE goes with as many consecutive failures as the threshold (R58), ONLINE with
none; the counts stay within 65535 (R60); disable-pending goes with the in-service mark (R51). -/
structure Entry.Legal (e : Entry) : Prop where
  stored : e.address ≤ 62 ∧ e.retryLimit ≤ 7 ∧ e.failThreshold ≤ 15
  configured : e.state ≠ .unconfigured →
    1 ≤ e.address ∧ 1 ≤ e.failThreshold
  idle : isWorking e.state = false → e.consecutive = 0 ∧ e.inService = false ∧ e.disablePending = false
  failures : e.consecutive ≤ e.failThreshold
  offline : isWorking e.state = true → (e.state = .offline ↔ e.consecutive = e.failThreshold)
  online : e.state = .online → e.consecutive = 0
  answered : e.answered ≤ 65535
  failed : e.failedAttempts ≤ 65535
  pendingServed : e.disablePending = true → e.inService = true

/-- Every station entry is legal. -/
def State.EntriesLegal (s : State) : Prop :=
  ∀ i, (s.entry i).Legal

/-- No two entries that are not UNCONFIGURED have the same line and line address (R47). -/
def State.NoSharedAddress (s : State) : Prop :=
  ∀ i j, i ≠ j → (s.entry i).state ≠ .unconfigured → (s.entry j).state ≠ .unconfigured →
    (s.entry i).line = (s.entry j).line → (s.entry i).address ≠ (s.entry j).address

/-- A bank that passes the validation of LIST SWAP (R67 step 2). -/
def Bank.Valid (b : Bank) : Prop :=
  b.swapRefusal = none

/-- The active bank of each line passed validation, and so did the shadow while its swap is pending (R64, R67). -/
def State.ListsValid (s : State) : Prop :=
  ∀ l, (s.line l).activeBank.Valid ∧ ((s.line l).swapPending = true → (s.line l).shadowBank.Valid)

/-- A directed entry within the ranges SUBMIT admits (R85): at most 40 bytes, as many as it says. -/
def DirectedEntry.Legal (e : DirectedEntry) : Prop :=
  e.count ≤ Config.maxPayload ∧
    match e.kind with
    | .poll => e.payload = []
    | .set => e.payload.length = e.count
    | .bcast => e.payload.length = e.count ∧ e.station = 0

/-- Each directed queue holds at most 8 entries, each legal (R86, R87). -/
def State.DirectedLegal (s : State) : Prop :=
  ∀ l, (s.line l).directed.length ≤ Config.directedDepth ∧ ∀ e ∈ (s.line l).directed, e.Legal

/-- A unit asks for no more than 40 bytes. -/
def Work.Legal (w : Work) : Prop :=
  match w with
  | .visit _ _ _ limit => limit ≤ Config.maxPayload
  | .alert _ => True
  | .directed e => e.Legal
  | .mark _ _ => True

/-- A mark is never in progress between two steps: it completes as it starts (Table 2-1 note b). -/
def Work.isMark (w : Work) : Bool :=
  match w with
  | .visit _ _ _ _ => false
  | .alert _ => false
  | .directed _ => false
  | .mark _ _ => true

/-- What Table 7-1 says of a line in its run state, and what binds its unit, reservation, pending unit and phase: a unit
in progress holds the reservation it asked for, a pending unit holds none; without a unit the phase is IDLE. -/
structure LineEngine.Coherent (x : LineEngine) : Prop where
  rest : x.runState = .stopped ∨ x.runState = .faulted → x.current = none ∧ x.chosen = none
  stopping : x.runState = .stopping → x.current.isSome = true
  condition : x.condition = .none ↔ x.runState ≠ .running
  faultCause : x.faultCause = .none ↔ x.runState ≠ .faulted
  reserved : x.reservation = x.current.map (fun c => workRequest c.work)
  oneUnit : x.chosen.isSome = true → x.current = none
  phase : x.current = none → x.phase = .idle .none
  currentLegal : ∀ c, x.current = some c → c.work.Legal ∧ c.work.isMark = false
  chosenLegal : ∀ w, x.chosen = some w → w.Legal

/-- The hold list names each line at most once, and names exactly the lines with a pending unit, each with the words its
unit asks for (R111). -/
structure State.HoldListCoherent (s : State) : Prop where
  once : (s.queue.holdList.map HoldEntry.line).Nodup
  listed : ∀ l, (∃ n, (⟨l, n⟩ : HoldEntry) ∈ s.queue.holdList) ↔ (s.line l).chosen.isSome = true
  request : ∀ h ∈ s.queue.holdList, ∀ w, (s.line h.line).chosen = some w → h.request = workRequest w

/-- Run states, units, reservations and the hold list agree on both lines; the queues and lists the units come from are
legal. -/
structure State.Coherent (s : State) : Prop where
  lines : ∀ l, (s.line l).Coherent
  hold : s.HoldListCoherent
  lists : s.ListsValid
  directed : s.DirectedLegal

/-- Words used and words reserved together never exceed the store (R109). -/
def State.StoreBounded (s : State) : Prop :=
  s.wordsUsed + s.wordsReserved ≤ Config.storeWords

/-- The in-service mark stands on an entry exactly while the unit in progress of its own line targets it (R55). -/
def State.ServiceOwned (s : State) : Prop :=
  ∀ i, (s.entry i).inService = true ↔
    ∃ l c, (s.line l).current = some c ∧ workStation c.work = some i ∧ (s.entry i).line = l

/-- The unit in progress of a line targets a station of that line. -/
def State.UnitsOwnStations (s : State) : Prop :=
  ∀ l c i, (s.line l).current = some c → workStation c.work = some i →
    (s.entry i).line = l ∧ isWorking (s.entry i).state = true ∧ (s.entry i).inService = true

/-- Each alert set stands in ascending order, each station once, and its members are ONLINE or SUSPECT stations of the
line (R92, R93). -/
def State.AlertsLegal (s : State) : Prop :=
  ∀ l, (s.line l).alertSet.Pairwise (· < ·) ∧
    ∀ i ∈ (s.line l).alertSet, (s.entry i).line = l ∧ ((s.entry i).state = .online ∨ (s.entry i).state = .suspect)

/-- The read cursor lies within the head record, and is 0 on an empty queue (R115). -/
def State.CursorLegal (s : State) : Prop :=
  s.queue.cursor ≤ s.headSize

/-- QUEUE THRESHOLD is a level and is never latched (R162). -/
def State.NoThresholdLatch (s : State) : Prop :=
  s.interrupts.latched &&& causeBit .queueThreshold = 0

end Sys2Proof.Machine
end

