-- ==== Sys2Proof/WellFormed.lean ====
section
/-! DEFINITION. When a term of Instr stands for exactly its row of the opcode table. -/

namespace Sys2Proof

/-- The registers whose writes are rows of their own: COMMAND, TABLE DATA, INT ENABLE and INT ACK (Table 9-1). -/
def rowRegisters : List (BitVec 5) :=
  [0x01#5, 0x09#5, 0x11#5, 0x13#5]

/-- UNKNOWN_COMMAND carries a word that names no command (R154); REGISTER_WRITE is a write of a register whose
writes have no row of their own (R147). Every other term is well formed: its operands fill their types. -/
def Instr.wellFormed : Instr → Bool
  | .hardwareResetAssert => true
  | .hardwareResetRelease => true
  | .initEnd => true
  | .stationConfigure => true
  | .stationEnable => true
  | .stationDisable => true
  | .stationClear => true
  | .stationZeroCounts => true
  | .listSwap => true
  | .submit => true
  | .queueRelease => true
  | .queueFlush => true
  | .queueSetThreshold => true
  | .drainMode => true
  | .lineSet => true
  | .lineStart => true
  | .lineStop => true
  | .lineHalt => true
  | .lineReset => true
  | .partReset => true
  | .unknownCommand code => (Machine.commandOfCode code).isNone
  | .queueDataRead => true
  | .tableDataRead => true
  | .tableDataWrite _ => true
  | .partStatusRead => true
  | .intEnableWrite _ => true
  | .intAckWrite _ => true
  | .registerWrite address _ => !rowRegisters.contains address
  | .dackStrobe _ => true
  | .startDetected _ => true
  | .character _ _ _ => true
  | .waitMarkEnd _ => true
  | .quietReached _ => true
  | .noiseLimitExpiry _ => true
  | .transmitCharacterEnd _ => true
  | .responseTimeout _ => true
  | .gapLimitExpiry _ => true
  | .backoffEnd _ => true
  | .settleEnd _ => true
  | .intervalElapsed _ => true
  | .unitStart _ => true
  | .deferredDisable _ => true
  | .stoppingLineStopped _ => true
  | .holdListGrant => true
  | .workSelection _ => true
  | .pendingSwapTakesEffect _ => true
  | .cycleStart _ => true

end Sys2Proof
end

