-- ==== Sys2Proof/Certificates/Slice0/Obligations.lean ====
section
/-! DEFINITION. The statements for the provers. -/

open Sys2Proof Sys2Proof.Machine

/-- For every command c, queue rest and state s: a step of s with c at the front of its queue is exec of c on s with
the rest of the queue. -/
def Obligations.StepTakesFront : Prop :=
  ∀ (c : Instr) (rest : List Instr) (s : State),
    step { s with pending := c :: rest } = exec c { s with pending := rest }

/-- DE of a line is asserted exactly while a character is in its shifter; without one TXD is at mark; with one TXD
is, by bit times since its window opened, one bit of DE lead at mark if it is the first of the transmission, the
start bit at space, eight data bits least significant first, the stop bit at mark. With no command waiting a step
answers a next state with no command waiting. While the reset input is asserted nothing changes. Otherwise, on each
line, the quiet count grows by one in HUNT (else it is 0), as do the noise limit, the running response, gap, backoff
and settle timers, the periods of the character in the shifter, and, RUNNING and IN CYCLE or WAITING, the interval
timer up to 65536 CT. In INIT nothing else changes but the readiness: INIT ends when it has lasted 4096 periods
(R156). In READY nothing else changes while no time has come; the time comes, the first of these that applies
deciding, when a character has stood 10 bit times (11 with the lead), quiet has reached 3 CT in HUNT, the noise limit
has reached 64 CT with quiet below 3 CT, the response timer has reached RESPONSE, the gap timer has passed 2 CT, the
backoff has reached 8 CT, the settle time SETTLE, or, on a free WAITING line, the interval timer the larger of
INTERVAL and 1 CT. The row of that event is then executed, and once more on the line if a second time has come; when
both lines have one, the line of Config.raceFirst comes first, and where the line that comes second writes the two
records of a unit, its own record stands before a free number of the records the first has written last, its STATE
record behind them (R107). That an idle step is one period, and its exactness, are the model's choices, log entries 2
and 3; the orders are free, log entries 6 and 24; log entry 18 has INIT end at the 4096th period. -/
def Obligations.StepIdlePassesOnePeriod : Prop :=
  (∀ (s : State) (l : Line),
    ((s.line l).shifter = none → s.txd l = true ∧ s.de l = false) ∧
    ∀ r, (s.line l).shifter = some r →
      let bits := r.elapsed / r.bitPeriods
      let lead := if r.lead = true then 1 else 0
      s.de l = true ∧ (bits < lead → s.txd l = true) ∧ (bits = lead → s.txd l = false) ∧
      (∀ k < 8, bits = lead + 1 + k → s.txd l = r.char.getLsbD k) ∧ (lead + 9 ≤ bits → s.txd l = true)) ∧
  ∀ s : State, s.pending = [] →
    let ct (x : LineEngine) : Nat := 160 * (x.params.rate + 1)
    let later (x : LineEngine) : LineEngine :=
      { x with
        phase := match x.phase with
          | .idle .none => .idle .none
          | .idle .fallOfDe => .idle .fallOfDe
          | .idle (.backoff n) => .idle (.backoff (n + 1))
          | .idle (.settle n) => .idle (.settle (n + 1))
          | .guard quiet noise => .guard (if x.receiver = .hunt then quiet + 1 else 0) (noise + 1)
          | .send k e => .send k e
          | .sendWaiting => .sendWaiting
          | .await none => .await none
          | .await (some n) => .await (some (n + 1))
          | .receive buffer crc none => .receive buffer crc none
          | .receive buffer crc (some n) => .receive buffer crc (some (n + 1))
        shifter := x.shifter.map (fun r => { r with elapsed := r.elapsed + 1 })
        interval := if x.runState = .running ∧ (x.condition = .inCycle ∨ x.condition = .waiting) then
            min (x.interval + 1) (65536 * ct x)
          else x.interval }
    let sent (x : LineEngine) : Prop :=
      ∃ r, x.shifter = some r ∧ r.bitPeriods * (if r.lead = true then 11 else 10) ≤ r.elapsed
    let timer (l : Line) (x : LineEngine) (c : Instr) : Prop :=
      (∃ quiet noise, x.phase = .guard quiet noise ∧
        (3 * ct x ≤ quiet ∧ x.receiver = .hunt ∧ c = .quietReached l ∨
          quiet < 3 * ct x ∧ 64 * ct x ≤ noise ∧ c = .noiseLimitExpiry l)) ∨
      (∃ n, x.phase = .await (some n) ∧ x.params.response * ct x ≤ n ∧ c = .responseTimeout l) ∨
      (∃ b r n, x.phase = .receive b r (some n) ∧ 2 * ct x < n ∧ c = .gapLimitExpiry l) ∨
      (∃ n, x.phase = .idle (.backoff n) ∧ 8 * ct x ≤ n ∧ c = .backoffEnd l) ∨
      ∃ n, x.phase = .idle (.settle n) ∧ x.params.settle * ct x ≤ n ∧ c = .settleEnd l
    let due (l : Line) (t : State) (c : Instr) : Prop :=
      let x := t.line l
      sent x ∧ c = .transmitCharacterEnd l ∨
      ¬ sent x ∧ timer l x c ∨
      ¬ sent x ∧ (∀ d, ¬ timer l x d) ∧ x.runState = .running ∧ x.current = none ∧ x.chosen = none ∧
        x.condition = .waiting ∧ max x.params.interval 1 * ct x ≤ x.interval ∧ c = .intervalElapsed l
    let oneUnit (own change : Record) : Prop :=
      own.line = change.line ∧ (∃ l o i old new cause n, change = .state l o i old new cause n) ∧
      ((∃ l o i g r a p n, own = .data l o i g r a p n) ∨ (∃ l i g r a b n, own = .confirm l i g r a b n) ∨
        ∃ l i g r cause n, own = .fault l i g r cause n)
    let adv : State := { s with lineA := later s.lineA, lineB := later s.lineB }
    ∃ t, step s = .next t ∧ t.pending = [] ∧
      (s.window.resetInput = true → t = s) ∧
      (s.window.resetInput = false → ∀ n, s.window.readiness = .init n →
        t = { adv with window := { s.window with readiness := if 4096 ≤ n + 1 then .ready else .init (n + 1) } }) ∧
      (s.window.resetInput = false → s.window.readiness = .ready →
        t.window = s.window ∧
        ((∀ l c, ¬ due l adv c) → t = adv) ∧
        (∀ l c, due l adv c → (∀ m d, m ≠ l → ¬ due m adv d) → ∃ u, exec c adv = .next u ∧
          ((∀ m d, ¬ due m u d) → t = u) ∧
          ∀ d, due l u d → ∃ v, exec d u = .next v ∧ ((∀ m d, m ≠ l → ¬ due m v d) → t = v)) ∧
        (∀ l m c, due l adv c → (∃ d, due m adv d) → m ≠ l → (Config.raceFirst s.raceCount = true ↔ l = .a) →
          ∃ u, exec c { adv with raceCount := s.raceCount + 1 } = .next u ∧
            ((∀ d, ¬ due l u d) → ∀ d, due m u d → ∃ v, exec d u = .next v ∧ ((∀ d, ¬ due m v d) →
              ((∀ own change rest, v.queue.records = u.queue.records ++ own :: change :: rest →
                  ¬ oneUnit own change) → t = v) ∧
              ∀ own change rest, v.queue.records = u.queue.records ++ own :: change :: rest → oneUnit own change →
                ∃ front back, u.queue.records = s.queue.records ++ front ++ back ∧
                  (∀ n < back.length, Config.raceFirst (v.raceCount + n) = true) ∧
                  (front ≠ [] → Config.raceFirst (v.raceCount + back.length) = false) ∧
                  t = { v with
                    raceCount := v.raceCount + (front ++ back).length
                    queue := { v.queue with
                      records := s.queue.records ++ front ++ own :: back ++ change :: rest
                      cursor := if s.queue.records = [] then 0 else v.queue.cursor } }))))

/-- For every command and every state, exec answers a next state, and the commands not yet taken stand in it as they
stood. That they stand over HARDWARE_RESET_ASSERT and PART_RESET as well is the DESIGN CHOICE of log entry 21, no
rule of the spec; that the queue is no state of the part is the same entry. -/
def Obligations.EveryCommandAnswersNext : Prop :=
  ∀ (c : Instr) (s : State), ∃ t, exec c s = .next t ∧ t.pending = s.pending

/-- From every state HARDWARE_RESET_ASSERT answers the state of Table 9-5 with the reset input asserted.
HARDWARE_RESET_RELEASE with the input asserted begins INIT with its full length and changes nothing else; with the
input not asserted it changes nothing (log entry 5). INIT_END makes the part READY and changes nothing else, raising
no cause; under the reset input it changes nothing. PART_RESET in READY answers the state of Table 9-5, RESULT NONE
with detail 0 among it, INIT at its beginning. Through both resets the commands not yet taken and the counter of free
orders stand (the model's own fields, log entries 6 and 21). -/
def Obligations.ResetRowsAct : Prop :=
  ∀ s : State,
    exec .hardwareResetAssert s = .next
      { State.reset with
        window := { State.reset.window with resetInput := true }, raceCount := s.raceCount, pending := s.pending } ∧
    (s.window.resetInput = true → exec .hardwareResetRelease s =
      .next { s with window := { s.window with resetInput := false, readiness := .init 0 } }) ∧
    (s.window.resetInput = false → exec .hardwareResetRelease s = .next s) ∧
    (s.window.resetInput = false → exec .initEnd s = .next { s with window := { s.window with readiness := .ready } }) ∧
    (s.window.resetInput = true → exec .initEnd s = .next s) ∧
    (s.live = true → exec .partReset s = .next { State.reset with raceCount := s.raceCount, pending := s.pending })

/-- At reset: every station entry UNCONFIGURED with every field 0; every bank of length 0 with slots 0, bank 0
active, no swap pending; both lines STOPPED, condition NONE, phase IDLE, fault cause NONE, their counters 0, no unit;
parameters RATE 51, RESPONSE 20, SETTLE 10, INTERVAL 0, PROBE 8, BURST 2, MARK OFF; TXD at mark, DE inactive,
receiver in WAIT-MARK; directed queues and alert sets empty, alert cursors 63, submit buffers 0000H; reply queue
empty, PIO-MANUAL, threshold 1, DREQ low; RESULT NONE, PARAM, COMMAND and TABLE ADDRESS 0, flag clear, INIT; no cause
pending, no enable, INT inactive. INIT just begun with the input not asserted is the model's reading (log entry 9). -/
def Obligations.ResetValues : Prop :=
  (∀ i, State.reset.entry i =
    { state := .unconfigured, line := .a, address := 0, retryLimit := 0, failThreshold := 0, alertFollowUp := false,
      inService := false, disablePending := false, consecutive := 0, answered := 0, failedAttempts := 0 }) ∧
  (∀ l, let x := State.reset.line l
    x.runState = .stopped ∧ x.condition = .none ∧ x.phase = .idle .none ∧ x.faultCause = .none ∧ x.cycleNumber = 0 ∧
    x.cursor = 0 ∧ x.visitCount = 0 ∧ x.burst = 0 ∧ x.contention = 0 ∧ x.current = none ∧ x.chosen = none ∧
    x.reservation = none ∧
    x.params = { rate := 51, response := 20, settle := 10, interval := 0, probe := 8, burst := 2, mark := false } ∧
    State.reset.txd l = true ∧ State.reset.de l = false ∧ x.receiver = .waitMark ∧ x.directed = [] ∧
    x.alertSet = [] ∧ x.alertCursor = 63 ∧ (∀ k : Fin 20, x.submitBuffer[k] = 0) ∧
    x.active = .zero ∧ x.swapPending = false ∧
    ∀ n, (x.bank n).length = 0 ∧
      ∀ k : Fin 96, (x.bank n).slots[k] = { station := 0, group := 0, limit := 0, divisor := 0 }) ∧
  State.reset.queue = { records := [], cursor := 0, holdList := [], drainMode := .pioManual, threshold := 1 } ∧
  State.reset.dreq = false ∧ State.reset.int = false ∧ State.reset.pendingCauses = 0 ∧
  State.reset.interrupts.enables = 0 ∧ State.reset.window.result = .none ∧ State.reset.window.resultDetail = 0 ∧
  State.reset.window.command = 0 ∧ State.reset.window.param0 = 0 ∧ State.reset.window.param1 = 0 ∧
  State.reset.window.param2 = 0 ∧ State.reset.window.param3 = 0 ∧ State.reset.window.tableRegion = 0 ∧
  State.reset.window.tableIndex = 0 ∧ State.reset.window.tableRefused = false ∧
  State.reset.window.readiness = .init 0

/-- During INIT each command row, and a write of any word to COMMAND, stores its code in COMMAND, RESULT becomes
NOTREADY with detail 0, and nothing else changes. In READY a word that names no command (UNKNOWN_COMMAND, well
formed) is stored in COMMAND, RESULT becomes UNKNOWN with the word as detail, and nothing else changes. -/
def Obligations.CommandSlotRefusals : Prop :=
  ∀ s : State,
    (∀ n, s.window.resetInput = false → s.window.readiness = .init n →
      (∀ p ∈ commandRows, exec p.1 s = .next (s.decided p.2 .notReady 0)) ∧
      ∀ code, exec (.unknownCommand code) s = .next (s.decided code .notReady 0)) ∧
    ∀ code, s.live = true → (Instr.unknownCommand code).wellFormed = true →
      exec (.unknownCommand code) s = .next (s.decided code .unknown code.toNat)

/-- With the reset input asserted: command rows, register writes, table writes, INT ENABLE and INT ACK writes and
receiver events change nothing; TABLE DATA and PART STATUS reads drive 0000H and change nothing else; every register
reads 0000H. With the reset input asserted, and in INIT as well: timers, transmitter, inner events, INT ENABLE and
INT ACK writes change nothing; a QUEUE DATA read and a DACK strobe drive 0000H and change nothing else. -/
def Obligations.NothingActsInReset : Prop :=
  ∀ s : State,
    (s.window.resetInput = true →
      (∀ p ∈ commandRows, exec p.1 s = .next s) ∧ (∀ code, exec (.unknownCommand code) s = .next s) ∧
      (∀ w, exec (.tableDataWrite w) s = .next s ∧ ∀ a, exec (.registerWrite a w) s = .next s) ∧
      (∀ l, exec (.startDetected l) s = .next s ∧ exec (.waitMarkEnd l) s = .next s ∧
        ∀ v f, exec (.character l v f) s = .next s) ∧
      exec .tableDataRead s = .next { s with window := { s.window with dataLines := 0 } } ∧
      exec .partStatusRead s = .next { s with window := { s.window with dataLines := 0 } } ∧
      ∀ a, s.readRegister a = 0) ∧
    (s.live = false →
      (∀ l, ∀ c ∈ engineRows l, exec c s = .next s) ∧ (∀ i, exec (.deferredDisable i) s = .next s) ∧
      (∀ w, exec (.intEnableWrite w) s = .next s ∧ exec (.intAckWrite w) s = .next s) ∧
      exec .queueDataRead s = .next { s with window := { s.window with dataLines := 0 } } ∧
      ∀ o, exec (.dackStrobe o) s = .next { s with window := { s.window with dataLines := 0 } })

/-- With the reset input not asserted: a write of PARAM 0 to 3 stores the word there, in INIT too; a write of TABLE
ADDRESS sets region (bits 15-12) and index (bits 11-0) and reaches no table word; a write of any read-only or unused
address changes nothing; a write of COMMAND, TABLE DATA, INT ENABLE or INT ACK acts as the row of its own (log entry
17). -/
def Obligations.RegisterWritesAct : Prop :=
  ∀ (s : State) (w : Word), s.window.resetInput = false →
    exec (.registerWrite 0x02 w) s = .next { s with window := { s.window with param0 := w } } ∧
    exec (.registerWrite 0x03 w) s = .next { s with window := { s.window with param1 := w } } ∧
    exec (.registerWrite 0x04 w) s = .next { s with window := { s.window with param2 := w } } ∧
    exec (.registerWrite 0x05 w) s = .next { s with window := { s.window with param3 := w } } ∧
    exec (.registerWrite 0x08 w) s =
      .next { s with window := { s.window with tableRegion := w.extractLsb' 12 4, tableIndex := w.extractLsb' 0 12 } } ∧
    (∀ a : BitVec 5, a ∉ [(0x01 : BitVec 5), 0x02, 0x03, 0x04, 0x05, 0x08, 0x09, 0x11, 0x13] →
      exec (.registerWrite a w) s = .next s) ∧
    exec (.registerWrite 0x01 w) s = exec (.unknownCommand w) s ∧
    exec (.registerWrite 0x09 w) s = exec (.tableDataWrite w) s ∧
    exec (.registerWrite 0x11 w) s = exec (.intEnableWrite w) s ∧
    exec (.registerWrite 0x13 w) s = exec (.intAckWrite w) s

/-- With the reset input not asserted. PART_STATUS_READ drives 4820H with the table-refused flag as it stands in bit
1 and INIT in bit 0 (Table 11-7); the flag is then clear, and nothing else changes. TABLE_DATA_READ drives the word
at the table address (0000H in INIT). After it and after TABLE_DATA_WRITE the index is one higher, 4095 rising to 0,
and the region is unchanged; a read, and in INIT a write, changes nothing else. What a write does to the word in
READY is left open here: TableWritesRefusedOrIgnored, BankWriteKeepsStoredFields and TableWordsLayout give it. -/
def Obligations.WindowReadsAct : Prop :=
  ∀ s : State, s.window.resetInput = false →
    exec .partStatusRead s =
      .next { s with window := { s.window with tableRefused := false, dataLines := s.partStatus } } ∧
    s.partStatus = 0x4820 + (if s.window.tableRefused then 2 else 0) + (if s.window.readiness = .ready then 0 else 1) ∧
    exec .tableDataRead s = .next { s with window := { s.window with
      dataLines := if s.window.readiness = .ready then s.tableWord s.window.tableRegion s.window.tableIndex.toNat else 0
      tableIndex := s.window.tableIndex + 1 } } ∧
    ∀ w, ∃ t, exec (.tableDataWrite w) s = .next t ∧ t.window.tableIndex = s.window.tableIndex + 1 ∧
      t.window.tableRegion = s.window.tableRegion ∧
      (s.window.readiness ≠ .ready →
        t = { s with window := { s.window with tableIndex := s.window.tableIndex + 1 } })

/-- For a legal entry k, the words at indexes 4k to 4k + 3 of region 0 hold: state code in bits 15-13, line in bit
12, follow-up enable, alert pending, in-service and disable-pending marks in bits 11 to 8, bits 7-6 zero, line
address in bits 5-0; fail threshold, consecutive failures, bits 7-3 zero, retry limit; the answered count; the
failed-attempt count. Alert pending is membership in the alert set of the line the entry names. -/
def Obligations.StationWordsLayout : Prop :=
  ∀ (s : State) (k : StationIndex), (s.entry k).Legal →
    let e := s.entry k
    let w0 := s.tableWord 0 (4 * k.val)
    let w1 := s.tableWord 0 (4 * k.val + 1)
    (w0.extractLsb' 13 3).toNat = stationStateCode e.state ∧
    (w0.getLsbD 12 = true ↔ e.line = .b) ∧ w0.getLsbD 11 = e.alertFollowUp ∧
    (w0.getLsbD 10 = true ↔ k ∈ (s.line e.line).alertSet) ∧ w0.getLsbD 9 = e.inService ∧
    w0.getLsbD 8 = e.disablePending ∧ w0.extractLsb' 6 2 = 0 ∧ (w0.extractLsb' 0 6).toNat = e.address ∧
    (w1.extractLsb' 12 4).toNat = e.failThreshold ∧ (w1.extractLsb' 8 4).toNat = e.consecutive ∧
    w1.extractLsb' 3 5 = 0 ∧ (w1.extractLsb' 0 3).toNat = e.retryLimit ∧
    (s.tableWord 0 (4 * k.val + 2)).toNat = e.answered ∧ (s.tableWord 0 (4 * k.val + 3)).toNat = e.failedAttempts

/-- In READY a TABLE_DATA_WRITE to region 0 below 256, or to index 0 to 192 of a bank that is active or whose line
has a swap pending, stores nothing: the table-refused flag is set, the index advances, and nothing else changes. An
index at or beyond the size of its region (256, 193, 20 words), and every index of regions 7 to 15, reads 0000H, and
a write there advances the index and changes nothing else, the flag included. -/
def Obligations.TableWritesRefusedOrIgnored : Prop :=
  ∀ (s : State) (w : Word), s.live = true →
    ((s.window.tableRegion = 0 ∧ s.window.tableIndex.toNat < 256 ∨
        ∃ p ∈ ([(1, .a, .zero), (2, .a, .one), (3, .b, .zero), (4, .b, .one)] : List (BitVec 4 × Line × BankNumber)),
          s.window.tableRegion = p.1 ∧ s.window.tableIndex.toNat < 193 ∧
            (p.2.2 = (s.line p.2.1).active ∨ (s.line p.2.1).swapPending = true)) →
      exec (.tableDataWrite w) s = .next
        { s with window := { s.window with tableRefused := true, tableIndex := s.window.tableIndex + 1 } }) ∧
    ∀ (r : BitVec 4) (k : Nat),
      (r = 0 ∧ 256 ≤ k ∨ (1 ≤ r.toNat ∧ r.toNat ≤ 4) ∧ 193 ≤ k ∨ (5 ≤ r.toNat ∧ r.toNat ≤ 6) ∧ 20 ≤ k ∨ 7 ≤ r.toNat) →
      s.tableWord r k = 0 ∧ (s.window.tableRegion = r → s.window.tableIndex.toNat = k →
        exec (.tableDataWrite w) s = .next { s with window := { s.window with tableIndex := s.window.tableIndex + 1 } })

/-- In READY, with a bank that is not active and no swap pending on its line, a TABLE_DATA_WRITE of a word at index k
from 0 to 192 is stored: index k of the region then reads the word itself for k = 0, the word masked by 3F0FH for odd
k, and by 1F3FH for even k above 0; every other index of the region, the other bank, the rest of the line and of the
part stand, but for the index, which advances. -/
def Obligations.BankWriteKeepsStoredFields : Prop :=
  ∀ (s : State) (w : Word), s.live = true →
    ∀ p ∈ ([(1, .a, .zero), (2, .a, .one), (3, .b, .zero), (4, .b, .one)] : List (BitVec 4 × Line × BankNumber)),
      s.window.tableRegion = p.1 → s.window.tableIndex.toNat < 193 → p.2.2 ≠ (s.line p.2.1).active →
      (s.line p.2.1).swapPending = false →
      let k := s.window.tableIndex.toNat
      ∃ b : Bank,
        exec (.tableDataWrite w) s = .next
          { s.setLine p.2.1 ((s.line p.2.1).setBank p.2.2 b) with
            window := { s.window with tableIndex := s.window.tableIndex + 1 } } ∧
        b.word k = w &&& (if k = 0 then 0xFFFF else if k % 2 = 1 then 0x3F0F else 0x1F3F) ∧
        ∀ j < 193, j ≠ k → b.word j = ((s.line p.2.1).bank p.2.2).word j

/-- Regions 1 to 4 show Line A bank 0, Line A bank 1, Line B bank 0 and Line B bank 1: index 0 the length; index 1 +
2k the station index of slot k in bits 13-8 and its group in bits 3-0; index 2 + 2k its divisor in bits 12-8 and its
limit in bits 5-0; every other bit 0. Index k of region 5 or 6, k below 20, reads word k of the submit buffer of Line
A or B; in READY a TABLE_DATA_WRITE there stores the whole word in it and advances the index, and nothing else
changes. -/
def Obligations.TableWordsLayout : Prop :=
  ∀ s : State,
    (∀ p ∈ ([(1, .a, .zero), (2, .a, .one), (3, .b, .zero), (4, .b, .one)] : List (BitVec 4 × Line × BankNumber)),
      let b := (s.line p.2.1).bank p.2.2
      s.tableWord p.1 0 = b.length ∧ ∀ k : Fin 96,
        (s.tableWord p.1 (1 + 2 * k.val)).toNat = 256 * b.slots[k].station.val + b.slots[k].group.toNat ∧
        (s.tableWord p.1 (2 + 2 * k.val)).toNat = 256 * b.slots[k].divisor.toNat + b.slots[k].limit.toNat) ∧
    ∀ p ∈ ([(5, .a), (6, .b)] : List (BitVec 4 × Line)), ∀ k : Fin 20,
      s.tableWord p.1 k.val = (s.line p.2).submitBuffer[k] ∧
      ∀ w : Word, s.live = true → s.window.tableRegion = p.1 → s.window.tableIndex.toNat = k.val →
        exec (.tableDataWrite w) s = .next
          { s.setLine p.2 { s.line p.2 with submitBuffer := (s.line p.2).submitBuffer.set k w } with
            window := { s.window with tableIndex := s.window.tableIndex + 1 } }

/-- In READY, with PARAM 0 above 63, each of the five STATION rows answers RANGE with detail 0 and changes nothing
else. -/
def Obligations.StationIndexChecked : Prop :=
  ∀ s : State, s.live = true → 63 < s.window.param0.toNat →
    ∀ p ∈ ([(.stationConfigure, 0x0010), (.stationEnable, 0x0011), (.stationDisable, 0x0012), (.stationClear, 0x0013),
      (.stationZeroCounts, 0x0014)] : List (Instr × Word)), exec p.1 s = .next (s.decided p.2 .range 0)

/-- In READY with a station index 0 to 63. An entry in a working state is refused STATE with its state code;
otherwise the first bad field in the order line (1, code in PARAM 1 bits 7-0), line address (2, PARAM 2, 1 to 62),
retry limit (3, PARAM 3 bits 7-0, 0 to 7), fail threshold (4, PARAM 3 bits 15-8, 1 to 15) is refused RANGE with its
number; otherwise another entry that is not UNCONFIGURED on the same line and address is refused DUPLICATE with the
index of such an entry; a refusal changes nothing but the command slot. Otherwise the entry takes line, address,
retry limit, threshold and follow-up enable (PARAM 1 bit 15), becomes DISABLED with consecutive failures 0, keeps its
counts and marks; ACCEPTED with detail 0; nothing else changes. -/
def Obligations.ConfigureDecided : Prop :=
  ∀ (s : State) (i : StationIndex), s.live = true → s.window.param0.toNat = i.val →
    let code := s.window.param1.toNat % 256
    let address := s.window.param2.toNat
    let retry := s.window.param3.toNat % 256
    let threshold := s.window.param3.toNat / 256
    let refused (r : Result) (n : Nat) : Prop := exec .stationConfigure s = .next (s.decided 0x0010 r n)
    let taken (l : Line) (j : StationIndex) : Prop :=
      j ≠ i ∧ (s.entry j).state ≠ .unconfigured ∧ (s.entry j).line = l ∧ (s.entry j).address = address
    (isWorking (s.entry i).state = true → refused .state (stationStateCode (s.entry i).state)) ∧
    (isWorking (s.entry i).state = false →
      (2 ≤ code → refused .range 1) ∧
      (code < 2 → (address < 1 ∨ 62 < address) → refused .range 2) ∧
      (code < 2 → 1 ≤ address → address ≤ 62 → 7 < retry → refused .range 3) ∧
      (code < 2 → 1 ≤ address → address ≤ 62 → retry ≤ 7 → (threshold < 1 ∨ 15 < threshold) → refused .range 4) ∧
      (1 ≤ address → address ≤ 62 → retry ≤ 7 → 1 ≤ threshold → threshold ≤ 15 →
        ∀ l : Line, (code = match l with | .a => 0 | .b => 1) →
          ((∃ j, taken l j) → ∃ j, taken l j ∧ refused .duplicate j.val) ∧
          ((∀ j, ¬ taken l j) → exec .stationConfigure s = .next ((s.setEntry i
            { s.entry i with state := .disabled, line := l, address := address, retryLimit := retry,
                             failThreshold := threshold, alertFollowUp := s.window.param1.getLsbD 15,
                             consecutive := 0 }).decided 0x0010 .accepted 0))))

/-- In READY with a station index 0 to 63. ENABLE: in DISABLED the entry becomes UNKNOWN with consecutive failures 0;
in every other state it is refused STATE. CLEAR: in DISABLED the entry becomes UNCONFIGURED, every other field kept;
in every other state it is refused STATE. ZERO COUNTS: in every state but UNCONFIGURED the answered count and the
failed-attempt count become 0, whatever the marks; in UNCONFIGURED it is refused STATE. An acceptance has detail 0, a
refusal the state code; nothing else changes. -/
def Obligations.EnableClearZeroDecided : Prop :=
  ∀ (s : State) (i : StationIndex), s.live = true → s.window.param0.toNat = i.val →
    let code := stationStateCode (s.entry i).state
    ((s.entry i).state = .disabled →
      exec .stationEnable s =
        .next ((s.setEntry i { s.entry i with state := .unknown, consecutive := 0 }).decided 0x0011 .accepted 0) ∧
      exec .stationClear s = .next ((s.setEntry i { s.entry i with state := .unconfigured }).decided 0x0013 .accepted 0)) ∧
    ((s.entry i).state ≠ .disabled →
      exec .stationEnable s = .next (s.decided 0x0011 .state code) ∧
      exec .stationClear s = .next (s.decided 0x0013 .state code)) ∧
    ((s.entry i).state ≠ .unconfigured → exec .stationZeroCounts s =
      .next ((s.setEntry i { s.entry i with answered := 0, failedAttempts := 0 }).decided 0x0014 .accepted 0)) ∧
    ((s.entry i).state = .unconfigured → exec .stationZeroCounts s = .next (s.decided 0x0014 .state code))

/-- In READY with a station index 0 to 63: in a working state without the in-service mark the entry becomes DISABLED
with consecutive failures 0 and disable-pending clear, and its station leaves the alert set of its line, detail 0;
with the mark, disable-pending is set and nothing else, detail 1; in DISABLED nothing changes, detail 2; in
UNCONFIGURED it is refused STATE with code 0. Nothing else changes, no record and no cause among it. -/
def Obligations.DisableDecided : Prop :=
  ∀ (s : State) (i : StationIndex), s.live = true → s.window.param0.toNat = i.val →
    (isWorking (s.entry i).state = true → (s.entry i).inService = false →
      exec .stationDisable s = .next (((s.setEntry i
          { s.entry i with state := .disabled, consecutive := 0, disablePending := false }).setLine (s.entry i).line
        { s.line (s.entry i).line with
          alertSet := (s.line (s.entry i).line).alertSet.filter (fun j => j ≠ i) }).decided 0x0012 .accepted 0)) ∧
    (isWorking (s.entry i).state = true → (s.entry i).inService = true →
      exec .stationDisable s = .next ((s.setEntry i
        { s.entry i with disablePending := true }).decided 0x0012 .accepted 1)) ∧
    ((s.entry i).state = .disabled → exec .stationDisable s = .next (s.decided 0x0012 .accepted 2)) ∧
    ((s.entry i).state = .unconfigured → exec .stationDisable s = .next (s.decided 0x0012 .state 0))

/-- In READY, DEFERRED_DISABLE of a station that carries disable-pending and no in-service mark makes it DISABLED
with consecutive failures 0 and disable-pending clear, and takes it out of the alert set of its line; with the
in-service mark, or without disable-pending, it changes nothing (log entry 5). Nothing else changes. -/
def Obligations.DeferredDisableTakesEffect : Prop :=
  ∀ (s : State) (i : StationIndex), s.live = true →
    ((s.entry i).disablePending = true → (s.entry i).inService = false →
      exec (.deferredDisable i) s = .next ((s.setEntry i
          { s.entry i with state := .disabled, consecutive := 0, disablePending := false }).setLine (s.entry i).line
        { s.line (s.entry i).line with alertSet := (s.line (s.entry i).line).alertSet.filter (fun j => j ≠ i) })) ∧
    (((s.entry i).disablePending = false ∨ (s.entry i).inService = true) → exec (.deferredDisable i) s = .next s)

/-- In READY, INT_ACK_WRITE of the code of a latched cause makes that cause not pending, whatever its enable, and
changes nothing else; a write of 0, of 4 (QUEUE THRESHOLD) or of a code above 12 changes nothing; INT ACK reads
0000H. INT_ENABLE_WRITE sets the enable of the cause with code c from bit c - 1 of the word, keeps no other bit, and
changes nothing else; a read of INT ENABLE then returns the twelve bits and 0 above them. -/
def Obligations.InterruptWritesAct : Prop :=
  ∀ (s : State) (w : Word), s.live = true →
    (1 ≤ w.toNat → w.toNat ≤ 12 → w.toNat ≠ 4 → exec (.intAckWrite w) s = .next
      { s with interrupts := { s.interrupts with
        latched := s.interrupts.latched &&& ~~~(BitVec.twoPow 12 (w.toNat - 1)) } }) ∧
    ((w.toNat = 0 ∨ w.toNat = 4 ∨ 12 < w.toNat) → exec (.intAckWrite w) s = .next s) ∧
    s.readRegister 0x13 = 0 ∧
    ∃ t, exec (.intEnableWrite w) s = .next t ∧
      t = { s with interrupts := { s.interrupts with enables := w.extractLsb' 0 12 } } ∧
      (∀ c, t.isEnabled c = w.getLsbD (causeCode c - 1)) ∧ t.readRegister 0x11 = w &&& 0x0FFF

/-- The codes of the causes, 1 to 12, are their ranks in Table 10-1. INT is asserted exactly while some cause is both
pending and enabled; the identity is then the smallest code (the highest rank) among those causes, and it is 0
exactly when INT is inactive; with the reset input not asserted the register at 12H reads it. Where no event has
latched it (the invariant NoThresholdLatch), QUEUE THRESHOLD is pending exactly while the record count is at least
the threshold, and every other cause exactly while its bit is latched. -/
def Obligations.InterruptOutputs : Prop :=
  (∀ p ∈ ([(.lineFault .a, 1), (.lineFault .b, 2), (.queueHeld, 3), (.queueThreshold, 4), (.stationState .a, 5),
      (.stationState .b, 6), (.directedDone .a, 7), (.directedDone .b, 8), (.lineStopped .a, 9), (.lineStopped .b, 10),
      (.cycleEnd .a, 11), (.cycleEnd .b, 12)] : List (Cause × Nat)), causeCode p.1 = p.2) ∧
  ∀ s : State,
    (s.int = true ↔ ∃ c, s.isPending c = true ∧ s.isEnabled c = true) ∧
    (s.identity = 0 ↔ s.int = false) ∧
    (∀ c, s.identity = causeCode c ↔ s.isPending c = true ∧ s.isEnabled c = true ∧
      ∀ d, s.isPending d = true → s.isEnabled d = true → causeCode c ≤ causeCode d) ∧
    (s.window.resetInput = false → (s.readRegister 0x12).toNat = s.identity) ∧
    (s.NoThresholdLatch →
      (s.isPending .queueThreshold = true ↔ s.queue.threshold ≤ s.recordCount) ∧
      ∀ c, c ≠ .queueThreshold → s.isPending c = s.interrupts.latched.getLsbD (causeCode c - 1))

/-- In READY. QUEUE SET THRESHOLD: a value of 1 to 255 in PARAM 0 becomes the threshold, ACCEPTED with detail 0
(DESIGN CHOICE, log entry 26: the manual gives no detail there); 0 or a value above 255 is refused RANGE with detail
0. DRAIN MODE: a mode code above 2 is refused RANGE with detail 0; a change into DMA from a PIO mode with the cursor
above 0 is refused MODE with the cursor as detail; otherwise the mode takes the value, ACCEPTED with detail 1 if it
is the mode held and 0 if not; DREQ is then asserted exactly in DMA mode with records held. Nothing else changes. -/
def Obligations.QueueSettingsDecided : Prop :=
  ∀ s : State, s.live = true →
    let n := s.window.param0.toNat
    (1 ≤ n → n ≤ 255 → exec .queueSetThreshold s =
      .next ({ s with queue := { s.queue with threshold := n } }.decided 0x0032 .accepted 0)) ∧
    ((n = 0 ∨ 255 < n) → exec .queueSetThreshold s = .next (s.decided 0x0032 .range 0)) ∧
    (2 < n → exec .drainMode s = .next (s.decided 0x0033 .range 0)) ∧
    ∀ p ∈ ([(0, .pioManual), (1, .pioAuto), (2, .dma)] : List (Nat × DrainMode)), n = p.1 →
      (p.2 = .dma → s.queue.drainMode ≠ .dma → s.queue.cursor ≠ 0 →
        exec .drainMode s = .next (s.decided 0x0033 .mode s.queue.cursor)) ∧
      ((p.2 = .dma → s.queue.drainMode = .dma ∨ s.queue.cursor = 0) →
        ∃ t, exec .drainMode s = .next t ∧ t = { s with queue := { s.queue with drainMode := p.2 } }.decided 0x0033
            .accepted (if p.2 = s.queue.drainMode then 1 else 0) ∧
          (t.dreq = true ↔ p.2 = .dma ∧ s.queue.records ≠ []))

/-- In READY: with lines that hold a reservation or stand in the hold list, the command is refused STATE with their
number, each counted once, and nothing else changes; otherwise every record is removed, the cursor becomes 0, RESULT
is ACCEPTED with the number removed, 255 above it; mode and threshold stand, no cause is raised, nothing else
changes. -/
def Obligations.FlushDecided : Prop :=
  ∀ s : State, s.live = true →
    let concerned (l : Line) : Bool := (s.line l).reservation.isSome || s.isHeld l
    ((concerned .a = true ∨ concerned .b = true) → exec .queueFlush s =
      .next (s.decided 0x0031 .state (if concerned .a = true ∧ concerned .b = true then 2 else 1))) ∧
    (concerned .a = false → concerned .b = false → exec .queueFlush s = .next
      ({ s with queue := { s.queue with records := [], cursor := 0 } }.decided 0x0031 .accepted
        (min s.queue.records.length 255)))

/-- In READY: in DMA mode it is refused MODE, on an empty queue EMPTY, each with detail 0 and nothing else changed;
otherwise the head record leaves, whatever the cursor, the cursor becomes 0, the hold list is served (State.serve)
and the arbiters take their turn (State.finish), which changes only what State.Selected allows, RESULT is ACCEPTED
and the detail is the record count then (log entry 19); with an empty hold list and no arbiter due nothing else
changes at all. -/
def Obligations.ReleaseDecided : Prop :=
  ∀ s : State, s.live = true →
    (s.queue.drainMode = .dma → exec .queueRelease s = .next (s.decided 0x0030 .mode 0)) ∧
    (s.queue.drainMode ≠ .dma → s.queue.records = [] → exec .queueRelease s = .next (s.decided 0x0030 .empty 0)) ∧
    (s.queue.drainMode ≠ .dma → s.queue.records ≠ [] →
      let v : State := { s with window := { s.window with command := 0x0030 }
                                queue := { s.queue with records := s.queue.records.tail, cursor := 0 } }
      let u := v.serve.finish
      exec .queueRelease s = .next (u.decided 0x0030 .accepted u.queue.records.length) ∧ State.Selected v u) ∧
    (s.queue.drainMode ≠ .dma → s.queue.records ≠ [] → s.queue.holdList = [] → s.nextArbiter = none →
      exec .queueRelease s =
        .next ({ s with queue := { s.queue with records := s.queue.records.tail, cursor := 0 } }.decided 0x0030 .accepted
          (s.queue.records.length - 1)))

/-- In READY. QUEUE_DATA_READ in DMA mode, and DACK_STROBE (whatever host strobe overlaps it, log entry 20) in a PIO
mode, and either with the cursor not below the head size, as on an empty queue, drives 0000H and changes nothing
else. QUEUE_DATA_READ in a PIO mode, and DACK_STROBE in DMA mode, with the cursor below the head size, drives the
word of the head record at the cursor; the cursor rises by 1 and nothing else changes, but that in PIO-AUTO and in
DMA mode the last word releases the head record: it leaves the queue, the cursor becomes 0, the hold list is served
(State.serve) and the arbiters take their turn (State.finish), which changes only what State.Selected allows. -/
def Obligations.QueueWordsServed : Prop :=
  ∀ (s : State) (o : Overlap), s.live = true →
    let silent : State := { s with window := { s.window with dataLines := 0 } }
    ((s.queue.drainMode = .dma ∨ s.headSize ≤ s.queue.cursor) → exec .queueDataRead s = .next silent) ∧
    ((s.queue.drainMode ≠ .dma ∨ s.headSize ≤ s.queue.cursor) → exec (.dackStrobe o) s = .next silent) ∧
    ∀ r rest (h : s.queue.cursor < r.words.length), s.queue.records = r :: rest →
      let driven : State := { s with window := { s.window with dataLines := r.words[s.queue.cursor] } }
      let advanced : State := { driven with queue := { s.queue with cursor := s.queue.cursor + 1 } }
      let released : State := { driven with queue := { s.queue with records := rest, cursor := 0 } }
      ((s.queue.drainMode = .pioManual ∨ s.queue.drainMode = .pioAuto ∧ s.queue.cursor + 1 < r.size) →
        exec .queueDataRead s = .next advanced) ∧
      (s.queue.drainMode = .pioAuto → s.queue.cursor + 1 = r.size →
        exec .queueDataRead s = .next released.serve.finish) ∧
      (s.queue.drainMode = .dma → s.queue.cursor + 1 < r.size → exec (.dackStrobe o) s = .next advanced) ∧
      (s.queue.drainMode = .dma → s.queue.cursor + 1 = r.size →
        exec (.dackStrobe o) s = .next released.serve.finish) ∧
      State.Selected released released.serve.finish

/-- Every record has as many words as its size: 3, and for DATA of n bytes ceil(n / 2) more. Word 0 holds the kind
code in bits 15-13 (1 DATA, 2 CONFIRM, 3 FAULT, 4 STATE, 5 MARK), the line in bit 12, the origin in bits 11-10 (0
SCHEDULE, 1 DIRECTED, 2 ALERT, 3 LINE), the group in bits 9-6 and the station index in bits 5-0, group 0 in STATE and
MARK and station 0 in MARK, and is at least 2000H. Word 1 holds, for DATA, the ref in bits 15-8, the alert flag in
bit 7, 0 in bit 6 and the byte count (up to 40) in bits 5-0; for CONFIRM the tag, the alert flag, the broadcast flag
and 0 in bits 5-0; for FAULT the tag, 0 in bits 7-4 and the cause in bits 3-0; for STATE the old state in bits 15-12,
the new in bits 11-8, 0 in bits 7-4 and the cause in bits 3-0; for MARK 0 in bits 15-8, the overrun flag in bit 7 and
the visits in bits 6-0. Word 2 is the cycle number. Payload byte k stands in word 3 + k / 2, the even bytes in the
high half, with 00H in the low half of the last word when the count is odd. -/
def Obligations.RecordWordsMatchSize : Prop :=
  let header (w : Word) (kind : Nat) (line : Line) (origin : Origin) (group : Group) (station : StationIndex) : Prop :=
    (w.extractLsb' 13 3).toNat = kind ∧ (w.getLsbD 12 = true ↔ line = .b) ∧
    (w.extractLsb' 10 2).toNat = (match origin with | .schedule => 0 | .directed => 1 | .alert => 2 | .line => 3) ∧
    w.extractLsb' 6 4 = group ∧ (w.extractLsb' 0 6).toNat = station.val
  let causeIs (w : Word) (cause : RecordCause) : Prop :=
    (w.extractLsb' 0 4).toNat =
      match cause with
      | .good => 1 | .deferred => 2 | .timeout => 3 | .corrupt => 4 | .mismatch => 5 | .overlong => 6 | .busy => 7
      | .station => 8 | .aborted => 9 | .line => 10
  let code (x : StationState) : Nat :=
    match x with
    | .unconfigured => 0 | .disabled => 1 | .unknown => 2 | .online => 3 | .suspect => 4 | .offline => 5
  ∀ r : Record, r.words.length = r.size ∧ (∃ w0, r.words[0]? = some w0 ∧ 0x2000 ≤ w0.toNat) ∧
    match r with
    | .data line origin station group ref alert payload cycle =>
      r.size = 3 + (payload.length + 1) / 2 ∧
      ∃ w0 w1 ps, r.words = w0 :: w1 :: cycle :: ps ∧ header w0 1 line origin group station ∧
        w1.extractLsb' 8 8 = ref ∧ w1.getLsbD 7 = alert ∧ w1.getLsbD 6 = false ∧
        (payload.length ≤ 40 → (w1.extractLsb' 0 6).toNat = payload.length) ∧
        ∀ k, 2 * k < payload.length → ps[k]? = some (payload.getD (2 * k) 0 ++ payload.getD (2 * k + 1) 0)
    | .confirm line station group tag alert broadcast cycle =>
      r.size = 3 ∧ ∃ w0 w1, r.words = [w0, w1, cycle] ∧ header w0 2 line .directed group station ∧
        w1.extractLsb' 8 8 = tag ∧ w1.getLsbD 7 = alert ∧ w1.getLsbD 6 = broadcast ∧ w1.extractLsb' 0 6 = 0
    | .fault line station group tag cause cycle =>
      r.size = 3 ∧ ∃ w0 w1, r.words = [w0, w1, cycle] ∧ header w0 3 line .directed group station ∧
        w1.extractLsb' 8 8 = tag ∧ w1.extractLsb' 4 4 = 0 ∧ causeIs w1 cause
    | .state line origin station old new cause cycle =>
      r.size = 3 ∧ ∃ w0 w1, r.words = [w0, w1, cycle] ∧ header w0 4 line origin 0 station ∧
        (w1.extractLsb' 12 4).toNat = code old ∧ (w1.extractLsb' 8 4).toNat = code new ∧ w1.extractLsb' 4 4 = 0 ∧
        causeIs w1 cause
    | .mark line visits overrun cycle =>
      r.size = 3 ∧ ∃ w0 w1, r.words = [w0, w1, cycle] ∧ header w0 5 line .line 0 0 ∧ w1.extractLsb' 8 8 = 0 ∧
        w1.getLsbD 7 = overrun ∧ (visits ≤ 96 → (w1.extractLsb' 0 7).toNat = visits)

/-- A line that writes a record its reservation has room for: the record joins the tail, words used plus words
reserved stand as they were, the head record and its cursor stand unless the queue was empty, in which case the
cursor is 0; DIRECTED DONE or STATION STATE of the line is raised for a directed completion or a STATE record, and
for no other record anything; no latched cause is cleared; window, stations and enables stand. -/
def Obligations.RecordWriteMovesWords : Prop :=
  ∀ (s : State) (l : Line) (r : Record) (n : Nat), (s.line l).reservation = some n → r.size ≤ n → r.line = l →
    let t := s.writeRecord l r
    t.queue.records = s.queue.records ++ [r] ∧ t.wordsUsed = s.wordsUsed + r.size ∧
    t.wordsUsed + t.wordsReserved = s.wordsUsed + s.wordsReserved ∧
    t.queue.cursor = (if s.queue.records = [] then 0 else s.queue.cursor) ∧
    t.interrupts.latched = s.interrupts.latched |||
      (match r with
       | .data _ .directed _ _ _ _ _ _ => causeBit (.directedDone l)
       | .data _ _ _ _ _ _ _ _ => 0
       | .confirm _ _ _ _ _ _ _ => causeBit (.directedDone l)
       | .fault _ _ _ _ _ _ => causeBit (.directedDone l)
       | .state _ _ _ _ _ _ _ => causeBit (.stationState l)
       | .mark _ _ _ _ => 0) ∧
    t.interrupts.enables = s.interrupts.enables ∧ t.window = s.window ∧ t.stations = s.stations ∧
    t.queue.drainMode = s.queue.drainMode ∧ t.queue.threshold = s.queue.threshold ∧
    t.queue.holdList = s.queue.holdList ∧ (∀ m, m ≠ l → t.line m = s.line m) ∧
    t.line l = { s.line l with reservation := some (n - r.size) }

/-- In READY. A line code above 1 is refused RANGE with FEH; a shadow of length above 96 RANGE with FFH; otherwise
the first slot below the length with a limit above 40 or a divisor of 0 or above 16 RANGE with its index; a valid
shadow with a swap already pending PENDING with 0; nothing else changes. Otherwise it is accepted: on a STOPPING
line, or a RUNNING line whose active list is not empty, swap-pending is set, detail 1, nothing else changes; on a
STOPPED or FAULTED line, or a RUNNING line with an empty active list, the banks exchange roles, detail 0, and the
arbiters take their turn (State.finish, which changes only what State.Selected allows); with no arbiter due nothing
else changes. -/
def Obligations.ListSwapDecided : Prop :=
  ∀ s : State, s.live = true →
    (1 < s.window.param0.toNat → exec .listSwap s = .next (s.decided 0x0020 .range 0xFE)) ∧
    ∀ l : Line, (s.window.param0.toNat = match l with | .a => 0 | .b => 1) →
      let x := s.line l
      let other : BankNumber := if x.active = .zero then .one else .zero
      let b := x.bank other
      let bad (k : Nat) : Prop := 40 < (b.slot k).limit.toNat ∨ (b.slot k).divisor = 0 ∨ 16 < (b.slot k).divisor.toNat
      (96 < b.length.toNat → exec .listSwap s = .next (s.decided 0x0020 .range 0xFF)) ∧
      (b.length.toNat ≤ 96 → ∀ k < b.length.toNat, bad k → (∀ j < k, ¬ bad j) →
        exec .listSwap s = .next (s.decided 0x0020 .range k)) ∧
      (b.length.toNat ≤ 96 → (∀ k < b.length.toNat, ¬ bad k) →
        (x.swapPending = true → exec .listSwap s = .next (s.decided 0x0020 .pending 0)) ∧
        (x.swapPending = false → (x.runState = .stopping ∨ x.runState = .running ∧ x.activeBank.length ≠ 0) →
          exec .listSwap s = .next ((s.setLine l { x with swapPending := true }).decided 0x0020 .accepted 1)) ∧
        (x.swapPending = false →
          (x.runState = .stopped ∨ x.runState = .faulted ∨ x.runState = .running ∧ x.activeBank.length = 0) →
          let v : State := State.setLine { s with window := { s.window with command := 0x0020 } } l
            { x with active := other }
          exec .listSwap s = .next (v.finish.decided 0x0020 .accepted 0) ∧ State.Selected v v.finish ∧
            (v.nextArbiter = none → v.finish = v)))

/-- In READY the checks are made in the order of Table 5-1, the first that fails deciding: line code above 1 RANGE 0;
kind code not 1 to 3 RANGE 1; for POLL and SET a station index above 63 RANGE 2; group above 15 RANGE 3; count above
40 RANGE 4; tag above 255 RANGE 5; for POLL and SET an UNCONFIGURED entry STATE with its state code, an entry of the
other line STATE with the code plus 80H; 8 entries queued FULL 8. A refusal changes nothing but the command slot. -/
def Obligations.SubmitRefused : Prop :=
  ∀ s : State, s.live = true →
    let kind := s.window.param1.toNat / 256
    let station := s.window.param1.toNat % 256
    let group := s.window.param2.toNat / 256
    let count := s.window.param2.toNat % 256
    let targets := kind = 1 ∨ kind = 2
    let refused (r : Result) (n : Nat) : Prop := exec .submit s = .next (s.decided 0x0021 r n)
    (1 < s.window.param0.toNat → refused .range 0) ∧
    ∀ l : Line, (s.window.param0.toNat = match l with | .a => 0 | .b => 1) →
      ((kind < 1 ∨ 3 < kind) → refused .range 1) ∧
      (1 ≤ kind → kind ≤ 3 →
        (targets → 63 < station → refused .range 2) ∧
        ((targets → station ≤ 63) →
          (15 < group → refused .range 3) ∧
          (group ≤ 15 → 40 < count → refused .range 4) ∧
          (group ≤ 15 → count ≤ 40 → 255 < s.window.param3.toNat → refused .range 5) ∧
          (group ≤ 15 → count ≤ 40 → s.window.param3.toNat ≤ 255 →
            (∀ i : StationIndex, targets → i.val = station → (s.entry i).state = .unconfigured →
              refused .state (stationStateCode (s.entry i).state)) ∧
            (∀ i : StationIndex, targets → i.val = station → (s.entry i).state ≠ .unconfigured →
              (s.entry i).line ≠ l → refused .state (stationStateCode (s.entry i).state + 0x80)) ∧
            ((∀ i : StationIndex, targets → i.val = station →
                (s.entry i).state ≠ .unconfigured ∧ (s.entry i).line = l) →
              8 ≤ (s.line l).directed.length → refused .full 8))))

/-- In READY, when every check of Table 5-1 passes, an entry of the kind, station (0 for BCAST), group, count and
tag, with bytes 0 to count - 1 of the submit buffer for SET and BCAST and none for POLL, joins the tail of the line's
directed queue; RESULT is ACCEPTED with the number of entries as detail; the arbiters take their turn (State.finish,
which changes only what State.Selected allows); with no arbiter due nothing else changes. -/
def Obligations.SubmitAccepted : Prop :=
  ∀ (s : State) (l : Line) (kind : RequestKind), s.live = true →
    (s.window.param0.toNat = match l with | .a => 0 | .b => 1) →
    (s.window.param1.toNat / 256 = match kind with | .poll => 1 | .set => 2 | .bcast => 3) →
    (kind ≠ .bcast → s.window.param1.toNat % 256 ≤ 63) → s.window.param2.toNat / 256 ≤ 15 →
    s.window.param2.toNat % 256 ≤ 40 → s.window.param3.toNat ≤ 255 →
    (∀ i : StationIndex, kind ≠ .bcast → i.val = s.window.param1.toNat % 256 →
      (s.entry i).state ≠ .unconfigured ∧ (s.entry i).line = l) →
    (s.line l).directed.length < 8 →
    ∃ e : DirectedEntry,
      e.kind = kind ∧ e.station.val = (if kind = .bcast then 0 else s.window.param1.toNat % 256) ∧
      e.group.toNat = s.window.param2.toNat / 256 ∧ e.count = s.window.param2.toNat % 256 ∧
      e.tag.toNat = s.window.param3.toNat ∧ e.payload.length = (if kind = .poll then 0 else e.count) ∧
      (∀ n, n < e.payload.length → ∃ w, (s.line l).submitBuffer[n / 2]? = some w ∧
        e.payload[n]? = some (if n % 2 = 0 then w.extractLsb' 8 8 else w.extractLsb' 0 8)) ∧
      let v : State := State.setLine { s with window := { s.window with command := 0x0021 } } l
        { s.line l with directed := (s.line l).directed ++ [e] }
      exec .submit s = .next (v.finish.decided 0x0021 .accepted ((s.line l).directed.length + 1)) ∧
      State.Selected v v.finish ∧ (v.nextArbiter = none → v.finish = v)

/-- In READY. PENDING_SWAP_TAKES_EFFECT on a STOPPED or FAULTED line with a swap pending: the banks exchange roles
and swap-pending clears, nothing else changes; with no swap pending, or in RUNNING or STOPPING (where the boundary or
the stop takes it, log entry 4), nothing changes. STOPPING_LINE_STOPPED on a STOPPING line without a unit in
progress: the run state becomes STOPPED and the cycle condition NONE, a pending swap takes effect, LINE STOPPED of
the line is raised, and nothing else changes; in any other state of the line nothing changes. That a row whose
occasion does not stand changes nothing is the DESIGN CHOICE of log entry 5. -/
def Obligations.RestingLineEventsAct : Prop :=
  ∀ (s : State) (l : Line), s.live = true →
    let x := s.line l
    let other : BankNumber := if x.active = .zero then .one else .zero
    (x.swapPending = true → (x.runState = .stopped ∨ x.runState = .faulted) →
      exec (.pendingSwapTakesEffect l) s = .next (s.setLine l { x with active := other, swapPending := false })) ∧
    ((x.swapPending = false ∨ x.runState = .running ∨ x.runState = .stopping) →
      exec (.pendingSwapTakesEffect l) s = .next s) ∧
    (x.runState = .stopping → x.current = none → exec (.stoppingLineStopped l) s = .next
      ({ s with interrupts := { s.interrupts with
          latched := s.interrupts.latched ||| causeBit (.lineStopped l) } }.setLine l
        { x with runState := .stopped, condition := .none,
                 active := if x.swapPending then other else x.active, swapPending := false })) ∧
    ((x.runState ≠ .stopping ∨ x.current.isSome = true) → exec (.stoppingLineStopped l) s = .next s)

/-- In READY: a line code above 1 is refused RANGE FEH; a parameter code not 1 to 7 RANGE FDH; a RUNNING or STOPPING
line STATE with the run state code; a value outside the range of Table 7-2 RANGE with the parameter code; otherwise
that parameter takes the value, and a RATE divisor puts the receiver into WAIT-MARK, ACCEPTED with detail 0. Nothing
else changes. -/
def Obligations.LineSetDecided : Prop :=
  ∀ s : State, s.live = true →
    (1 < s.window.param0.toNat → exec .lineSet s = .next (s.decided 0x0040 .range 0xFE)) ∧
    ∀ l : Line, (s.window.param0.toNat = match l with | .a => 0 | .b => 1) →
      let x := s.line l
      let code := s.window.param1.toNat
      let v := s.window.param2.toNat
      ((code < 1 ∨ 7 < code) → exec .lineSet s = .next (s.decided 0x0040 .range 0xFD)) ∧
      (1 ≤ code → code ≤ 7 →
        ((x.runState = .running ∨ x.runState = .stopping) →
          exec .lineSet s = .next (s.decided 0x0040 .state (runStateCode x.runState))) ∧
        ((x.runState = .stopped ∨ x.runState = .faulted) →
          ∀ q ∈ ([(1, 0, 4095, { x.params with rate := v }), (2, 2, 255, { x.params with response := v }),
              (3, 2, 255, { x.params with settle := v }), (4, 0, 65535, { x.params with interval := v }),
              (5, 1, 64, { x.params with probe := v }), (6, 1, 8, { x.params with burst := v }),
              (7, 0, 1, { x.params with mark := v == 1 })] : List (Nat × Nat × Nat × Params)), code = q.1 →
            ((v < q.2.1 ∨ q.2.2.1 < v) → exec .lineSet s = .next (s.decided 0x0040 .range code)) ∧
            (q.2.1 ≤ v → v ≤ q.2.2.1 → exec .lineSet s = .next
              ((s.setLine l { x with params := q.2.2.2, receiver := if code = 1 then .waitMark else x.receiver }).decided
                0x0040 .accepted 0))))

/-- In READY: a line code above 1 is refused RANGE FEH; in RUNNING or STOPPING LINE START is refused STATE with the
run state code; nothing else changes. In STOPPED or FAULTED it is accepted: run state RUNNING, fault cause NONE,
contention count 0; with a non-empty active list a cycle starts (cycle number one higher, cursor, interval timer,
burst counter and visit count 0, IN CYCLE), detail 0; with an empty one the condition is IDLE-EMPTY, detail 1; then
the arbiters take their turn (State.finish, which changes only what State.Selected allows). -/
def Obligations.LineStartDecided : Prop :=
  ∀ s : State, s.live = true →
    (1 < s.window.param0.toNat → exec .lineStart s = .next (s.decided 0x0041 .range 0xFE)) ∧
    ∀ l : Line, (s.window.param0.toNat = match l with | .a => 0 | .b => 1) →
      let x := s.line l
      let y := { x with runState := .running, faultCause := .none, contention := 0 }
      let v (z : LineEngine) : State := State.setLine { s with window := { s.window with command := 0x0041 } } l z
      ((x.runState = .running ∨ x.runState = .stopping) →
        exec .lineStart s = .next (s.decided 0x0041 .state (runStateCode x.runState))) ∧
      ((x.runState = .stopped ∨ x.runState = .faulted) →
        (x.activeBank.length ≠ 0 →
          let w := v { y with
            cycleNumber := x.cycleNumber + 1, cursor := 0, interval := 0, burst := 0, visitCount := 0,
            condition := .inCycle }
          exec .lineStart s = .next (w.finish.decided 0x0041 .accepted 0) ∧ State.Selected w w.finish) ∧
        (x.activeBank.length = 0 →
          let w := v { y with condition := .idleEmpty }
          exec .lineStart s = .next (w.finish.decided 0x0041 .accepted 1) ∧ State.Selected w w.finish))

/-- In READY: a line code above 1 is refused RANGE FEH; in STOPPED or FAULTED it is refused STATE with the run state
code; in STOPPING it is accepted with detail 2; nothing else changes. In RUNNING with a unit in progress the run
state becomes STOPPING and the condition NONE, detail 1, and nothing else changes. In RUNNING without one it is
accepted with detail 0: the line is STOPPED with no pending unit, out of the hold list, condition NONE, a pending
swap taken, cycle number, cursor, directed queue and alert set as they stood, LINE STOPPED pending; the line writes
no record; if it headed the hold list, the hold list is served: it is then empty, or the request of its head does not
fit; the other line keeps what LineEngine.Selected says, and no entry changes but for an in-service mark that a unit
of the other line sets (R62); for the rest only what State.Evolves allows changes. -/
def Obligations.LineStopDecided : Prop :=
  ∀ s : State, s.live = true →
    (1 < s.window.param0.toNat → exec .lineStop s = .next (s.decided 0x0042 .range 0xFE)) ∧
    ∀ l : Line, (s.window.param0.toNat = match l with | .a => 0 | .b => 1) →
      let x := s.line l
      ((x.runState = .stopped ∨ x.runState = .faulted) →
        exec .lineStop s = .next (s.decided 0x0042 .state (runStateCode x.runState))) ∧
      (x.runState = .stopping → exec .lineStop s = .next (s.decided 0x0042 .accepted 2)) ∧
      (x.runState = .running → x.current.isSome = true → exec .lineStop s = .next
        ((s.setLine l { x with runState := .stopping, condition := .none }).decided 0x0042 .accepted 1)) ∧
      (x.runState = .running → x.current = none → s.Coherent → ∃ u : State, exec .lineStop s =
          .next (u.decided 0x0042 .accepted 0) ∧
        State.Evolves { s with window := { s.window with command := 0x0042 } } u ∧
        u.line l = { x with runState := .stopped, condition := .none, chosen := none, reservation := none,
                              active := if x.swapPending = true then otherBank x.active else x.active,
                              swapPending := false } ∧
        u.isHeld l = false ∧ u.isPending (.lineStopped l) = true ∧ State.WroteThen l [] s u ∧
        ((∃ h, s.queue.holdList.head? = some h ∧ h.line = l) → u.HoldListServed) ∧
        (∀ m, m ≠ l → (s.line m).Selected (u.line m)) ∧ ∀ i, (s.entry i).onlyServed (u.entry i))

/-- In READY: a line code above 1 is refused RANGE FEH; in STOPPED or FAULTED it is accepted with detail 2 and
nothing else changes. In RUNNING or STOPPING it is accepted with detail 0: the line is STOPPED with condition NONE,
no unit, no pending unit, no reservation, phase IDLE, out of the hold list, a pending swap taken; contention count,
cycle number, cursor, receiver and alert cursor stand; a character in the shifter goes on, but that of a transmission
cut in its bit time of DE lead leaves at once (log entry 23: R131 has DE fall within one CT); a directed unit in
progress writes FAULT with cause ABORTED as the next record, DIRECTED DONE of the line is then pending, and its entry
leaves the queue; the line writes no other record, and with any other unit, or none, no record at all, its directed
queue standing; where words of the reservation are left to return, or the line heads the hold list, the hold list is
served: it is then empty, or the request of its head does not fit; the station of the unit leaves service with its
state and counts as they stood, DISABLED if a disable was pending; the alert set stands but for the station so
disabled; LINE STOPPED is pending; the other line keeps what LineEngine.Selected says, and no other entry changes but
for an in-service mark that a unit of the other line sets (R62); for the rest only what State.Evolves allows changes. -/
def Obligations.LineHaltDecided : Prop :=
  ∀ s : State, s.live = true → s.Coherent → s.UnitsOwnStations →
    (1 < s.window.param0.toNat → exec .lineHalt s = .next (s.decided 0x0043 .range 0xFE)) ∧
    ∀ l : Line, (s.window.param0.toNat = match l with | .a => 0 | .b => 1) →
      let x := s.line l
      let target := x.current.bind (fun c => workStation c.work)
      let own : List Record :=
        match x.current with
        | none => []
        | some c =>
          match c.work with
          | .directed e => [.fault l e.station e.group e.tag .aborted x.cycleNumber]
          | .visit _ _ _ _ => []
          | .alert _ => []
          | .mark _ _ => []
      let carried : Option Shifter :=
        match x.shifter with
        | none => none
        | some r => if x.current.isSome = true ∧ r.lead = true ∧ r.elapsed < r.bitPeriods then none else some r
      let frees : Prop :=
        (own.map Record.size).sum < x.reservation.getD 0 ∨ ∃ h, s.queue.holdList.head? = some h ∧ h.line = l
      ((x.runState = .stopped ∨ x.runState = .faulted) → exec .lineHalt s = .next (s.decided 0x0043 .accepted 2)) ∧
      ((x.runState = .running ∨ x.runState = .stopping) → ∃ u : State, exec .lineHalt s = .next (u.decided 0x0043 .accepted 0) ∧
        State.Evolves { s with window := { s.window with command := 0x0043 } } u ∧
        (u.line l).runState = .stopped ∧ (u.line l).condition = .none ∧ (u.line l).current = none ∧
        (u.line l).chosen = none ∧ (u.line l).reservation = none ∧ (u.line l).phase = .idle .none ∧
        u.isHeld l = false ∧ (u.line l).swapPending = false ∧ u.isPending (.lineStopped l) = true ∧
        ((u.line l).active = x.active ↔ x.swapPending = false) ∧
        (u.line l).contention = x.contention ∧ (u.line l).cycleNumber = x.cycleNumber ∧
        (u.line l).cursor = x.cursor ∧ (u.line l).shifter = carried ∧ (u.line l).receiver = x.receiver ∧
        (u.line l).alertCursor = x.alertCursor ∧ State.WroteThen l own s u ∧
        (∀ m, m ≠ l → (s.line m).Selected (u.line m)) ∧
        (∀ i, target ≠ some i → (s.entry i).onlyServed (u.entry i)) ∧
        (own ≠ [] → u.isPending (.directedDone l) = true) ∧ (frees → u.HoldListServed) ∧
        (u.line l).directed = (if own = [] then x.directed else x.directed.tail) ∧
        (target = none → (u.line l).alertSet = x.alertSet) ∧
        ∀ i, target = some i →
          (u.line l).alertSet =
            (if (s.entry i).disablePending = true then x.alertSet.filter (fun j => j ≠ i) else x.alertSet) ∧
          u.entry i = (if (s.entry i).disablePending = true then
              { s.entry i with state := .disabled, consecutive := 0, inService := false, disablePending := false }
            else { s.entry i with inService := false }))

/-- In READY: a line code above 1 is refused RANGE FEH. Otherwise, in every run state, it is accepted: the line is
STOPPED with condition NONE and fault cause NONE, no unit, no pending unit, no reservation, out of the hold list;
directed queue and alert set are empty, the alert cursor 63; cycle number, cursor, burst counter, visit count and
contention count are 0; a pending swap is taken; parameters, banks, submit buffer and receiver stand, and a character
in the shifter goes on, but that of a transmission cut in its bit time of DE lead leaves at once (log entry 23).
Every entry of the line, the station of the unit cut short having left service and become DISABLED if a disable was
pending: if it is in a working state it becomes UNKNOWN with consecutive failures 0, and it stands otherwise, counts
and configuration always; an entry of the other line can only be put in service. A directed unit in progress writes
FAULT with cause ABORTED and the old cycle number as the next record; the line writes no other record, and with any
other unit, or none, no record at all. DIRECTED DONE of the line is then pending; where words of the reservation are
left to return, or the line heads the hold list, the hold list is served: it is then empty, or the request of its
head does not fit. The detail is the number of directed entries removed unserved. LINE STOPPED is pending, and no
latched cause is cleared (R161); the other line keeps what LineEngine.Selected says, its work being only selected and
started with words granted to it; records stand in their order, the read cursor with them, window and queue settings
stand. -/
def Obligations.LineResetDecided : Prop :=
  ∀ s : State, s.live = true → s.Coherent → s.UnitsOwnStations →
    (1 < s.window.param0.toNat → exec .lineReset s = .next (s.decided 0x0044 .range 0xFE)) ∧
    ∀ l : Line, (s.window.param0.toNat = match l with | .a => 0 | .b => 1) →
      let x := s.line l
      let target := x.current.bind (fun c => workStation c.work)
      let own : List Record :=
        match x.current with
        | none => []
        | some c =>
          match c.work with
          | .directed e => [.fault l e.station e.group e.tag .aborted x.cycleNumber]
          | .visit _ _ _ _ => []
          | .alert _ => []
          | .mark _ _ => []
      let carried : Option Shifter :=
        match x.shifter with
        | none => none
        | some r => if x.current.isSome = true ∧ r.lead = true ∧ r.elapsed < r.bitPeriods then none else some r
      let frees : Prop :=
        (own.map Record.size).sum < x.reservation.getD 0 ∨ ∃ h, s.queue.holdList.head? = some h ∧ h.line = l
      ∃ u : State, exec .lineReset s =
          .next (u.decided 0x0044 .accepted (x.directed.length - (if own = [] then 0 else 1))) ∧
        (let y := u.line l
         y.runState = .stopped ∧ y.condition = .none ∧ y.faultCause = .none ∧ y.current = none ∧ y.chosen = none ∧
         y.reservation = none ∧ u.isHeld l = false ∧ y.directed = [] ∧ y.alertSet = [] ∧ y.alertCursor = 63 ∧
         y.cycleNumber = 0 ∧ y.cursor = 0 ∧ y.burst = 0 ∧ y.visitCount = 0 ∧ y.contention = 0 ∧
         y.swapPending = false ∧ (y.active = x.active ↔ x.swapPending = false) ∧ y.params = x.params ∧
         y.bankZero = x.bankZero ∧ y.bankOne = x.bankOne ∧ y.submitBuffer = x.submitBuffer ∧ y.shifter = carried ∧
         y.receiver = x.receiver) ∧
        (own ≠ [] → u.isPending (.directedDone l) = true) ∧ (frees → u.HoldListServed) ∧
        (∀ i, (s.entry i).line = l →
          let e := if target = some i then
              (if (s.entry i).disablePending = true then
                { s.entry i with state := .disabled, consecutive := 0, inService := false, disablePending := false }
              else { s.entry i with inService := false })
            else s.entry i
          u.entry i = if isWorking e.state = true then { e with state := .unknown, consecutive := 0 } else e) ∧
        (∀ i, (s.entry i).line ≠ l → (s.entry i).onlyServed (u.entry i)) ∧
        (∀ m, m ≠ l → (s.line m).Selected (u.line m)) ∧
        s.interrupts.latched &&& u.interrupts.latched = s.interrupts.latched ∧
        (s.queue.records ≠ [] → u.queue.cursor = s.queue.cursor) ∧
        u.isPending (.lineStopped l) = true ∧ s.queue.records <+: u.queue.records ∧ State.WroteThen l own s u ∧
        u.window = { s.window with command := 0x0044 } ∧ u.queue.drainMode = s.queue.drainMode ∧
        u.queue.threshold = s.queue.threshold ∧ u.interrupts.enables = s.interrupts.enables

/-- With the reset input not asserted. START_DETECTED of a receiver in HUNT: it enters ASSEMBLE; in GUARD the quiet
count becomes 0, in AWAIT the response timer stops, in RECEIVE the gap timer stops, in IDLE and SEND the engine is
unchanged; nothing else changes. WAIT_MARK_END of a receiver in WAIT-MARK: it returns to HUNT, and nothing else
changes. In every other receiver state the two rows change nothing (log entry 5). -/
def Obligations.ReceiverEventsAct : Prop :=
  ∀ (s : State) (l : Line), s.window.resetInput = false →
    let x := s.line l
    (x.receiver = .hunt → exec (.startDetected l) s = .next (s.setLine l
      { x with
        receiver := .assemble
        phase := match x.phase with
          | .idle w => .idle w
          | .guard _ noise => .guard 0 noise
          | .send k e => .send k e
          | .sendWaiting => .sendWaiting
          | .await _ => .await none
          | .receive buffer crc _ => .receive buffer crc none })) ∧
    (x.receiver ≠ .hunt → exec (.startDetected l) s = .next s) ∧
    (x.receiver = .waitMark → exec (.waitMarkEnd l) s = .next (s.setLine l { x with receiver := .hunt })) ∧
    (x.receiver ≠ .waitMark → exec (.waitMarkEnd l) s = .next s)

/-- With the reset input not asserted, CHARACTER of a receiver in ASSEMBLE: the receiver returns to HUNT after good
framing and enters WAIT-MARK after FRAMING ERROR, and, nothing else changing: in IDLE the character is discarded; in
GUARD the quiet count becomes 0; in SEND a good character equal to the one sent, the byte of the unit's frame with
the number of the window, and the first of its window, is the echo, and any other makes the contention count one
higher and ends the attempt, the unit waiting for the fall of DE (log entry 7); in SEND before the transmission
begins, no window being open, it is discarded (DESIGN CHOICE, log entry 11); in AWAIT C5H with good framing enters
RECEIVE with an empty buffer and the CRC register at FFFFH, any other ends the attempt CORRUPT; in RECEIVE a FRAMING
ERROR, or a COUNT byte above 40, ends the attempt CORRUPT, CTRL to the last payload byte are kept and fed to the CRC
register, the first CRC byte is kept, the gap timer restarting, and at the second CRC byte the attempt ends CORRUPT,
or as the answer is judged against the unit's work and ADDR, byte 2 of its frame. In another receiver state nothing
changes (log entry 5). -/
def Obligations.CharacterActs : Prop :=
  ∀ (s : State) (l : Line) (v : Byte) (f : Framing), s.window.resetInput = false →
    let x := s.line l
    let r : Receiver := match f with | .good => .hunt | .framingError => .waitMark
    let u : State := s.setLine l { x with receiver := r }
    let go (p : Phase) : Host.Outcome State Fault Refusal := .next (s.setLine l { x with receiver := r, phase := p })
    let byte (k : Nat) : Byte :=
      match x.current with
      | none => 0
      | some c => c.frame.getD k 0
    (x.receiver ≠ .assemble → exec (.character l v f) s = .next s) ∧
    (x.receiver = .assemble →
      (∀ w, x.phase = .idle w → exec (.character l v f) s = .next u) ∧
      (∀ q n, x.phase = .guard q n → exec (.character l v f) s = go (.guard 0 n)) ∧
      (∀ k e, x.phase = .send k e →
        (f = .good → v = byte k → e = false → exec (.character l v f) s = go (.send k true)) ∧
        ((f = .framingError ∨ v ≠ byte k ∨ e = true) → exec (.character l v f) s = .next (s.setLine l
          { x with receiver := r, contention := x.contention + 1, phase := .idle .fallOfDe }))) ∧
      (x.phase = .sendWaiting → exec (.character l v f) s = .next u) ∧
      (∀ t, x.phase = .await t →
        (f = .good → v = 0xC5 → exec (.character l v f) s = go (.receive [] 0xFFFF (some 0))) ∧
        ((f = .framingError ∨ v ≠ 0xC5) → exec (.character l v f) s = .next (u.attemptFails l .corrupt))) ∧
      ∀ buffer crc g, x.phase = .receive buffer crc g →
        let count := (buffer.getD 3 0).toNat
        (f = .framingError → exec (.character l v f) s = .next (u.attemptFails l .corrupt)) ∧
        (f = .good →
          (buffer.length = 3 → 40 < v.toNat → exec (.character l v f) s = .next (u.attemptFails l .corrupt)) ∧
          ((buffer.length < 3 ∨ buffer.length = 3 ∧ v.toNat ≤ 40 ∨ 3 < buffer.length ∧ buffer.length < 4 + count) →
            exec (.character l v f) s = go (.receive (buffer ++ [v]) (crcByte crc v) (some 0))) ∧
          (3 < buffer.length → buffer.length = 4 + count →
            exec (.character l v f) s = go (.receive (buffer ++ [v]) crc (some 0))) ∧
          ∀ c, x.current = some c → 3 < buffer.length → 4 + count < buffer.length →
            exec (.character l v f) s = .next (u.attemptJudged l
              (if crc = buffer.getD (4 + count) 0 ++ v then
                validate c.work (c.frame.getD 2 0) (buffer.getD 0 0) (buffer.getD 1 0) (buffer.getD 2 0)
                  ((buffer.drop 4).take count)
              else .failing .corrupt))))

/-- In READY. QUIET_REACHED in GUARD with the receiver in HUNT: SEND is entered, with the first byte of the unit's
frame in the shifter and its bit time of DE lead; where the shifter still holds the character of an earlier
transmission, SEND is entered and the transmission begins when that character has ended, at its
TRANSMIT_CHARACTER_END (DESIGN CHOICE, log entry 11); otherwise nothing changes. TRANSMIT_CHARACTER_END in SEND with
the echo received: the next byte of the frame follows, in its own window; after the last of the frame the contention
count becomes 0, DE falls, and a POLL or SET enters AWAIT with the response timer at 0, a BCAST its settle time.
Without the echo, or after a transmission cut short by CONTENTION, DE falls and, the count being at least 4, the line
faults with cause CONTENTION, else the backoff starts. In any other phase the shifter empties and nothing else
changes; with an empty shifter nothing changes. That the rows change nothing outside their occasion is the DESIGN
CHOICE of log entry 5; that QUIET_REACHED acts whatever the quiet count and TRANSMIT_CHARACTER_END whatever the
periods the character has stood is the DESIGN CHOICE of log entry 2 (the count of the clock:
StepIdlePassesOnePeriod). -/
def Obligations.TransmissionProceeds : Prop :=
  ∀ (s : State) (l : Line), s.live = true →
    let x := s.line l
    let byte (k : Nat) : Byte :=
      match x.current with
      | none => 0
      | some c => c.frame.getD k 0
    let length : Nat :=
      match x.current with
      | none => 0
      | some c => c.frame.length
    let first (k : Nat) (lead : Bool) : Shifter :=
      { char := byte k, lead := lead, elapsed := 0, bitPeriods := 16 * (x.params.rate + 1) }
    let cut (n : Nat) : State := s.setLine l { x with shifter := none, contention := n }
    (∀ q n, x.phase = .guard q n → x.receiver = .hunt → x.shifter = none → exec (.quietReached l) s =
      .next (s.setLine l { x with phase := .send 0 false, shifter := some (first 0 true) })) ∧
    (∀ q n, x.phase = .guard q n → x.receiver = .hunt → x.shifter.isSome = true → exec (.quietReached l) s =
      .next (s.setLine l { x with phase := .sendWaiting })) ∧
    (((∀ q n, x.phase ≠ .guard q n) ∨ x.receiver ≠ .hunt) → exec (.quietReached l) s = .next s) ∧
    (x.shifter = none → exec (.transmitCharacterEnd l) s = .next s) ∧
    (x.shifter.isSome = true →
      (∀ k, x.phase = .send k true →
        (k + 1 < length → exec (.transmitCharacterEnd l) s =
          .next (s.setLine l { x with phase := .send (k + 1) false, shifter := some (first (k + 1) false) })) ∧
        ∀ c, x.current = some c → length ≤ k + 1 →
          ((∃ d, c.work = .directed d ∧ d.kind = .bcast) → exec (.transmitCharacterEnd l) s =
            .next (s.setLine l { x with contention := 0, shifter := none, phase := .idle (.settle 0) })) ∧
          ((¬ ∃ d, c.work = .directed d ∧ d.kind = .bcast) → exec (.transmitCharacterEnd l) s =
            .next (s.setLine l { x with contention := 0, shifter := none, phase := .await (some 0) }))) ∧
      (x.phase = .sendWaiting → exec (.transmitCharacterEnd l) s =
        .next (s.setLine l { x with phase := .send 0 false, shifter := some (first 0 true) })) ∧
      (∀ n, (n = x.contention + 1 ∧ (∃ k, x.phase = .send k false) ∨ n = x.contention ∧ x.phase = .idle .fallOfDe) →
        (4 ≤ n → exec (.transmitCharacterEnd l) s = .next ((cut n).faultLine l .contention).finish) ∧
        (n < 4 → exec (.transmitCharacterEnd l) s =
          .next (s.setLine l { x with shifter := none, contention := n, phase := .idle (.backoff 0) }))) ∧
      ((∀ k e, x.phase ≠ .send k e) → x.phase ≠ .sendWaiting → x.phase ≠ .idle .fallOfDe →
        exec (.transmitCharacterEnd l) s = .next (s.setLine l { x with shifter := none })))

/-- In READY: RESPONSE_TIMEOUT with the response timer running ends the attempt TIMEOUT; GAP_LIMIT_EXPIRY with the
gap timer running ends it CORRUPT; BACKOFF_END in the backoff enters GUARD for the same attempt; SETTLE_END in the
settle time completes the BCAST; NOISE_LIMIT_EXPIRY in GUARD with the quiet count below 3 CT faults the line with
cause NOISE, after which the arbiters take their turn; with quiet reached it faults nothing. Where the timer does not
run, the row changes nothing (DESIGN CHOICE, log entry 5); that the rows act whatever the count of their running
timer is the DESIGN CHOICE of log entry 2 (the counts of the clock: StepIdlePassesOnePeriod). -/
def Obligations.ExchangeTimersAct : Prop :=
  ∀ (s : State) (l : Line), s.live = true →
    let x := s.line l
    (∀ n, x.phase = .await (some n) → exec (.responseTimeout l) s = .next (s.attemptFails l .timeout)) ∧
    ((∀ n, x.phase ≠ .await (some n)) → exec (.responseTimeout l) s = .next s) ∧
    (∀ b crc n, x.phase = .receive b crc (some n) → exec (.gapLimitExpiry l) s = .next (s.attemptFails l .corrupt)) ∧
    ((∀ b crc n, x.phase ≠ .receive b crc (some n)) → exec (.gapLimitExpiry l) s = .next s) ∧
    (∀ n, x.phase = .idle (.backoff n) →
      exec (.backoffEnd l) s = .next (s.setLine l { x with phase := .guard 0 0 })) ∧
    ((∀ n, x.phase ≠ .idle (.backoff n)) → exec (.backoffEnd l) s = .next s) ∧
    (∀ n, x.phase = .idle (.settle n) → exec (.settleEnd l) s = .next (s.endUnit l .settled)) ∧
    ((∀ n, x.phase ≠ .idle (.settle n)) → exec (.settleEnd l) s = .next s) ∧
    (∀ q n, x.phase = .guard q n → q < 3 * (160 * (x.params.rate + 1)) →
      exec (.noiseLimitExpiry l) s = .next (s.faultLine l .noise).finish) ∧
    ((∀ q n, x.phase = .guard q n → 3 * (160 * (x.params.rate + 1)) ≤ q) → exec (.noiseLimitExpiry l) s = .next s)

/-- For a unit in progress: a failing attempt raises attempts used, becomes the last failing outcome, empties the
held answer, and adds 1 to the failed-attempt count of the target station, if there is one, stopping at 65535; below
the budget GUARD follows for the next attempt, at the budget the unit completes FAILED. An answer judged TIMEOUT,
CORRUPT, MISMATCH or OVERLONG ends its attempt so. A GOOD attempt raises attempts used, holds its answer and
completes the unit. A DEFERRED attempt does the same, but that a directed unit below its budget tries again after
GUARD. -/
def Obligations.AttemptsCounted : Prop :=
  ∀ (s : State) (l : Line) (c : UnitContext), (s.line l).current = some c →
    let hold (d : UnitContext) : State := s.setLine l { s.line l with current := some d }
    let again (t : State) : State := t.setLine l { t.line l with phase := .guard 0 0 }
    (∀ o,
      let d := { c with used := c.used + 1, lastFailing := some o, held := none }
      let t : State := match workStation c.work with
        | none => hold d
        | some i => (hold d).setEntry i
            { s.entry i with failedAttempts := min ((s.entry i).failedAttempts + 1) 65535 }
      (c.used + 1 < c.budget → s.attemptFails l o = again t) ∧
      (c.budget ≤ c.used + 1 → s.attemptFails l o = t.endUnit l (.failed o))) ∧
    (∀ o, s.attemptJudged l (.failing o) = s.attemptFails l o) ∧
    (∀ a, s.attemptJudged l (.good a) =
      (hold { c with used := c.used + 1, held := some a }).endUnit l (.good a)) ∧
    ∀ a,
      let t := hold { c with used := c.used + 1, held := some a }
      ((∃ e, c.work = .directed e) → c.used + 1 < c.budget → s.attemptJudged l (.deferred a) = again t) ∧
      (((∀ e, c.work ≠ .directed e) ∨ c.budget ≤ c.used + 1) →
        s.attemptJudged l (.deferred a) = t.endUnit l (.deferred a))

/-- For an answer with bytes CTRL, ADDR, GROUP and payload to the POLL or SET that a unit sends by Table 1-5 (a POLL
of the slot's group and limit for a visit, of group 15 and limit 40 for a follow-up, the request's own for a directed
unit): a kind code that is not 8, 9 or 10, an ADDR that differs in any bit from the address sent, a GROUP whose low
four bits differ from the group sent, or a kind not allowed for the frame sent gives MISMATCH; a REPLY longer than
the limit of the POLL gives OVERLONG; otherwise REPLY and CONFIRM give GOOD and BUSY gives DEFERRED, the held answer
carrying the kind, CTRL bit 4 as its ALERT flag and the payload (that of a CONFIRM or BUSY too: DESIGN CHOICE, log
entry 25). Bits 7-5 of CTRL and 7-4 of GROUP enter no check. -/
def Obligations.AnswersValidated : Prop :=
  ∀ (w : Work) (address ctrl addr group : Byte) (payload : List Byte) (sent : RequestKind) (sentGroup : Group)
    (limit : Nat),
    (match w with
     | .visit _ _ g n => sent = .poll ∧ sentGroup = g ∧ limit = n
     | .alert _ => sent = .poll ∧ sentGroup = 15 ∧ limit = 40
     | .directed e => sent = e.kind ∧ sentGroup = e.group ∧ limit = e.count
     | .mark _ _ => False) → sent ≠ .bcast →
    let kind := ctrl.toNat % 16
    let verdict := validate w address ctrl addr group payload
    let held (k : AnswerKind) : HeldAnswer := { kind := k, alert := ctrl.getLsbD 4, payload := payload }
    let match3 : Prop := addr = address ∧ group.toNat % 16 = sentGroup.toNat
    ((kind ≠ 8 ∧ kind ≠ 9 ∧ kind ≠ 10) → verdict = .failing .mismatch) ∧
    (¬ match3 → verdict = .failing .mismatch) ∧
    (match3 →
      (sent = .poll → kind = 9 → verdict = .failing .mismatch) ∧
      (sent = .set → kind = 8 → verdict = .failing .mismatch) ∧
      (sent = .poll → kind = 8 → limit < payload.length → verdict = .failing .overlong) ∧
      (sent = .poll → kind = 8 → payload.length ≤ limit → verdict = .good (held .reply)) ∧
      (sent = .set → kind = 9 → verdict = .good (held .confirm)) ∧
      (kind = 10 → verdict = .deferred (held .busy)))

/-- In a state that is Coherent with legal entries, where units target stations of their own line, a unit in progress
that ends at the end of an attempt or of a settle time (a GOOD answer within what it asked for). Its own record is
the next record: for GOOD, a DATA record of a visit with origin SCHEDULE, station and group of the slot and the slot
index as ref (R76), of a follow-up with origin ALERT, group 15 and ref FFH (R96), of a directed POLL with origin
DIRECTED, the entry's station and group and the tag (Table 5-4), each with payload and ALERT of the answer, or the
CONFIRM of a directed SET with its ALERT and broadcast clear; for a directed unit, FAULT with cause BUSY if DEFERRED
and with the failing outcome if FAILED (Table 5-3); for a settled BCAST, CONFIRM with station 0, alert clear and
broadcast set; otherwise none. The STATE record of a change of state by R57 or R58 follows it, and the line writes no
other (a period in which both lines act: StepIdlePassesOnePeriod, log entry 24). DIRECTED DONE of the line is then
pending for a directed unit, STATION STATE for a STATE record. The alert set keeps its members, with the station of a
GOOD or DEFERRED answer that has ALERT and follow-up enabled added, and without a station that becomes OFFLINE or
DISABLED. After the completion the entry of the station carries the outcome, is out of service, and DISABLED with
consecutive failures 0 if a disable was pending; a directed entry has left its queue, which any other unit leaves
alone; the line has no unit, no reservation and phase IDLE; where words of the reservation were left, their return
has served the hold list: it is empty, or its head does not fit. Then a STOPPING line enters STOPPED
(State.enterStopped), LINE STOPPED pending, and the arbiters take their turn (State.finish); a RUNNING line stays so.
The other line keeps what LineEngine.Selected says, no other entry changes but for an in-service mark, no record is
lost (State.Evolves). -/
def Obligations.UnitEndHandsOn : Prop :=
  ∀ (s : State) (l : Line) (c : UnitContext) (e : UnitEnd), s.Coherent → s.EntriesLegal → s.UnitsOwnStations →
    (s.line l).current = some c →
    (match e with
     | .good a => (workKind c.work = .poll ∧ a.kind = .reply ∧ a.payload.length ≤ workLimit c.work ∨
         workKind c.work = .set ∧ a.kind = .confirm)
     | .deferred _ => workKind c.work ≠ .bcast
     | .failed _ => workKind c.work ≠ .bcast
     | .settled => workKind c.work = .bcast
     | .aborted => False
     | .lineFault => False) →
    let x := s.line l
    let cycle := x.cycleNumber
    let fault (cause : RecordCause) : List Record :=
      match c.work with
      | .visit _ _ _ _ => []
      | .alert _ => []
      | .directed d => [.fault l d.station d.group d.tag cause cycle]
      | .mark _ _ => []
    let own : List Record :=
      match e with
      | .good a =>
        match c.work with
        | .visit k i g _ => [.data l .schedule i g (BitVec.ofNat 8 k) a.alert a.payload cycle]
        | .alert i => [.data l .alert i 15 0xFF a.alert a.payload cycle]
        | .directed d =>
          match d.kind with
          | .poll => [.data l .directed d.station d.group d.tag a.alert a.payload cycle]
          | .set => [.confirm l d.station d.group d.tag a.alert false cycle]
          | .bcast => []
        | .mark _ _ => []
      | .deferred _ => fault .busy
      | .failed o =>
        fault (match o with
          | .timeout => .timeout | .corrupt => .corrupt | .mismatch => .mismatch | .overlong => .overlong)
      | .settled =>
        match c.work with
        | .visit _ _ _ _ => []
        | .alert _ => []
        | .directed d => [.confirm l 0 d.group d.tag false true cycle]
        | .mark _ _ => []
      | .aborted => []
      | .lineFault => []
    let change : List Record :=
      match workStation c.work with
      | none => []
      | some i =>
        match visitOutcome (s.entry i) e with
        | (_, none) => []
        | (f, some cause) => [.state l (workOrigin c.work) i (s.entry i).state f.state cause cycle]
    let v := s.completeUnit l e
    let t := s.endUnit l e
    State.WroteThen l (own ++ change) s v ∧ s.queue.records ++ own ++ change <+: t.queue.records ∧
    (∀ i, workStation c.work = some i →
      let f := (visitOutcome (s.entry i) e).1
      v.entry i = (if f.disablePending = true then
          { f with state := .disabled, consecutive := 0, inService := false, disablePending := false }
        else { f with inService := false })) ∧
    (∀ i, workStation c.work ≠ some i → (s.entry i).onlyServed (v.entry i)) ∧
    (∀ i, (v.entry i).onlyServed (t.entry i)) ∧ (∀ m, m ≠ l → (s.line m).Selected (t.line m)) ∧
    ((∃ d, c.work = .directed d) → t.isPending (.directedDone l) = true) ∧
    (change ≠ [] → t.isPending (.stationState l) = true) ∧
    (∀ j, j ∈ (v.line l).alertSet ↔
      match workStation c.work with
      | none => j ∈ x.alertSet
      | some i =>
        (j = i → (s.entry i).disablePending = false) ∧
        match e with
        | .good a => j ∈ x.alertSet ∨ j = i ∧ a.alert = true ∧ (s.entry i).alertFollowUp = true
        | .deferred a => j ∈ x.alertSet ∨ j = i ∧ a.alert = true ∧ (s.entry i).alertFollowUp = true
        | .failed _ => j ∈ x.alertSet ∧
            ((s.entry i).state = .offline ∨ (s.entry i).consecutive + 1 ≠ (s.entry i).failThreshold ∨ j ≠ i)
        | .settled => j ∈ x.alertSet
        | .aborted => j ∈ x.alertSet
        | .lineFault => j ∈ x.alertSet) ∧
    (((own ++ change).map Record.size).sum < x.reservation.getD 0 → v.HoldListServed ∧ t.HoldListServed) ∧
    (v.line l).directed = (if isDirected c.work = true then x.directed.tail else x.directed) ∧
    (v.line l).current = none ∧ (v.line l).reservation = none ∧ (v.line l).phase = .idle .none ∧
    t = (if x.runState = .stopping then v.enterStopped l else v).finish ∧ s.Evolves t ∧
    (x.runState = .running → (t.line l).runState = .running) ∧
    (x.runState = .stopping →
      (t.line l).runState = .stopped ∧ (t.line l).condition = .none ∧ (t.line l).current = none ∧
      (t.line l).reservation = none ∧ t.isPending (.lineStopped l) = true ∧
      ∀ i, workStation c.work = some i → t.entry i = v.entry i)

/-- In a Coherent state where units target stations of their own line, a fault of a line with a unit in progress: the
line is FAULTED with the cause, condition NONE, no unit, no reservation, phase IDLE, a pending swap taken; contention
count, cycle number and cursor stand, and the alert set too unless a deferred disable takes effect; a directed unit
writes FAULT with cause LINE as the next record, DIRECTED DONE of the line is then pending, and its entry leaves the
queue; where words of the reservation were left, their return has served the hold list: it is then empty, or the
request of its head does not fit; the line writes no other record, and with any other unit none at all, its directed
queue standing; its station leaves service, its state, consecutive failures and counts as they stood, or DISABLED if
a disable was pending; LINE FAULT of the line is pending; the other line keeps what LineEngine.Selected says, and no
other entry changes but for an in-service mark that a unit of the other line sets (R62); for the rest only what
State.Evolves allows changes. -/
def Obligations.LineFaultActs : Prop :=
  ∀ (s : State) (l : Line) (c : UnitContext) (cause : FaultCause), s.Coherent → s.UnitsOwnStations →
    (s.line l).current = some c → cause ≠ .none →
    let x := s.line l
    let t := s.faultLine l cause
    s.Evolves t ∧ (t.line l).runState = .faulted ∧ (t.line l).faultCause = cause ∧ (t.line l).condition = .none ∧
    (t.line l).current = none ∧ (t.line l).reservation = none ∧ (t.line l).phase = .idle .none ∧
    (t.line l).swapPending = false ∧ ((t.line l).active = x.active ↔ x.swapPending = false) ∧
    (t.line l).contention = x.contention ∧ (t.line l).cycleNumber = x.cycleNumber ∧ (t.line l).cursor = x.cursor ∧
    t.isPending (.lineFault l) = true ∧
    (∀ d, c.work = .directed d →
      State.WroteThen l [.fault l d.station d.group d.tag .line x.cycleNumber] s t ∧
      t.isPending (.directedDone l) = true ∧ (t.line l).directed = x.directed.tail ∧
      (3 < x.reservation.getD 0 → t.HoldListServed)) ∧
    ((∀ d, c.work ≠ .directed d) → State.WroteThen l [] s t ∧ (t.line l).directed = x.directed ∧
      (0 < x.reservation.getD 0 → t.HoldListServed)) ∧
    ((∀ i, workStation c.work = some i → (s.entry i).disablePending = false) → (t.line l).alertSet = x.alertSet) ∧
    (∀ m, m ≠ l → (s.line m).Selected (t.line m)) ∧
    (∀ i, workStation c.work ≠ some i → (s.entry i).onlyServed (t.entry i)) ∧
    ∀ i, workStation c.work = some i →
      t.entry i = (if (s.entry i).disablePending = true then
          { s.entry i with state := .disabled, consecutive := 0, inService := false, disablePending := false }
        else { s.entry i with inService := false })

/-- For an entry in a working state that is legal: GOOD and DEFERRED raise the answered count by 1 up to 65535, set
consecutive failures to 0 and the state to ONLINE, write a STATE record of the old state if it was not ONLINE, and
put the station into the alert set of the unit's line if the answer has ALERT and follow-up is enabled; FAILED leaves
an OFFLINE entry as it is, otherwise raises consecutive failures by 1, makes it OFFLINE at the threshold with a STATE
record and out of the alert set, SUSPECT from ONLINE below it with a STATE record, and writes nothing else; ABANDONED
and a BCAST's end change nothing. -/
def Obligations.VisitOutcomeMovesEntry : Prop :=
  ∀ (s : State) (l : Line) (w : Work) (i : StationIndex) (e : UnitEnd), (s.entry i).Legal →
    isWorking (s.entry i).state = true → workStation w = some i →
    let t := s.applyOutcome l w e
    let cycle := (s.line l).cycleNumber
    t.entry i = { (visitOutcome (s.entry i) e).1 with
      inService := (s.entry i).inService, disablePending := (s.entry i).disablePending } ∧
    (∀ j, j ≠ i → t.entry j = s.entry j) ∧
    t.queue.records = s.queue.records ++
      (match visitOutcome (s.entry i) e with
       | (_, none) => []
       | (f, some cause) => [.state l (workOrigin w) i (s.entry i).state f.state cause cycle]) ∧
    (∀ j, j ∈ (t.line l).alertSet ↔
      match e with
      | .good a => j ∈ (s.line l).alertSet ∨ j = i ∧ a.alert = true ∧ (s.entry i).alertFollowUp = true
      | .deferred a => j ∈ (s.line l).alertSet ∨ j = i ∧ a.alert = true ∧ (s.entry i).alertFollowUp = true
      | .failed _ => j ∈ (s.line l).alertSet ∧
          ((s.entry i).state = .offline ∨ (s.entry i).consecutive + 1 ≠ (s.entry i).failThreshold ∨ j ≠ i)
      | .settled => j ∈ (s.line l).alertSet
      | .aborted => j ∈ (s.line l).alertSet
      | .lineFault => j ∈ (s.line l).alertSet) ∧
    t.window = s.window ∧ (∀ m, m ≠ l → t.line m = s.line m)

/-- The frame of a kind, address, group, count and payload of at most 40 bytes is 7 + n bytes long, n the payload's
length: C5H, the kind code with every other bit of CTRL 0, the address, the group with bits 7-4 0, the count, the
payload in order, and the check register, loaded with FFFFH and fed CTRL to the last payload byte, high byte first;
feeding the two CRC bytes as well leaves the register 0000H. A byte is fed most significant bit first, and for each
bit the register is shifted one place to the left and, if the bit differs from the bit shifted out, XORed with 1021H
(R15); the bytes 31H to 39H give 29B1H. The frame of a unit is that of Table 1-5: POLL of the slot's group and limit
for a visit, of group 15 and limit 40 for a follow-up, the request's own for a directed unit, to 3FH for a BCAST. -/
def Obligations.MasterFrameBuilt : Prop :=
  (∀ (kind : RequestKind) (address : Byte) (group : Group) (count : Nat) (payload : List Byte), count ≤ 40 →
    let f := buildFrame kind address group count payload
    let covered := f.tail.take (4 + payload.length)
    f.length = 7 + payload.length ∧ f[0]? = some 0xC5 ∧
    (∃ ctrl, f[1]? = some ctrl ∧ ctrl.toNat = match kind with | .poll => 1 | .set => 2 | .bcast => 3) ∧
    f[2]? = some address ∧ (∃ g, f[3]? = some g ∧ g.toNat = group.toNat) ∧
    (∃ n, f[4]? = some n ∧ n.toNat = count) ∧ (f.drop 5).take payload.length = payload ∧
    f.drop (5 + payload.length) = [hiByte (crcBytes 0xFFFF covered), loByte (crcBytes 0xFFFF covered)] ∧
    crcBytes 0xFFFF f.tail = 0) ∧
  (let fed (register : Word) (bit : Bool) : Word :=
     if bit ≠ register.getLsbD 15 then (register <<< 1) ^^^ 0x1021 else register <<< 1
   ∀ (register : Word) (b : Byte) (bs : List Byte), crcBytes register [] = register ∧
     crcBytes register (b :: bs) = crcBytes (fed (fed (fed (fed (fed (fed (fed (fed register (b.getLsbD 7))
       (b.getLsbD 6)) (b.getLsbD 5)) (b.getLsbD 4)) (b.getLsbD 3)) (b.getLsbD 2)) (b.getLsbD 1)) (b.getLsbD 0)) bs) ∧
  crcBytes 0xFFFF [0x31, 0x32, 0x33, 0x34, 0x35, 0x36, 0x37, 0x38, 0x39] = 0x29B1 ∧
  ∀ address : Nat,
    (∀ k i g n, workFrame (.visit k i g n) address = buildFrame .poll (BitVec.ofNat 8 address) g n []) ∧
    (∀ i, workFrame (.alert i) address = buildFrame .poll (BitVec.ofNat 8 address) 15 40 []) ∧
    ∀ e : DirectedEntry,
      (e.kind = .poll → workFrame (.directed e) address = buildFrame .poll (BitVec.ofNat 8 address) e.group e.count []) ∧
      (e.kind = .set →
        workFrame (.directed e) address = buildFrame .set (BitVec.ofNat 8 address) e.group e.count e.payload) ∧
      (e.kind = .bcast → workFrame (.directed e) address = buildFrame .bcast 0x3F e.group e.count e.payload)

/-- A unit that starts on a line. A visit, follow-up or directed POLL or SET whose station is in a working state on
the line: the entry takes the in-service mark and nothing else changes in it; the context holds the unit's frame to
the entry's address, the budget of Table 2-1 (1 for a visit or directed unit of an OFFLINE station, else 1 + retry
limit), no attempt used, no outcome, no answer; GUARD is entered with quiet count and noise limit 0; a visit raises
the visit count, a follow-up takes its station out of the alert set and makes it the alert cursor. A BCAST starts in
the same way without a station. With an invalid station a visit or follow-up only returns the reservation, and a
directed unit writes FAULT STATION, its entry leaves the queue and the reservation is returned. A cycle-end mark
starts and completes at once: its MARK record with the visits and overrun flag fixed at the boundary and the number
of the cycle that ends joins the tail, its reservation is used up, and the boundary goes on with step 2
(State.finishBoundary), the phase staying IDLE. -/
def Obligations.UnitsStart : Prop :=
  ∀ (s : State) (l : Line),
    let x := s.line l
    let valid (i : StationIndex) : Prop := isWorking (s.entry i).state = true ∧ (s.entry i).line = l
    let context (w : Work) (address budget : Nat) : UnitContext :=
      { work := w, frame := workFrame w address, budget := budget, used := 0, lastFailing := none, held := none }
    let started (w : Work) (i : StationIndex) (budget : Nat) (y : LineEngine) : State :=
      (s.setEntry i { s.entry i with inService := true }).setLine l
        { y with current := some (context w (s.entry i).address budget), phase := .guard 0 0 }
    let usual (i : StationIndex) : Nat := if (s.entry i).state = .offline then 1 else 1 + (s.entry i).retryLimit
    let skipped : State := s.setLine l { x with reservation := none }
    (∀ k i g n,
      (valid i → s.startWork l (.visit k i g n) =
        started (.visit k i g n) i (usual i) { x with visitCount := x.visitCount + 1 }) ∧
      (¬ valid i → s.startWork l (.visit k i g n) = skipped)) ∧
    (∀ i,
      (valid i → s.startWork l (.alert i) = started (.alert i) i (1 + (s.entry i).retryLimit)
        { x with alertSet := x.alertSet.filter (fun j => j ≠ i), alertCursor := i }) ∧
      (¬ valid i → s.startWork l (.alert i) = skipped)) ∧
    (∀ e : DirectedEntry, e.kind ≠ .bcast →
      (valid e.station → s.startWork l (.directed e) = started (.directed e) e.station (usual e.station) x) ∧
      (¬ valid e.station →
        (s.startWork l (.directed e)).queue =
          s.queue.push (.fault l e.station e.group e.tag .station x.cycleNumber) ∧
        (s.startWork l (.directed e)).line l = { x with directed := x.directed.tail, reservation := none } ∧
        (s.startWork l (.directed e)).stations = s.stations)) ∧
    (∀ e : DirectedEntry, e.kind = .bcast → s.startWork l (.directed e) =
      s.setLine l { x with current := some (context (.directed e) 0 0), phase := .guard 0 0 }) ∧
    ∀ visits overrun, s.startWork l (.mark visits overrun) = State.finishBoundary { skipped with
      queue := { s.queue with
        records := s.queue.records ++ [.mark l visits overrun x.cycleNumber]
        cursor := if s.queue.records = [] then 0 else s.queue.cursor } } l

/-- A line that takes up a unit asks for the words of Table 6-3: 6 + ceil(limit / 2) for a visit or directed POLL, 26
for a follow-up, 6 for a SET, 3 for a BCAST or a mark. With an empty hold list and words used plus reserved plus the
request at most 1024 it holds the reservation and its unit starts; otherwise the unit becomes its pending unit, the
line joins the tail of the hold list with its request, QUEUE HELD is raised, and nothing else changes. -/
def Obligations.ReservationRequested : Prop :=
  (∀ k i g n, workRequest (.visit k i g n) = 6 + (n + 1) / 2) ∧ (∀ i, workRequest (.alert i) = 26) ∧
  (∀ v o, workRequest (.mark v o) = 3) ∧
  (∀ e : DirectedEntry, workRequest (.directed e) =
    match e.kind with | .poll => 6 + (e.count + 1) / 2 | .set => 6 | .bcast => 3) ∧
  ∀ (s : State) (l : Line) (w : Work),
    let x := s.line l
    let fits : Prop := s.queue.holdList = [] ∧ s.wordsUsed + s.wordsReserved + workRequest w ≤ 1024
    (x.reservation = none → fits → s.requestUnit l w =
      (s.setLine l { x with chosen := none, reservation := some (workRequest w) }).startWork l w) ∧
    (¬ (s.queue.holdList = [] ∧ s.wordsUsed + (s.setLine l { x with chosen := some w }).wordsReserved + workRequest w ≤ 1024) →
      s.requestUnit l w =
        { s.setLine l { x with chosen := some w } with
          queue := { s.queue with holdList := s.queue.holdList ++ [⟨l, workRequest w⟩] }
          interrupts := { s.interrupts with latched := s.interrupts.latched ||| causeBit .queueHeld } })

/-- A slot is due when its divisor divides the cycle number, its station is in a working state on the line, and an
OFFLINE station passes the probe test (cycle number + station index) modulo PROBE = 0. In READY, on a RUNNING line
with neither unit nor pending unit. IN CYCLE the cursor moves to the first due slot at or after it, or to the list
length if none is; with a due slot, priority work (the head of the directed queue, else the first alert member after
the alert cursor, wrapping) is requested while the burst counter is below BURST, raising it, and otherwise the slot,
clearing the counter and moving the cursor past it; with none the boundary is taken: with MARK on a mark with the
visit count and the overrun flag is requested. WAITING with the interval elapsed, or IDLE-EMPTY with a list that is
not empty, a cycle starts first (R97 step 2): cycle number one higher, cursor, interval timer, burst counter and
visit count 0, IN CYCLE. WAITING or IDLE-EMPTY with no cycle due, priority work is requested without limit.
WORK_SELECTION does this, and the arbiters go on. On a line that is not free it changes nothing. -/
def Obligations.WorkSelected : Prop :=
  ∀ (s : State) (l : Line), s.live = true →
    let x := s.line l
    let due (k : Nat) : Prop :=
      let t := x.activeBank.slot k
      x.cycleNumber.toNat % t.divisor.toNat = 0 ∧ isWorking (s.entry t.station).state = true ∧
      (s.entry t.station).line = l ∧ ((s.entry t.station).state = .offline →
        (x.cycleNumber.toNat + t.station.val) % x.params.probe = 0)
    let free : Prop := x.runState = .running ∧ x.current = none ∧ x.chosen = none
    let moved (k n : Nat) : State := s.setLine l { x with cursor := k, burst := n }
    let priority (w : Work) : Prop :=
      (∃ e, x.directed.head? = some e ∧ w = .directed e) ∨
      x.directed = [] ∧ ∃ i, w = .alert i ∧ i ∈ x.alertSet ∧
        ((x.alertCursor < i ∧ x.alertSet.find? (fun j => x.alertCursor < j) = some i) ∨
          (∀ j ∈ x.alertSet, j ≤ x.alertCursor) ∧ x.alertSet.head? = some i)
    (¬ free → exec (.workSelection l) s = .next s) ∧
    (free → x.condition = .inCycle →
      (∀ k, x.cursor ≤ k → k < x.listLength → due k → (∀ j, x.cursor ≤ j → j < k → ¬ due j) →
        (∀ w, priority w → x.burst < x.params.burst → exec (.workSelection l) s =
          .next ((moved k (x.burst + 1)).requestUnit l w).finish) ∧
        (((∀ w, ¬ priority w) ∨ x.params.burst ≤ x.burst) → exec (.workSelection l) s =
          .next ((moved (k + 1) 0).requestUnit l (.visit k (x.activeBank.slot k).station (x.activeBank.slot k).group
            (x.activeBank.slot k).limit.toNat)).finish)) ∧
      (x.cursor ≤ x.listLength → (∀ k, x.cursor ≤ k → k < x.listLength → ¬ due k) →
        let y := { x with cursor := x.listLength }
        (x.params.mark = true → exec (.workSelection l) s = .next ((s.setLine l y).requestUnit l (.mark x.visitCount
          (decide (x.params.interval ≠ 0 ∧ x.params.interval * (160 * (x.params.rate + 1)) < x.interval)))).finish) ∧
        (x.params.mark = false → exec (.workSelection l) s = .next ((s.setLine l y).finishBoundary l).finish))) ∧
    (free → (x.condition = .waiting ∧ max x.params.interval 1 * (160 * (x.params.rate + 1)) ≤ x.interval ∨
        x.condition = .idleEmpty ∧ x.listLength ≠ 0) →
      exec (.workSelection l) s = .next (s.setLine l
        { x with cycleNumber := x.cycleNumber + 1, cursor := 0, interval := 0, burst := 0, visitCount := 0,
                 condition := .inCycle }).finish) ∧
    (free → (x.condition = .waiting ∨ x.condition = .idleEmpty) → x.cycleDue = false →
      (∀ w, priority w → exec (.workSelection l) s = .next (s.requestUnit l w).finish) ∧
      ((∀ w, ¬ priority w) → exec (.workSelection l) s = .next s.finish))

/-- A cycle is due on a WAITING line whose interval timer has reached the larger of INTERVAL and 1 CT, and on an
IDLE-EMPTY line whose active list is not empty. In READY, CYCLE_START on a RUNNING line with neither unit nor pending
unit and a cycle due: cycle number one higher (65535 to 0), cursor, interval timer, burst counter and visit count 0,
IN CYCLE, and the arbiters take their turn. INTERVAL_ELAPSED on a RUNNING line IN CYCLE or WAITING: the timer stands
at the interval if it was below (DESIGN CHOICE, log entry 2: the row may come before the clock), and the arbiters
take their turn; otherwise either row changes nothing (DESIGN CHOICE, log entry 5). The boundary raises CYCLE END,
takes a pending swap, and leaves the line IDLE-EMPTY if the active list is then empty, else WAITING, cursor and cycle
number as they stood. -/
def Obligations.CyclesTurn : Prop :=
  ∀ (s : State) (l : Line), s.live = true →
    let x := s.line l
    let least := max x.params.interval 1 * (160 * (x.params.rate + 1))
    let due : Prop := x.condition = .waiting ∧ least ≤ x.interval ∨ x.condition = .idleEmpty ∧ x.activeBank.length ≠ 0
    let free : Prop := x.runState = .running ∧ x.current = none ∧ x.chosen = none
    (free → due → exec (.cycleStart l) s = .next (s.setLine l
      { x with cycleNumber := x.cycleNumber + 1, cursor := 0, interval := 0, burst := 0, visitCount := 0,
               condition := .inCycle }).finish) ∧
    (¬ (free ∧ due) → exec (.cycleStart l) s = .next s) ∧
    (x.runState = .running → (x.condition = .inCycle ∨ x.condition = .waiting) →
      exec (.intervalElapsed l) s = .next (s.setLine l { x with interval := max x.interval least }).finish) ∧
    ((x.runState ≠ .running ∨ x.condition = .none ∨ x.condition = .idleEmpty) →
      exec (.intervalElapsed l) s = .next s) ∧
    let y := s.finishBoundary l
    let active := if x.swapPending = true then otherBank x.active else x.active
    let z : LineEngine :=
      { x with active := active, swapPending := false,
               condition := if (x.bank active).length = 0 then .idleEmpty else .waiting }
    y = { s.setLine l z with
          interrupts := { s.interrupts with latched := s.interrupts.latched ||| causeBit (.cycleEnd l) } }

/-- In READY, UNIT_START on a line with a pending unit, no unit in progress and a reservation: the unit starts, the
hold list is served, and the arbiters take their turn; in any other state of the line it changes nothing (log entry
5). HOLD_LIST_GRANT: with an empty hold list, or a head whose request does not fit beside words used and reserved
within 1024, nothing is granted and the arbiters take their turn; when the request of the only entry fits, it leaves
the list, its line holds the reservation and its unit starts. With two entries of which the first fits: it leaves the
list, its line holds the reservation and its unit starts; if that completed at once, so that the arbiter of the line
is due, its next request may be taken before serving goes on (Config.raceFirst, free by R171, log entry 6), and then
joins behind the other line, whose entry stays the head; serving goes on with that entry: a request that does not fit
ends it, one that fits is granted and its unit starts. -/
def Obligations.GrantedUnitsStart : Prop :=
  ∀ s : State, s.live = true →
    (∀ (l : Line) (w : Work), (s.line l).chosen = some w → (s.line l).current = none →
      (s.line l).reservation.isSome = true → exec (.unitStart l) s =
        .next ((s.setLine l { s.line l with chosen := none }).startWork l w).serve.finish) ∧
    (∀ l, ((s.line l).chosen = none ∨ (s.line l).current.isSome = true ∨ (s.line l).reservation = none) →
      exec (.unitStart l) s = .next s) ∧
    (∀ h rest, s.queue.holdList = h :: rest → 1024 < s.wordsUsed + s.wordsReserved + h.request →
      exec .holdListGrant s = .next s.finish) ∧
    (s.queue.holdList = [] → exec .holdListGrant s = .next s.finish) ∧
    (∀ h w, s.queue.holdList = [h] → s.wordsUsed + s.wordsReserved + h.request ≤ 1024 →
      (s.line h.line).chosen = some w →
      exec .holdListGrant s = .next ((({ s with queue := { s.queue with holdList := [] } }.setLine h.line
        { s.line h.line with chosen := none, reservation := some h.request }).startWork h.line w).finish)) ∧
    ∀ h1 h2 w, s.queue.holdList = [h1, h2] → s.wordsUsed + s.wordsReserved + h1.request ≤ 1024 →
      (s.line h1.line).chosen = some w →
      let granted (t : State) (rest : List HoldEntry) (h : HoldEntry) (w : Work) : State :=
        ({ t with queue := { t.queue with holdList := rest } }.setLine h.line
          { t.line h.line with chosen := none, reservation := some h.request }).startWork h.line w
      let g := granted s [h2] h1 w
      let counted : State := { g with raceCount := s.raceCount + 1 }
      let r : State :=
        if (g.line h1.line).arbiterDue = true then
          (if Config.raceFirst s.raceCount = true then State.settleLine h1.line 256 counted else counted)
        else g
      (r.queue.holdList = [h2] ∨ ∃ n, r.queue.holdList = [h2, ⟨h1.line, n⟩]) ∧
      exec .holdListGrant s = .next (State.serveHoldList 255 r).finish ∧
      (1024 < r.wordsUsed + r.wordsReserved + h2.request → exec .holdListGrant s = .next r.finish) ∧
      ∀ w2, r.queue.holdList = [h2] → r.wordsUsed + r.wordsReserved + h2.request ≤ 1024 →
        (r.line h2.line).chosen = some w2 → exec .holdListGrant s = .next (granted r [] h2 w2).finish

/-- Every receiver, transmitter, timer and inner event, in every state, answers a next state in which the host
window, the enables, the drain mode and the threshold stand; every record stands in its order with the read cursor;
no latched cause is cleared; parameters, bank contents and submit buffers stand, a pending swap is never made, the
directed queues only lose entries from their head; the configuration of every station entry stands. So does one
reference period in READY. -/
def Obligations.EngineEventsFrame : Prop :=
  ∀ (s : State) (l : Line),
    (∀ c ∈ engineRows l, ∃ t, exec c s = .next t ∧ s.Evolves t) ∧
    (∀ c ∈ ([.startDetected l, .waitMarkEnd l] : List Instr), ∃ t, exec c s = .next t ∧ s.Evolves t) ∧
    (∀ v f, ∃ t, exec (.character l v f) s = .next t ∧ s.Evolves t) ∧
    (∀ i, ∃ t, exec (.deferredDisable i) s = .next t ∧ s.Evolves t) ∧
    (s.pending = [] → s.live = true → ∃ t, step s = .next t ∧ s.Evolves t)

/-- An arbiter is due on a RUNNING line with neither unit nor pending unit that is IN CYCLE, or whose cycle can
start, or that has a directed entry or an alert. In a Coherent state whose alert sets are legal: the arbiters' turn
(State.finish) changes nothing when no arbiter is due; in READY it is what WORK_SELECTION of the line answers whose
arbiter is due, of the line of Config.raceFirst when both are (a free order, log entry 6); after the arbiters' turn
no arbiter has anything left to do, so the bound on their invocations within a step is never what ends it (log entry
12); and after serving, the hold list is empty or the request of its head does not fit within 1024 words. -/
def Obligations.SelectionSettles : Prop :=
  ∀ s : State, s.Coherent → s.EntriesLegal → s.AlertsLegal →
    let due (l : Line) : Prop :=
      let x := s.line l
      x.runState = .running ∧ x.current = none ∧ x.chosen = none ∧
        (x.condition = .inCycle ∨
          x.condition = .waiting ∧ (max x.params.interval 1 * (160 * (x.params.rate + 1)) ≤ x.interval ∨
            x.directed ≠ [] ∨ x.alertSet ≠ []) ∨
          x.condition = .idleEmpty ∧ (x.activeBank.length ≠ 0 ∨ x.directed ≠ [] ∨ x.alertSet ≠ []))
    ((∀ l, ¬ due l) → s.finish = s) ∧
    (s.live = true → ∀ l, due l → (∀ m, m ≠ l → ¬ due m) → exec (.workSelection l) s = .next s.finish) ∧
    (s.live = true → ∀ l, (∀ m, due m) → (Config.raceFirst s.raceCount = true ↔ l = .a) →
      exec (.workSelection l) { s with raceCount := s.raceCount + 1 } = .next s.finish) ∧
    s.finish.nextArbiter = none ∧
    ∀ h ∈ s.serve.queue.holdList.head?, 1024 < s.serve.wordsUsed + s.serve.wordsReserved + h.request

/-- State.reset has the parameters in range, the read cursor within the head record, QUEUE THRESHOLD unlatched, every
entry legal, no shared address, both lines, the hold list, lists and directed queues Coherent, the store bounded, the
service marks owned, and the alert sets legal. -/
def Obligations.InvariantsAtReset : Prop :=
  State.reset.ParamsInRange ∧ State.reset.CursorLegal ∧ State.reset.NoThresholdLatch ∧ State.reset.EntriesLegal ∧
  State.reset.NoSharedAddress ∧ State.reset.Coherent ∧ State.reset.StoreBounded ∧ State.reset.ServiceOwned ∧
  State.reset.UnitsOwnStations ∧ State.reset.AlertsLegal

/-- Whenever a step answers a next state: if the parameters stood in the ranges of Table 7-2 they still do; if the
read cursor was at most the head size it still is; if QUEUE THRESHOLD was not latched it still is not. -/
def Obligations.BoundsKept : Prop :=
  ∀ s t : State, step s = .next t →
    (s.ParamsInRange → t.ParamsInRange) ∧ (s.CursorLegal → t.CursorLegal) ∧ (s.NoThresholdLatch → t.NoThresholdLatch)

/-- Whenever a step answers a next state: legal entries stay legal (consecutive failures at most the threshold, and
equal to it exactly when OFFLINE, 0 and no marks when idle, 0 when ONLINE, counts within 65535), and, the entries
being legal, no two entries that are not UNCONFIGURED come to have the same line and line address. -/
def Obligations.StationTableKept : Prop :=
  ∀ s t : State, step s = .next t → s.EntriesLegal →
    t.EntriesLegal ∧ (s.NoSharedAddress → t.NoSharedAddress)

/-- Whenever a step answers a next state from a Coherent state, the next state is Coherent: a STOPPED or FAULTED line
has no unit and no pending unit, a STOPPING line has a unit, the condition is NONE exactly outside RUNNING and the
fault cause NONE exactly outside FAULTED; a line holds a reservation exactly while a unit is in progress, of the
words the unit asked for; the hold list names exactly the lines with a pending unit, each once; the active list and a
shadow about to be swapped in are valid; the directed queues hold at most 8 legal entries. -/
def Obligations.CoherentKept : Prop :=
  ∀ s t : State, step s = .next t → s.Coherent → t.Coherent

/-- Whenever a step answers a next state from a Coherent state whose words used plus words reserved are at most 1024,
so are those of the next state: no record is ever written for which there is no room. -/
def Obligations.StoreNeverOverfull : Prop :=
  ∀ s t : State, step s = .next t → s.Coherent → s.wordsUsed + s.wordsReserved ≤ 1024 →
    t.wordsUsed + t.wordsReserved ≤ 1024

/-- Whenever a step answers a next state from a Coherent state with legal entries in which an entry carries the
in-service mark exactly while the unit in progress of its own line targets it, and units target working stations of
their own line, the next state has both properties. -/
def Obligations.ServiceKept : Prop :=
  ∀ s t : State, step s = .next t → s.Coherent → s.EntriesLegal → s.ServiceOwned → s.UnitsOwnStations →
    t.ServiceOwned ∧ t.UnitsOwnStations

/-- Whenever a step answers a next state from a Coherent state with legal entries, owned service marks and legal
alert sets, the alert sets of the next state are legal: each station once, in ascending order, each ONLINE or SUSPECT
and configured on the line. -/
def Obligations.AlertSetsKept : Prop :=
  ∀ s t : State, step s = .next t → s.Coherent → s.EntriesLegal → s.ServiceOwned → s.UnitsOwnStations →
    s.AlertsLegal → t.AlertsLegal

/-- With the reset input not asserted: 01H to 05H read COMMAND and PARAM 0 to 3, 06H the code of RESULT by Table
11-10, 07H RESULT DETAIL, 08H the region in bits 15-12 and the index in bits 11-0. 09H reads the word at the table
address (0000H in INIT); 0AH in READY and a PIO mode the word of the head record at the cursor, 0000H without one, in
INIT and in DMA mode. Within the bounds every run keeps: 0BH the record count, 0CH words used, 0DH words reserved,
0EH the head size in bits 15-8 and the cursor in bits 7-0, 0FH the drain mode in bits 9-8 and the threshold in bits
7-0. 10H reads the cause with code c at bit c - 1 (the codes: InterruptOutputs). 14H to 17H and 18H to 1BH show Line
A and Line B: run state, cycle condition, HELD, reservation held, exchange phase, fault cause, active bank and
swap-pending by the codes of Table 11-8; the cycle number; the directed count in bits 15-12 and the slot cursor in
bits 6-0; the alert-set count. 13H and 1CH to 1FH read 0000H. Bits that carry no field read 0. (00H: WindowReadsAct;
11H and 12H: InterruptWritesAct, InterruptOutputs.) -/
def Obligations.RegisterViews : Prop :=
  ∀ s : State, s.window.resetInput = false →
    let reg (a : Nat) : Word := s.readRegister (BitVec.ofNat 5 a)
    (reg 0x01 = s.window.command ∧ reg 0x02 = s.window.param0 ∧ reg 0x03 = s.window.param1 ∧
      reg 0x04 = s.window.param2 ∧ reg 0x05 = s.window.param3) ∧
    (reg 0x06).toNat =
      (match s.window.result with
       | .none => 0 | .accepted => 1 | .notReady => 2 | .unknown => 3 | .range => 4 | .state => 5 | .full => 6
       | .duplicate => 7 | .pending => 8 | .empty => 9 | .mode => 10) ∧
    reg 0x07 = s.window.resultDetail ∧
    (reg 0x08).extractLsb' 12 4 = s.window.tableRegion ∧ (reg 0x08).extractLsb' 0 12 = s.window.tableIndex ∧
    (s.window.readiness = .ready → reg 0x09 = s.tableWord s.window.tableRegion s.window.tableIndex.toNat) ∧
    (s.window.readiness = .ready → s.queue.drainMode ≠ .dma →
      (s.queue.records = [] → reg 0x0A = 0) ∧
      ∀ r rest, s.queue.records = r :: rest → reg 0x0A = r.words.getD s.queue.cursor 0) ∧
    (s.window.readiness ≠ .ready → reg 0x09 = 0 ∧ reg 0x0A = 0) ∧ (s.queue.drainMode = .dma → reg 0x0A = 0) ∧
    (s.StoreBounded → (reg 0x0B).toNat = s.queue.records.length ∧
      (reg 0x0C).toNat = (s.queue.records.map Record.size).sum ∧
      (reg 0x0D).toNat = s.lineA.reservation.getD 0 + s.lineB.reservation.getD 0) ∧
    (s.queue.records = [] → s.CursorLegal → reg 0x0E = 0) ∧
    (∀ r rest, s.queue.records = r :: rest → r.size ≤ 23 → s.CursorLegal →
      ((reg 0x0E).extractLsb' 8 8).toNat = r.size ∧ ((reg 0x0E).extractLsb' 0 8).toNat = s.queue.cursor) ∧
    (reg 0x0F).extractLsb' 10 6 = 0 ∧
    ((reg 0x0F).extractLsb' 8 2).toNat =
      (match s.queue.drainMode with | .pioManual => 0 | .pioAuto => 1 | .dma => 2) ∧
    (s.queue.threshold ≤ 255 → ((reg 0x0F).extractLsb' 0 8).toNat = s.queue.threshold) ∧
    (reg 0x10).extractLsb' 12 4 = 0 ∧ (∀ c, (reg 0x10).getLsbD (causeCode c - 1) = s.isPending c) ∧
    (∀ a ∈ [0x13, 0x1C, 0x1D, 0x1E, 0x1F], reg a = 0) ∧
    ∀ l : Line,
      let x := s.line l
      let base := match l with | .a => 0x14 | .b => 0x18
      let w0 := reg base
      let w2 := reg (base + 2)
      (w0.extractLsb' 14 2).toNat =
        (match x.runState with | .stopped => 0 | .running => 1 | .stopping => 2 | .faulted => 3) ∧
      (w0.extractLsb' 12 2).toNat =
        (match x.condition with | .none => 0 | .inCycle => 1 | .waiting => 2 | .idleEmpty => 3) ∧
      (w0.getLsbD 11 = true ↔ ∃ h ∈ s.queue.holdList, h.line = l) ∧ w0.getLsbD 10 = x.reservation.isSome ∧
      (w0.extractLsb' 7 3).toNat =
        (match x.phase with
         | .idle _ => 0 | .guard _ _ => 1 | .send _ _ => 2 | .sendWaiting => 2 | .await _ => 3 | .receive _ _ _ => 4) ∧
      (w0.extractLsb' 5 2).toNat = (match x.faultCause with | .none => 0 | .noise => 1 | .contention => 2) ∧
      (w0.getLsbD 4 = true ↔ x.active = .one) ∧ w0.getLsbD 3 = x.swapPending ∧ w0.extractLsb' 0 3 = 0 ∧
      reg (base + 1) = x.cycleNumber ∧
      (x.directed.length ≤ 8 → (w2.extractLsb' 12 4).toNat = x.directed.length) ∧ w2.extractLsb' 7 5 = 0 ∧
      (x.cursor ≤ 96 → (w2.extractLsb' 0 7).toNat = x.cursor) ∧
      (x.alertSet.length ≤ 64 → (reg (base + 3)).toNat = x.alertSet.length)
end

