-- ==== Sys2Proof/Laws/State.lean ====
section
/-! SUPPORT. What each update of State leaves in each of its fields, so that no proof unfolds a record update. -/

namespace Sys2Proof.Machine

/-! ### Lines -/

@[simp] theorem State.line_a (s : State) : s.line .a = s.lineA := rfl

@[simp] theorem State.line_b (s : State) : s.line .b = s.lineB := rfl

@[simp] theorem State.line_setLine (s : State) (l : Line) (x : LineEngine) : (s.setLine l x).line l = x := by
  cases l <;> rfl

@[simp] theorem State.line_setLine_other (s : State) (l : Line) (x : LineEngine) :
    (s.setLine l x).line (otherLine l) = s.line (otherLine l) := by
  cases l <;> rfl

theorem State.line_setLine_ne (s : State) {l m : Line} (x : LineEngine) (h : m ≠ l) :
    (s.setLine l x).line m = s.line m := by
  cases l <;> cases m <;> first | rfl | exact absurd rfl h

theorem State.line_setLine_eq (s : State) (l m : Line) (x : LineEngine) :
    (s.setLine l x).line m = if m = l then x else s.line m := by
  cases l <;> cases m <;> rfl

@[simp] theorem State.line_modLine (s : State) (l : Line) (f : LineEngine → LineEngine) :
    (s.modLine l f).line l = f (s.line l) := by
  cases l <;> rfl

theorem State.line_modLine_ne (s : State) {l m : Line} (f : LineEngine → LineEngine) (h : m ≠ l) :
    (s.modLine l f).line m = s.line m := by
  cases l <;> cases m <;> first | rfl | exact absurd rfl h

theorem State.line_modLine_eq (s : State) (l m : Line) (f : LineEngine → LineEngine) :
    (s.modLine l f).line m = if m = l then f (s.line m) else s.line m := by
  cases l <;> cases m <;> rfl

@[simp] theorem otherLine_ne (l : Line) : otherLine l ≠ l := by
  cases l <;> decide

@[simp] theorem State.setLine_line (s : State) (l : Line) : s.setLine l (s.line l) = s := by
  cases l <;> rfl

@[simp] theorem State.modLine_id (s : State) (l : Line) : s.modLine l (fun x => x) = s := by
  cases l <;> rfl

/-- Two states with the same line engines and the same of everything else are the same. -/
theorem State.ext_lines {s t : State} (hw : s.window = t.window) (hs : s.stations = t.stations)
    (hl : ∀ l, s.line l = t.line l) (hq : s.queue = t.queue) (hi : s.interrupts = t.interrupts)
    (hr : s.raceCount = t.raceCount) (hp : s.pending = t.pending) : s = t := by
  have ha := hl .a
  have hb := hl .b
  cases s
  cases t
  simp_all [State.line]

/-! ### Station entries -/

@[simp] theorem State.entry_setEntry (s : State) (i : StationIndex) (e : Entry) : (s.setEntry i e).entry i = e := by
  simp [State.setEntry, State.entry, Vector.get_eq_getElem]

theorem State.entry_setEntry_ne (s : State) {i j : StationIndex} (e : Entry) (h : j ≠ i) :
    (s.setEntry i e).entry j = s.entry j := by
  have h' : i.val ≠ j.val := fun hv => h (Fin.ext hv.symm)
  simp [State.setEntry, State.entry, Vector.get_eq_getElem, Vector.getElem_set_ne, h']

theorem State.entry_setEntry_eq (s : State) (i j : StationIndex) (e : Entry) :
    (s.setEntry i e).entry j = if j = i then e else s.entry j := by
  by_cases h : j = i
  · subst h
    simp
  · simp [h, State.entry_setEntry_ne]

@[simp] theorem State.entry_modEntry (s : State) (i : StationIndex) (f : Entry → Entry) :
    (s.modEntry i f).entry i = f (s.entry i) := by
  simp [State.modEntry]

theorem State.entry_modEntry_ne (s : State) {i j : StationIndex} (f : Entry → Entry) (h : j ≠ i) :
    (s.modEntry i f).entry j = s.entry j := by
  simp [State.modEntry, State.entry_setEntry_ne, h]

theorem State.entry_modEntry_eq (s : State) (i j : StationIndex) (f : Entry → Entry) :
    (s.modEntry i f).entry j = if j = i then f (s.entry j) else s.entry j := by
  by_cases h : j = i
  · subst h
    simp
  · simp [h, State.entry_modEntry_ne]

/-! ### setLine -/

@[simp] theorem State.window_setLine (s : State) (l : Line) (x : LineEngine) : (s.setLine l x).window = s.window := by
  cases l <;> rfl

@[simp] theorem State.stations_setLine (s : State) (l : Line) (x : LineEngine) : (s.setLine l x).stations = s.stations := by
  cases l <;> rfl

@[simp] theorem State.queue_setLine (s : State) (l : Line) (x : LineEngine) : (s.setLine l x).queue = s.queue := by
  cases l <;> rfl

@[simp] theorem State.interrupts_setLine (s : State) (l : Line) (x : LineEngine) : (s.setLine l x).interrupts = s.interrupts := by
  cases l <;> rfl

@[simp] theorem State.raceCount_setLine (s : State) (l : Line) (x : LineEngine) : (s.setLine l x).raceCount = s.raceCount := by
  cases l <;> rfl

@[simp] theorem State.pending_setLine (s : State) (l : Line) (x : LineEngine) : (s.setLine l x).pending = s.pending := by
  cases l <;> rfl

@[simp] theorem State.entry_setLine (s : State) (l : Line) (x : LineEngine) (j : StationIndex) : (s.setLine l x).entry j = s.entry j := by
  cases l <;> rfl

/-! ### modLine -/

@[simp] theorem State.window_modLine (s : State) (l : Line) (f : LineEngine → LineEngine) : (s.modLine l f).window = s.window := by
  cases l <;> rfl

@[simp] theorem State.stations_modLine (s : State) (l : Line) (f : LineEngine → LineEngine) : (s.modLine l f).stations = s.stations := by
  cases l <;> rfl

@[simp] theorem State.queue_modLine (s : State) (l : Line) (f : LineEngine → LineEngine) : (s.modLine l f).queue = s.queue := by
  cases l <;> rfl

@[simp] theorem State.interrupts_modLine (s : State) (l : Line) (f : LineEngine → LineEngine) : (s.modLine l f).interrupts = s.interrupts := by
  cases l <;> rfl

@[simp] theorem State.raceCount_modLine (s : State) (l : Line) (f : LineEngine → LineEngine) : (s.modLine l f).raceCount = s.raceCount := by
  cases l <;> rfl

@[simp] theorem State.pending_modLine (s : State) (l : Line) (f : LineEngine → LineEngine) : (s.modLine l f).pending = s.pending := by
  cases l <;> rfl

@[simp] theorem State.entry_modLine (s : State) (l : Line) (f : LineEngine → LineEngine) (j : StationIndex) : (s.modLine l f).entry j = s.entry j := by
  cases l <;> rfl

/-! ### setEntry -/

@[simp] theorem State.window_setEntry (s : State) (i : StationIndex) (e : Entry) : (s.setEntry i e).window = s.window := rfl

@[simp] theorem State.queue_setEntry (s : State) (i : StationIndex) (e : Entry) : (s.setEntry i e).queue = s.queue := rfl

@[simp] theorem State.interrupts_setEntry (s : State) (i : StationIndex) (e : Entry) : (s.setEntry i e).interrupts = s.interrupts := rfl

@[simp] theorem State.raceCount_setEntry (s : State) (i : StationIndex) (e : Entry) : (s.setEntry i e).raceCount = s.raceCount := rfl

@[simp] theorem State.pending_setEntry (s : State) (i : StationIndex) (e : Entry) : (s.setEntry i e).pending = s.pending := rfl

@[simp] theorem State.line_setEntry (s : State) (i : StationIndex) (e : Entry) (m : Line) : (s.setEntry i e).line m = s.line m := by
  cases m <;> rfl

/-! ### modEntry -/

@[simp] theorem State.window_modEntry (s : State) (i : StationIndex) (f : Entry → Entry) : (s.modEntry i f).window = s.window := rfl

@[simp] theorem State.queue_modEntry (s : State) (i : StationIndex) (f : Entry → Entry) : (s.modEntry i f).queue = s.queue := rfl

@[simp] theorem State.interrupts_modEntry (s : State) (i : StationIndex) (f : Entry → Entry) : (s.modEntry i f).interrupts = s.interrupts := rfl

@[simp] theorem State.raceCount_modEntry (s : State) (i : StationIndex) (f : Entry → Entry) : (s.modEntry i f).raceCount = s.raceCount := rfl

@[simp] theorem State.pending_modEntry (s : State) (i : StationIndex) (f : Entry → Entry) : (s.modEntry i f).pending = s.pending := rfl

@[simp] theorem State.line_modEntry (s : State) (i : StationIndex) (f : Entry → Entry) (m : Line) : (s.modEntry i f).line m = s.line m := by
  cases m <;> rfl

/-! ### modWindow -/

@[simp] theorem State.stations_modWindow (s : State) (f : Window → Window) : (s.modWindow f).stations = s.stations := rfl

@[simp] theorem State.queue_modWindow (s : State) (f : Window → Window) : (s.modWindow f).queue = s.queue := rfl

@[simp] theorem State.interrupts_modWindow (s : State) (f : Window → Window) : (s.modWindow f).interrupts = s.interrupts := rfl

@[simp] theorem State.raceCount_modWindow (s : State) (f : Window → Window) : (s.modWindow f).raceCount = s.raceCount := rfl

@[simp] theorem State.pending_modWindow (s : State) (f : Window → Window) : (s.modWindow f).pending = s.pending := rfl

@[simp] theorem State.line_modWindow (s : State) (f : Window → Window) (m : Line) : (s.modWindow f).line m = s.line m := by
  cases m <;> rfl

@[simp] theorem State.entry_modWindow (s : State) (f : Window → Window) (j : StationIndex) : (s.modWindow f).entry j = s.entry j := rfl

/-! ### reply -/

@[simp] theorem State.stations_reply (s : State) (r : Result) (n : Nat) : (s.reply r n).stations = s.stations := rfl

@[simp] theorem State.queue_reply (s : State) (r : Result) (n : Nat) : (s.reply r n).queue = s.queue := rfl

@[simp] theorem State.interrupts_reply (s : State) (r : Result) (n : Nat) : (s.reply r n).interrupts = s.interrupts := rfl

@[simp] theorem State.raceCount_reply (s : State) (r : Result) (n : Nat) : (s.reply r n).raceCount = s.raceCount := rfl

@[simp] theorem State.pending_reply (s : State) (r : Result) (n : Nat) : (s.reply r n).pending = s.pending := rfl

@[simp] theorem State.line_reply (s : State) (r : Result) (n : Nat) (m : Line) : (s.reply r n).line m = s.line m := by
  cases m <;> rfl

@[simp] theorem State.entry_reply (s : State) (r : Result) (n : Nat) (j : StationIndex) : (s.reply r n).entry j = s.entry j := rfl

/-! ### drive -/

@[simp] theorem State.stations_drive (s : State) (w : Word) : (s.drive w).stations = s.stations := rfl

@[simp] theorem State.queue_drive (s : State) (w : Word) : (s.drive w).queue = s.queue := rfl

@[simp] theorem State.interrupts_drive (s : State) (w : Word) : (s.drive w).interrupts = s.interrupts := rfl

@[simp] theorem State.raceCount_drive (s : State) (w : Word) : (s.drive w).raceCount = s.raceCount := rfl

@[simp] theorem State.pending_drive (s : State) (w : Word) : (s.drive w).pending = s.pending := rfl

@[simp] theorem State.line_drive (s : State) (w : Word) (m : Line) : (s.drive w).line m = s.line m := by
  cases m <;> rfl

@[simp] theorem State.entry_drive (s : State) (w : Word) (j : StationIndex) : (s.drive w).entry j = s.entry j := rfl

/-! ### raise -/

@[simp] theorem State.window_raise (s : State) (c : Cause) : (s.raise c).window = s.window := rfl

@[simp] theorem State.stations_raise (s : State) (c : Cause) : (s.raise c).stations = s.stations := rfl

@[simp] theorem State.queue_raise (s : State) (c : Cause) : (s.raise c).queue = s.queue := rfl

@[simp] theorem State.raceCount_raise (s : State) (c : Cause) : (s.raise c).raceCount = s.raceCount := rfl

@[simp] theorem State.pending_raise (s : State) (c : Cause) : (s.raise c).pending = s.pending := rfl

@[simp] theorem State.line_raise (s : State) (c : Cause) (m : Line) : (s.raise c).line m = s.line m := by
  cases m <;> rfl

@[simp] theorem State.entry_raise (s : State) (c : Cause) (j : StationIndex) : (s.raise c).entry j = s.entry j := rfl

/-! ### leaveAlertSet -/

@[simp] theorem State.window_leaveAlertSet (s : State) (l : Line) (i : StationIndex) : (s.leaveAlertSet l i).window = s.window := by
  cases l <;> rfl

@[simp] theorem State.stations_leaveAlertSet (s : State) (l : Line) (i : StationIndex) : (s.leaveAlertSet l i).stations = s.stations := by
  cases l <;> rfl

@[simp] theorem State.queue_leaveAlertSet (s : State) (l : Line) (i : StationIndex) : (s.leaveAlertSet l i).queue = s.queue := by
  cases l <;> rfl

@[simp] theorem State.interrupts_leaveAlertSet (s : State) (l : Line) (i : StationIndex) : (s.leaveAlertSet l i).interrupts = s.interrupts := by
  cases l <;> rfl

@[simp] theorem State.raceCount_leaveAlertSet (s : State) (l : Line) (i : StationIndex) : (s.leaveAlertSet l i).raceCount = s.raceCount := by
  cases l <;> rfl

@[simp] theorem State.pending_leaveAlertSet (s : State) (l : Line) (i : StationIndex) : (s.leaveAlertSet l i).pending = s.pending := by
  cases l <;> rfl

@[simp] theorem State.entry_leaveAlertSet (s : State) (l : Line) (i : StationIndex) (j : StationIndex) : (s.leaveAlertSet l i).entry j = s.entry j := by
  cases l <;> rfl

/-! ### applyPendingSwap -/

@[simp] theorem State.window_applyPendingSwap (s : State) (l : Line) : (s.applyPendingSwap l).window = s.window := by
  cases l <;> rfl

@[simp] theorem State.stations_applyPendingSwap (s : State) (l : Line) : (s.applyPendingSwap l).stations = s.stations := by
  cases l <;> rfl

@[simp] theorem State.queue_applyPendingSwap (s : State) (l : Line) : (s.applyPendingSwap l).queue = s.queue := by
  cases l <;> rfl

@[simp] theorem State.interrupts_applyPendingSwap (s : State) (l : Line) : (s.applyPendingSwap l).interrupts = s.interrupts := by
  cases l <;> rfl

@[simp] theorem State.raceCount_applyPendingSwap (s : State) (l : Line) : (s.applyPendingSwap l).raceCount = s.raceCount := by
  cases l <;> rfl

@[simp] theorem State.pending_applyPendingSwap (s : State) (l : Line) : (s.applyPendingSwap l).pending = s.pending := by
  cases l <;> rfl

@[simp] theorem State.entry_applyPendingSwap (s : State) (l : Line) (j : StationIndex) : (s.applyPendingSwap l).entry j = s.entry j := by
  cases l <;> rfl

/-! ### dropReservation -/

@[simp] theorem State.window_dropReservation (s : State) (l : Line) : (s.dropReservation l).window = s.window := by
  cases l <;> rfl

@[simp] theorem State.stations_dropReservation (s : State) (l : Line) : (s.dropReservation l).stations = s.stations := by
  cases l <;> rfl

@[simp] theorem State.queue_dropReservation (s : State) (l : Line) : (s.dropReservation l).queue = s.queue := by
  cases l <;> rfl

@[simp] theorem State.interrupts_dropReservation (s : State) (l : Line) : (s.dropReservation l).interrupts = s.interrupts := by
  cases l <;> rfl

@[simp] theorem State.raceCount_dropReservation (s : State) (l : Line) : (s.dropReservation l).raceCount = s.raceCount := by
  cases l <;> rfl

@[simp] theorem State.pending_dropReservation (s : State) (l : Line) : (s.dropReservation l).pending = s.pending := by
  cases l <;> rfl

@[simp] theorem State.entry_dropReservation (s : State) (l : Line) (j : StationIndex) : (s.dropReservation l).entry j = s.entry j := by
  cases l <;> rfl

/-! ### dropHead -/

@[simp] theorem State.window_dropHead (s : State) : s.dropHead.window = s.window := rfl

@[simp] theorem State.stations_dropHead (s : State) : s.dropHead.stations = s.stations := rfl

@[simp] theorem State.interrupts_dropHead (s : State) : s.dropHead.interrupts = s.interrupts := rfl

@[simp] theorem State.raceCount_dropHead (s : State) : s.dropHead.raceCount = s.raceCount := rfl

@[simp] theorem State.pending_dropHead (s : State) : s.dropHead.pending = s.pending := rfl

@[simp] theorem State.line_dropHead (s : State) (m : Line) : s.dropHead.line m = s.line m := by
  cases m <;> rfl

@[simp] theorem State.entry_dropHead (s : State) (j : StationIndex) : s.dropHead.entry j = s.entry j := rfl

/-! ### leaveHoldList -/

@[simp] theorem State.window_leaveHoldList (s : State) (l : Line) : (s.leaveHoldList l).window = s.window := rfl

@[simp] theorem State.stations_leaveHoldList (s : State) (l : Line) : (s.leaveHoldList l).stations = s.stations := rfl

@[simp] theorem State.interrupts_leaveHoldList (s : State) (l : Line) : (s.leaveHoldList l).interrupts = s.interrupts := rfl

@[simp] theorem State.raceCount_leaveHoldList (s : State) (l : Line) : (s.leaveHoldList l).raceCount = s.raceCount := rfl

@[simp] theorem State.pending_leaveHoldList (s : State) (l : Line) : (s.leaveHoldList l).pending = s.pending := rfl

@[simp] theorem State.line_leaveHoldList (s : State) (l : Line) (m : Line) : (s.leaveHoldList l).line m = s.line m := by
  cases m <;> rfl

@[simp] theorem State.entry_leaveHoldList (s : State) (l : Line) (j : StationIndex) : (s.leaveHoldList l).entry j = s.entry j := rfl

/-! ### joinHoldList -/

@[simp] theorem State.window_joinHoldList (s : State) (l : Line) (n : Nat) : (s.joinHoldList l n).window = s.window := rfl

@[simp] theorem State.stations_joinHoldList (s : State) (l : Line) (n : Nat) : (s.joinHoldList l n).stations = s.stations := rfl

@[simp] theorem State.raceCount_joinHoldList (s : State) (l : Line) (n : Nat) : (s.joinHoldList l n).raceCount = s.raceCount := rfl

@[simp] theorem State.pending_joinHoldList (s : State) (l : Line) (n : Nat) : (s.joinHoldList l n).pending = s.pending := rfl

@[simp] theorem State.line_joinHoldList (s : State) (l : Line) (n : Nat) (m : Line) : (s.joinHoldList l n).line m = s.line m := by
  cases m <;> rfl

@[simp] theorem State.entry_joinHoldList (s : State) (l : Line) (n : Nat) (j : StationIndex) : (s.joinHoldList l n).entry j = s.entry j := rfl

/-! ### disableNow -/

@[simp] theorem State.window_disableNow (s : State) (i : StationIndex) : (s.disableNow i).window = s.window := by
  simp [State.disableNow]

@[simp] theorem State.queue_disableNow (s : State) (i : StationIndex) : (s.disableNow i).queue = s.queue := by
  simp [State.disableNow]

@[simp] theorem State.interrupts_disableNow (s : State) (i : StationIndex) : (s.disableNow i).interrupts = s.interrupts := by
  simp [State.disableNow]

@[simp] theorem State.raceCount_disableNow (s : State) (i : StationIndex) : (s.disableNow i).raceCount = s.raceCount := by
  simp [State.disableNow]

@[simp] theorem State.pending_disableNow (s : State) (i : StationIndex) : (s.disableNow i).pending = s.pending := by
  simp [State.disableNow]

/-! ### The queue with one of its fields replaced -/

@[simp] theorem State.line_withQueue (s : State) (q : ReplyQueue) (m : Line) :
    ({ s with queue := q } : State).line m = s.line m := by
  cases m <;> rfl

@[simp] theorem State.entry_withQueue (s : State) (q : ReplyQueue) (j : StationIndex) :
    ({ s with queue := q } : State).entry j = s.entry j := rfl

@[simp] theorem State.line_withRace (s : State) (n : Nat) (m : Line) :
    ({ s with raceCount := n } : State).line m = s.line m := by
  cases m <;> rfl

@[simp] theorem State.entry_withRace (s : State) (n : Nat) (j : StationIndex) :
    ({ s with raceCount := n } : State).entry j = s.entry j := rfl

/-! ### The window after a reply or a drive -/

@[simp] theorem State.window_modWindow (s : State) (f : Window → Window) : (s.modWindow f).window = f s.window := rfl

@[simp] theorem State.window_reply (s : State) (r : Result) (n : Nat) :
    (s.reply r n).window = { s.window with result := r, resultDetail := BitVec.ofNat 16 n } := rfl

@[simp] theorem State.window_drive (s : State) (w : Word) :
    (s.drive w).window = { s.window with dataLines := w } := rfl

/-! ### A record written -/

theorem foldl_raise_window (cs : List Cause) (s : State) : (cs.foldl State.raise s).window = s.window := by
  induction cs generalizing s with
  | nil => rfl
  | cons c cs ih => simp [ih]

theorem foldl_raise_stations (cs : List Cause) (s : State) : (cs.foldl State.raise s).stations = s.stations := by
  induction cs generalizing s with
  | nil => rfl
  | cons c cs ih => simp [ih]

theorem foldl_raise_queue (cs : List Cause) (s : State) : (cs.foldl State.raise s).queue = s.queue := by
  induction cs generalizing s with
  | nil => rfl
  | cons c cs ih => simp [ih]

theorem foldl_raise_line (cs : List Cause) (s : State) (m : Line) : (cs.foldl State.raise s).line m = s.line m := by
  induction cs generalizing s with
  | nil => rfl
  | cons c cs ih => simp [ih]

theorem foldl_raise_pending (cs : List Cause) (s : State) : (cs.foldl State.raise s).pending = s.pending := by
  induction cs generalizing s with
  | nil => rfl
  | cons c cs ih => simp [ih]

theorem foldl_raise_raceCount (cs : List Cause) (s : State) : (cs.foldl State.raise s).raceCount = s.raceCount := by
  induction cs generalizing s with
  | nil => rfl
  | cons c cs ih => simp [ih]

theorem foldl_raise_enables (cs : List Cause) (s : State) :
    (cs.foldl State.raise s).interrupts.enables = s.interrupts.enables := by
  induction cs generalizing s with
  | nil => rfl
  | cons c cs ih => simp [ih, State.raise, InterruptUnit.raise]

@[simp] theorem State.window_writeRecord (s : State) (l : Line) (r : Record) :
    (s.writeRecord l r).window = s.window := by
  simp [State.writeRecord, foldl_raise_window]

@[simp] theorem State.stations_writeRecord (s : State) (l : Line) (r : Record) :
    (s.writeRecord l r).stations = s.stations := by
  simp [State.writeRecord, foldl_raise_stations]

@[simp] theorem State.entry_writeRecord (s : State) (l : Line) (r : Record) (j : StationIndex) :
    (s.writeRecord l r).entry j = s.entry j := by
  simp [State.entry]

@[simp] theorem State.queue_writeRecord (s : State) (l : Line) (r : Record) :
    (s.writeRecord l r).queue = s.queue.push r := by
  simp [State.writeRecord, foldl_raise_queue]

@[simp] theorem State.pending_writeRecord (s : State) (l : Line) (r : Record) :
    (s.writeRecord l r).pending = s.pending := by
  simp [State.writeRecord, foldl_raise_pending]

@[simp] theorem State.raceCount_writeRecord (s : State) (l : Line) (r : Record) :
    (s.writeRecord l r).raceCount = s.raceCount := by
  simp [State.writeRecord, foldl_raise_raceCount]

@[simp] theorem State.line_writeRecord (s : State) (l : Line) (r : Record) (m : Line) :
    (s.writeRecord l r).line m =
      (s.modLine l (fun x => { x with reservation := x.reservation.map (fun n => n - r.size) })).line m := by
  rw [State.writeRecord, foldl_raise_line]
  cases m <;> rfl

end Sys2Proof.Machine
end

