-- ==== Sys2Proof/Laws/Selected.lean ====
section
/-! SUPPORT. What the selection and the start of units and the serving of the hold list can do: `State.Selected`, proved
once for each of the operations, for later proofs to cite. -/

namespace Sys2Proof.Machine

/-! ### Entries and lines -/

theorem Entry.onlyServed_refl (e : Entry) : e.onlyServed e :=
  ⟨rfl, id⟩

theorem Entry.onlyServed_trans {e f g : Entry} (h : e.onlyServed f) (k : f.onlyServed g) : e.onlyServed g := by
  obtain ⟨h1, h2⟩ := h
  obtain ⟨k1, k2⟩ := k
  refine ⟨?_, fun hi => k2 (h2 hi)⟩
  rw [k1, h1]

theorem LineEngine.Selected.refl (x : LineEngine) : x.Selected x :=
  ⟨rfl, rfl, rfl, rfl, rfl, rfl, rfl, rfl, rfl, id, List.suffix_rfl, List.Sublist.refl _⟩

theorem LineEngine.Selected.trans {x y z : LineEngine} (h : x.Selected y) (k : y.Selected z) : x.Selected z :=
  ⟨k.params.trans h.params, k.runState.trans h.runState, k.faultCause.trans h.faultCause,
    k.receiver.trans h.receiver, k.shifter.trans h.shifter, k.contention.trans h.contention,
    k.bankZero.trans h.bankZero, k.bankOne.trans h.bankOne, k.submitBuffer.trans h.submitBuffer,
    fun hs => h.swap (k.swap hs), k.directed.trans h.directed, k.alertSet.trans h.alertSet⟩

/-! ### States -/

theorem State.Selected.refl (s : State) : s.Selected s :=
  ⟨rfl, rfl, rfl, by simp, rfl, rfl, List.prefix_rfl, fun _ => rfl, fun _ => LineEngine.Selected.refl _,
    fun _ => Entry.onlyServed_refl _⟩

theorem and_latched_trans {a b c : BitVec 12} (h : a &&& b = a) (k : b &&& c = b) : a &&& c = a := by
  rw [← h, BitVec.and_assoc, k]

theorem State.Selected.trans {s t u : State} (h : s.Selected t) (k : t.Selected u) : s.Selected u where
  window := k.window.trans h.window
  pending := k.pending.trans h.pending
  enables := k.enables.trans h.enables
  latched := and_latched_trans h.latched k.latched
  drainMode := k.drainMode.trans h.drainMode
  threshold := k.threshold.trans h.threshold
  records := h.records.trans k.records
  cursor hne := by
    have ht : t.queue.records ≠ [] := by
      intro hn
      obtain ⟨rs, hr⟩ := h.records
      rw [hn] at hr
      exact hne (List.append_eq_nil_iff.mp hr).1
    rw [k.cursor ht, h.cursor hne]
  lines l := (h.lines l).trans (k.lines l)
  entries i := Entry.onlyServed_trans (h.entries i) (k.entries i)

/-- A change of one line within `LineEngine.Selected`. -/
theorem State.Selected.modLine {s : State} {l : Line} {f : LineEngine → LineEngine}
    (h : (s.line l).Selected (f (s.line l))) : s.Selected (s.modLine l f) where
  window := by simp
  pending := by simp
  enables := by simp
  latched := by simp
  drainMode := by simp
  threshold := by simp
  records := by simp
  cursor _ := by simp
  lines m := by
    rw [State.line_modLine_eq]
    split
    · next hm => subst hm; exact h
    · exact LineEngine.Selected.refl _
  entries i := by simp [Entry.onlyServed_refl]

/-- A change of one line in fields that selection may change freely. -/
theorem State.Selected.modLine_free (s : State) (l : Line) (f : LineEngine → LineEngine)
    (h : ∀ x : LineEngine, x.Selected (f x)) : s.Selected (s.modLine l f) :=
  State.Selected.modLine (h _)

theorem State.Selected.raise (s : State) (c : Cause) : s.Selected (s.raise c) where
  window := rfl
  pending := rfl
  enables := rfl
  latched := by
    show s.interrupts.latched &&& (s.interrupts.latched ||| causeBit c) = _
    ext i hi
    simp
    intro ha
    exact Or.inl ha
  drainMode := rfl
  threshold := rfl
  records := by simp
  cursor _ := rfl
  lines m := by simp [LineEngine.Selected.refl]
  entries i := by simp [Entry.onlyServed_refl]

theorem State.Selected.foldl_raise (cs : List Cause) (s : State) : s.Selected (cs.foldl State.raise s) := by
  induction cs generalizing s with
  | nil => exact State.Selected.refl s
  | cons c cs ih => exact (State.Selected.raise s c).trans (ih _)

/-- The queue may change in its hold list, and grow at its tail. -/
theorem State.Selected.withQueue (s : State) (q : ReplyQueue) (hd : q.drainMode = s.queue.drainMode)
    (ht : q.threshold = s.queue.threshold) (hr : s.queue.records <+: q.records)
    (hc : s.queue.records ≠ [] → q.cursor = s.queue.cursor) : s.Selected { s with queue := q } where
  window := rfl
  pending := rfl
  enables := rfl
  latched := by simp
  drainMode := hd
  threshold := ht
  records := hr
  cursor := hc
  lines m := by simp [LineEngine.Selected.refl]
  entries i := by simp [Entry.onlyServed_refl]

theorem State.Selected.writeRecord (s : State) (l : Line) (r : Record) : s.Selected (s.writeRecord l r) := by
  unfold State.writeRecord
  refine ((State.Selected.modLine_free s l _ fun x => ?_).trans (State.Selected.withQueue _ _ ?_ ?_ ?_ ?_)).trans
    (State.Selected.foldl_raise _ _)
  · exact ⟨rfl, rfl, rfl, rfl, rfl, rfl, rfl, rfl, rfl, id, List.suffix_rfl, List.Sublist.refl _⟩
  · simp [ReplyQueue.push]
  · simp [ReplyQueue.push]
  · simp [ReplyQueue.push]
  · intro h
    simp at h
    simp [ReplyQueue.push, h]

theorem State.Selected.dropReservation (s : State) (l : Line) : s.Selected (s.dropReservation l) :=
  State.Selected.modLine_free s l _ fun _ =>
    ⟨rfl, rfl, rfl, rfl, rfl, rfl, rfl, rfl, rfl, id, List.suffix_rfl, List.Sublist.refl _⟩

theorem State.Selected.serviceMark (s : State) (i : StationIndex) :
    s.Selected (s.modEntry i (fun e => { e with inService := true })) where
  window := rfl
  pending := rfl
  enables := rfl
  latched := by simp
  drainMode := rfl
  threshold := rfl
  records := by simp
  cursor _ := rfl
  lines m := by simp [LineEngine.Selected.refl]
  entries j := by
    rw [State.entry_modEntry_eq]
    split
    · exact ⟨rfl, fun _ => rfl⟩
    · exact Entry.onlyServed_refl _

theorem alertRemove_sublist (i : StationIndex) (xs : List StationIndex) : (alertRemove i xs).Sublist xs :=
  List.filter_sublist

theorem State.Selected.beginTargeted (s : State) (l : Line) (w : Work) (i : StationIndex) :
    s.Selected (s.beginTargeted l w i) := by
  unfold State.beginTargeted
  refine (State.Selected.serviceMark s i).trans (State.Selected.modLine_free _ l _ fun x => ?_)
  cases w with
  | alert j =>
    exact ⟨rfl, rfl, rfl, rfl, rfl, rfl, rfl, rfl, rfl, id, List.suffix_rfl, alertRemove_sublist _ _⟩
  | visit k j g n =>
    exact ⟨rfl, rfl, rfl, rfl, rfl, rfl, rfl, rfl, rfl, id, List.suffix_rfl, List.Sublist.refl _⟩
  | directed e =>
    exact ⟨rfl, rfl, rfl, rfl, rfl, rfl, rfl, rfl, rfl, id, List.suffix_rfl, List.Sublist.refl _⟩
  | mark v o =>
    exact ⟨rfl, rfl, rfl, rfl, rfl, rfl, rfl, rfl, rfl, id, List.suffix_rfl, List.Sublist.refl _⟩

theorem State.Selected.faultStation (s : State) (l : Line) (e : DirectedEntry) :
    s.Selected (s.faultStation l e) := by
  unfold State.faultStation
  refine ((State.Selected.writeRecord s l _).trans (State.Selected.modLine_free _ l _ fun x => ?_)).trans
    (State.Selected.dropReservation _ l)
  exact ⟨rfl, rfl, rfl, rfl, rfl, rfl, rfl, rfl, rfl, id, List.tail_suffix _, List.Sublist.refl _⟩

theorem LineEngine.bank_swapBanks (x : LineEngine) (n : BankNumber) : x.swapBanks.bank n = x.bank n := by
  cases n <;> rfl

theorem State.Selected.applyPendingSwap (s : State) (l : Line) : s.Selected (s.applyPendingSwap l) := by
  refine State.Selected.modLine_free s l _ fun x => ?_
  by_cases h : x.swapPending = true
  · simp only [h, if_true]
    exact ⟨rfl, rfl, rfl, rfl, rfl, rfl, rfl, rfl, rfl, fun _ => h, List.suffix_rfl, List.Sublist.refl _⟩
  · simp only [h]
    exact LineEngine.Selected.refl x

theorem State.Selected.finishBoundary (s : State) (l : Line) : s.Selected (s.finishBoundary l) := by
  unfold State.finishBoundary
  refine ((State.Selected.raise s _).trans (State.Selected.applyPendingSwap _ l)).trans
    (State.Selected.modLine_free _ l _ fun x => ?_)
  exact ⟨rfl, rfl, rfl, rfl, rfl, rfl, rfl, rfl, rfl, id, List.suffix_rfl, List.Sublist.refl _⟩

theorem State.Selected.startWork (s : State) (l : Line) (w : Work) : s.Selected (s.startWork l w) := by
  unfold State.startWork
  split
  · split
    · exact State.Selected.beginTargeted _ _ _ _
    · exact State.Selected.dropReservation _ _
  · split
    · exact State.Selected.beginTargeted _ _ _ _
    · exact State.Selected.dropReservation _ _
  · split
    · split
      · exact State.Selected.beginTargeted _ _ _ _
      · exact State.Selected.faultStation _ _ _
    · split
      · exact State.Selected.beginTargeted _ _ _ _
      · exact State.Selected.faultStation _ _ _
    · exact State.Selected.modLine_free _ l _ fun x =>
        ⟨rfl, rfl, rfl, rfl, rfl, rfl, rfl, rfl, rfl, id, List.suffix_rfl, List.Sublist.refl _⟩
  · exact ((State.Selected.writeRecord _ _ _).trans (State.Selected.dropReservation _ _)).trans
      (State.Selected.finishBoundary _ _)

theorem State.Selected.startUnit (s : State) (l : Line) : s.Selected (s.startUnit l) := by
  unfold State.startUnit
  split
  · exact State.Selected.refl s
  · exact State.Selected.trans (State.Selected.modLine_free s l LineEngine.clearChosen fun x =>
      ⟨rfl, rfl, rfl, rfl, rfl, rfl, rfl, rfl, rfl, id, List.suffix_rfl, List.Sublist.refl _⟩) (State.Selected.startWork _ l _)

theorem State.Selected.grant (s : State) (l : Line) (n : Nat) : s.Selected (s.grant l n) := by
  refine State.Selected.trans ?_ (State.Selected.startUnit _ l)
  exact State.Selected.modLine_free s l _ fun _ =>
    ⟨rfl, rfl, rfl, rfl, rfl, rfl, rfl, rfl, rfl, id, List.suffix_rfl, List.Sublist.refl _⟩

theorem State.Selected.joinHoldList (s : State) (l : Line) (n : Nat) : s.Selected (s.joinHoldList l n) := by
  refine State.Selected.trans ?_ (State.Selected.raise _ _)
  exact State.Selected.withQueue s _ rfl rfl List.prefix_rfl fun _ => rfl

theorem State.Selected.requestUnit (s : State) (l : Line) (w : Work) : s.Selected (s.requestUnit l w) := by
  unfold State.requestUnit
  have h0 : s.Selected (s.modLine l (fun x => { x with chosen := some w })) :=
    State.Selected.modLine_free s l _ fun x =>
      ⟨rfl, rfl, rfl, rfl, rfl, rfl, rfl, rfl, rfl, id, List.suffix_rfl, List.Sublist.refl _⟩
  simp only
  split
  · exact h0.trans (State.Selected.grant _ _ _)
  · exact h0.trans (State.Selected.joinHoldList _ _ _)

theorem State.Selected.boundary (s : State) (l : Line) : s.Selected (s.boundary l) := by
  unfold State.boundary
  simp only
  split
  · exact State.Selected.requestUnit _ _ _
  · exact State.Selected.finishBoundary _ _

theorem State.Selected.chooseInCycle (s : State) (l : Line) : s.Selected (s.chooseInCycle l) := by
  have hb (f : LineEngine → LineEngine) (w : Work) (h : ∀ x : LineEngine, x.Selected (f x)) :
      s.Selected ((s.modLine l f).requestUnit l w) :=
    (State.Selected.modLine_free s l f h).trans (State.Selected.requestUnit _ _ _)
  unfold State.chooseInCycle
  simp only
  split
  · split <;>
      exact hb _ _ fun x => ⟨rfl, rfl, rfl, rfl, rfl, rfl, rfl, rfl, rfl, id, List.suffix_rfl, List.Sublist.refl _⟩
  · exact hb _ _ fun x => ⟨rfl, rfl, rfl, rfl, rfl, rfl, rfl, rfl, rfl, id, List.suffix_rfl, List.Sublist.refl _⟩

theorem State.Selected.chooseOutside (s : State) (l : Line) : s.Selected (s.chooseOutside l) := by
  unfold State.chooseOutside
  split
  · exact State.Selected.requestUnit _ _ _
  · exact State.Selected.refl s

theorem State.Selected.startCycle (s : State) (l : Line) : s.Selected (s.modLine l LineEngine.startCycle) :=
  State.Selected.modLine_free s l _ fun _ =>
    ⟨rfl, rfl, rfl, rfl, rfl, rfl, rfl, rfl, rfl, id, List.suffix_rfl, List.Sublist.refl _⟩

theorem State.Selected.invokeArbiter (s : State) (l : Line) : s.Selected (s.invokeArbiter l) := by
  unfold State.invokeArbiter
  simp only
  split
  · exact State.Selected.refl s
  · split
    · exact State.Selected.refl s
    · have h0 : s.Selected (s.modLine l (fun y => { y with cursor := s.walk l })) :=
        State.Selected.modLine_free s l _ fun x =>
          ⟨rfl, rfl, rfl, rfl, rfl, rfl, rfl, rfl, rfl, id, List.suffix_rfl, List.Sublist.refl _⟩
      split
      · exact h0.trans (State.Selected.boundary _ _)
      · exact h0.trans (State.Selected.chooseInCycle _ _)
    · split
      · exact State.Selected.startCycle _ _
      · exact State.Selected.chooseOutside _ _
    · split
      · exact State.Selected.startCycle _ _
      · exact State.Selected.chooseOutside _ _

theorem State.Selected.nextRace (s : State) : s.Selected s.nextRace where
  window := rfl
  pending := rfl
  enables := rfl
  latched := by simp [State.nextRace]
  drainMode := rfl
  threshold := rfl
  records := by simp [State.nextRace]
  cursor _ := rfl
  lines m := by simp [State.nextRace, LineEngine.Selected.refl]
  entries i := by simp [State.nextRace, Entry.onlyServed_refl]

theorem State.Selected.settleLine (l : Line) (n : Nat) (s : State) : s.Selected (State.settleLine l n s) := by
  induction n generalizing s with
  | zero => exact State.Selected.refl s
  | succ n ih =>
    unfold State.settleLine
    split
    · exact (State.Selected.invokeArbiter s l).trans (ih _)
    · exact State.Selected.refl s

theorem State.Selected.settleArbiters (n : Nat) (s : State) : s.Selected (State.settleArbiters n s) := by
  induction n generalizing s with
  | zero => exact State.Selected.refl s
  | succ n ih =>
    unfold State.settleArbiters
    split
    · exact State.Selected.refl s
    · split
      · exact ((State.Selected.nextRace s).trans (State.Selected.invokeArbiter _ _)).trans (ih _)
      · exact (State.Selected.invokeArbiter _ _).trans (ih _)

/-- The arbiters' turn at the end of a step. -/
theorem State.Selected.finish (s : State) : s.Selected s.finish :=
  State.Selected.settleArbiters _ s

theorem State.Selected.afterGrant (s : State) (l : Line) : s.Selected (s.afterGrant l) := by
  unfold State.afterGrant
  simp only
  split
  · split
    · exact (State.Selected.nextRace s).trans (State.Selected.settleLine _ _ _)
    · exact State.Selected.nextRace s
  · exact State.Selected.refl s

theorem State.Selected.serveHoldList (n : Nat) (s : State) : s.Selected (State.serveHoldList n s) := by
  induction n generalizing s with
  | zero => exact State.Selected.refl s
  | succ n ih =>
    unfold State.serveHoldList
    split
    · exact State.Selected.refl s
    · split
      · refine State.Selected.trans ?_ (ih _)
        refine State.Selected.trans ?_ (State.Selected.afterGrant _ _)
        refine State.Selected.trans ?_ (State.Selected.grant _ _ _)
        exact State.Selected.withQueue s _ rfl rfl List.prefix_rfl fun _ => rfl
      · exact State.Selected.refl s

/-- The serving of the hold list. -/
theorem State.Selected.serve (s : State) : s.Selected s.serve :=
  State.Selected.serveHoldList _ s

end Sys2Proof.Machine
end

