-- ==== Sys2Proof/Laws/Evolves.lean ====
section
/-! SUPPORT. What the events of the engines can do: `State.Evolves`, proved once for each operation. -/

namespace Sys2Proof.Machine

theorem Entry.SameConfiguration.refl (e : Entry) : e.SameConfiguration e :=
  ⟨rfl, rfl, rfl, rfl, rfl⟩

theorem Entry.SameConfiguration.trans {e f g : Entry} (h : e.SameConfiguration f) (k : f.SameConfiguration g) :
    e.SameConfiguration g :=
  ⟨k.1.trans h.1, k.2.1.trans h.2.1, k.2.2.1.trans h.2.2.1, k.2.2.2.1.trans h.2.2.2.1, k.2.2.2.2.trans h.2.2.2.2⟩

theorem LineEngine.Evolves.refl (x : LineEngine) : x.Evolves x :=
  ⟨rfl, rfl, rfl, rfl, id, List.suffix_rfl⟩

theorem LineEngine.Evolves.trans {x y z : LineEngine} (h : x.Evolves y) (k : y.Evolves z) : x.Evolves z :=
  ⟨k.params.trans h.params, k.bankZero.trans h.bankZero, k.bankOne.trans h.bankOne,
    k.submitBuffer.trans h.submitBuffer, fun hs => h.swap (k.swap hs), k.directed.trans h.directed⟩

theorem State.Evolves.refl (s : State) : s.Evolves s :=
  ⟨rfl, rfl, rfl, by simp, rfl, rfl, List.prefix_rfl, fun _ => rfl, fun _ => LineEngine.Evolves.refl _,
    fun _ => Entry.SameConfiguration.refl _⟩

theorem State.Evolves.trans {s t u : State} (h : s.Evolves t) (k : t.Evolves u) : s.Evolves u where
  window := k.window.trans h.window
  pending := k.pending.trans h.pending
  enables := k.enables.trans h.enables
  latched := and_latched_trans h.latched k.latched
  drainMode := k.drainMode.trans h.drainMode
  threshold := k.threshold.trans h.threshold
  records := h.records.trans k.records
  cursor hne := by
    have ht : t.queue.records ≠ [] := by
      intro hn
      obtain ⟨rs, hr⟩ := h.records
      rw [hn] at hr
      exact hne (List.append_eq_nil_iff.mp hr).1
    rw [k.cursor ht, h.cursor hne]
  lines l := (h.lines l).trans (k.lines l)
  entries i := (h.entries i).trans (k.entries i)

/-- What selection may do, an event may do. -/
theorem State.Selected.evolves {s t : State} (h : s.Selected t) : s.Evolves t where
  window := h.window
  pending := h.pending
  enables := h.enables
  latched := h.latched
  drainMode := h.drainMode
  threshold := h.threshold
  records := h.records
  cursor := h.cursor
  lines l := ⟨(h.lines l).params, (h.lines l).bankZero, (h.lines l).bankOne, (h.lines l).submitBuffer,
    (h.lines l).swap, (h.lines l).directed⟩
  entries i := by
    have he := (h.entries i).1
    exact ⟨by rw [he], by rw [he], by rw [he], by rw [he], by rw [he]⟩

/-- A change of one line in fields that events may change freely. -/
theorem State.Evolves.modLine (s : State) (l : Line) (f : LineEngine → LineEngine)
    (h : ∀ x : LineEngine, x.Evolves (f x)) : s.Evolves (s.modLine l f) where
  window := by simp
  pending := by simp
  enables := by simp
  latched := by simp
  drainMode := by simp
  threshold := by simp
  records := by simp
  cursor _ := by simp
  lines m := by
    rw [State.line_modLine_eq]
    split
    · exact h _
    · exact LineEngine.Evolves.refl _
  entries i := by simp [Entry.SameConfiguration.refl]

/-- A change of one line that keeps the fields of `LineEngine.Evolves` as they stand. -/
theorem State.Evolves.modLine_keep (s : State) (l : Line) (f : LineEngine → LineEngine)
    (h : ∀ x : LineEngine, (f x).params = x.params ∧ (f x).bankZero = x.bankZero ∧ (f x).bankOne = x.bankOne ∧
      (f x).submitBuffer = x.submitBuffer ∧ (f x).swapPending = x.swapPending ∧ (f x).directed = x.directed) :
    s.Evolves (s.modLine l f) :=
  State.Evolves.modLine s l f fun x => by
    obtain ⟨h1, h2, h3, h4, h5, h6⟩ := h x
    exact ⟨h1, h2, h3, h4, fun hs => h5 ▸ hs, h6 ▸ List.suffix_rfl⟩

/-- A change of one entry that keeps its configuration. -/
theorem State.Evolves.modEntry (s : State) (i : StationIndex) (f : Entry → Entry)
    (h : ∀ e : Entry, e.SameConfiguration (f e)) : s.Evolves (s.modEntry i f) where
  window := rfl
  pending := rfl
  enables := rfl
  latched := by simp
  drainMode := rfl
  threshold := rfl
  records := by simp
  cursor _ := rfl
  lines m := by simp [LineEngine.Evolves.refl]
  entries j := by
    rw [State.entry_modEntry_eq]
    split
    · exact h _
    · exact Entry.SameConfiguration.refl _

theorem State.Evolves.leaveAlertSet (s : State) (l : Line) (i : StationIndex) : s.Evolves (s.leaveAlertSet l i) :=
  State.Evolves.modLine_keep s l _ fun _ => ⟨rfl, rfl, rfl, rfl, rfl, rfl⟩

theorem State.Evolves.disableNow (s : State) (i : StationIndex) : s.Evolves (s.disableNow i) := by
  refine State.Evolves.trans ?_ (State.Evolves.leaveAlertSet _ _ _)
  exact State.Evolves.modEntry s i _ fun _ => ⟨rfl, rfl, rfl, rfl, rfl⟩

theorem State.Evolves.writeRecord? (s : State) (l : Line) (r : Option Record) : s.Evolves (s.writeRecord? l r) := by
  cases r with
  | none => exact State.Evolves.refl s
  | some r => exact (State.Selected.writeRecord s l r).evolves

theorem State.Evolves.recordChange (s : State) (l : Line) (w : Work) (i : StationIndex) (old new : StationState)
    (cause : RecordCause) : s.Evolves (s.recordChange l w i old new cause) :=
  (State.Selected.writeRecord s l _).evolves

theorem State.Evolves.outcomeAnswered (s : State) (l : Line) (w : Work) (i : StationIndex) (cause : RecordCause)
    (answer : HeldAnswer) : s.Evolves (s.outcomeAnswered l w i cause answer) := by
  unfold State.outcomeAnswered
  simp only
  split
  · exact State.Evolves.refl s
  · have h1 : s.Evolves (s.modEntry i Entry.answer) :=
      State.Evolves.modEntry s i _ fun _ => ⟨rfl, rfl, rfl, rfl, rfl⟩
    split
    · refine State.Evolves.trans ?_ (State.Evolves.modLine_keep _ l _ fun _ => ⟨rfl, rfl, rfl, rfl, rfl, rfl⟩)
      split
      · exact h1
      · exact h1.trans (State.Evolves.recordChange _ _ _ _ _ _ _)
    · split
      · exact h1
      · exact h1.trans (State.Evolves.recordChange _ _ _ _ _ _ _)

theorem State.Evolves.outcomeFailed (s : State) (l : Line) (w : Work) (i : StationIndex) (o : FailingOutcome) :
    s.Evolves (s.outcomeFailed l w i o) := by
  unfold State.outcomeFailed
  simp only
  split
  · exact State.Evolves.refl s
  · split
    · refine State.Evolves.trans ?_ (State.Evolves.leaveAlertSet _ _ _)
      refine State.Evolves.trans ?_ (State.Evolves.recordChange _ _ _ _ _ _ _)
      exact State.Evolves.modEntry s i _ fun _ => ⟨rfl, rfl, rfl, rfl, rfl⟩
    · split
      · refine State.Evolves.trans ?_ (State.Evolves.recordChange _ _ _ _ _ _ _)
        exact State.Evolves.modEntry s i _ fun _ => ⟨rfl, rfl, rfl, rfl, rfl⟩
      · exact State.Evolves.modEntry s i _ fun _ => ⟨rfl, rfl, rfl, rfl, rfl⟩

theorem State.Evolves.applyOutcome (s : State) (l : Line) (w : Work) (e : UnitEnd) :
    s.Evolves (s.applyOutcome l w e) := by
  unfold State.applyOutcome
  split
  · exact State.Evolves.refl s
  · split
    · exact State.Evolves.outcomeAnswered _ _ _ _ _ _
    · exact State.Evolves.outcomeAnswered _ _ _ _ _ _
    · exact State.Evolves.outcomeFailed _ _ _ _ _
    · exact State.Evolves.refl s
    · exact State.Evolves.refl s
    · exact State.Evolves.refl s

theorem State.Evolves.leaveService (s : State) (w : Work) : s.Evolves (s.leaveService w) := by
  unfold State.leaveService
  split
  · exact State.Evolves.refl s
  · next i _ =>
    have h1 : s.Evolves (s.modEntry i (fun e => { e with inService := false })) :=
      State.Evolves.modEntry s i _ fun _ => ⟨rfl, rfl, rfl, rfl, rfl⟩
    simp only
    split
    · exact h1.trans (State.Evolves.disableNow _ _)
    · exact h1

theorem State.Evolves.leaveDirected (s : State) (l : Line) (w : Work) : s.Evolves (s.leaveDirected l w) := by
  unfold State.leaveDirected
  split
  · exact State.Evolves.modLine s l _ fun x => ⟨rfl, rfl, rfl, rfl, id, List.tail_suffix _⟩
  · exact State.Evolves.refl s

theorem State.Evolves.serve (s : State) : s.Evolves s.serve :=
  (State.Selected.serve s).evolves

theorem State.Evolves.finish (s : State) : s.Evolves s.finish :=
  (State.Selected.finish s).evolves

theorem State.Evolves.returnReservation (s : State) (l : Line) : s.Evolves (s.returnReservation l) := by
  unfold State.returnReservation
  split
  · exact (State.Selected.dropReservation s l).evolves.trans (State.Evolves.serve _)
  · exact (State.Selected.dropReservation s l).evolves

/-- The completion of a unit in progress. -/
theorem State.Evolves.completeUnit (s : State) (l : Line) (e : UnitEnd) : s.Evolves (s.completeUnit l e) := by
  unfold State.completeUnit
  split
  · exact State.Evolves.refl s
  · refine State.Evolves.trans ?_ (State.Evolves.modLine_keep _ l _ fun _ => ⟨rfl, rfl, rfl, rfl, rfl, rfl⟩)
    refine State.Evolves.trans ?_ (State.Evolves.returnReservation _ l)
    refine State.Evolves.trans ?_ (State.Evolves.leaveDirected _ l _)
    refine State.Evolves.trans ?_ (State.Evolves.leaveService _ _)
    refine State.Evolves.trans ?_ (State.Evolves.applyOutcome _ l _ _)
    exact State.Evolves.writeRecord? s l _

theorem State.Evolves.applyPendingSwap (s : State) (l : Line) : s.Evolves (s.applyPendingSwap l) :=
  (State.Selected.applyPendingSwap s l).evolves

theorem State.Evolves.raise (s : State) (c : Cause) : s.Evolves (s.raise c) :=
  (State.Selected.raise s c).evolves

theorem State.Evolves.enterStopped (s : State) (l : Line) : s.Evolves (s.enterStopped l) := by
  unfold State.enterStopped
  refine State.Evolves.trans ?_ (State.Evolves.raise _ _)
  refine State.Evolves.trans ?_ (State.Evolves.applyPendingSwap _ l)
  exact State.Evolves.modLine_keep s l _ fun _ => ⟨rfl, rfl, rfl, rfl, rfl, rfl⟩

theorem State.Evolves.leaveHoldList (s : State) (l : Line) : s.Evolves (s.leaveHoldList l) := by
  refine State.Selected.evolves ?_
  exact State.Selected.withQueue s _ rfl rfl List.prefix_rfl fun _ => rfl

theorem State.Evolves.discardPending (s : State) (l : Line) : s.Evolves (s.discardPending l) := by
  have h1 : s.Evolves (((s.leaveHoldList l).dropReservation l).modLine l LineEngine.clearChosen) :=
    ((State.Evolves.leaveHoldList s l).trans (State.Selected.dropReservation _ l).evolves).trans
      (State.Evolves.modLine_keep _ l _ fun _ => ⟨rfl, rfl, rfl, rfl, rfl, rfl⟩)
  unfold State.discardPending
  simp only
  split
  · exact h1.trans (State.Evolves.serve _)
  · exact h1

theorem State.Evolves.cutShort (s : State) (l : Line) : s.Evolves (s.cutShort l) := by
  unfold State.cutShort
  split
  · refine State.Evolves.trans ?_ (State.Evolves.completeUnit _ l _)
    exact State.Evolves.modLine_keep s l _ fun _ => ⟨rfl, rfl, rfl, rfl, rfl, rfl⟩
  · split
    · exact State.Evolves.discardPending _ _
    · exact State.Evolves.refl s

theorem State.Evolves.faultLine (s : State) (l : Line) (c : FaultCause) : s.Evolves (s.faultLine l c) := by
  unfold State.faultLine
  refine State.Evolves.trans ?_ (State.Evolves.raise _ _)
  refine State.Evolves.trans ?_ (State.Evolves.applyPendingSwap _ l)
  refine State.Evolves.trans ?_ (State.Evolves.modLine_keep _ l _ fun _ => ⟨rfl, rfl, rfl, rfl, rfl, rfl⟩)
  exact State.Evolves.completeUnit _ _ _

theorem State.Evolves.endUnit (s : State) (l : Line) (e : UnitEnd) : s.Evolves (s.endUnit l e) := by
  unfold State.endUnit State.afterCompletion
  refine State.Evolves.trans ?_ (State.Evolves.finish _)
  split
  · exact (State.Evolves.completeUnit _ _ _).trans (State.Evolves.enterStopped _ _)
  · exact State.Evolves.completeUnit _ _ _

/-! ### Attempts -/

theorem State.Evolves.chargeAttempt (s : State) (w : Work) : s.Evolves (s.chargeAttempt w) := by
  unfold State.chargeAttempt
  split
  · exact State.Evolves.refl s
  · exact State.Evolves.modEntry s _ _ fun _ => ⟨rfl, rfl, rfl, rfl, rfl⟩

theorem State.Evolves.nextAttempt (s : State) (l : Line) : s.Evolves (s.nextAttempt l) :=
  State.Evolves.modLine_keep s l _ fun _ => ⟨rfl, rfl, rfl, rfl, rfl, rfl⟩

theorem State.Evolves.attemptFails (s : State) (l : Line) (o : FailingOutcome) : s.Evolves (s.attemptFails l o) := by
  unfold State.attemptFails
  split
  · exact State.Evolves.refl s
  · next c _ =>
    have h1 : s.Evolves ((s.modLine l (fun x => { x with current := some (c.fail o) })).chargeAttempt c.work) := by
      refine State.Evolves.trans ?_ (State.Evolves.chargeAttempt _ _)
      exact State.Evolves.modLine_keep s l _ fun _ => ⟨rfl, rfl, rfl, rfl, rfl, rfl⟩
    simp only
    split
    · exact h1.trans (State.Evolves.nextAttempt _ _)
    · exact h1.trans (State.Evolves.endUnit _ _ _)

theorem State.Evolves.attemptJudged (s : State) (l : Line) (v : Verdict) : s.Evolves (s.attemptJudged l v) := by
  unfold State.attemptJudged
  split
  · unfold State.attemptGood
    split
    · exact State.Evolves.refl s
    · refine State.Evolves.trans ?_ (State.Evolves.endUnit _ _ _)
      exact State.Evolves.modLine_keep s l _ fun _ => ⟨rfl, rfl, rfl, rfl, rfl, rfl⟩
  · unfold State.attemptDeferred
    split
    · exact State.Evolves.refl s
    · next c _ =>
      have h1 (a : HeldAnswer) : s.Evolves (s.modLine l (fun x => { x with current := some (c.answered a) })) :=
        State.Evolves.modLine_keep s l _ fun _ => ⟨rfl, rfl, rfl, rfl, rfl, rfl⟩
      simp only
      split
      · exact (h1 _).trans (State.Evolves.nextAttempt _ _)
      · exact (h1 _).trans (State.Evolves.endUnit _ _ _)
  · exact State.Evolves.attemptFails _ _ _

theorem State.Evolves.firstAnswerCharacter (s : State) (l : Line) (v : Byte) (f : Framing) :
    s.Evolves (s.firstAnswerCharacter l v f) := by
  unfold State.firstAnswerCharacter
  split
  · exact State.Evolves.modLine_keep s l _ fun _ => ⟨rfl, rfl, rfl, rfl, rfl, rfl⟩
  · exact State.Evolves.attemptFails _ _ _

theorem State.Evolves.nextAnswerCharacter (s : State) (l : Line) (buffer : List Byte) (crc : Word) (v : Byte)
    (f : Framing) : s.Evolves (s.nextAnswerCharacter l buffer crc v f) := by
  have hc (c : Word) : s.Evolves (s.modLine l (fun x => { x with phase := .receive (buffer ++ [v]) c (some 0) })) :=
    State.Evolves.modLine_keep s l _ fun _ => ⟨rfl, rfl, rfl, rfl, rfl, rfl⟩
  unfold State.nextAnswerCharacter
  simp only
  split
  · exact State.Evolves.attemptFails _ _ _
  · split
    · exact hc _
    · split
      · split
        · exact State.Evolves.attemptFails _ _ _
        · exact hc _
      · split
        · exact hc _
        · split
          · exact hc _
          · split
            · exact State.Evolves.refl s
            · exact State.Evolves.attemptJudged _ _ _

theorem State.Evolves.disposeCharacter (s : State) (l : Line) (v : Byte) (f : Framing) :
    s.Evolves (s.disposeCharacter l v f) := by
  unfold State.disposeCharacter
  split
  · exact State.Evolves.refl s
  · exact State.Evolves.modLine_keep s l _ fun _ => ⟨rfl, rfl, rfl, rfl, rfl, rfl⟩
  · split
    · exact State.Evolves.modLine_keep s l _ fun _ => ⟨rfl, rfl, rfl, rfl, rfl, rfl⟩
    · exact State.Evolves.modLine_keep s l _ fun _ => ⟨rfl, rfl, rfl, rfl, rfl, rfl⟩
  · exact State.Evolves.refl s
  · exact State.Evolves.firstAnswerCharacter _ _ _ _
  · exact State.Evolves.nextAnswerCharacter _ _ _ _ _ _

theorem State.Evolves.afterContention (s : State) (l : Line) : s.Evolves (s.afterContention l) := by
  unfold State.afterContention
  split
  · exact (State.Evolves.faultLine _ _ _).trans (State.Evolves.finish _)
  · exact State.Evolves.modLine_keep s l _ fun _ => ⟨rfl, rfl, rfl, rfl, rfl, rfl⟩

theorem State.Evolves.characterSent (s : State) (l : Line) : s.Evolves (s.characterSent l) := by
  have hs : s.Evolves (s.modLine l (fun y => { y with shifter := none })) :=
    State.Evolves.modLine_keep s l _ fun _ => ⟨rfl, rfl, rfl, rfl, rfl, rfl⟩
  unfold State.characterSent
  simp only
  split
  · split <;> exact State.Evolves.modLine_keep s l _ fun _ => ⟨rfl, rfl, rfl, rfl, rfl, rfl⟩
  · refine State.Evolves.trans ?_ (State.Evolves.afterContention _ _)
    exact hs.trans (State.Evolves.modLine_keep _ l _ fun _ => ⟨rfl, rfl, rfl, rfl, rfl, rfl⟩)
  · exact State.Evolves.modLine_keep s l _ fun _ => ⟨rfl, rfl, rfl, rfl, rfl, rfl⟩
  · exact hs.trans (State.Evolves.afterContention _ _)
  all_goals exact hs

/-! ### Events -/

theorem State.Evolves.whenLive (s : State) (f : State → State) (h : s.Evolves (f s)) : s.Evolves (s.whenLive f) := by
  unfold State.whenLive
  split
  · exact h
  · exact State.Evolves.refl s

theorem State.Evolves.startDetected (s : State) (l : Line) : s.Evolves (s.startDetected l) := by
  unfold State.startDetected
  split
  · exact State.Evolves.refl s
  · split
    · refine State.Evolves.modLine_keep s l _ fun x => ?_
      unfold LineEngine.disposeStart
      split <;> exact ⟨rfl, rfl, rfl, rfl, rfl, rfl⟩
    · exact State.Evolves.refl s

theorem State.Evolves.character (s : State) (l : Line) (v : Byte) (f : Framing) : s.Evolves (s.character l v f) := by
  unfold State.character
  split
  · exact State.Evolves.refl s
  · split
    · refine State.Evolves.trans ?_ (State.Evolves.disposeCharacter _ _ _ _)
      exact State.Evolves.modLine_keep s l _ fun _ => ⟨rfl, rfl, rfl, rfl, rfl, rfl⟩
    · exact State.Evolves.refl s

theorem State.Evolves.waitMarkEnd (s : State) (l : Line) : s.Evolves (s.waitMarkEnd l) := by
  unfold State.waitMarkEnd
  split
  · exact State.Evolves.refl s
  · split
    · exact State.Evolves.modLine_keep s l _ fun _ => ⟨rfl, rfl, rfl, rfl, rfl, rfl⟩
    · exact State.Evolves.refl s

theorem State.Evolves.quietReached (s : State) (l : Line) : s.Evolves (s.quietReached l) := by
  refine State.Evolves.whenLive s _ ?_
  split
  · refine State.Evolves.modLine_keep s l _ fun x => ?_
    unfold LineEngine.enterSend
    split <;> exact ⟨rfl, rfl, rfl, rfl, rfl, rfl⟩
  · exact State.Evolves.refl s

theorem State.Evolves.noiseLimitExpiry (s : State) (l : Line) : s.Evolves (s.noiseLimitExpiry l) := by
  refine State.Evolves.whenLive s _ ?_
  split
  · exact (State.Evolves.faultLine _ _ _).trans (State.Evolves.finish _)
  · exact State.Evolves.refl s

theorem State.Evolves.transmitCharacterEnd (s : State) (l : Line) : s.Evolves (s.transmitCharacterEnd l) := by
  refine State.Evolves.whenLive s _ ?_
  split
  · exact State.Evolves.characterSent _ _
  · exact State.Evolves.refl s

theorem State.Evolves.responseTimeout (s : State) (l : Line) : s.Evolves (s.responseTimeout l) := by
  refine State.Evolves.whenLive s _ ?_
  split <;> first | exact State.Evolves.attemptFails _ _ _ | exact State.Evolves.refl s

theorem State.Evolves.gapLimitExpiry (s : State) (l : Line) : s.Evolves (s.gapLimitExpiry l) := by
  refine State.Evolves.whenLive s _ ?_
  split <;> first | exact State.Evolves.attemptFails _ _ _ | exact State.Evolves.refl s

theorem State.Evolves.backoffEnd (s : State) (l : Line) : s.Evolves (s.backoffEnd l) := by
  refine State.Evolves.whenLive s _ ?_
  split <;> first | exact State.Evolves.nextAttempt _ _ | exact State.Evolves.refl s

theorem State.Evolves.settleEnd (s : State) (l : Line) : s.Evolves (s.settleEnd l) := by
  refine State.Evolves.whenLive s _ ?_
  split <;> first | exact State.Evolves.endUnit _ _ _ | exact State.Evolves.refl s

theorem State.Evolves.intervalElapsed (s : State) (l : Line) : s.Evolves (s.intervalElapsed l) := by
  refine State.Evolves.whenLive s _ ?_
  split
  · refine State.Evolves.trans ?_ (State.Evolves.finish _)
    exact State.Evolves.modLine_keep s l _ fun _ => ⟨rfl, rfl, rfl, rfl, rfl, rfl⟩
  · exact State.Evolves.refl s

theorem State.Evolves.unitStart (s : State) (l : Line) : s.Evolves (s.unitStart l) := by
  refine State.Evolves.whenLive s _ ?_
  split
  · exact (((State.Selected.startUnit s l).trans (State.Selected.serve _)).trans (State.Selected.finish _)).evolves
  · exact State.Evolves.refl s

theorem State.Evolves.deferredDisable (s : State) (i : StationIndex) : s.Evolves (s.deferredDisable i) := by
  refine State.Evolves.whenLive s _ ?_
  split
  · exact State.Evolves.disableNow _ _
  · exact State.Evolves.refl s

theorem State.Evolves.stoppingLineStopped (s : State) (l : Line) : s.Evolves (s.stoppingLineStopped l) := by
  refine State.Evolves.whenLive s _ ?_
  split
  · exact State.Evolves.enterStopped _ _
  · exact State.Evolves.refl s

theorem State.Evolves.holdListGrant (s : State) : s.Evolves s.holdListGrant :=
  State.Evolves.whenLive s _ ((State.Evolves.serve _).trans (State.Evolves.finish _))

theorem State.Evolves.workSelection (s : State) (l : Line) : s.Evolves (s.workSelection l) := by
  refine State.Evolves.whenLive s _ ?_
  split
  · exact ((State.Selected.invokeArbiter s l).trans (State.Selected.finish _)).evolves
  · exact State.Evolves.refl s

theorem LineEngine.Evolves.swapBanks (x : LineEngine) : x.Evolves x.swapBanks :=
  ⟨rfl, rfl, rfl, rfl, fun h => by simp [LineEngine.swapBanks] at h, List.suffix_rfl⟩

theorem State.Evolves.pendingSwapTakesEffect (s : State) (l : Line) : s.Evolves (s.pendingSwapTakesEffect l) := by
  refine State.Evolves.whenLive s _ ?_
  split
  · exact State.Evolves.modLine s l _ LineEngine.Evolves.swapBanks
  · exact State.Evolves.refl s

theorem State.Evolves.cycleStart (s : State) (l : Line) : s.Evolves (s.cycleStart l) := by
  refine State.Evolves.whenLive s _ ?_
  split
  · exact ((State.Selected.startCycle s l).trans (State.Selected.finish _)).evolves
  · exact State.Evolves.refl s

/-! ### Time -/

theorem State.Evolves.fire (s : State) (l : Line) (e : TimedEvent) : s.Evolves (s.fire l e) := by
  cases e
  · exact State.Evolves.transmitCharacterEnd s l
  · exact State.Evolves.quietReached s l
  · exact State.Evolves.noiseLimitExpiry s l
  · exact State.Evolves.responseTimeout s l
  · exact State.Evolves.gapLimitExpiry s l
  · exact State.Evolves.backoffEnd s l
  · exact State.Evolves.settleEnd s l
  · exact State.Evolves.intervalElapsed s l

theorem State.Evolves.fireNext (s : State) (l : Line) : s.Evolves (s.fireNext l) := by
  unfold State.fireNext
  split
  · exact State.Evolves.refl s
  · exact State.Evolves.fire _ _ _

theorem State.Evolves.fireDue (s : State) (l : Line) : s.Evolves (s.fireDue l) :=
  (State.Evolves.fireNext s l).trans (State.Evolves.fireNext _ l)

theorem slipBack_perm (r : Record) : ∀ (n : Nat) (xs : List Record), (slipBack r n xs).Perm (r :: xs)
  | _, [] => List.Perm.refl _
  | n, x :: xs => by
    unfold slipBack
    split
    · exact ((slipBack_perm r (n + 1) xs).cons x).trans (List.Perm.swap r x xs)
    · exact List.Perm.refl _

/-- What `recordsApart` may do: the records of the period may change their order behind those that stood before it, and
nothing else but the counter of free orders moves. -/
theorem State.recordsApart_spec (s : State) {before middle : Nat} (hm : before ≤ middle) :
    ∃ (n : Nat) (records : List Record) (cursor : Nat),
      s.recordsApart before middle =
        { s with raceCount := n, queue := { s.queue with records := records, cursor := cursor } } ∧
      records.Perm s.queue.records ∧ records.take before = s.queue.records.take before ∧
      (cursor = s.queue.cursor ∨ before = 0 ∧ cursor = 0) := by
  unfold State.recordsApart
  split
  · next own change rest hd =>
    split
    · have hs : s.queue.records = s.queue.records.take before ++
          ((s.queue.records.take middle).drop before ++ own :: change :: rest) := by
        conv_lhs => rw [← List.take_append_drop middle s.queue.records, hd,
          ← List.take_append_drop before (s.queue.records.take middle)]
        rw [List.take_take, Nat.min_eq_left hm, List.append_assoc]
      have hlen : before ≤ s.queue.records.length := by
        rcases Nat.lt_or_ge middle s.queue.records.length with h | h
        · omega
        · rw [List.drop_eq_nil_of_le h] at hd
          exact absurd hd (by simp)
      refine ⟨_, _, _, rfl, ?_, ?_, ?_⟩
      · conv_rhs => rw [hs]
        rw [List.append_assoc]
        refine List.Perm.append_left _ ?_
        refine (((List.reverse_perm _).trans (slipBack_perm own _ _)).append_right _).trans ?_
        refine (List.Perm.trans ?_ List.perm_middle.symm)
        exact ((List.reverse_perm _).append_right _).cons own
      · rw [List.append_assoc]
        exact List.take_left' (by rw [List.length_take, Nat.min_eq_left hlen])
      · split
        · next h => exact Or.inr ⟨h, rfl⟩
        · exact Or.inl rfl
    · exact ⟨_, _, _, rfl, List.Perm.refl _, rfl, Or.inl rfl⟩
  · exact ⟨_, _, _, rfl, List.Perm.refl _, rfl, Or.inl rfl⟩

/-- The records that stood before the period stand at the front, in their order. -/
theorem State.Evolves.recordsApart {s t : State} (h : s.Evolves t) {middle : Nat}
    (hm : s.queue.records.length ≤ middle) : s.Evolves (t.recordsApart s.queue.records.length middle) := by
  obtain ⟨n, records, cursor, he, -, ht, hc⟩ := t.recordsApart_spec hm
  rw [he]
  exact { h with
    records := by
      rw [List.prefix_iff_eq_take, ht]
      exact List.prefix_iff_eq_take.1 h.records
    cursor := fun hne => by
      rcases hc with hc | ⟨hz, -⟩
      · exact hc.trans (h.cursor hne)
      · exact absurd (List.length_eq_zero_iff.1 hz) hne }

theorem State.Evolves.fireInTurn (s : State) (first second : Line) : s.Evolves (s.fireInTurn first second) :=
  ((State.Evolves.fireDue s first).trans (State.Evolves.fireDue _ second)).recordsApart
    (State.Evolves.fireDue s first).records.length_le

theorem State.Evolves.fireBoth (s : State) : s.Evolves s.fireBoth := by
  unfold State.fireBoth
  split
  · split
    · exact (State.Selected.nextRace s).evolves.trans (State.Evolves.fireInTurn _ _ _)
    · exact (State.Selected.nextRace s).evolves.trans (State.Evolves.fireInTurn _ _ _)
  · exact (State.Evolves.fireDue _ _).trans (State.Evolves.fireDue _ _)

/-- The lines' timers alone, in one reference period. -/
theorem State.Evolves.tickLines (s : State) :
    s.Evolves ((s.modLine .a LineEngine.tick).modLine .b LineEngine.tick) := by
  refine State.Evolves.trans ?_ (State.Evolves.modLine_keep _ .b _ fun _ => ⟨rfl, rfl, rfl, rfl, rfl, rfl⟩)
  exact State.Evolves.modLine_keep s .a _ fun _ => ⟨rfl, rfl, rfl, rfl, rfl, rfl⟩

end Sys2Proof.Machine
end

