-- ==== Sys2Proof/Laws/Ops.lean ====
section
/-! SUPPORT. What the small shared operations do: the command slot, the settled cases of the arbiters and of serving,
record sizes, counters, alert sets. -/

namespace Sys2Proof.Machine

/-! ### The command slot -/

theorem live_iff (s : State) : s.live = true ↔ s.window.resetInput = false ∧ s.window.readiness = .ready := by
  simp [State.live]

theorem whenLive_of_live {s : State} (effect : State → State) (h : s.live = true) : s.whenLive effect = effect s := by
  simp [State.whenLive, h]

theorem whenLive_of_not_live {s : State} (effect : State → State) (h : s.live = false) : s.whenLive effect = s := by
  simp [State.whenLive, h]

/-- In READY a command row is its decision, taken with the code in COMMAND (R153). -/
theorem issue_of_live {s : State} (code : Word) (decision : State → State) (h : s.live = true) :
    s.issue code decision = decision { s with window := { s.window with command := code } } := by
  rw [live_iff] at h
  simp [State.issue, h.1, h.2, State.modWindow]

/-- A reply after changes that left the command register alone is the decision of that command. -/
theorem reply_eq_decided {u : State} {code : Word} (r : Result) (n : Nat) (h : u.window.command = code) :
    u.reply r n = u.decided code r n := by
  simp [State.reply, State.decided, State.modWindow, ← h]

/-! ### Settled arbiters and an empty hold list -/

theorem settleArbiters_of_none {s : State} (n : Nat) (h : s.nextArbiter = none) : State.settleArbiters n s = s := by
  cases n <;> simp [State.settleArbiters, h]

theorem finish_of_none {s : State} (h : s.nextArbiter = none) : s.finish = s :=
  settleArbiters_of_none _ h

theorem serve_of_empty {s : State} (h : s.queue.holdList = []) : s.serve = s := by
  simp [State.serve, Config.stepFuel, State.serveHoldList, h]

/-- Serving grants nothing while the head of the hold list does not fit (R112). -/
theorem serve_of_unfit {s : State} {h : HoldEntry} {rest : List HoldEntry} (hl : s.queue.holdList = h :: rest)
    (hn : Config.storeWords < s.wordsUsed + s.wordsReserved + h.request) : s.serve = s := by
  have : ¬ (s.wordsUsed + s.wordsReserved + h.request ≤ Config.storeWords) := by omega
  simp [State.serve, Config.stepFuel, State.serveHoldList, hl, this]

/-! ### Records -/

theorem payloadWords_length : ∀ xs : List Byte, (payloadWords xs).length = (xs.length + 1) / 2
  | [] => rfl
  | [x] => by simp [payloadWords]
  | x :: y :: rest => by simp [payloadWords, payloadWords_length rest]; omega

theorem record_words_length (r : Record) : r.words.length = r.size := by
  cases r <;> simp [Record.words, Record.size, payloadWords_length]
  omega

theorem record_size_pos (r : Record) : 3 ≤ r.size := by
  cases r <;> simp [Record.size]

theorem wordsOf_append (xs ys : List Record) : wordsOf (xs ++ ys) = wordsOf xs + wordsOf ys := by
  simp [wordsOf]

theorem cursorWord_of_lt {s : State} {r : Record} {rest : List Record} (hr : s.queue.records = r :: rest)
    (h : s.queue.cursor < r.words.length) : s.cursorWord = some r.words[s.queue.cursor] := by
  simp [State.cursorWord, hr, h]

theorem cursorWord_of_ge {s : State} (h : s.headSize ≤ s.queue.cursor) : s.cursorWord = none := by
  unfold State.cursorWord
  unfold State.headSize at h
  cases hr : s.queue.records with
  | nil => rfl
  | cons r rest =>
    simp only [hr] at h ⊢
    simp [record_words_length, h]

/-! ### Halves of a word and counters -/

theorem loByte_toNat (w : Word) : (loByte w).toNat = w.toNat % 256 := by
  simp [loByte]

theorem hiByte_toNat (w : Word) : (hiByte w).toNat = w.toNat / 256 := by
  simp only [hiByte, BitVec.extractLsb'_toNat, Nat.shiftRight_eq_div_pow]
  omega

theorem countUp_le (n : Nat) : countUp n ≤ 65535 := by
  simp [countUp, Config.countLimit]

/-! ### Alert sets -/

theorem mem_alertInsert {i j : StationIndex} : ∀ {xs : List StationIndex}, j ∈ alertInsert i xs ↔ j = i ∨ j ∈ xs
  | [] => by simp [alertInsert]
  | k :: rest => by
    simp only [alertInsert]
    split
    · simp
    · split
      · rename_i h
        simp [h]
      · simp only [List.mem_cons, mem_alertInsert (xs := rest)]
        tauto

theorem alertInsert_ascending {i : StationIndex} : ∀ {xs : List StationIndex}, xs.Pairwise (· < ·) →
    (alertInsert i xs).Pairwise (· < ·)
  | [], _ => by simp [alertInsert]
  | k :: rest, h => by
    rw [List.pairwise_cons] at h
    simp only [alertInsert]
    split
    · rename_i hik
      refine List.pairwise_cons.2 ⟨?_, List.pairwise_cons.2 h⟩
      intro j hj
      rcases List.mem_cons.1 hj with rfl | hj
      · exact hik
      · exact lt_trans hik (h.1 j hj)
    · split
      · exact List.pairwise_cons.2 h
      · rename_i h1 h2
        refine List.pairwise_cons.2 ⟨?_, alertInsert_ascending h.2⟩
        intro j hj
        rcases mem_alertInsert.1 hj with rfl | hj
        · exact lt_of_le_of_ne (not_lt.1 h1) (Ne.symm h2)
        · exact h.1 j hj

theorem mem_alertRemove {i j : StationIndex} {xs : List StationIndex} : j ∈ alertRemove i xs ↔ j ∈ xs ∧ j ≠ i := by
  simp [alertRemove]

theorem alertNext_mem {c j : StationIndex} {xs : List StationIndex} (h : alertNext c xs = some j) : j ∈ xs := by
  unfold alertNext at h
  split at h
  · rename_i k hk
    cases h
    exact List.mem_of_find?_eq_some hk
  · exact List.mem_of_mem_head? h

end Sys2Proof.Machine
end

