-- ==== Sys2Proof/Laws/Untouched.lean ====
section
/-! SUPPORT. What the selection and the start of units of one line leave alone on the other line, and which lines the
arbiters and the serving of the hold list leave alone altogether. -/

namespace Sys2Proof.Machine

/-! ### Operations of one line -/

/-- The hold-list entries of a line. -/
def State.heldOf (s : State) (l : Line) : List HoldEntry :=
  s.queue.holdList.filter (fun h => h.line = l)

theorem mem_heldOf {s : State} {l : Line} {h : HoldEntry} : h ∈ s.heldOf l ↔ h ∈ s.queue.holdList ∧ h.line = l := by
  simp [State.heldOf]

/-- From s to t only line l acted: the other line stands with its hold-list entries, and so do the entries of its
stations. -/
structure State.OnlyLine (l : Line) (s t : State) : Prop where
  line : ∀ m, m ≠ l → t.line m = s.line m
  heldOf : ∀ m, m ≠ l → t.heldOf m = s.heldOf m
  entry : ∀ i, (s.entry i).line ≠ l → t.entry i = s.entry i

theorem State.OnlyLine.held {l : Line} {s t : State} (k : State.OnlyLine l s t) :
    ∀ h ∈ t.queue.holdList, h ∈ s.queue.holdList ∨ h.line = l := by
  intro h hh
  by_cases hl : h.line = l
  · exact Or.inr hl
  · have : h ∈ t.heldOf h.line := mem_heldOf.2 ⟨hh, rfl⟩
    rw [k.heldOf _ hl] at this
    exact Or.inl (mem_heldOf.1 this).1

theorem State.OnlyLine.refl (l : Line) (s : State) : s.OnlyLine l s :=
  ⟨fun _ _ => rfl, fun _ _ => rfl, fun _ _ => rfl⟩

theorem State.OnlyLine.trans {l : Line} {s t u : State} (h : State.OnlyLine l s t) (k : State.OnlyLine l t u) :
    State.OnlyLine l s u where
  line m hm := (k.line m hm).trans (h.line m hm)
  heldOf m hm := (k.heldOf m hm).trans (h.heldOf m hm)
  entry i hi := by
    have h1 := h.entry i hi
    rw [k.entry i (by rwa [h1]), h1]

theorem State.OnlyLine.modLine (s : State) (l : Line) (f : LineEngine → LineEngine) :
    State.OnlyLine l s (s.modLine l f) :=
  ⟨fun _ hm => State.line_modLine_ne _ _ hm, fun _ _ => by simp [State.heldOf], fun _ _ => by simp⟩

theorem State.OnlyLine.raise (s : State) (l : Line) (c : Cause) : State.OnlyLine l s (s.raise c) :=
  ⟨fun _ _ => by simp, fun _ _ => by simp [State.heldOf], fun _ _ => by simp⟩

theorem State.OnlyLine.nextRace (s : State) (l : Line) : State.OnlyLine l s s.nextRace :=
  ⟨fun m _ => by cases m <;> rfl, fun _ _ => rfl, fun _ _ => rfl⟩

theorem State.holdList_push (q : ReplyQueue) (r : Record) : (q.push r).holdList = q.holdList := rfl

theorem State.OnlyLine.writeRecord (s : State) (l : Line) (r : Record) : State.OnlyLine l s (s.writeRecord l r) :=
  ⟨fun m hm => by simp [State.line_writeRecord, State.line_modLine_ne, hm],
    fun _ _ => by simp [State.heldOf, State.queue_writeRecord, State.holdList_push], fun _ _ => by simp⟩

theorem State.OnlyLine.finishBoundary (s : State) (l : Line) : State.OnlyLine l s (s.finishBoundary l) :=
  ((State.OnlyLine.raise s l _).trans (State.OnlyLine.modLine _ l _)).trans (State.OnlyLine.modLine _ l _)

theorem State.OnlyLine.beginTargeted {s : State} {l : Line} {i : StationIndex} (w : Work) (hi : (s.entry i).line = l) :
    State.OnlyLine l s (s.beginTargeted l w i) := by
  unfold State.beginTargeted
  refine State.OnlyLine.trans ?_ (State.OnlyLine.modLine _ l _)
  refine ⟨fun m _ => by simp, fun _ _ => by simp [State.heldOf], fun j hj => ?_⟩
  rw [State.entry_modEntry_ne]
  rintro rfl
  exact hj hi

theorem stationValid_iff {s : State} {l : Line} {i : StationIndex} :
    s.stationValid l i = true ↔ isWorking (s.entry i).state = true ∧ (s.entry i).line = l := by
  simp [State.stationValid]

theorem State.OnlyLine.startTargeted {s t : State} {l : Line} {i : StationIndex} (w : Work) (ht : State.OnlyLine l s t) :
    State.OnlyLine l s (if s.stationValid l i then s.beginTargeted l w i else t) := by
  split
  · next h => exact State.OnlyLine.beginTargeted w (stationValid_iff.1 h).2
  · exact ht

theorem State.OnlyLine.faultStation (s : State) (l : Line) (e : DirectedEntry) : State.OnlyLine l s (s.faultStation l e) := by
  unfold State.faultStation State.dropReservation
  exact ((State.OnlyLine.writeRecord s l _).trans (State.OnlyLine.modLine _ l _)).trans (State.OnlyLine.modLine _ l _)

theorem State.OnlyLine.startWork (s : State) (l : Line) (w : Work) : State.OnlyLine l s (s.startWork l w) := by
  unfold State.startWork
  cases w with
  | visit k i g n => exact State.OnlyLine.startTargeted _ (State.OnlyLine.modLine _ l _)
  | alert i => exact State.OnlyLine.startTargeted _ (State.OnlyLine.modLine _ l _)
  | directed e =>
    dsimp only
    split
    · exact State.OnlyLine.startTargeted _ (State.OnlyLine.faultStation _ l _)
    · exact State.OnlyLine.startTargeted _ (State.OnlyLine.faultStation _ l _)
    · exact State.OnlyLine.modLine _ l _
  | mark v o =>
    unfold State.dropReservation
    exact ((State.OnlyLine.writeRecord s l _).trans (State.OnlyLine.modLine _ l _)).trans
      (State.OnlyLine.finishBoundary _ l)

theorem State.OnlyLine.startUnit (s : State) (l : Line) : State.OnlyLine l s (s.startUnit l) := by
  unfold State.startUnit
  split
  · exact State.OnlyLine.refl l s
  · exact (State.OnlyLine.modLine s l _).trans (State.OnlyLine.startWork _ l _)

theorem State.OnlyLine.grant (s : State) (l : Line) (n : Nat) : State.OnlyLine l s (s.grant l n) :=
  (State.OnlyLine.modLine s l _).trans (State.OnlyLine.startUnit _ l)

theorem State.OnlyLine.joinHoldList (s : State) (l : Line) (n : Nat) : State.OnlyLine l s (s.joinHoldList l n) := by
  refine ⟨fun m _ => by simp, fun m hm => ?_, fun i _ => by simp⟩
  show List.filter _ (s.queue.holdList ++ [(⟨l, n⟩ : HoldEntry)]) = _
  simp [State.heldOf, Ne.symm hm]

theorem State.OnlyLine.requestUnit (s : State) (l : Line) (w : Work) : State.OnlyLine l s (s.requestUnit l w) := by
  unfold State.requestUnit
  dsimp only
  split
  · exact (State.OnlyLine.modLine s l _).trans (State.OnlyLine.grant _ l _)
  · exact (State.OnlyLine.modLine s l _).trans (State.OnlyLine.joinHoldList _ l _)

theorem State.OnlyLine.boundary (s : State) (l : Line) : State.OnlyLine l s (s.boundary l) := by
  unfold State.boundary
  dsimp only
  split
  · exact State.OnlyLine.requestUnit _ l _
  · exact State.OnlyLine.finishBoundary _ l

theorem State.OnlyLine.chooseInCycle (s : State) (l : Line) : State.OnlyLine l s (s.chooseInCycle l) := by
  unfold State.chooseInCycle
  dsimp only
  split
  · split
    · exact (State.OnlyLine.modLine s l _).trans (State.OnlyLine.requestUnit _ l _)
    · exact (State.OnlyLine.modLine s l _).trans (State.OnlyLine.requestUnit _ l _)
  · exact (State.OnlyLine.modLine s l _).trans (State.OnlyLine.requestUnit _ l _)

theorem State.OnlyLine.chooseOutside (s : State) (l : Line) : State.OnlyLine l s (s.chooseOutside l) := by
  unfold State.chooseOutside
  split
  · exact State.OnlyLine.requestUnit _ l _
  · exact State.OnlyLine.refl l s

theorem State.OnlyLine.invokeArbiter (s : State) (l : Line) : State.OnlyLine l s (s.invokeArbiter l) := by
  unfold State.invokeArbiter
  dsimp only
  split
  · exact State.OnlyLine.refl l s
  · split
    · exact State.OnlyLine.refl l s
    · split
      · exact (State.OnlyLine.modLine s l _).trans (State.OnlyLine.boundary _ l)
      · exact (State.OnlyLine.modLine s l _).trans (State.OnlyLine.chooseInCycle _ l)
    · split
      · exact State.OnlyLine.modLine s l _
      · exact State.OnlyLine.chooseOutside _ l
    · split
      · exact State.OnlyLine.modLine s l _
      · exact State.OnlyLine.chooseOutside _ l

theorem State.OnlyLine.settleLine (l : Line) : ∀ (n : Nat) (s : State), State.OnlyLine l s (State.settleLine l n s)
  | 0, s => State.OnlyLine.refl l s
  | n + 1, s => by
    unfold State.settleLine
    split
    · exact (State.OnlyLine.invokeArbiter s l).trans (State.OnlyLine.settleLine l n _)
    · exact State.OnlyLine.refl l s

theorem State.OnlyLine.afterGrant (s : State) (l : Line) : State.OnlyLine l s (s.afterGrant l) := by
  unfold State.afterGrant
  split
  · dsimp only
    split
    · exact (State.OnlyLine.nextRace s l).trans (State.OnlyLine.settleLine l _ _)
    · exact State.OnlyLine.nextRace s l
  · exact State.OnlyLine.refl l s

/-! ### Lines the arbiters and the serving leave alone -/

theorem arbiterDue_free {x : LineEngine} (h : x.arbiterDue = true) : x.free = true := by
  simp only [LineEngine.arbiterDue, Bool.and_eq_true] at h
  exact h.1

theorem nextArbiter_due {s : State} {l : Line} (h : s.nextArbiter = some l) : (s.line l).arbiterDue = true := by
  unfold State.nextArbiter at h
  split at h
  · next ha hb => split at h <;> cases h <;> assumption
  · next ha hb => cases h; exact ha
  · next ha hb => cases h; exact hb
  · cases h

/-- A line that is not free, and the entries of its stations, stand through the arbiters' turns. -/
theorem settleArbiters_untouched {m : Line} : ∀ (n : Nat) (s : State), (s.line m).free = false →
    (State.settleArbiters n s).line m = s.line m ∧
    (∀ i, (s.entry i).line = m → (State.settleArbiters n s).entry i = s.entry i) ∧
    ((∀ h ∈ s.queue.holdList, h.line ≠ m) → ∀ h ∈ (State.settleArbiters n s).queue.holdList, h.line ≠ m)
  | 0, s, _ => ⟨rfl, fun _ _ => rfl, fun h => h⟩
  | n + 1, s, hf => by
    unfold State.settleArbiters
    split
    · exact ⟨rfl, fun _ _ => rfl, fun h => h⟩
    · next l hl =>
      have hm : m ≠ l := by
        rintro rfl
        rw [arbiterDue_free (nextArbiter_due hl)] at hf
        cases hf
      have h0 : State.OnlyLine l s (if s.lineA.arbiterDue && s.lineB.arbiterDue then s.nextRace else s) := by
        split
        · exact State.OnlyLine.nextRace s l
        · exact State.OnlyLine.refl l s
      have h1 := h0.trans (State.OnlyLine.invokeArbiter _ l)
      have hline := h1.line m hm
      obtain ⟨k1, k2, k3⟩ := settleArbiters_untouched n _ (by rw [hline]; exact hf)
      refine ⟨k1.trans hline, fun i hi => ?_, fun hh => k3 fun h hmem => ?_⟩
      · have he := h1.entry i (by rw [hi]; exact hm)
        rw [k2 i (by rw [he]; exact hi), he]
      · rcases h1.held h hmem with h2 | h2
        · exact hh h h2
        · rw [h2]
          exact Ne.symm hm

theorem finish_untouched {s : State} {m : Line} (h : (s.line m).free = false) :
    s.finish.line m = s.line m ∧ (∀ i, (s.entry i).line = m → s.finish.entry i = s.entry i) ∧
    ((∀ h ∈ s.queue.holdList, h.line ≠ m) → ∀ h ∈ s.finish.queue.holdList, h.line ≠ m) :=
  settleArbiters_untouched _ s h

/-- A line that is not in the hold list, and the entries of its stations, stand through the serving of it. -/
theorem serveHoldList_untouched {m : Line} : ∀ (n : Nat) (s : State), (∀ h ∈ s.queue.holdList, h.line ≠ m) →
    (State.serveHoldList n s).line m = s.line m ∧
    (∀ i, (s.entry i).line = m → (State.serveHoldList n s).entry i = s.entry i) ∧
    ∀ h ∈ (State.serveHoldList n s).queue.holdList, h.line ≠ m
  | 0, s, hh => ⟨rfl, fun _ _ => rfl, hh⟩
  | n + 1, s, hh => by
    unfold State.serveHoldList
    split
    · exact ⟨rfl, fun _ _ => rfl, hh⟩
    · next e rest he =>
      split
      · dsimp only
        have hm : m ≠ e.line := Ne.symm (hh e (by rw [he]; exact List.mem_cons_self))
        have h0 : State.OnlyLine e.line s { s with queue := { s.queue with holdList := rest } } :=
          ⟨fun l _ => by cases l <;> rfl, fun l hl => by simp [State.heldOf, he, Ne.symm hl], fun _ _ => rfl⟩
        have h1 := (h0.trans (State.OnlyLine.grant _ e.line e.request)).trans (State.OnlyLine.afterGrant _ e.line)
        have hline := h1.line m hm
        obtain ⟨k1, k2, k3⟩ := serveHoldList_untouched (m := m) n _ (fun h hmem => by
          rcases h1.held h hmem with h2 | h2
          · exact hh h h2
          · rw [h2]; exact Ne.symm hm)
        refine ⟨k1.trans hline, fun i hi => ?_, k3⟩
        have hent := h1.entry i (by rw [hi]; exact hm)
        rw [k2 i (by rw [hent]; exact hi), hent]
      · exact ⟨rfl, fun _ _ => rfl, hh⟩

theorem serve_untouched {s : State} {m : Line} (h : ∀ e ∈ s.queue.holdList, e.line ≠ m) :
    s.serve.line m = s.line m ∧ (∀ i, (s.entry i).line = m → s.serve.entry i = s.entry i) ∧
    ∀ e ∈ s.serve.queue.holdList, e.line ≠ m :=
  serveHoldList_untouched _ s h

end Sys2Proof.Machine
end

