-- ==== Sys2Proof/Laws/Coherent.lean ====
section
/-! SUPPORT. What the line engines keep of `State.Coherent`: each operation on the coherence of one line, for the
invariants to cite. -/

namespace Sys2Proof.Machine

/-! ### Coherence of one line -/

/-- A line engine that is coherent in itself, with valid lists and a legal directed queue. -/
structure LineEngine.Good (x : LineEngine) : Prop where
  engine : x.Coherent
  list : x.activeBank.Valid
  shadow : x.swapPending = true → x.shadowBank.Valid
  queue : x.directed.length ≤ Config.directedDepth
  entries : ∀ e ∈ x.directed, e.Legal

/-- The hold-list entries a line with this pending unit stands for. -/
def heldFor (l : Line) (chosen : Option Work) : List HoldEntry :=
  match chosen with
  | none => []
  | some w => [⟨l, workRequest w⟩]

/-- One line is coherent together with its entry in the hold list. -/
structure State.LineCoherent (s : State) (l : Line) : Prop where
  good : (s.line l).Good
  held : s.heldOf l = heldFor l (s.line l).chosen

theorem filter_line_of_nodup {h : HoldEntry} : ∀ {xs : List HoldEntry}, (xs.map HoldEntry.line).Nodup → h ∈ xs →
    xs.filter (fun e => e.line = h.line) = [h]
  | [], _, hm => by cases hm
  | e :: rest, hn, hm => by
    rw [List.map_cons, List.nodup_cons] at hn
    have hrest : ∀ l, l = e.line → rest.filter (fun k => decide (k.line = l)) = [] := by
      rintro l rfl
      rw [List.filter_eq_nil_iff]
      intro k hk hl
      exact hn.1 (List.mem_map.2 ⟨k, hk, by simpa using hl⟩)
    rcases List.mem_cons.1 hm with rfl | hm
    · simp [hrest]
    · have hne : ¬ e.line = h.line := fun hl => hn.1 (hl ▸ List.mem_map_of_mem hm)
      rw [List.filter_cons_of_neg (by simpa using hne)]
      exact filter_line_of_nodup hn.2 hm

theorem nodup_of_heldOf {xs : List HoldEntry} (h : ∀ l, (xs.filter (fun e => e.line = l)).length ≤ 1) :
    (xs.map HoldEntry.line).Nodup := by
  rw [List.nodup_iff_count_le_one]
  intro l
  rw [List.count, List.countP_map]
  have := h l
  rw [← List.countP_eq_length_filter] at this
  have hf : (fun e : HoldEntry => decide (e.line = l)) = ((fun m => m == l) ∘ HoldEntry.line) := by
    funext e
    cases he : e.line <;> cases l <;> simp [he]
  rwa [hf] at this

theorem coherent_iff (s : State) : s.Coherent ↔ ∀ l, s.LineCoherent l := by
  constructor
  · intro h l
    refine ⟨⟨h.lines l, (h.lists l).1, (h.lists l).2, (h.directed l).1, (h.directed l).2⟩, ?_⟩
    cases hc : (s.line l).chosen with
    | none =>
      simp only [heldFor, State.heldOf, List.filter_eq_nil_iff]
      intro e he hl
      have hl : e.line = l := by simpa using hl
      have := (h.hold.listed l).1 ⟨e.request, by rw [← hl]; exact he⟩
      simp [hc] at this
    | some w =>
      obtain ⟨n, hn⟩ := (h.hold.listed l).2 (by rw [hc]; rfl)
      have hr := h.hold.request _ hn w hc
      simp only at hr
      rw [State.heldOf, heldFor, ← hr]
      exact filter_line_of_nodup h.hold.once hn
  · intro h
    refine ⟨fun l => (h l).good.engine, ⟨?_, ?_, ?_⟩, fun l => ⟨(h l).good.list, (h l).good.shadow⟩,
      fun l => ⟨(h l).good.queue, (h l).good.entries⟩⟩
    · apply nodup_of_heldOf
      intro l
      have := (h l).held
      unfold State.heldOf at this
      rw [this]
      cases (s.line l).chosen <;> simp [heldFor]
    · intro l
      have hl := (h l).held
      constructor
      · rintro ⟨n, hn⟩
        have : (⟨l, n⟩ : HoldEntry) ∈ s.heldOf l := mem_heldOf.2 ⟨hn, rfl⟩
        rw [hl] at this
        cases hc : (s.line l).chosen with
        | none => simp [hc, heldFor] at this
        | some w => rfl
      · intro hs
        obtain ⟨w, hw⟩ := Option.isSome_iff_exists.1 hs
        have hm : (⟨l, workRequest w⟩ : HoldEntry) ∈ s.heldOf l := by
          rw [hl, hw]
          exact List.mem_singleton.2 rfl
        exact ⟨workRequest w, (mem_heldOf.1 hm).1⟩
    · intro e he w hw
      have : e ∈ s.heldOf e.line := mem_heldOf.2 ⟨he, rfl⟩
      rw [(h e.line).held, hw] at this
      rw [List.mem_singleton.1 this]

/-- The other line's coherence stands when one line acts. -/
theorem State.LineCoherent.other {s t : State} {l m : Line} (h : s.LineCoherent m) (k : State.OnlyLine l s t)
    (hm : m ≠ l) : t.LineCoherent m :=
  ⟨by rw [k.line m hm]; exact h.good, by rw [k.heldOf m hm, k.line m hm]; exact h.held⟩

/-! ### Engines -/

/-- Changes of fields that coherence does not mention. -/
theorem LineEngine.Good.congr {x y : LineEngine} (h : x.Good) (h1 : y.runState = x.runState)
    (h2 : y.condition = x.condition) (h3 : y.faultCause = x.faultCause) (h4 : y.reservation = x.reservation)
    (h5 : y.current = x.current) (h6 : y.chosen = x.chosen) (h7 : y.phase = x.phase) (h8 : y.bankZero = x.bankZero)
    (h9 : y.bankOne = x.bankOne) (h10 : y.active = x.active) (h11 : y.swapPending = x.swapPending)
    (h12 : y.directed = x.directed) : y.Good := by
  have hb : ∀ n, y.bank n = x.bank n := by
    intro n
    cases n
    · exact h8
    · exact h9
  obtain ⟨⟨e1, e2, e3, e4, e5, e6, e7, e8, e9⟩, l1, l2, q1, q2⟩ := h
  refine ⟨⟨?_, ?_, ?_, ?_, ?_, ?_, ?_, ?_, ?_⟩, ?_, ?_, ?_, ?_⟩
  · rw [h1, h5, h6]; exact e1
  · rw [h1, h5]; exact e2
  · rw [h1, h2]; exact e3
  · rw [h1, h3]; exact e4
  · rw [h4, h5]; exact e5
  · rw [h5, h6]; exact e6
  · rw [h5, h7]; exact e7
  · rw [h5]; exact e8
  · rw [h6]; exact e9
  · unfold LineEngine.activeBank
    rw [hb, h10]
    exact l1
  · unfold LineEngine.shadowBank
    rw [hb, h10, h11]
    exact l2
  · rw [h12]; exact q1
  · rw [h12]; exact q2

/-- A free line, whatever reservation it is being given. -/
structure LineEngine.Vacant (x : LineEngine) : Prop where
  running : x.runState = .running
  current : x.current = none
  chosen : x.chosen = none
  good : ({ x with reservation := none } : LineEngine).Good

theorem LineEngine.free_iff {x : LineEngine} : x.free = true ↔ x.runState = .running ∧ x.current = none ∧
    x.chosen = none := by
  simp [LineEngine.free, and_assoc]

theorem LineEngine.Good.reservation_none {x : LineEngine} (h : x.Good) (hc : x.current = none) :
    x.reservation = none := by
  rw [h.engine.reserved, hc]
  rfl

theorem LineEngine.Good.vacant {x : LineEngine} (h : x.Good) (hf : x.free = true) : x.Vacant := by
  obtain ⟨h1, h2, h3⟩ := LineEngine.free_iff.1 hf
  exact ⟨h1, h2, h3, h.congr rfl rfl rfl (h.reservation_none h2).symm rfl rfl rfl rfl rfl rfl rfl rfl⟩

/-- A vacant line that holds no reservation is coherent. -/
theorem LineEngine.Vacant.good_of_none {x : LineEngine} (h : x.Vacant) (hr : x.reservation = none) : x.Good :=
  h.good.congr rfl rfl rfl hr rfl rfl rfl rfl rfl rfl rfl rfl

theorem LineEngine.Vacant.congr {x y : LineEngine} (h : x.Vacant) (h1 : y.runState = x.runState)
    (h2 : y.condition = x.condition) (h3 : y.faultCause = x.faultCause)
    (h5 : y.current = x.current) (h6 : y.chosen = x.chosen) (h7 : y.phase = x.phase) (h8 : y.bankZero = x.bankZero)
    (h9 : y.bankOne = x.bankOne) (h10 : y.active = x.active) (h11 : y.swapPending = x.swapPending)
    (h12 : y.directed = x.directed) : y.Vacant :=
  ⟨h1.trans h.running, h5.trans h.current, h6.trans h.chosen,
    h.good.congr h1 h2 h3 rfl h5 h6 h7 h8 h9 h10 h11 h12⟩

/-- A vacant line with its reservation starts a unit. -/
theorem LineEngine.Vacant.begin {x : LineEngine} (h : x.Vacant) (c : UnitContext)
    (hr : x.reservation = some (workRequest c.work)) (hl : c.work.Legal) (hm : c.work.isMark = false) :
    (x.begin c).Good := by
  obtain ⟨h1, h2, h3, ⟨⟨e1, e2, e3, e4, e5, e6, e7, e8, e9⟩, l1, l2, q1, q2⟩⟩ := h
  refine ⟨⟨?_, fun _ => rfl, e3, e4, hr, ?_, ?_, ?_, e9⟩, l1, l2, q1, q2⟩
  · intro hx
    have hx : x.runState = .stopped ∨ x.runState = .faulted := hx
    rw [h1] at hx
    rcases hx with hx | hx <;> cases hx
  · intro hc
    have hc : x.chosen.isSome = true := hc
    rw [h3] at hc
    cases hc
  · intro hc
    cases hc
  · intro d hd
    obtain rfl : c = d := Option.some.inj hd
    exact ⟨hl, hm⟩

/-- A vacant line takes the first entry out of its directed queue. -/
theorem LineEngine.Vacant.dropDirected {x : LineEngine} (h : x.Vacant) :
    ({ x with directed := x.directed.tail } : LineEngine).Vacant := by
  obtain ⟨h1, h2, h3, ⟨e, l1, l2, q1, q2⟩⟩ := h
  refine ⟨h1, h2, h3, ⟨⟨e.rest, e.stopping, e.condition, e.faultCause, e.reserved, e.oneUnit, e.phase, e.currentLegal,
    e.chosenLegal⟩, l1, l2, ?_, ?_⟩⟩
  · have hq : x.directed.length ≤ Config.directedDepth := q1
    show x.directed.tail.length ≤ Config.directedDepth
    rw [List.length_tail]
    omega
  · intro d hd
    exact q2 d (List.mem_of_mem_tail hd)

/-- A running line may take any condition but NONE. -/
theorem LineEngine.Vacant.condition {x : LineEngine} (h : x.Vacant) (c : CycleCondition) (hc : c ≠ .none) :
    ({ x with condition := c } : LineEngine).Vacant := by
  obtain ⟨h1, h2, h3, ⟨e, l1, l2, q1, q2⟩⟩ := h
  refine ⟨h1, h2, h3, ⟨⟨e.rest, e.stopping, ?_, e.faultCause, e.reserved, e.oneUnit, e.phase, e.currentLegal,
    e.chosenLegal⟩, l1, l2, q1, q2⟩⟩
  exact ⟨fun hx => absurd hx hc, fun hx => absurd h1 hx⟩

theorem otherBank_otherBank (n : BankNumber) : otherBank (otherBank n) = n := by
  cases n <;> rfl

/-- A pending swap leaves valid lists. -/
theorem LineEngine.Good.takeSwap {x : LineEngine} (h : x.Good) : (if x.swapPending then x.swapBanks else x).Good := by
  split
  · next hs =>
    obtain ⟨e, l1, l2, q1, q2⟩ := h
    refine ⟨⟨e.rest, e.stopping, e.condition, e.faultCause, e.reserved, e.oneUnit, e.phase, e.currentLegal,
      e.chosenLegal⟩, l2 hs, ?_, q1, q2⟩
    intro hx
    cases hx
  · exact h

theorem LineEngine.Vacant.takeSwap {x : LineEngine} (h : x.Vacant) :
    (if x.swapPending then x.swapBanks else x).Vacant := by
  have hg := h.good.takeSwap
  by_cases hs : x.swapPending = true
  · rw [if_pos hs]
    rw [if_pos (show ({ x with reservation := none } : LineEngine).swapPending = true from hs)] at hg
    exact ⟨h.running, h.current, h.chosen, hg⟩
  · rw [if_neg hs]
    exact h

theorem LineEngine.Vacant.startCycle {x : LineEngine} (h : x.Vacant) : x.startCycle.Vacant :=
  (h.condition .inCycle (by decide)).congr rfl rfl rfl rfl rfl rfl rfl rfl rfl rfl rfl

/-! ### Unit start -/

theorem heldOf_modLine (s : State) (l m : Line) (f : LineEngine → LineEngine) :
    (s.modLine l f).heldOf m = s.heldOf m := by
  simp [State.heldOf]

theorem heldOf_of_holdList {s t : State} (h : t.queue.holdList = s.queue.holdList) (m : Line) :
    t.heldOf m = s.heldOf m := by
  simp [State.heldOf, h]

/-- What the start of a unit on a vacant line gives: a coherent engine with no pending unit, the hold list as it
stood. -/
structure State.Started (s t : State) (l : Line) : Prop where
  good : (t.line l).Good
  chosen : (t.line l).chosen = none
  holdList : t.queue.holdList = s.queue.holdList

theorem started_beginTargeted {s : State} {l : Line} {w : Work} (i : StationIndex) (hv : (s.line l).Vacant)
    (hr : (s.line l).reservation = some (workRequest w)) (hl : w.Legal) (hm : w.isMark = false) :
    s.Started (s.beginTargeted l w i) l := by
  have hb := hv.begin (newContext w (s.entry i)) hr hl hm
  refine ⟨?_, ?_, ?_⟩
  · unfold State.beginTargeted
    rw [State.line_modLine, State.line_modEntry]
    cases w with
    | visit _ _ _ _ => exact hb.congr rfl rfl rfl rfl rfl rfl rfl rfl rfl rfl rfl rfl
    | alert _ => exact hb.congr rfl rfl rfl rfl rfl rfl rfl rfl rfl rfl rfl rfl
    | directed _ => exact hb
    | mark _ _ => exact hb
  · unfold State.beginTargeted
    rw [State.line_modLine, State.line_modEntry]
    cases w <;> exact hv.chosen
  · simp [State.beginTargeted]

theorem started_dropReservation {s : State} {l : Line} (hv : (s.line l).Vacant) : s.Started (s.dropReservation l) l := by
  refine ⟨?_, ?_, by simp⟩
  · unfold State.dropReservation
    rw [State.line_modLine]
    exact hv.good
  · unfold State.dropReservation
    rw [State.line_modLine]
    exact hv.chosen

theorem line_writeRecord_self (s : State) (l : Line) (r : Record) :
    (s.writeRecord l r).line l =
      { s.line l with reservation := (s.line l).reservation.map (fun n => n - r.size) } := by
  simp [State.line_writeRecord]

theorem started_faultStation {s : State} {l : Line} (e : DirectedEntry) (hv : (s.line l).Vacant) :
    s.Started (s.faultStation l e) l := by
  have hd := hv.dropDirected
  refine ⟨?_, ?_, ?_⟩
  · unfold State.faultStation State.dropReservation
    rw [State.line_modLine, State.line_modLine, line_writeRecord_self]
    exact hd.good
  · unfold State.faultStation State.dropReservation
    rw [State.line_modLine, State.line_modLine, line_writeRecord_self]
    exact hv.chosen
  · simp [State.faultStation, State.queue_writeRecord, State.holdList_push]

theorem line_finishBoundary (s : State) (l : Line) : (s.finishBoundary l).line l =
    { (if (s.line l).swapPending then (s.line l).swapBanks else s.line l) with
      condition := if (if (s.line l).swapPending then (s.line l).swapBanks else s.line l).listLength = 0 then .idleEmpty
        else .waiting } := by
  unfold State.finishBoundary State.applyPendingSwap
  rw [State.line_modLine, State.line_modLine, State.line_raise]

theorem finishBoundary_vacant {s : State} {l : Line} (hv : (s.line l).Vacant) : ((s.finishBoundary l).line l).Vacant := by
  rw [line_finishBoundary]
  have hne : ∀ (p : Prop) [Decidable p], (if p then CycleCondition.idleEmpty else .waiting) ≠ .none := by
    intro p _
    split <;> decide
  exact hv.takeSwap.condition _ (hne _)

theorem reservation_takeSwap (x : LineEngine) :
    (if x.swapPending then x.swapBanks else x).reservation = x.reservation := by
  split <;> rfl

theorem reservation_finishBoundary (s : State) (l : Line) :
    ((s.finishBoundary l).line l).reservation = (s.line l).reservation := by
  rw [line_finishBoundary]
  exact reservation_takeSwap _

theorem holdList_finishBoundary (s : State) (l : Line) : (s.finishBoundary l).queue = s.queue := by
  simp [State.finishBoundary]

theorem started_startWork {s : State} {l : Line} {w : Work} (hv : (s.line l).Vacant)
    (hr : (s.line l).reservation = some (workRequest w)) (hl : w.Legal) : s.Started (s.startWork l w) l := by
  unfold State.startWork
  cases w with
  | visit k i g n =>
    dsimp only
    split
    · exact started_beginTargeted i hv hr hl rfl
    · exact started_dropReservation hv
  | alert i =>
    dsimp only
    split
    · exact started_beginTargeted i hv hr hl rfl
    · exact started_dropReservation hv
  | directed e =>
    dsimp only
    split
    · split
      · exact started_beginTargeted e.station hv hr hl rfl
      · exact started_faultStation e hv
    · split
      · exact started_beginTargeted e.station hv hr hl rfl
      · exact started_faultStation e hv
    · refine ⟨?_, ?_, by simp⟩
      · rw [State.line_modLine]
        exact hv.begin _ hr hl rfl
      · rw [State.line_modLine]
        exact hv.chosen
  | mark v o =>
    dsimp only
    have hv1 : (((s.writeRecord l (.mark l v o (s.line l).cycleNumber)).dropReservation l).line l).Vacant := by
      unfold State.dropReservation
      rw [State.line_modLine, line_writeRecord_self]
      exact hv.congr rfl rfl rfl rfl rfl rfl rfl rfl rfl rfl rfl
    have hv2 := finishBoundary_vacant hv1
    refine ⟨hv2.good_of_none ?_, hv2.chosen, ?_⟩
    · rw [reservation_finishBoundary]
      unfold State.dropReservation
      rw [State.line_modLine]
    · rw [holdList_finishBoundary]
      simp [State.queue_writeRecord, State.holdList_push]

/-! ### Requests and the arbiter -/

/-- A coherent free line takes up a unit and is coherent afterwards, HELD with it or not (R109, R111). -/
theorem lineCoherent_requestUnit {s : State} {l : Line} {w : Work} (hg : s.LineCoherent l)
    (hf : (s.line l).free = true) (hl : w.Legal) : (s.requestUnit l w).LineCoherent l := by
  have hv := hg.good.vacant hf
  have hh : s.heldOf l = [] := by
    rw [hg.held, (LineEngine.free_iff.1 hf).2.2]
    rfl
  unfold State.requestUnit
  dsimp only
  split
  · unfold State.grant State.startUnit
    simp only [State.line_modLine]
    have hs := started_startWork (w := w)
      (s := ((s.modLine l (fun x => { x with chosen := some w })).modLine l
        (fun x => { x with reservation := some (workRequest w) })).modLine l LineEngine.clearChosen) (l := l)
      (by
        simp only [State.line_modLine, LineEngine.clearChosen]
        exact hv.congr rfl rfl rfl rfl hv.chosen.symm rfl rfl rfl rfl rfl rfl)
      (by simp only [State.line_modLine, LineEngine.clearChosen]) hl
    refine ⟨hs.good, ?_⟩
    rw [hs.chosen, heldOf_of_holdList hs.holdList, heldOf_modLine, heldOf_modLine, heldOf_modLine, hh]
    rfl
  · refine ⟨?_, ?_⟩
    · rw [State.line_joinHoldList, State.line_modLine]
      obtain ⟨⟨e1, e2, e3, e4, e5, e6, e7, e8, e9⟩, l1, l2, q1, q2⟩ := hg.good
      refine ⟨⟨?_, e2, e3, e4, e5, fun _ => hv.current, e7, e8, ?_⟩, l1, l2, q1, q2⟩
      · intro hx
        have hx : (s.line l).runState = .stopped ∨ (s.line l).runState = .faulted := hx
        rw [hv.running] at hx
        rcases hx with hx | hx <;> cases hx
      · intro v hv'
        obtain rfl : w = v := Option.some.inj hv'
        exact hl
    · rw [State.line_joinHoldList, State.line_modLine]
      show List.filter _ ((s.modLine l _).queue.holdList ++ [(⟨l, workRequest w⟩ : HoldEntry)]) = _
      rw [List.filter_append]
      have : List.filter (fun h => decide (h.line = l)) (s.modLine l (fun x => { x with chosen := some w })).queue.holdList
          = [] := by
        simpa [State.heldOf] using hh
      rw [this]
      simp [heldFor]

theorem alert_legal (i : StationIndex) : (Work.alert i).Legal :=
  trivial

theorem priorityWork_legal {x : LineEngine} {w : Work} (h : ∀ e ∈ x.directed, e.Legal) (hw : x.priorityWork = some w) :
    w.Legal := by
  unfold LineEngine.priorityWork at hw
  split at hw
  · next e rest he =>
    obtain rfl := Option.some.inj hw
    exact h e (by rw [he]; exact List.mem_cons_self)
  · cases hn : alertNext x.alertCursor x.alertSet with
    | none => simp [hn] at hw
    | some i =>
      simp only [hn, Option.map_some] at hw
      obtain rfl := Option.some.inj hw
      trivial

/-- The slots below the length of a valid bank are acceptable (R67). -/
theorem slot_acceptable {b : Bank} (hb : b.Valid) {k : Nat} (hk : k < b.length.toNat) :
    (b.slot k).acceptable = true := by
  unfold Bank.Valid Bank.swapRefusal at hb
  split at hb
  · cases hb
  · unfold Bank.firstBadSlot at hb
    have := List.find?_eq_none.1 hb k (List.mem_range.2 hk)
    simpa using this

theorem slotVisit_legal {x : LineEngine} (hx : x.activeBank.Valid) {k : Nat} (hk : k < x.listLength) :
    (x.slotVisit k).Legal := by
  have := slot_acceptable hx hk
  simp only [Slot.acceptable, Bool.and_eq_true, decide_eq_true_eq] at this
  exact this.1

/-- A change of the cursor, the burst counter or the like keeps a line coherent and free. -/
theorem lineCoherent_modLine {s : State} {l : Line} {f : LineEngine → LineEngine} (hg : s.LineCoherent l)
    (hx : (f (s.line l)).Good) (hc : (f (s.line l)).chosen = (s.line l).chosen) : (s.modLine l f).LineCoherent l := by
  refine ⟨by rw [State.line_modLine]; exact hx, ?_⟩
  rw [heldOf_modLine, State.line_modLine, hc]
  exact hg.held

theorem lineCoherent_finishBoundary {s : State} {l : Line} (hg : s.LineCoherent l) (hf : (s.line l).free = true) :
    (s.finishBoundary l).LineCoherent l := by
  have hv := hg.good.vacant hf
  have hv1 := finishBoundary_vacant hv
  refine ⟨hv1.good_of_none ?_, ?_⟩
  · rw [reservation_finishBoundary]
    exact hg.good.reservation_none hv.current
  · rw [hv1.chosen, heldOf_of_holdList (s := s) (by rw [holdList_finishBoundary]), hg.held, hv.chosen]

theorem lineCoherent_boundary {s : State} {l : Line} (hg : s.LineCoherent l) (hf : (s.line l).free = true) :
    (s.boundary l).LineCoherent l := by
  unfold State.boundary
  dsimp only
  split
  · exact lineCoherent_requestUnit hg hf trivial
  · exact lineCoherent_finishBoundary hg hf

theorem lineCoherent_chooseInCycle {s : State} {l : Line} (hg : s.LineCoherent l) (hf : (s.line l).free = true)
    (hc : (s.line l).cursor < (s.line l).listLength) : (s.chooseInCycle l).LineCoherent l := by
  have hslot := slotVisit_legal hg.good.list hc
  have hset : ∀ k n, (s.modLine l (fun y => { y with burst := n, cursor := k })).LineCoherent l := fun k n =>
    lineCoherent_modLine hg (hg.good.congr rfl rfl rfl rfl rfl rfl rfl rfl rfl rfl rfl rfl) rfl
  unfold State.chooseInCycle
  dsimp only
  split
  · next w hw =>
    split
    · refine lineCoherent_requestUnit (hset _ _) ?_ (priorityWork_legal hg.good.entries hw)
      rw [State.line_modLine]
      exact hf
    · refine lineCoherent_requestUnit (hset _ _) ?_ hslot
      rw [State.line_modLine]
      exact hf
  · refine lineCoherent_requestUnit (hset _ _) ?_ hslot
    rw [State.line_modLine]
    exact hf

theorem lineCoherent_chooseOutside {s : State} {l : Line} (hg : s.LineCoherent l) (hf : (s.line l).free = true) :
    (s.chooseOutside l).LineCoherent l := by
  unfold State.chooseOutside
  split
  · next w hw => exact lineCoherent_requestUnit hg hf (priorityWork_legal hg.good.entries hw)
  · exact hg

theorem lineCoherent_startCycle {s : State} {l : Line} (hg : s.LineCoherent l) (hf : (s.line l).free = true) :
    (s.modLine l LineEngine.startCycle).LineCoherent l := by
  have hv := (hg.good.vacant hf).startCycle
  exact lineCoherent_modLine hg (hv.good_of_none (hg.good.reservation_none (LineEngine.free_iff.1 hf).2.1)) rfl

theorem lineCoherent_invokeArbiter {s : State} {l : Line} (hg : s.LineCoherent l) :
    (s.invokeArbiter l).LineCoherent l := by
  unfold State.invokeArbiter
  dsimp only
  split
  · exact hg
  · next hf =>
    have hf : (s.line l).free = true := by simpa using hf
    have hset : (s.modLine l (fun y => { y with cursor := s.walk l })).LineCoherent l :=
      lineCoherent_modLine hg (hg.good.congr rfl rfl rfl rfl rfl rfl rfl rfl rfl rfl rfl rfl) rfl
    have hfree : ((s.modLine l (fun y => { y with cursor := s.walk l })).line l).free = true := by
      rw [State.line_modLine]
      exact hf
    split
    · exact hg
    · split
      · exact lineCoherent_boundary hset hfree
      · next hlt =>
        refine lineCoherent_chooseInCycle hset hfree ?_
        rw [State.line_modLine]
        exact Nat.lt_of_not_le hlt
    · split
      · exact lineCoherent_startCycle hg hf
      · exact lineCoherent_chooseOutside hg hf
    · split
      · exact lineCoherent_startCycle hg hf
      · exact lineCoherent_chooseOutside hg hf

/-- An invocation of one arbiter keeps the coherence of both lines. -/
theorem lineCoherent_invokeArbiter_any {s : State} {l m : Line} (hg : s.LineCoherent m) :
    (s.invokeArbiter l).LineCoherent m := by
  by_cases hm : m = l
  · subst hm
    exact lineCoherent_invokeArbiter hg
  · exact hg.other (State.OnlyLine.invokeArbiter s l) hm

theorem lineCoherent_settleLine {l m : Line} : ∀ (n : Nat) (s : State), s.LineCoherent m →
    (State.settleLine l n s).LineCoherent m
  | 0, _, h => h
  | n + 1, s, h => by
    unfold State.settleLine
    split
    · exact lineCoherent_settleLine n _ (lineCoherent_invokeArbiter_any h)
    · exact h

theorem lineCoherent_nextRace {s : State} {m : Line} (h : s.LineCoherent m) : s.nextRace.LineCoherent m := by
  have hl : s.nextRace.line m = s.line m := by cases m <;> rfl
  exact ⟨by rw [hl]; exact h.good, by rw [hl]; exact h.held⟩

theorem lineCoherent_settleArbiters {m : Line} : ∀ (n : Nat) (s : State), s.LineCoherent m →
    (State.settleArbiters n s).LineCoherent m
  | 0, _, h => h
  | n + 1, s, h => by
    unfold State.settleArbiters
    split
    · exact h
    · refine lineCoherent_settleArbiters n _ (lineCoherent_invokeArbiter_any ?_)
      split
      · exact lineCoherent_nextRace h
      · exact h

theorem lineCoherent_finish {s : State} {m : Line} (h : s.LineCoherent m) : s.finish.LineCoherent m :=
  lineCoherent_settleArbiters _ s h

theorem lineCoherent_afterGrant {s : State} {l m : Line} (h : s.LineCoherent m) : (s.afterGrant l).LineCoherent m := by
  unfold State.afterGrant
  split
  · dsimp only
    split
    · exact lineCoherent_settleLine _ _ (lineCoherent_nextRace h)
    · exact lineCoherent_nextRace h
  · exact h

/-- The head of the hold list is granted, and its line is coherent afterwards (R112). -/
theorem lineCoherent_grant {s : State} {h : HoldEntry} {rest : List HoldEntry}
    (hl : s.queue.holdList = h :: rest) (hg : s.LineCoherent h.line) :
    (State.grant { s with queue := { s.queue with holdList := rest } } h.line h.request).LineCoherent h.line := by
  have hheld := hg.held
  have hline : ∀ m, State.line { s with queue := { s.queue with holdList := rest } } m = s.line m := by
    intro m
    cases m <;> rfl
  cases hc : (s.line h.line).chosen with
  | none =>
    rw [hc] at hheld
    have : h ∈ s.heldOf h.line := mem_heldOf.2 ⟨by rw [hl]; exact List.mem_cons_self, rfl⟩
    rw [hheld] at this
    cases this
  | some w =>
    rw [hc, State.heldOf, hl, List.filter_cons_of_pos (by simp)] at hheld
    obtain ⟨hreq, hrest⟩ := List.cons.inj hheld
    have hreq : h.request = workRequest w := by rw [hreq]
    obtain ⟨⟨e1, e2, e3, e4, e5, e6, e7, e8, e9⟩, l1, l2, q1, q2⟩ := hg.good
    have hcur : (s.line h.line).current = none := e6 (by rw [hc]; rfl)
    have hrun : (s.line h.line).runState = .running := by
      cases hr : (s.line h.line).runState with
      | running => rfl
      | stopped => have := (e1 (Or.inl hr)).2; rw [hc] at this; cases this
      | faulted => have := (e1 (Or.inr hr)).2; rw [hc] at this; cases this
      | stopping => have := e2 hr; rw [hcur] at this; cases this
    unfold State.grant State.startUnit
    simp only [State.line_modLine, hline, hc]
    have hs := started_startWork (w := w)
      (s := ((State.modLine { s with queue := { s.queue with holdList := rest } } h.line
        (fun x => { x with reservation := some h.request }))).modLine h.line LineEngine.clearChosen) (l := h.line)
      (by
        simp only [State.line_modLine, LineEngine.clearChosen, hline]
        refine ⟨hrun, hcur, rfl, ⟨⟨?_, e2, e3, e4, ?_, ?_, e7, e8, ?_⟩, l1, l2, q1, q2⟩⟩
        · intro _
          exact ⟨hcur, rfl⟩
        · show none = Option.map _ (s.line h.line).current
          rw [hcur]
          rfl
        · intro hx
          cases hx
        · intro v hx
          cases hx)
      (by simp only [State.line_modLine, LineEngine.clearChosen, hreq]) (e9 w hc)
    refine ⟨hs.good, ?_⟩
    rw [hs.chosen, heldOf_of_holdList hs.holdList, heldOf_modLine, heldOf_modLine]
    exact hrest

/-- Serving the hold list keeps a line coherent, when the lines in it are. -/
theorem lineCoherent_serveHoldList {m : Line} : ∀ (n : Nat) (s : State), (∀ h ∈ s.queue.holdList, s.LineCoherent h.line) →
    s.LineCoherent m → (State.serveHoldList n s).LineCoherent m
  | 0, _, _, hm => hm
  | n + 1, s, hh, hm => by
    unfold State.serveHoldList
    split
    · exact hm
    · next e rest he =>
      split
      · dsimp only
        have h0 : State.OnlyLine e.line s { s with queue := { s.queue with holdList := rest } } :=
          ⟨fun l _ => by cases l <;> rfl, fun l hl => by simp [State.heldOf, he, Ne.symm hl], fun _ _ => rfl⟩
        have h1 := h0.trans (State.OnlyLine.grant _ e.line e.request)
        have h2 := h1.trans (State.OnlyLine.afterGrant _ e.line)
        have hown := lineCoherent_grant he (hh e (by rw [he]; exact List.mem_cons_self))
        have hall : ∀ l, s.LineCoherent l → (State.afterGrant (State.grant { s with queue := { s.queue with
            holdList := rest } } e.line e.request) e.line).LineCoherent l := by
          intro l hl
          by_cases hle : l = e.line
          · subst hle
            exact lineCoherent_afterGrant hown
          · exact lineCoherent_afterGrant (hl.other h1 hle)
        refine lineCoherent_serveHoldList n _ (fun k hk => ?_) (hall m hm)
        rcases h2.held k hk with h3 | h3
        · exact hall _ (hh k h3)
        · rw [h3]
          exact lineCoherent_afterGrant hown
      · exact hm

theorem lineCoherent_serve {s : State} {m : Line} (hh : ∀ h ∈ s.queue.holdList, s.LineCoherent h.line)
    (hm : s.LineCoherent m) : s.serve.LineCoherent m :=
  lineCoherent_serveHoldList _ s hh hm

theorem coherent_finish {s : State} (h : s.Coherent) : s.finish.Coherent :=
  (coherent_iff _).2 fun l => lineCoherent_finish ((coherent_iff s).1 h l)

theorem coherent_serve {s : State} (h : s.Coherent) : s.serve.Coherent :=
  (coherent_iff _).2 fun l => lineCoherent_serve (fun e _ => (coherent_iff s).1 h e.line) ((coherent_iff s).1 h l)

end Sys2Proof.Machine
end

