-- ==== Sys2Proof/Laws/Complete.lean ====
section
/-! SUPPORT. What the completion of a unit, the stop and the fault of a line leave of both lines, and that the events of
the engines keep `State.Coherent`. -/

namespace Sys2Proof.Machine

/-! ### Up to the return of the reservation -/

/-- Records, outcomes and service marks of a unit of line l: its engine changes in its alert set and its reservation
alone, the other line in its alert set alone, the hold list stands. -/
structure State.Completing (l : Line) (s t : State) : Prop where
  own : ∃ a r, t.line l = { s.line l with alertSet := a, reservation := r }
  other : ∀ m, m ≠ l → ∃ a, t.line m = { s.line m with alertSet := a }
  holdList : t.queue.holdList = s.queue.holdList

theorem State.Completing.refl (l : Line) (s : State) : State.Completing l s s :=
  ⟨⟨_, _, rfl⟩, fun _ _ => ⟨_, rfl⟩, rfl⟩

theorem State.Completing.trans {l : Line} {s t u : State} (h : State.Completing l s t) (k : State.Completing l t u) :
    State.Completing l s u := by
  obtain ⟨⟨a, r, h1⟩, h2, h3⟩ := h
  obtain ⟨⟨b, q, k1⟩, k2, k3⟩ := k
  refine ⟨⟨b, q, by rw [k1, h1]⟩, fun m hm => ?_, k3.trans h3⟩
  obtain ⟨a2, ha2⟩ := h2 m hm
  obtain ⟨b2, hb2⟩ := k2 m hm
  exact ⟨b2, by rw [hb2, ha2]⟩

theorem State.Completing.writeRecord (s : State) (l : Line) (r : Record) : State.Completing l s (s.writeRecord l r) := by
  refine ⟨⟨_, _, line_writeRecord_self s l r⟩, fun m hm => ⟨(s.line m).alertSet, ?_⟩, ?_⟩
  · rw [(State.OnlyLine.writeRecord s l r).line m hm]
  · simp [State.queue_writeRecord, State.holdList_push]

theorem State.Completing.modEntry (s : State) (l : Line) (i : StationIndex) (f : Entry → Entry) :
    State.Completing l s (s.modEntry i f) :=
  ⟨⟨_, _, by rw [State.line_modEntry]⟩, fun m _ => ⟨_, by rw [State.line_modEntry]⟩, by simp⟩

theorem State.Completing.modAlertSet (s : State) (l m : Line) (f : List StationIndex → List StationIndex) :
    State.Completing l s (s.modLine m (fun x => { x with alertSet := f x.alertSet })) := by
  refine ⟨?_, fun k hk => ?_, by simp⟩
  · rw [State.line_modLine_eq]
    split
    · exact ⟨_, _, rfl⟩
    · exact ⟨_, _, rfl⟩
  · rw [State.line_modLine_eq]
    split
    · exact ⟨_, rfl⟩
    · exact ⟨_, rfl⟩

theorem State.Completing.recordChange (s : State) (l : Line) (w : Work) (i : StationIndex) (old new : StationState)
    (c : RecordCause) : State.Completing l s (s.recordChange l w i old new c) :=
  State.Completing.writeRecord s l _

theorem State.Completing.disableNow (s : State) (l : Line) (i : StationIndex) :
    State.Completing l s (s.disableNow i) := by
  unfold State.disableNow State.leaveAlertSet
  exact (State.Completing.modEntry s l i _).trans (State.Completing.modAlertSet _ l _ _)

theorem State.Completing.outcomeAnswered (s : State) (l : Line) (w : Work) (i : StationIndex) (c : RecordCause)
    (a : HeldAnswer) : State.Completing l s (s.outcomeAnswered l w i c a) := by
  unfold State.outcomeAnswered
  dsimp only
  have h1 := State.Completing.modEntry s l i Entry.answer
  have h2 : State.Completing l s (if (s.entry i).state = .online then s.modEntry i Entry.answer
      else (s.modEntry i Entry.answer).recordChange l w i (s.entry i).state .online c) := by
    split
    · exact h1
    · exact h1.trans (State.Completing.recordChange _ l w i _ _ _)
  split
  · exact State.Completing.refl l s
  · split
    · exact h2.trans (State.Completing.modAlertSet _ l l (alertInsert i))
    · exact h2

theorem State.Completing.outcomeFailed (s : State) (l : Line) (w : Work) (i : StationIndex) (o : FailingOutcome) :
    State.Completing l s (s.outcomeFailed l w i o) := by
  unfold State.outcomeFailed
  dsimp only
  split
  · exact State.Completing.refl l s
  · split
    · unfold State.leaveAlertSet
      exact ((State.Completing.modEntry s l i _).trans (State.Completing.recordChange _ l w i _ _ _)).trans
        (State.Completing.modAlertSet _ l l _)
    · split
      · exact (State.Completing.modEntry s l i _).trans (State.Completing.recordChange _ l w i _ _ _)
      · exact State.Completing.modEntry s l i _

theorem State.Completing.applyOutcome (s : State) (l : Line) (w : Work) (e : UnitEnd) :
    State.Completing l s (s.applyOutcome l w e) := by
  unfold State.applyOutcome
  split
  · exact State.Completing.refl l s
  · cases e with
    | good a => exact State.Completing.outcomeAnswered s l w _ _ a
    | deferred a => exact State.Completing.outcomeAnswered s l w _ _ a
    | failed o => exact State.Completing.outcomeFailed s l w _ o
    | settled => exact State.Completing.refl l s
    | aborted => exact State.Completing.refl l s
    | lineFault => exact State.Completing.refl l s

theorem State.Completing.leaveService (s : State) (l : Line) (w : Work) : State.Completing l s (s.leaveService w) := by
  unfold State.leaveService
  split
  · exact State.Completing.refl l s
  · dsimp only
    split
    · exact (State.Completing.modEntry s l _ _).trans (State.Completing.disableNow _ l _)
    · exact State.Completing.modEntry s l _ _

theorem State.Completing.writeRecord? (s : State) (l : Line) (r : Option Record) :
    State.Completing l s (s.writeRecord? l r) := by
  cases r with
  | none => exact State.Completing.refl l s
  | some r => exact State.Completing.writeRecord s l r

/-! ### The completed unit -/

/-- The state of a completing unit up to its leaving the directed queue (R38 steps 1 to 4). -/
def State.handedOn (s : State) (l : Line) (c : UnitContext) (e : UnitEnd) : State :=
  ((((s.writeRecord? l (ownRecord l (s.line l).cycleNumber c.work e)).applyOutcome l c.work e).leaveService
    c.work).leaveDirected l c.work)

theorem completeUnit_eq {s : State} {l : Line} {c : UnitContext} (e : UnitEnd) (h : (s.line l).current = some c) :
    s.completeUnit l e = ((s.handedOn l c e).returnReservation l).modLine l
      (fun x => { x with current := none, phase := .idle .none }) := by
  unfold State.completeUnit
  rw [h]
  rfl

theorem handedOn_completing (s : State) (l : Line) (c : UnitContext) (e : UnitEnd) : ∃ t, State.Completing l s t ∧
    s.handedOn l c e = t.leaveDirected l c.work :=
  ⟨_, ((State.Completing.writeRecord? s l _).trans (State.Completing.applyOutcome _ l _ _)).trans
    (State.Completing.leaveService _ l _), rfl⟩

/-- The directed queue a completing unit leaves. -/
def directedAfter (w : Work) (xs : List DirectedEntry) : List DirectedEntry :=
  if isDirected w then xs.tail else xs

theorem line_leaveDirected (s : State) (l : Line) (w : Work) :
    (s.leaveDirected l w).line l = { s.line l with directed := directedAfter w (s.line l).directed } := by
  unfold State.leaveDirected directedAfter
  split
  · rw [State.line_modLine]
  · rfl

theorem onlyLine_leaveDirected (s : State) (l : Line) (w : Work) : State.OnlyLine l s (s.leaveDirected l w) := by
  unfold State.leaveDirected
  split
  · exact State.OnlyLine.modLine s l _
  · exact State.OnlyLine.refl l s

theorem holdList_leaveDirected (s : State) (l : Line) (w : Work) : (s.leaveDirected l w).queue = s.queue := by
  unfold State.leaveDirected
  split <;> simp

/-- The engine of a line whose unit is handed on. -/
theorem line_handedOn (s : State) (l : Line) (c : UnitContext) (e : UnitEnd) : ∃ a r,
    (s.handedOn l c e).line l =
      { s.line l with alertSet := a, reservation := r, directed := directedAfter c.work (s.line l).directed } := by
  obtain ⟨t, ht, hh⟩ := handedOn_completing s l c e
  obtain ⟨a, r, ho⟩ := ht.own
  refine ⟨a, r, ?_⟩
  rw [hh, line_leaveDirected, ho]

theorem line_handedOn_other (s : State) {l m : Line} (c : UnitContext) (e : UnitEnd) (hm : m ≠ l) : ∃ a,
    (s.handedOn l c e).line m = { s.line m with alertSet := a } := by
  obtain ⟨t, ht, hh⟩ := handedOn_completing s l c e
  obtain ⟨a, ho⟩ := ht.other m hm
  refine ⟨a, ?_⟩
  rw [hh, (onlyLine_leaveDirected t l c.work).line m hm, ho]

theorem holdList_handedOn (s : State) (l : Line) (c : UnitContext) (e : UnitEnd) :
    (s.handedOn l c e).queue.holdList = s.queue.holdList := by
  obtain ⟨t, ht, hh⟩ := handedOn_completing s l c e
  rw [hh, holdList_leaveDirected, ht.holdList]

theorem lineCoherent_handedOn_other {s : State} {l m : Line} (c : UnitContext) (e : UnitEnd) (hm : m ≠ l)
    (h : s.LineCoherent m) : (s.handedOn l c e).LineCoherent m := by
  obtain ⟨a, ha⟩ := line_handedOn_other s c e hm
  refine ⟨?_, ?_⟩
  · rw [ha]
    exact h.good.congr rfl rfl rfl rfl rfl rfl rfl rfl rfl rfl rfl rfl
  · rw [ha, heldOf_of_holdList (holdList_handedOn s l c e)]
    exact h.held

/-- A line with a unit in progress has no entry in the hold list. -/
theorem LineCoherent_no_entry {s : State} {l : Line} (h : s.LineCoherent l) (hc : (s.line l).chosen = none) :
    ∀ e ∈ s.queue.holdList, e.line ≠ l := by
  intro e he hl
  have : e ∈ s.heldOf l := mem_heldOf.2 ⟨he, hl⟩
  rw [h.held, hc] at this
  cases this

theorem LineEngine.Good.chosen_none {x : LineEngine} (h : x.Good) (hc : x.current.isSome = true) : x.chosen = none := by
  cases hx : x.chosen with
  | none => rfl
  | some w =>
    have := h.engine.oneUnit (by rw [hx]; rfl)
    rw [this] at hc
    cases hc

/-- What a completed unit leaves: the engine of its line without unit and reservation, the coherence of the other line,
no entry of its line in the hold list, the entries of its line's stations as they were handed on. -/
theorem completeUnit_lines {s : State} {l : Line} {c : UnitContext} (e : UnitEnd) (hs : s.Coherent)
    (hc : (s.line l).current = some c) :
    (∃ a, (s.completeUnit l e).line l = { s.line l with
      alertSet := a, reservation := none, directed := directedAfter c.work (s.line l).directed, current := none,
      phase := .idle .none }) ∧
    (∀ m, m ≠ l → (s.completeUnit l e).LineCoherent m) ∧ (s.completeUnit l e).heldOf l = [] ∧
    ∀ i, ((s.handedOn l c e).entry i).line = l → (s.completeUnit l e).entry i = (s.handedOn l c e).entry i := by
  have hco := (coherent_iff s).1 hs
  have hch : (s.line l).chosen = none := (hco l).good.chosen_none (by rw [hc]; rfl)
  have hno := LineCoherent_no_entry (hco l) hch
  obtain ⟨a, r, ha⟩ := line_handedOn s l c e
  rw [completeUnit_eq e hc]
  have hdrop : ((s.handedOn l c e).dropReservation l).line l = { s.line l with
      alertSet := a, reservation := none, directed := directedAfter c.work (s.line l).directed } := by
    unfold State.dropReservation
    rw [State.line_modLine, ha]
  have hhold : ((s.handedOn l c e).dropReservation l).queue.holdList = s.queue.holdList := by
    rw [State.queue_dropReservation, holdList_handedOn]
  have hoth : ∀ m, m ≠ l → ((s.handedOn l c e).dropReservation l).LineCoherent m := fun m hm =>
    (lineCoherent_handedOn_other c e hm (hco m)).other (State.OnlyLine.modLine _ l _) hm
  have hlist : ∀ h ∈ ((s.handedOn l c e).dropReservation l).queue.holdList, h.line ≠ l := by
    rw [hhold]
    exact hno
  have hret : ((s.handedOn l c e).returnReservation l).line l = { s.line l with
      alertSet := a, reservation := none, directed := directedAfter c.work (s.line l).directed } ∧
      (∀ m, m ≠ l → ((s.handedOn l c e).returnReservation l).LineCoherent m) ∧
      (∀ h ∈ ((s.handedOn l c e).returnReservation l).queue.holdList, h.line ≠ l) ∧
      ∀ i, ((s.handedOn l c e).entry i).line = l →
        ((s.handedOn l c e).returnReservation l).entry i = (s.handedOn l c e).entry i := by
    unfold State.returnReservation
    split
    · obtain ⟨k1, k2, k3⟩ := serve_untouched hlist
      refine ⟨k1.trans hdrop, fun m hm => lineCoherent_serve (fun h hh => hoth _ (hlist h hh)) (hoth m hm), k3, ?_⟩
      intro i hi
      rw [k2 i (by simpa using hi)]
      simp
    · exact ⟨hdrop, hoth, hlist, fun i _ => by simp⟩
  obtain ⟨r1, r2, r3, r4⟩ := hret
  refine ⟨⟨a, ?_⟩, fun m hm => (r2 m hm).other (State.OnlyLine.modLine _ l _) hm, ?_, fun i hi => ?_⟩
  · rw [State.line_modLine, r1]
  · rw [heldOf_modLine, State.heldOf, List.filter_eq_nil_iff]
    intro h hh
    simpa using r3 h hh
  · rw [State.entry_modLine]
    exact r4 i hi

theorem directedAfter_legal {w : Work} {xs : List DirectedEntry} (h : ∀ e ∈ xs, e.Legal) :
    ∀ e ∈ directedAfter w xs, e.Legal := by
  unfold directedAfter
  split
  · exact fun e he => h e (List.mem_of_mem_tail he)
  · exact h

theorem directedAfter_length {w : Work} {xs : List DirectedEntry} {n : Nat} (h : xs.length ≤ n) :
    (directedAfter w xs).length ≤ n := by
  unfold directedAfter
  split
  · rw [List.length_tail]
    omega
  · exact h

/-- A good engine whose unit has been taken away is good again in a new run state with the condition and the fault cause
that belong to it. -/
theorem LineEngine.Good.emptied {x : LineEngine} (h : x.Good) (a : List StationIndex) (w : Work) (r : RunState)
    (k : CycleCondition) (f : FaultCause) (hr : r ≠ .stopping) (hk : k = .none ↔ r ≠ .running)
    (hf : f = .none ↔ r ≠ .faulted) (hc : x.chosen = none) :
    ({ x with alertSet := a, reservation := none, directed := directedAfter w x.directed, current := none,
              phase := .idle .none, runState := r, condition := k, faultCause := f } : LineEngine).Good := by
  obtain ⟨e, l1, l2, q1, q2⟩ := h
  refine ⟨⟨fun _ => ⟨rfl, hc⟩, fun hx => absurd hx hr, hk, hf, rfl, fun _ => rfl, fun _ => rfl, ?_, e.chosenLegal⟩, l1, l2,
    directedAfter_length q1, directedAfter_legal q2⟩
  intro d hd
  cases hd

/-- After the completion of a unit of a RUNNING line, coherence stands. -/
theorem coherent_completeUnit_running {s : State} {l : Line} {c : UnitContext} (e : UnitEnd) (hs : s.Coherent)
    (hc : (s.line l).current = some c) (hr : (s.line l).runState = .running) : (s.completeUnit l e).Coherent := by
  obtain ⟨⟨a, ha⟩, ho, hh, -⟩ := completeUnit_lines e hs hc
  have hg := (coherent_iff s).1 hs l
  have hch : (s.line l).chosen = none := hg.good.chosen_none (by rw [hc]; rfl)
  refine (coherent_iff _).2 fun m => ?_
  by_cases hm : m = l
  · subst hm
    refine ⟨?_, ?_⟩
    · rw [ha]
      exact (hg.good.emptied a c.work (s.line m).runState (s.line m).condition (s.line m).faultCause
        (by rw [hr]; decide) hg.good.engine.condition hg.good.engine.faultCause hch)
    · rw [hh, ha]
      show [] = heldFor m (s.line m).chosen
      rw [hch]
      rfl
  · exact ho m hm

theorem line_enterStopped (s : State) (l : Line) : (s.enterStopped l).line l =
    (if (s.line l).swapPending then
      LineEngine.swapBanks { s.line l with runState := .stopped, condition := .none }
    else { s.line l with runState := .stopped, condition := .none }) := by
  unfold State.enterStopped State.applyPendingSwap
  rw [State.line_raise, State.line_modLine, State.line_modLine]

theorem onlyLine_enterStopped (s : State) (l : Line) : State.OnlyLine l s (s.enterStopped l) := by
  unfold State.enterStopped State.applyPendingSwap
  exact ((State.OnlyLine.modLine s l _).trans (State.OnlyLine.modLine _ l _)).trans (State.OnlyLine.raise _ l _)

theorem queue_enterStopped (s : State) (l : Line) : (s.enterStopped l).queue = s.queue := by
  simp [State.enterStopped]

/-- A line without unit, pending unit and reservation, whatever its run state. -/
structure LineEngine.Empty (x : LineEngine) : Prop where
  current : x.current = none
  chosen : x.chosen = none
  reservation : x.reservation = none
  phase : x.phase = .idle .none
  list : x.activeBank.Valid
  shadow : x.swapPending = true → x.shadowBank.Valid
  queue : x.directed.length ≤ Config.directedDepth
  entries : ∀ e ∈ x.directed, e.Legal

theorem LineEngine.Good.empty {x : LineEngine} (h : x.Good) (h1 : x.current = none) (h2 : x.chosen = none) : x.Empty :=
  ⟨h1, h2, h.reservation_none h1, h.engine.phase h1, h.list, h.shadow, h.queue, h.entries⟩

theorem LineEngine.Empty.good {x : LineEngine} (h : x.Empty) (r : RunState) (k : CycleCondition) (f : FaultCause)
    (hr : r ≠ .stopping) (hk : k = .none ↔ r ≠ .running) (hf : f = .none ↔ r ≠ .faulted) :
    ({ x with runState := r, condition := k, faultCause := f } : LineEngine).Good := by
  obtain ⟨h1, h2, h3, h4, h5, h6, h7, h8⟩ := h
  refine ⟨⟨fun _ => ⟨h1, h2⟩, fun hx => absurd hx hr, hk, hf, ?_, fun _ => h1, fun _ => h4, ?_, ?_⟩, h5, h6, h7, h8⟩
  · show x.reservation = Option.map _ x.current
    rw [h3, h1]
    rfl
  · intro c hc
    have hc : x.current = some c := hc
    rw [h1] at hc
    cases hc
  · intro w hw
    have hw : x.chosen = some w := hw
    rw [h2] at hw
    cases hw

/-- An empty line that is not faulted enters STOPPED. -/
theorem lineCoherent_enterStopped {s : State} {l : Line} (h : (s.line l).Empty) (hf : (s.line l).faultCause = .none)
    (hh : s.heldOf l = []) : (s.enterStopped l).LineCoherent l := by
  have hg := h.good .stopped .none .none (by decide) (by decide) (by decide)
  have hx : ({ s.line l with runState := .stopped, condition := .none } : LineEngine).Good :=
    hg.congr rfl rfl hf rfl rfl rfl rfl rfl rfl rfl rfl rfl
  refine ⟨?_, ?_⟩
  · rw [line_enterStopped]
    exact hx.takeSwap
  · rw [heldOf_of_holdList (s := s) (by rw [queue_enterStopped]), hh, line_enterStopped]
    split
    · show [] = heldFor l (s.line l).chosen
      rw [h.chosen]
      rfl
    · show [] = heldFor l (s.line l).chosen
      rw [h.chosen]
      rfl

theorem completeUnit_empty {s : State} {l : Line} {c : UnitContext} (e : UnitEnd) (hs : s.Coherent)
    (hc : (s.line l).current = some c) : ((s.completeUnit l e).line l).Empty := by
  obtain ⟨⟨a, ha⟩, -⟩ := completeUnit_lines e hs hc
  have hg := (coherent_iff s).1 hs l
  have hch : (s.line l).chosen = none := hg.good.chosen_none (by rw [hc]; rfl)
  rw [ha]
  exact ⟨rfl, hch, rfl, rfl, hg.good.list, hg.good.shadow, directedAfter_length hg.good.queue,
    directedAfter_legal hg.good.entries⟩

theorem LineEngine.Good.faultCause_none {x : LineEngine} (h : x.Good) (hc : x.current.isSome = true) :
    x.faultCause = .none := by
  refine h.engine.faultCause.2 fun hf => ?_
  rw [(h.engine.rest (Or.inr hf)).1] at hc
  cases hc

theorem coherent_completeUnit_stopped {s : State} {l : Line} {c : UnitContext} (e : UnitEnd) (hs : s.Coherent)
    (hc : (s.line l).current = some c) : ((s.completeUnit l e).enterStopped l).Coherent := by
  have hem := completeUnit_empty e hs hc
  obtain ⟨⟨a, ha⟩, ho, hh, -⟩ := completeUnit_lines e hs hc
  have hg := (coherent_iff s).1 hs l
  refine (coherent_iff _).2 fun m => ?_
  by_cases hm : m = l
  · subst hm
    refine lineCoherent_enterStopped hem ?_ hh
    rw [ha]
    exact hg.good.faultCause_none (by rw [hc]; rfl)
  · exact (ho m hm).other (onlyLine_enterStopped _ l) hm

theorem coherent_endUnit {s : State} {l : Line} (e : UnitEnd) (hs : s.Coherent)
    (hc : (s.line l).current.isSome = true) : (s.endUnit l e).Coherent := by
  obtain ⟨c, hc⟩ := Option.isSome_iff_exists.1 hc
  unfold State.endUnit State.afterCompletion
  have hrun : ((s.completeUnit l e).line l).runState = (s.line l).runState := by
    obtain ⟨⟨a, ha⟩, -⟩ := completeUnit_lines e hs hc
    rw [ha]
  split
  · exact coherent_finish (coherent_completeUnit_stopped e hs hc)
  · next hr =>
    rw [hrun] at hr
    refine coherent_finish (coherent_completeUnit_running e hs hc ?_)
    have hg := ((coherent_iff s).1 hs l).good.engine
    cases hx : (s.line l).runState with
    | running => rfl
    | stopping => exact absurd hx hr
    | stopped => rw [(hg.rest (Or.inl hx)).1] at hc; cases hc
    | faulted => rw [(hg.rest (Or.inr hx)).1] at hc; cases hc

/-- A line fault with a unit in progress keeps coherence (R133). -/
theorem coherent_faultLine {s : State} {l : Line} (cause : FaultCause) (hs : s.Coherent)
    (hc : (s.line l).current.isSome = true) (hf : cause ≠ .none) : (s.faultLine l cause).Coherent := by
  obtain ⟨c, hc⟩ := Option.isSome_iff_exists.1 hc
  have hem := completeUnit_empty .lineFault hs hc
  obtain ⟨-, ho, hh, -⟩ := completeUnit_lines .lineFault hs hc
  unfold State.faultLine State.applyPendingSwap
  dsimp only
  refine (coherent_iff _).2 fun m => ?_
  by_cases hm : m = l
  · subst hm
    have hg := hem.good .faulted .none cause (by decide) (by decide) ⟨fun hx => absurd hx hf, fun hx => absurd rfl hx⟩
    refine ⟨?_, ?_⟩
    · rw [State.line_raise, State.line_modLine, State.line_modLine]
      exact hg.takeSwap
    · rw [State.line_raise, State.line_modLine, State.line_modLine]
      show State.heldOf _ m = _
      rw [heldOf_of_holdList (s := s.completeUnit m .lineFault) (by simp), hh]
      split
      · show [] = heldFor m ((s.completeUnit m .lineFault).line m).chosen
        rw [hem.chosen]
        rfl
      · show [] = heldFor m ((s.completeUnit m .lineFault).line m).chosen
        rw [hem.chosen]
        rfl
  · exact (((ho m hm).other (State.OnlyLine.modLine _ l _) hm).other (State.OnlyLine.modLine _ l _) hm).other
      (State.OnlyLine.raise _ l _) hm

/-! ### A pending unit discarded -/

theorem line_discardBase (s : State) (l : Line) :
    (((s.leaveHoldList l).dropReservation l).modLine l LineEngine.clearChosen).line l =
      { s.line l with reservation := none, chosen := none } := by
  unfold State.dropReservation LineEngine.clearChosen
  rw [State.line_modLine, State.line_modLine, State.line_leaveHoldList]

theorem onlyLine_leaveHoldList (s : State) (l : Line) : State.OnlyLine l s (s.leaveHoldList l) := by
  refine ⟨fun m _ => by simp, fun m hm => ?_, fun i _ => by simp⟩
  unfold State.heldOf State.leaveHoldList
  rw [List.filter_filter]
  congr 1
  funext h
  cases hl : h.line <;> cases m <;> cases l <;> simp_all

theorem onlyLine_discardBase (s : State) (l : Line) :
    State.OnlyLine l s (((s.leaveHoldList l).dropReservation l).modLine l LineEngine.clearChosen) := by
  unfold State.dropReservation
  exact ((onlyLine_leaveHoldList s l).trans (State.OnlyLine.modLine _ l _)).trans (State.OnlyLine.modLine _ l _)

theorem no_entry_leaveHoldList (s : State) (l : Line) : ∀ h ∈ (s.leaveHoldList l).queue.holdList, h.line ≠ l := by
  intro h hh
  have : h ∈ s.queue.holdList.filter (fun e => decide (e.line ≠ l)) := hh
  simpa using (List.mem_filter.1 this).2

theorem heldOf_leaveHoldList (s : State) (l : Line) : (s.leaveHoldList l).heldOf l = [] := by
  rw [State.heldOf, List.filter_eq_nil_iff]
  intro h hh
  simpa using no_entry_leaveHoldList s l h hh

/-- A discarded pending unit leaves its line empty and coherence as it was (R113). -/
theorem discardPending_coherent {s : State} {l : Line} (hs : s.Coherent) (hc : (s.line l).current = none)
    (hr : (s.line l).runState = .running) :
    (s.discardPending l).Coherent ∧
      (s.discardPending l).line l = { s.line l with reservation := none, chosen := none } := by
  have hco := (coherent_iff s).1 hs
  have hbase : (((s.leaveHoldList l).dropReservation l).modLine l LineEngine.clearChosen).Coherent := by
    refine (coherent_iff _).2 fun m => ?_
    by_cases hm : m = l
    · subst hm
      refine ⟨?_, ?_⟩
      · rw [line_discardBase]
        obtain ⟨⟨e1, e2, e3, e4, e5, e6, e7, e8, e9⟩, l1, l2, q1, q2⟩ := (hco m).good
        refine ⟨⟨fun _ => ⟨hc, rfl⟩, e2, e3, e4, ?_, ?_, e7, e8, ?_⟩, l1, l2, q1, q2⟩
        · show none = Option.map _ (s.line m).current
          rw [hc]
          rfl
        · intro hx
          cases hx
        · intro w hx
          cases hx
      · rw [line_discardBase, heldOf_modLine]
        unfold State.dropReservation
        rw [heldOf_modLine, heldOf_leaveHoldList]
        rfl
    · exact (hco m).other (onlyLine_discardBase s l) hm
  have hno : ∀ h ∈ (((s.leaveHoldList l).dropReservation l).modLine l LineEngine.clearChosen).queue.holdList,
      h.line ≠ l := by
    rw [State.queue_modLine, State.queue_dropReservation]
    exact no_entry_leaveHoldList s l
  unfold State.discardPending
  dsimp only
  split
  · exact ⟨coherent_serve hbase, (serve_untouched hno).1.trans (line_discardBase s l)⟩
  · exact ⟨hbase, line_discardBase s l⟩

/-! ### Changes that keep coherence -/

/-- Coherence looks at the lines and the hold list alone. -/
theorem coherent_of_same {s t : State} (hs : s.Coherent) (hl : ∀ l, t.line l = s.line l)
    (hh : t.queue.holdList = s.queue.holdList) : t.Coherent := by
  refine (coherent_iff _).2 fun l => ?_
  have h := (coherent_iff s).1 hs l
  exact ⟨by rw [hl]; exact h.good, by rw [hl, heldOf_of_holdList hh]; exact h.held⟩

/-- A change of one line that leaves it good and its pending unit as it was. -/
theorem coherent_modLine {s : State} {l : Line} {f : LineEngine → LineEngine} (hs : s.Coherent)
    (hx : (f (s.line l)).Good) (hc : (f (s.line l)).chosen = (s.line l).chosen) : (s.modLine l f).Coherent := by
  refine (coherent_iff _).2 fun m => ?_
  have h := (coherent_iff s).1 hs m
  by_cases hm : m = l
  · subst hm
    exact lineCoherent_modLine h hx hc
  · exact h.other (State.OnlyLine.modLine s l f) hm

/-- A line with a unit in progress may be in any phase. -/
theorem LineEngine.Good.withPhase {x : LineEngine} (h : x.Good) (p : Phase) (hc : x.current.isSome = true) :
    ({ x with phase := p } : LineEngine).Good := by
  obtain ⟨e, l1, l2, q1, q2⟩ := h
  refine ⟨⟨e.rest, e.stopping, e.condition, e.faultCause, e.reserved, e.oneUnit, ?_, e.currentLegal, e.chosenLegal⟩, l1,
    l2, q1, q2⟩
  intro hx
  have hx : x.current = none := hx
  rw [hx] at hc
  cases hc

/-- The unit in progress may change anything but its work. -/
theorem LineEngine.Good.withContext {x : LineEngine} (h : x.Good) {c d : UnitContext} (hc : x.current = some c)
    (hd : d.work = c.work) : ({ x with current := some d } : LineEngine).Good := by
  obtain ⟨⟨e1, e2, e3, e4, e5, e6, e7, e8, e9⟩, l1, l2, q1, q2⟩ := h
  refine ⟨⟨?_, fun _ => rfl, e3, e4, ?_, ?_, ?_, ?_, e9⟩, l1, l2, q1, q2⟩
  · intro hx
    have := (e1 hx).1
    rw [hc] at this
    cases this
  · show x.reservation = some (workRequest d.work)
    rw [e5, hc, hd]
    rfl
  · intro hx
    have := e6 hx
    rw [hc] at this
    cases this
  · intro hx
    cases hx
  · intro k hk
    obtain rfl : d = k := Option.some.inj hk
    rw [hd]
    exact e8 c hc

theorem coherent_withPhase {s : State} {l : Line} (p : Phase) (hs : s.Coherent)
    (hc : (s.line l).current.isSome = true) : (s.modLine l (fun x => { x with phase := p })).Coherent :=
  coherent_modLine hs (((coherent_iff s).1 hs l).good.withPhase p hc) rfl

theorem coherent_withContext {s : State} {l : Line} {c : UnitContext} (d : UnitContext) (hs : s.Coherent)
    (hc : (s.line l).current = some c) (hd : d.work = c.work) :
    (s.modLine l (fun x => { x with current := some d })).Coherent :=
  coherent_modLine hs (((coherent_iff s).1 hs l).good.withContext hc hd) rfl

theorem current_withContext (s : State) (l : Line) (d : UnitContext) :
    ((s.modLine l (fun x => { x with current := some d })).line l).current = some d := by
  rw [State.line_modLine]

theorem coherent_chargeAttempt {s : State} (w : Work) (hs : s.Coherent) : (s.chargeAttempt w).Coherent := by
  unfold State.chargeAttempt
  split
  · exact hs
  · exact coherent_of_same hs (fun l => State.line_modEntry _ _ _ l) (by simp)

theorem line_chargeAttempt (s : State) (w : Work) (l : Line) : (s.chargeAttempt w).line l = s.line l := by
  unfold State.chargeAttempt
  split <;> simp

theorem coherent_attemptFails {s : State} {l : Line} (o : FailingOutcome) (hs : s.Coherent) :
    (s.attemptFails l o).Coherent := by
  unfold State.attemptFails
  split
  · exact hs
  · next c hc =>
    dsimp only
    have h1 := coherent_chargeAttempt c.work (coherent_withContext (c.fail o) hs hc rfl)
    have h2 : (((s.modLine l (fun x => { x with current := some (c.fail o) })).chargeAttempt c.work).line l).current.isSome
        = true := by
      rw [line_chargeAttempt, current_withContext]
      rfl
    split
    · exact coherent_withPhase _ h1 h2
    · exact coherent_endUnit _ h1 h2

theorem coherent_attemptJudged {s : State} {l : Line} (v : Verdict) (hs : s.Coherent) :
    (s.attemptJudged l v).Coherent := by
  cases v with
  | good a =>
    show (s.attemptGood l a).Coherent
    unfold State.attemptGood
    split
    · exact hs
    · next c hc =>
      exact coherent_endUnit _ (coherent_withContext (c.answered a) hs hc rfl) (by rw [current_withContext]; rfl)
  | deferred a =>
    show (s.attemptDeferred l a).Coherent
    unfold State.attemptDeferred
    split
    · exact hs
    · next c hc =>
      dsimp only
      have h1 := coherent_withContext (c.answered a) hs hc rfl
      have h2 : ((s.modLine l (fun x => { x with current := some (c.answered a) })).line l).current.isSome = true := by
        rw [current_withContext]
        rfl
      split
      · exact coherent_withPhase _ h1 h2
      · exact coherent_endUnit _ h1 h2
  | failing o => exact coherent_attemptFails o hs

/-- A line whose phase is not that of a line without a unit has a unit in progress. -/
theorem LineEngine.Good.current_of_phase {x : LineEngine} (h : x.Good) (hp : x.phase ≠ .idle .none) :
    x.current.isSome = true := by
  cases hc : x.current with
  | none => exact absurd (h.engine.phase hc) hp
  | some c => rfl

theorem good_of_coherent {s : State} (hs : s.Coherent) (l : Line) : (s.line l).Good :=
  ((coherent_iff s).1 hs l).good

end Sys2Proof.Machine
end

