-- ==== Sys2Proof/Laws/CoherentRows.lean ====
section
/-! SUPPORT. That the effect of each row of the table and of one reference period keeps `State.Coherent`. -/

namespace Sys2Proof.Machine

/-! ### Events -/

theorem coherent_whenLive {s : State} {f : State → State} (hs : s.Coherent) (hf : (f s).Coherent) :
    (s.whenLive f).Coherent := by
  unfold State.whenLive
  split
  · exact hf
  · exact hs

theorem coherent_receiver {s : State} {l : Line} (r : Receiver) (hs : s.Coherent) :
    (s.modLine l (fun x => { x with receiver := r })).Coherent :=
  coherent_modLine hs ((good_of_coherent hs l).congr rfl rfl rfl rfl rfl rfl rfl rfl rfl rfl rfl rfl) rfl

theorem LineEngine.Good.disposeStart {x : LineEngine} (h : x.Good) : x.disposeStart.Good := by
  unfold LineEngine.disposeStart
  split
  · exact h
  · next hp => exact h.withPhase _ (h.current_of_phase (by rw [hp]; simp))
  · exact h
  · exact h
  · next hp => exact h.withPhase _ (h.current_of_phase (by rw [hp]; simp))
  · next hp => exact h.withPhase _ (h.current_of_phase (by rw [hp]; simp))

theorem chosen_disposeStart (x : LineEngine) : x.disposeStart.chosen = x.chosen := by
  unfold LineEngine.disposeStart
  split <;> rfl

theorem coherent_startDetected {s : State} (l : Line) (hs : s.Coherent) : (s.startDetected l).Coherent := by
  unfold State.startDetected
  split
  · exact hs
  · split
    · refine coherent_modLine hs (LineEngine.Good.disposeStart ?_) (chosen_disposeStart _)
      exact (good_of_coherent hs l).congr rfl rfl rfl rfl rfl rfl rfl rfl rfl rfl rfl rfl
    · exact hs

theorem coherent_waitMarkEnd {s : State} (l : Line) (hs : s.Coherent) : (s.waitMarkEnd l).Coherent := by
  unfold State.waitMarkEnd
  split
  · exact hs
  · split
    · exact coherent_receiver _ hs
    · exact hs

theorem coherent_firstAnswerCharacter {s : State} {l : Line} (v : Byte) (f : Framing) (hs : s.Coherent)
    (hc : (s.line l).current.isSome = true) : (s.firstAnswerCharacter l v f).Coherent := by
  unfold State.firstAnswerCharacter
  split
  · exact coherent_withPhase _ hs hc
  · exact coherent_attemptFails _ hs

theorem coherent_nextAnswerCharacter {s : State} {l : Line} (b : List Byte) (crc : Word) (v : Byte) (f : Framing)
    (hs : s.Coherent) (hc : (s.line l).current.isSome = true) : (s.nextAnswerCharacter l b crc v f).Coherent := by
  have hp : ∀ p, (s.modLine l (fun x => { x with phase := p })).Coherent := fun p => coherent_withPhase p hs hc
  unfold State.nextAnswerCharacter
  dsimp only
  repeat' split
  all_goals first
    | exact hs
    | exact hp _
    | exact coherent_attemptFails _ hs
    | exact coherent_attemptJudged _ hs

theorem coherent_disposeCharacter {s : State} {l : Line} (v : Byte) (f : Framing) (hs : s.Coherent) :
    (s.disposeCharacter l v f).Coherent := by
  have hg := good_of_coherent hs l
  unfold State.disposeCharacter
  split
  · exact hs
  · next hp => exact coherent_withPhase _ hs (hg.current_of_phase (by rw [hp]; simp))
  · next hp =>
    have hc := hg.current_of_phase (by rw [hp]; simp)
    split
    · exact coherent_withPhase _ hs hc
    · refine coherent_modLine hs ?_ rfl
      exact (hg.withPhase (.idle .fallOfDe) hc).congr rfl rfl rfl rfl rfl rfl rfl rfl rfl rfl rfl rfl
  · exact hs
  · next hp => exact coherent_firstAnswerCharacter _ _ hs (hg.current_of_phase (by rw [hp]; simp))
  · next hp => exact coherent_nextAnswerCharacter _ _ _ _ hs (hg.current_of_phase (by rw [hp]; simp))

theorem coherent_character {s : State} (l : Line) (v : Byte) (f : Framing) (hs : s.Coherent) :
    (s.character l v f).Coherent := by
  unfold State.character
  split
  · exact hs
  · split
    · exact coherent_disposeCharacter _ _ (coherent_receiver _ hs)
    · exact hs

theorem phase_of_quietGrowing {x : LineEngine} (h : x.quietGrowing = true) : x.phase ≠ .idle .none := by
  unfold LineEngine.quietGrowing at h
  split at h <;> simp_all

/-- SEND, entered with the transmitter free or not, is a phase of the unit in progress. -/
theorem LineEngine.Good.enterSend {x : LineEngine} (h : x.Good) (hc : x.current.isSome = true) : x.enterSend.Good := by
  unfold LineEngine.enterSend
  split
  · exact h.withPhase _ hc
  · exact (h.withPhase (.send 0 false) hc).congr rfl rfl rfl rfl rfl rfl rfl rfl rfl rfl rfl rfl

theorem chosen_enterSend (x : LineEngine) : x.enterSend.chosen = x.chosen := by
  unfold LineEngine.enterSend
  split <;> rfl

theorem coherent_quietReached {s : State} (l : Line) (hs : s.Coherent) : (s.quietReached l).Coherent := by
  refine coherent_whenLive hs ?_
  split
  · next h =>
    have hg := good_of_coherent hs l
    exact coherent_modLine hs (hg.enterSend (hg.current_of_phase (phase_of_quietGrowing h))) (chosen_enterSend _)
  · exact hs

theorem phase_of_quietLacking {x : LineEngine} (h : x.quietLacking = true) : x.phase ≠ .idle .none := by
  unfold LineEngine.quietLacking at h
  split at h <;> simp_all

theorem coherent_noiseLimitExpiry {s : State} (l : Line) (hs : s.Coherent) : (s.noiseLimitExpiry l).Coherent := by
  refine coherent_whenLive hs ?_
  split
  · next h =>
    exact coherent_finish (coherent_faultLine _ hs ((good_of_coherent hs l).current_of_phase (phase_of_quietLacking h))
      (by decide))
  · exact hs

theorem coherent_silent {s : State} {l : Line} (n : Nat) (hs : s.Coherent) :
    (s.modLine l (fun y => { y with shifter := none, contention := n })).Coherent :=
  coherent_modLine hs ((good_of_coherent hs l).congr rfl rfl rfl rfl rfl rfl rfl rfl rfl rfl rfl rfl) rfl

theorem coherent_afterContention {s : State} {l : Line} (hs : s.Coherent) (hc : (s.line l).current.isSome = true) :
    (s.afterContention l).Coherent := by
  unfold State.afterContention
  split
  · exact coherent_finish (coherent_faultLine _ hs hc (by decide))
  · exact coherent_withPhase _ hs hc

theorem coherent_shifterNone {s : State} (l : Line) (hs : s.Coherent) :
    (s.modLine l (fun y => { y with shifter := none })).Coherent :=
  coherent_modLine hs ((good_of_coherent hs l).congr rfl rfl rfl rfl rfl rfl rfl rfl rfl rfl rfl rfl) rfl

theorem coherent_characterSent {s : State} (l : Line) (hs : s.Coherent) : (s.characterSent l).Coherent := by
  have hg := good_of_coherent hs l
  have hsil := coherent_shifterNone l hs
  unfold State.characterSent
  dsimp only
  split
  · next hp =>
    have hc := hg.current_of_phase (by rw [hp]; simp)
    split
    · refine coherent_modLine hs ?_ rfl
      exact (hg.withPhase _ hc).congr rfl rfl rfl rfl rfl rfl rfl rfl rfl rfl rfl rfl
    · refine coherent_modLine hs ?_ rfl
      exact (hg.withPhase (s.line l).afterSend hc).congr rfl rfl rfl rfl rfl rfl rfl rfl rfl rfl rfl rfl
  · next hp =>
    have hc := hg.current_of_phase (by rw [hp]; simp)
    refine coherent_afterContention (coherent_modLine hsil ?_ rfl) ?_
    · rw [State.line_modLine]
      exact hg.congr rfl rfl rfl rfl rfl rfl rfl rfl rfl rfl rfl rfl
    · rw [State.line_modLine, State.line_modLine]
      exact hc
  · next hp =>
    refine coherent_modLine hs ?_ rfl
    exact (hg.withPhase (.send 0 false) (hg.current_of_phase (by rw [hp]; simp))).congr rfl rfl rfl rfl rfl rfl rfl rfl
      rfl rfl rfl rfl
  · next hp =>
    have hc := hg.current_of_phase (by rw [hp]; simp)
    refine coherent_afterContention hsil ?_
    rw [State.line_modLine]
    exact hc
  all_goals exact hsil

theorem coherent_transmitCharacterEnd {s : State} (l : Line) (hs : s.Coherent) :
    (s.transmitCharacterEnd l).Coherent := by
  refine coherent_whenLive hs ?_
  split
  · exact coherent_characterSent l hs
  · exact hs

theorem coherent_responseTimeout {s : State} (l : Line) (hs : s.Coherent) : (s.responseTimeout l).Coherent := by
  refine coherent_whenLive hs ?_
  split <;> first | exact coherent_attemptFails _ hs | exact hs

theorem coherent_gapLimitExpiry {s : State} (l : Line) (hs : s.Coherent) : (s.gapLimitExpiry l).Coherent := by
  refine coherent_whenLive hs ?_
  split <;> first | exact coherent_attemptFails _ hs | exact hs

theorem coherent_backoffEnd {s : State} (l : Line) (hs : s.Coherent) : (s.backoffEnd l).Coherent := by
  refine coherent_whenLive hs ?_
  split
  · next hp => exact coherent_withPhase _ hs ((good_of_coherent hs l).current_of_phase (by rw [hp]; simp))
  all_goals exact hs

theorem coherent_settleEnd {s : State} (l : Line) (hs : s.Coherent) : (s.settleEnd l).Coherent := by
  refine coherent_whenLive hs ?_
  split
  · next hp => exact coherent_endUnit _ hs ((good_of_coherent hs l).current_of_phase (by rw [hp]; simp))
  all_goals exact hs

theorem coherent_intervalElapsed {s : State} (l : Line) (hs : s.Coherent) : (s.intervalElapsed l).Coherent := by
  refine coherent_whenLive hs ?_
  split
  · refine coherent_finish (coherent_modLine hs ?_ rfl)
    exact (good_of_coherent hs l).congr rfl rfl rfl rfl rfl rfl rfl rfl rfl rfl rfl rfl
  · exact hs

/-- In a coherent state no line holds a reservation for a unit that has not started. -/
theorem not_granted {s : State} (l : Line) (hs : s.Coherent) : (s.line l).granted = false := by
  have hg := good_of_coherent hs l
  unfold LineEngine.granted
  cases hc : (s.line l).current with
  | none => simp [hg.reservation_none hc]
  | some c => simp

theorem coherent_unitStart {s : State} (l : Line) (hs : s.Coherent) : (s.unitStart l).Coherent := by
  refine coherent_whenLive hs ?_
  rw [not_granted l hs]
  exact hs

theorem coherent_disableNow {s : State} (i : StationIndex) (hs : s.Coherent) : (s.disableNow i).Coherent := by
  obtain ⟨⟨a, r, ho⟩, -, hh⟩ := State.Completing.disableNow s .a i
  refine (coherent_iff _).2 fun m => ?_
  have h := (coherent_iff s).1 hs m
  have hm : ∃ b, (s.disableNow i).line m = { s.line m with alertSet := b } := by
    unfold State.disableNow State.leaveAlertSet
    rw [State.line_modLine_eq]
    split
    · exact ⟨_, by rw [State.line_modEntry]⟩
    · exact ⟨_, by rw [State.line_modEntry]⟩
  obtain ⟨b, hb⟩ := hm
  exact ⟨by rw [hb]; exact h.good.congr rfl rfl rfl rfl rfl rfl rfl rfl rfl rfl rfl rfl,
    by rw [hb, heldOf_of_holdList hh]; exact h.held⟩

theorem coherent_deferredDisable {s : State} (i : StationIndex) (hs : s.Coherent) :
    (s.deferredDisable i).Coherent := by
  refine coherent_whenLive hs ?_
  split
  · exact coherent_disableNow i hs
  · exact hs

/-- The stop of a line without unit and pending unit keeps coherence. -/
theorem coherent_enterStopped {s : State} {l : Line} (hs : s.Coherent) (hc : (s.line l).current = none)
    (hp : (s.line l).chosen = none) (hf : (s.line l).faultCause = .none) : (s.enterStopped l).Coherent := by
  refine (coherent_iff _).2 fun m => ?_
  have h := (coherent_iff s).1 hs m
  by_cases hm : m = l
  · subst hm
    exact lineCoherent_enterStopped (h.good.empty hc hp) hf (by rw [h.held, hp]; rfl)
  · exact h.other (onlyLine_enterStopped s l) hm

theorem coherent_stoppingLineStopped {s : State} (l : Line) (hs : s.Coherent) :
    (s.stoppingLineStopped l).Coherent := by
  refine coherent_whenLive hs ?_
  split
  · next h =>
    have := (good_of_coherent hs l).engine.stopping h.1
    rw [Option.isNone_iff_eq_none.1 h.2] at this
    cases this
  · exact hs

theorem coherent_holdListGrant {s : State} (hs : s.Coherent) : s.holdListGrant.Coherent :=
  coherent_whenLive hs (coherent_finish (coherent_serve hs))

theorem coherent_invokeArbiter {s : State} (l : Line) (hs : s.Coherent) : (s.invokeArbiter l).Coherent :=
  (coherent_iff _).2 fun m => lineCoherent_invokeArbiter_any ((coherent_iff s).1 hs m)

theorem coherent_workSelection {s : State} (l : Line) (hs : s.Coherent) : (s.workSelection l).Coherent := by
  refine coherent_whenLive hs ?_
  split
  · exact coherent_finish (coherent_invokeArbiter l hs)
  · exact hs

theorem LineEngine.Good.swapBanks {x : LineEngine} (h : x.Good) (hv : x.shadowBank.Valid) : x.swapBanks.Good := by
  obtain ⟨e, l1, l2, q1, q2⟩ := h
  refine ⟨⟨e.rest, e.stopping, e.condition, e.faultCause, e.reserved, e.oneUnit, e.phase, e.currentLegal,
    e.chosenLegal⟩, hv, ?_, q1, q2⟩
  intro hx
  cases hx

theorem coherent_pendingSwapTakesEffect {s : State} (l : Line) (hs : s.Coherent) :
    (s.pendingSwapTakesEffect l).Coherent := by
  refine coherent_whenLive hs ?_
  split
  · next h =>
    have hg := good_of_coherent hs l
    have hp : (s.line l).swapPending = true := by
      unfold LineEngine.swapDue at h
      simp only [Bool.and_eq_true] at h
      exact h.1
    exact coherent_modLine hs (hg.swapBanks (hg.shadow hp)) rfl
  · exact hs

theorem coherent_cycleStart {s : State} (l : Line) (hs : s.Coherent) : (s.cycleStart l).Coherent := by
  refine coherent_whenLive hs ?_
  split
  · next h =>
    simp only [Bool.and_eq_true] at h
    refine coherent_finish ((coherent_iff _).2 fun m => ?_)
    have hm := (coherent_iff s).1 hs m
    by_cases hml : m = l
    · subst hml
      exact lineCoherent_startCycle hm h.1
    · exact hm.other (State.OnlyLine.modLine s l _) hml
  · exact hs

/-! ### One reference period -/

theorem Phase.tick_idle {p : Phase} {r : Receiver} : p.tick r = .idle .none ↔ p = .idle .none := by
  cases p with
  | idle w => cases w <;> simp [Phase.tick]
  | guard _ _ => simp [Phase.tick]
  | send _ _ => simp [Phase.tick]
  | sendWaiting => simp [Phase.tick]
  | await _ => simp [Phase.tick]
  | receive _ _ _ => simp [Phase.tick]

theorem LineEngine.Good.tick {x : LineEngine} (h : x.Good) : x.tick.Good := by
  obtain ⟨e, l1, l2, q1, q2⟩ := h
  exact ⟨⟨e.rest, e.stopping, e.condition, e.faultCause, e.reserved, e.oneUnit, fun hc => Phase.tick_idle.2 (e.phase hc),
    e.currentLegal, e.chosenLegal⟩, l1, l2, q1, q2⟩

theorem coherent_tickLine {s : State} (l : Line) (hs : s.Coherent) : (s.modLine l LineEngine.tick).Coherent :=
  coherent_modLine hs (good_of_coherent hs l).tick rfl

theorem coherent_fire {s : State} (l : Line) (e : TimedEvent) (hs : s.Coherent) : (s.fire l e).Coherent := by
  cases e with
  | characterSent => exact coherent_transmitCharacterEnd l hs
  | quiet => exact coherent_quietReached l hs
  | noise => exact coherent_noiseLimitExpiry l hs
  | response => exact coherent_responseTimeout l hs
  | gap => exact coherent_gapLimitExpiry l hs
  | backoff => exact coherent_backoffEnd l hs
  | settle => exact coherent_settleEnd l hs
  | interval => exact coherent_intervalElapsed l hs

theorem coherent_fireNext {s : State} (l : Line) (hs : s.Coherent) : (s.fireNext l).Coherent := by
  unfold State.fireNext
  split
  · exact hs
  · exact coherent_fire l _ hs

theorem coherent_fireDue {s : State} (l : Line) (hs : s.Coherent) : (s.fireDue l).Coherent :=
  coherent_fireNext l (coherent_fireNext l hs)

theorem coherent_nextRace {s : State} (hs : s.Coherent) : s.nextRace.Coherent :=
  (coherent_iff _).2 fun l => lineCoherent_nextRace ((coherent_iff s).1 hs l)

theorem coherent_recordsApart {s : State} {before middle : Nat} (hs : s.Coherent) (hm : before ≤ middle) :
    (s.recordsApart before middle).Coherent := by
  obtain ⟨n, records, cursor, he, -⟩ := s.recordsApart_spec hm
  rw [he]
  exact coherent_of_same hs (fun l => by cases l <;> rfl) rfl

theorem coherent_fireInTurn {s : State} (first second : Line) (hs : s.Coherent) :
    (s.fireInTurn first second).Coherent :=
  coherent_recordsApart (coherent_fireDue _ (coherent_fireDue _ hs)) (State.Evolves.fireDue s first).records.length_le

theorem coherent_fireBoth {s : State} (hs : s.Coherent) : s.fireBoth.Coherent := by
  unfold State.fireBoth
  split
  · split
    · exact coherent_fireInTurn _ _ (coherent_nextRace hs)
    · exact coherent_fireInTurn _ _ (coherent_nextRace hs)
  · exact coherent_fireDue _ (coherent_fireDue _ hs)

theorem coherent_modWindow {s : State} (f : Window → Window) (hs : s.Coherent) : (s.modWindow f).Coherent :=
  coherent_of_same hs (fun l => State.line_modWindow s f l) (by simp)

theorem coherent_passTime {s : State} (hs : s.Coherent) : s.passTime.Coherent := by
  unfold State.passTime
  split
  · exact hs
  · split
    · exact coherent_tickLine _ (coherent_tickLine _ (coherent_modWindow _ hs))
    · exact coherent_fireBoth (coherent_tickLine _ (coherent_tickLine _ hs))

/-! ### Commands -/

theorem coherent_reply {s : State} (r : Result) (n : Nat) (hs : s.Coherent) : (s.reply r n).Coherent :=
  coherent_modWindow _ hs

theorem coherent_drive {s : State} (w : Word) (hs : s.Coherent) : (s.drive w).Coherent :=
  coherent_modWindow _ hs

theorem coherent_modEntry {s : State} (i : StationIndex) (f : Entry → Entry) (hs : s.Coherent) :
    (s.modEntry i f).Coherent :=
  coherent_of_same hs (fun l => State.line_modEntry s i f l) (by simp)

/-- A command row keeps coherence when its decision does. -/
theorem coherent_issue {s : State} (code : Word) {d : State → State} (hs : s.Coherent)
    (hd : ∀ t : State, t.Coherent → (d t).Coherent) : (s.issue code d).Coherent := by
  unfold State.issue
  split
  · exact hs
  · dsimp only
    split
    · exact coherent_reply _ _ (coherent_modWindow _ hs)
    · exact hd _ (coherent_modWindow _ hs)

theorem coherent_withStation {s : State} {body : StationIndex → State} (hs : s.Coherent)
    (hb : ∀ i, (body i).Coherent) : (s.withStation body).Coherent := by
  unfold State.withStation
  split
  · exact coherent_reply _ _ hs
  · exact hb _

theorem coherent_cmdStationConfigure {s : State} (hs : s.Coherent) : s.cmdStationConfigure.Coherent := by
  refine coherent_withStation hs fun i => ?_
  dsimp only
  repeat' split
  all_goals first
    | exact coherent_reply _ _ hs
    | exact coherent_reply _ _ (coherent_modEntry _ _ hs)

theorem coherent_cmdStationEnable {s : State} (hs : s.Coherent) : s.cmdStationEnable.Coherent := by
  refine coherent_withStation hs fun i => ?_
  split
  · exact coherent_reply _ _ (coherent_modEntry _ _ hs)
  · exact coherent_reply _ _ hs

theorem coherent_cmdStationDisable {s : State} (hs : s.Coherent) : s.cmdStationDisable.Coherent := by
  refine coherent_withStation hs fun i => ?_
  dsimp only
  repeat' split
  all_goals first
    | exact coherent_reply _ _ hs
    | exact coherent_reply _ _ (coherent_modEntry _ _ hs)
    | exact coherent_reply _ _ (coherent_disableNow _ hs)

theorem coherent_cmdStationClear {s : State} (hs : s.Coherent) : s.cmdStationClear.Coherent := by
  refine coherent_withStation hs fun i => ?_
  split
  · exact coherent_reply _ _ (coherent_modEntry _ _ hs)
  · exact coherent_reply _ _ hs

theorem coherent_cmdStationZeroCounts {s : State} (hs : s.Coherent) : s.cmdStationZeroCounts.Coherent := by
  refine coherent_withStation hs fun i => ?_
  split
  · exact coherent_reply _ _ hs
  · exact coherent_reply _ _ (coherent_modEntry _ _ hs)

theorem coherent_cmdListSwap {s : State} (hs : s.Coherent) : s.cmdListSwap.Coherent := by
  unfold State.cmdListSwap
  split
  · exact coherent_reply _ _ hs
  · next l _ =>
    have hg := good_of_coherent hs l
    dsimp only
    split
    · exact coherent_reply _ _ hs
    · next hv =>
      split
      · exact coherent_reply _ _ hs
      · split
        · exact coherent_reply _ _ (coherent_finish (coherent_modLine hs (hg.swapBanks hv) rfl))
        · refine coherent_reply _ _ (coherent_modLine hs ?_ rfl)
          obtain ⟨e, l1, l2, q1, q2⟩ := hg
          exact ⟨⟨e.rest, e.stopping, e.condition, e.faultCause, e.reserved, e.oneUnit, e.phase, e.currentLegal,
            e.chosenLegal⟩, l1, fun _ => hv, q1, q2⟩

theorem bufferBytes_length (b : Vector Word 20) : (bufferBytes b).length = 40 := by
  unfold bufferBytes
  rw [List.length_flatMap]
  simp

theorem badField_none {f : SubmitFields} {k : RequestKind} (h : f.badField k = none) :
    f.count ≤ Config.maxPayload ∧ f.group ≤ 15 ∧ f.tag ≤ 255 ∧ (k ≠ .bcast → f.station ≤ 63) := by
  unfold SubmitFields.badField at h
  split at h
  · cases h
  · next h1 =>
    split at h
    · cases h
    · next h2 =>
      split at h
      · cases h
      · next h3 =>
        split at h
        · cases h
        · next h4 => exact ⟨not_lt.1 h3, not_lt.1 h2, not_lt.1 h4, fun hk => not_lt.1 fun hx => h1 ⟨hk, hx⟩⟩

theorem submitPayload_length {k : RequestKind} {n : Nat} {b : Vector Word 20} (hk : k ≠ .poll) (hn : n ≤ 40) :
    (submitPayload k n b).length = n := by
  cases k with
  | poll => exact absurd rfl hk
  | set => simp [submitPayload, bufferBytes_length, hn]
  | bcast => simp [submitPayload, bufferBytes_length, hn]

theorem newDirected_legal {s : State} {l : Line} {k : RequestKind} {f : SubmitFields} (h : f.badField k = none) :
    (s.newDirected l k f).Legal := by
  obtain ⟨hc, -⟩ := badField_none h
  refine ⟨hc, ?_⟩
  cases k with
  | poll => rfl
  | set => exact submitPayload_length (k := .set) (by decide) hc
  | bcast => exact ⟨submitPayload_length (k := .bcast) (by decide) hc, rfl⟩

theorem LineEngine.Good.addDirected {x : LineEngine} {e : DirectedEntry} (h : x.Good) (he : e.Legal)
    (hn : x.directed.length < Config.directedDepth) :
    ({ x with directed := x.directed ++ [e] } : LineEngine).Good := by
  obtain ⟨k, l1, l2, q1, q2⟩ := h
  refine ⟨⟨k.rest, k.stopping, k.condition, k.faultCause, k.reserved, k.oneUnit, k.phase, k.currentLegal,
    k.chosenLegal⟩, l1, l2, ?_, ?_⟩
  · show (x.directed ++ [e]).length ≤ _
    rw [List.length_append, List.length_singleton]
    omega
  · intro d hd
    rcases List.mem_append.1 hd with hd | hd
    · exact q2 d hd
    · rw [List.mem_singleton.1 hd]
      exact he

theorem coherent_cmdSubmit {s : State} (hs : s.Coherent) : s.cmdSubmit.Coherent := by
  unfold State.cmdSubmit
  dsimp only
  split
  · exact coherent_reply _ _ hs
  · next l _ =>
    split
    · exact coherent_reply _ _ hs
    · split
      · exact coherent_reply _ _ hs
      · next hb =>
        split
        · exact coherent_reply _ _ hs
        · split
          · exact coherent_reply _ _ hs
          · next hn =>
            exact coherent_reply _ _ (coherent_finish (coherent_modLine hs
              ((good_of_coherent hs l).addDirected (newDirected_legal hb) (Nat.lt_of_not_le hn)) rfl))

/-- Changes of the reply queue that leave the hold list alone keep coherence. -/
theorem coherent_withQueue {s : State} (q : ReplyQueue) (hs : s.Coherent) (hq : q.holdList = s.queue.holdList) :
    ({ s with queue := q } : State).Coherent :=
  coherent_of_same hs (fun l => by cases l <;> rfl) hq

theorem coherent_releaseHead {s : State} (hs : s.Coherent) : s.releaseHead.Coherent :=
  coherent_serve (coherent_withQueue _ hs rfl)

theorem coherent_cmdQueueRelease {s : State} (hs : s.Coherent) : s.cmdQueueRelease.Coherent := by
  unfold State.cmdQueueRelease
  split
  · exact coherent_reply _ _ hs
  · split
    · exact coherent_reply _ _ hs
    · exact coherent_reply _ _ (coherent_finish (coherent_releaseHead hs))

theorem coherent_cmdQueueFlush {s : State} (hs : s.Coherent) : s.cmdQueueFlush.Coherent := by
  unfold State.cmdQueueFlush
  split
  · exact coherent_reply _ _ hs
  · exact coherent_reply _ _ (coherent_withQueue _ hs rfl)

theorem coherent_cmdQueueSetThreshold {s : State} (hs : s.Coherent) : s.cmdQueueSetThreshold.Coherent := by
  unfold State.cmdQueueSetThreshold
  dsimp only
  split
  · exact coherent_reply _ _ hs
  · exact coherent_reply _ _ (coherent_withQueue _ hs rfl)

theorem coherent_cmdDrainMode {s : State} (hs : s.Coherent) : s.cmdDrainMode.Coherent := by
  unfold State.cmdDrainMode
  split
  · exact coherent_reply _ _ hs
  · split
    · exact coherent_reply _ _ hs
    · exact coherent_reply _ _ (coherent_withQueue _ hs rfl)

theorem coherent_takeWord {s : State} (w : Word) (hs : s.Coherent) : ((s.drive w).advanceCursor).Coherent :=
  coherent_withQueue _ (coherent_drive w hs) rfl

theorem coherent_queueDataRead {s : State} (hs : s.Coherent) : s.queueDataRead.Coherent := by
  unfold State.queueDataRead
  repeat' split
  all_goals try dsimp only
  all_goals try split
  all_goals first
    | exact coherent_drive _ hs
    | exact coherent_takeWord _ hs
    | exact coherent_finish (coherent_releaseHead (coherent_takeWord _ hs))

theorem coherent_dackStrobe {s : State} (hs : s.Coherent) : s.dackStrobe.Coherent := by
  unfold State.dackStrobe
  repeat' split
  all_goals try dsimp only
  all_goals try split
  all_goals first
    | exact coherent_drive _ hs
    | exact coherent_takeWord _ hs
    | exact coherent_finish (coherent_releaseHead (coherent_takeWord _ hs))

theorem coherent_withLine {s : State} {body : Line → State} (hs : s.Coherent) (hb : ∀ l, (body l).Coherent) :
    (s.withLine body).Coherent := by
  unfold State.withLine
  split
  · exact coherent_reply _ _ hs
  · exact hb _

theorem coherent_cmdLineSet {s : State} (hs : s.Coherent) : s.cmdLineSet.Coherent := by
  refine coherent_withLine hs fun l => ?_
  repeat' split
  all_goals first
    | exact coherent_reply _ _ hs
    | skip
  refine coherent_reply _ _ (coherent_modLine hs ?_ rfl)
  exact (good_of_coherent hs l).congr rfl rfl rfl rfl rfl rfl rfl rfl rfl rfl rfl rfl

theorem atRest_iff {x : LineEngine} : x.atRest = true ↔ x.runState = .stopped ∨ x.runState = .faulted := by
  unfold LineEngine.atRest
  cases x.runState <;> simp

theorem LineEngine.Good.start {x : LineEngine} (h : x.Good) (hr : x.atRest = true) : x.start.Good := by
  have hc := h.engine.rest (atRest_iff.1 hr)
  have he := h.empty hc.1 hc.2
  unfold LineEngine.start
  dsimp only
  split
  · exact (he.good .running .idleEmpty .none (by decide) (by decide) (by decide)).congr rfl rfl rfl rfl rfl rfl rfl rfl
      rfl rfl rfl rfl
  · exact (he.good .running .inCycle .none (by decide) (by decide) (by decide)).congr rfl rfl rfl rfl rfl rfl rfl rfl
      rfl rfl rfl rfl

theorem chosen_start (x : LineEngine) : x.start.chosen = x.chosen := by
  unfold LineEngine.start
  dsimp only
  split <;> rfl

theorem coherent_cmdLineStart {s : State} (hs : s.Coherent) : s.cmdLineStart.Coherent := by
  refine coherent_withLine hs fun l => ?_
  split
  · next hr =>
    exact coherent_reply _ _ (coherent_finish (coherent_modLine hs ((good_of_coherent hs l).start hr) (chosen_start _)))
  · exact coherent_reply _ _ hs

theorem faultCause_of_running {x : LineEngine} (h : x.Good) (hr : x.runState = .running ∨ x.runState = .stopping) :
    x.faultCause = .none := by
  refine h.engine.faultCause.2 fun hf => ?_
  rw [hf] at hr
  rcases hr with hr | hr <;> cases hr

theorem runState_of_chosen {x : LineEngine} (h : x.Good) (hc : x.chosen.isSome = true) : x.runState = .running := by
  cases hr : x.runState with
  | running => rfl
  | stopped => rw [(h.engine.rest (Or.inl hr)).2] at hc; cases hc
  | faulted => rw [(h.engine.rest (Or.inr hr)).2] at hc; cases hc
  | stopping =>
    have := h.engine.stopping hr
    rw [h.chosen_none this] at hc
    cases hc

theorem coherent_endLead {s : State} (l : Line) (hs : s.Coherent) : (s.modLine l LineEngine.endLead).Coherent :=
  coherent_modLine hs ((good_of_coherent hs l).congr rfl rfl rfl rfl rfl rfl rfl rfl rfl rfl rfl rfl) rfl

theorem current_endLead (s : State) (l : Line) : ((s.modLine l LineEngine.endLead).line l).current = (s.line l).current := by
  rw [State.line_modLine]
  rfl

/-- Whatever a line that is not FAULTED was doing is cut short, and the line enters STOPPED, coherent. -/
theorem coherent_cutShort_enterStopped {s : State} (l : Line) (hs : s.Coherent)
    (hf : (s.line l).faultCause = .none) : ((s.cutShort l).enterStopped l).Coherent := by
  have hg := good_of_coherent hs l
  unfold State.cutShort
  split
  · next hc =>
    obtain ⟨c, hc⟩ := Option.isSome_iff_exists.1 hc
    exact coherent_completeUnit_stopped _ (coherent_endLead l hs) ((current_endLead s l).trans hc)
  · next hc =>
    have hc : (s.line l).current = none := by simpa using hc
    split
    · next hp =>
      obtain ⟨h1, h2⟩ := discardPending_coherent hs hc (runState_of_chosen hg hp)
      exact coherent_enterStopped h1 (by rw [h2]; exact hc) (by rw [h2]) (by rw [h2]; exact hf)
    · next hp => exact coherent_enterStopped hs hc (by simpa using hp) hf

theorem coherent_stopRunning {s : State} (l : Line) (hs : s.Coherent) (hr : (s.line l).runState = .running) :
    (s.stopRunning l).Coherent := by
  have hg := good_of_coherent hs l
  have hf := faultCause_of_running hg (Or.inl hr)
  unfold State.stopRunning
  split
  · next hc =>
    refine coherent_reply _ _ (coherent_modLine hs ?_ rfl)
    obtain ⟨⟨e1, e2, e3, e4, e5, e6, e7, e8, e9⟩, l1, l2, q1, q2⟩ := hg
    refine ⟨⟨?_, fun _ => hc, ?_, ?_, e5, e6, e7, e8, e9⟩, l1, l2, q1, q2⟩
    · rintro (hx | hx) <;> cases hx
    · exact (by decide : (CycleCondition.none = .none ↔ RunState.stopping ≠ .running))
    · exact ⟨fun _ => (by decide : RunState.stopping ≠ .faulted), fun _ => hf⟩
  · next hc =>
    have hc : (s.line l).current = none := by simpa using hc
    split
    · obtain ⟨h1, h2⟩ := discardPending_coherent hs hc hr
      exact coherent_reply _ _ (coherent_finish
        (coherent_enterStopped h1 (by rw [h2]; exact hc) (by rw [h2]) (by rw [h2]; exact hf)))
    · next hp => exact coherent_reply _ _ (coherent_finish (coherent_enterStopped hs hc (by simpa using hp) hf))

theorem coherent_cmdLineStop {s : State} (hs : s.Coherent) : s.cmdLineStop.Coherent := by
  refine coherent_withLine hs fun l => ?_
  split
  · exact coherent_reply _ _ hs
  · exact coherent_reply _ _ hs
  · exact coherent_reply _ _ hs
  · next hr => exact coherent_stopRunning l hs hr

theorem coherent_cmdLineHalt {s : State} (hs : s.Coherent) : s.cmdLineHalt.Coherent := by
  refine coherent_withLine hs fun l => ?_
  split
  · exact coherent_reply _ _ hs
  · next hr =>
    refine coherent_reply _ _ (coherent_finish (coherent_cutShort_enterStopped l hs ?_))
    refine faultCause_of_running (good_of_coherent hs l) ?_
    rw [atRest_iff] at hr
    cases hx : (s.line l).runState <;> simp_all

theorem line_resetStations (s : State) (l m : Line) : (s.resetStations l).line m = s.line m := by
  cases m <;> rfl

/-- A line cut short is empty, whatever its run state. -/
theorem cutShort_empty {s : State} (l : Line) (hs : s.Coherent) : ((s.cutShort l).line l).Empty ∧
    (s.cutShort l).heldOf l = [] ∧ ∀ m, m ≠ l → (s.cutShort l).LineCoherent m := by
  have hg := (coherent_iff s).1 hs
  unfold State.cutShort
  split
  · next hc =>
    obtain ⟨c, hc⟩ := Option.isSome_iff_exists.1 hc
    have hs' := coherent_endLead l hs
    have hc' := (current_endLead s l).trans hc
    obtain ⟨-, ho, hh, -⟩ := completeUnit_lines .aborted hs' hc'
    exact ⟨completeUnit_empty _ hs' hc', hh, ho⟩
  · next hc =>
    have hc : (s.line l).current = none := by simpa using hc
    split
    · next hp =>
      obtain ⟨h1, h2⟩ := discardPending_coherent hs hc (runState_of_chosen (hg l).good hp)
      have h3 := (coherent_iff _).1 h1
      exact ⟨(h3 l).good.empty (by rw [h2]; exact hc) (by rw [h2]), by rw [(h3 l).held, h2]; rfl, fun m _ => h3 m⟩
    · next hp =>
      have hp : (s.line l).chosen = none := by simpa using hp
      exact ⟨(hg l).good.empty hc hp, by rw [(hg l).held, hp]; rfl, fun m _ => hg m⟩

theorem coherent_cmdLineReset {s : State} (hs : s.Coherent) : s.cmdLineReset.Coherent := by
  refine coherent_withLine hs fun l => ?_
  dsimp only
  obtain ⟨⟨e1, e2, e3, e4, e5, e6, e7, e8⟩, hh, ho⟩ := cutShort_empty l hs
  refine coherent_reply _ _ (coherent_finish ((coherent_iff _).2 fun m => ?_))
  by_cases hm : m = l
  · subst hm
    refine lineCoherent_enterStopped ?_ ?_ ?_
    · rw [line_resetStations, State.line_modLine]
      exact ⟨e1, e2, e3, e4, e5, e6, Nat.zero_le _, fun e he => by cases he⟩
    · rw [line_resetStations, State.line_modLine]
      rfl
    · show State.heldOf _ m = []
      rw [heldOf_of_holdList (s := s.cutShort m) (by simp [State.resetStations]), hh]
  · have h1 := (ho m hm).other (State.OnlyLine.modLine _ l LineEngine.resetCounters) hm
    have h2 : (((s.cutShort l).modLine l LineEngine.resetCounters).resetStations l).LineCoherent m :=
      ⟨by rw [line_resetStations]; exact h1.good, by rw [line_resetStations]; exact h1.held⟩
    exact h2.other (onlyLine_enterStopped _ l) hm

theorem coherent_reset : State.reset.Coherent := by
  have hb : Bank.reset.Valid := by
    show Bank.reset.swapRefusal = none
    decide
  refine (coherent_iff _).2 fun l => ?_
  have hx : LineEngine.reset.Good := by
    refine ⟨⟨fun _ => ⟨rfl, rfl⟩, (fun h => by cases h), (by decide), (by decide), rfl, fun _ => rfl, fun _ => rfl, ?_, ?_⟩, hb, ?_,
      Nat.zero_le _, ?_⟩
    · intro c hc
      cases hc
    · intro w hw
      cases hw
    · intro h
      cases h
    · intro e he
      cases he
  cases l <;> exact ⟨hx, rfl⟩

theorem coherent_resetEffects (s : State) : s.resetEffects.Coherent :=
  coherent_of_same coherent_reset (fun l => by cases l <;> rfl) rfl

theorem coherent_tableStore {s : State} (r : BitVec 4) (k : Nat) (w : Word) (hs : s.Coherent) :
    (s.tableStore r k w).Coherent := by
  unfold State.tableStore
  repeat' split
  all_goals first
    | exact hs
    | exact coherent_modWindow _ hs
    | skip
  · next l n _ _ hw =>
    simp only [LineEngine.bankWritable, Bool.and_eq_true, decide_eq_true_eq, Bool.not_eq_true'] at hw
    obtain ⟨⟨e1, e2, e3, e4, e5, e6, e7, e8, e9⟩, l1, l2, q1, q2⟩ := good_of_coherent hs l
    refine coherent_modLine hs ?_ (by cases n <;> rfl)
    have ha : (((s.line l).setBank n (((s.line l).bank n).write k w)).activeBank) = (s.line l).activeBank := by
      unfold LineEngine.activeBank
      cases n <;> cases hx : (s.line l).active <;> simp_all [LineEngine.setBank, LineEngine.bank]
    have hsw : ((s.line l).setBank n (((s.line l).bank n).write k w)).swapPending = false := by
      cases n <;> exact hw.2
    refine ⟨?_, by rw [ha]; exact l1, (fun h => by rw [hsw] at h; cases h), ?_, ?_⟩
    · cases n <;> exact ⟨e1, e2, e3, e4, e5, e6, e7, e8, e9⟩
    · cases n <;> exact q1
    · cases n <;> exact q2
  · next l _ =>
    refine coherent_modLine hs ?_ rfl
    exact (good_of_coherent hs l).congr rfl rfl rfl rfl rfl rfl rfl rfl rfl rfl rfl rfl

theorem coherent_tableDataRead {s : State} (hs : s.Coherent) : s.tableDataRead.Coherent := by
  unfold State.tableDataRead
  split
  · exact coherent_drive _ hs
  · exact coherent_modWindow _ (coherent_drive _ hs)

theorem coherent_tableDataWrite {s : State} (w : Word) (hs : s.Coherent) : (s.tableDataWrite w).Coherent := by
  unfold State.tableDataWrite
  split
  · exact hs
  · refine coherent_modWindow _ ?_
    split
    · exact coherent_tableStore _ _ _ hs
    · exact hs

theorem coherent_partStatusRead {s : State} (hs : s.Coherent) : s.partStatusRead.Coherent := by
  unfold State.partStatusRead
  split
  · exact coherent_drive _ hs
  · exact coherent_modWindow _ (coherent_drive _ hs)

theorem coherent_intEnableWrite {s : State} (w : Word) (hs : s.Coherent) : (s.intEnableWrite w).Coherent :=
  coherent_whenLive hs (coherent_of_same hs (fun l => by cases l <;> rfl) rfl)

theorem coherent_intAckWrite {s : State} (w : Word) (hs : s.Coherent) : (s.intAckWrite w).Coherent := by
  refine coherent_whenLive hs ?_
  split
  · exact hs
  · exact hs
  · exact coherent_of_same hs (fun l => by cases l <;> rfl) rfl

theorem coherent_decideCommand {s : State} (c : Command) (hs : s.Coherent) : (s.decideCommand c).Coherent := by
  cases c with
  | stationConfigure => exact coherent_cmdStationConfigure hs
  | stationEnable => exact coherent_cmdStationEnable hs
  | stationDisable => exact coherent_cmdStationDisable hs
  | stationClear => exact coherent_cmdStationClear hs
  | stationZeroCounts => exact coherent_cmdStationZeroCounts hs
  | listSwap => exact coherent_cmdListSwap hs
  | submit => exact coherent_cmdSubmit hs
  | queueRelease => exact coherent_cmdQueueRelease hs
  | queueFlush => exact coherent_cmdQueueFlush hs
  | queueSetThreshold => exact coherent_cmdQueueSetThreshold hs
  | drainMode => exact coherent_cmdDrainMode hs
  | lineSet => exact coherent_cmdLineSet hs
  | lineStart => exact coherent_cmdLineStart hs
  | lineStop => exact coherent_cmdLineStop hs
  | lineHalt => exact coherent_cmdLineHalt hs
  | lineReset => exact coherent_cmdLineReset hs
  | partReset => exact coherent_resetEffects s

theorem coherent_writeCommand {s : State} (code : Word) (hs : s.Coherent) : (s.writeCommand code).Coherent := by
  refine coherent_issue _ hs fun t ht => ?_
  unfold State.decideWord
  split
  · exact coherent_decideCommand _ ht
  · exact coherent_reply _ _ ht

theorem coherent_registerWrite {s : State} (a : BitVec 5) (w : Word) (hs : s.Coherent) :
    (s.registerWrite a w).Coherent := by
  unfold State.registerWrite
  repeat' split
  all_goals first
    | exact hs
    | exact coherent_writeCommand _ hs
    | exact coherent_modWindow _ hs
    | exact coherent_tableDataWrite _ hs
    | exact coherent_intEnableWrite _ hs
    | exact coherent_intAckWrite _ hs

end Sys2Proof.Machine
end

