-- ==== Sys2Proof/Laws/Records.lean ====
section
/-! SUPPORT. Whose records the operations write: those of one line write records of that line alone, and a line that is
not free, or not in the hold list, gets none written by the arbiters or by the serving of the hold list. -/

namespace Sys2Proof.Machine

/-! ### Operations of one line -/

/-- From s to t the queue grew by records of line l alone. -/
def State.WritesOf (l : Line) (s t : State) : Prop :=
  ∃ added, t.queue.records = s.queue.records ++ added ∧ ∀ r ∈ added, r.line = l

theorem State.WritesOf.same {l : Line} {s t : State} (h : t.queue.records = s.queue.records) : State.WritesOf l s t :=
  ⟨[], by rw [h, List.append_nil], fun _ hr => by cases hr⟩

theorem State.WritesOf.refl (l : Line) (s : State) : State.WritesOf l s s :=
  State.WritesOf.same rfl

theorem State.WritesOf.trans {l : Line} {s t u : State} (h : State.WritesOf l s t) (k : State.WritesOf l t u) :
    State.WritesOf l s u := by
  obtain ⟨a, h1, h2⟩ := h
  obtain ⟨b, k1, k2⟩ := k
  refine ⟨a ++ b, by rw [k1, h1, List.append_assoc], fun r hr => ?_⟩
  rcases List.mem_append.1 hr with hr | hr
  · exact h2 r hr
  · exact k2 r hr

theorem records_writeRecord (s : State) (l : Line) (r : Record) :
    (s.writeRecord l r).queue.records = s.queue.records ++ [r] := by
  rw [State.queue_writeRecord]
  rfl

theorem State.WritesOf.writeRecord {l : Line} {r : Record} (s : State) (h : r.line = l) :
    State.WritesOf l s (s.writeRecord l r) :=
  ⟨[r], records_writeRecord s l r, fun q hq => by rw [List.mem_singleton.1 hq, h]⟩

theorem State.WritesOf.modLine (s : State) (l : Line) (f : LineEngine → LineEngine) :
    State.WritesOf l s (s.modLine l f) :=
  State.WritesOf.same (by simp)

theorem State.WritesOf.finishBoundary (s : State) (l : Line) : State.WritesOf l s (s.finishBoundary l) :=
  State.WritesOf.same (by simp [State.finishBoundary, State.applyPendingSwap])

theorem State.WritesOf.beginTargeted (s : State) (l : Line) (w : Work) (i : StationIndex) :
    State.WritesOf l s (s.beginTargeted l w i) :=
  State.WritesOf.same (by simp [State.beginTargeted])

theorem State.WritesOf.dropReservation (s : State) (l : Line) : State.WritesOf l s (s.dropReservation l) :=
  State.WritesOf.modLine s l _

theorem State.WritesOf.faultStation (s : State) (l : Line) (e : DirectedEntry) :
    State.WritesOf l s (s.faultStation l e) :=
  ((State.WritesOf.writeRecord (l := l) (r := .fault l e.station e.group e.tag .station (s.line l).cycleNumber) s
    rfl).trans (State.WritesOf.modLine _ l _)).trans (State.WritesOf.dropReservation _ l)

theorem State.WritesOf.startWork (s : State) (l : Line) (w : Work) : State.WritesOf l s (s.startWork l w) := by
  unfold State.startWork
  cases w with
  | visit k i g n =>
    dsimp only
    split
    · exact State.WritesOf.beginTargeted s l _ i
    · exact State.WritesOf.dropReservation s l
  | alert i =>
    dsimp only
    split
    · exact State.WritesOf.beginTargeted s l _ i
    · exact State.WritesOf.dropReservation s l
  | directed e =>
    dsimp only
    split
    · split
      · exact State.WritesOf.beginTargeted s l _ _
      · exact State.WritesOf.faultStation s l e
    · split
      · exact State.WritesOf.beginTargeted s l _ _
      · exact State.WritesOf.faultStation s l e
    · exact State.WritesOf.modLine s l _
  | mark v o =>
    exact ((State.WritesOf.writeRecord (l := l) (r := .mark l v o (s.line l).cycleNumber) s rfl).trans
      (State.WritesOf.dropReservation _ l)).trans (State.WritesOf.finishBoundary _ l)

theorem State.WritesOf.startUnit (s : State) (l : Line) : State.WritesOf l s (s.startUnit l) := by
  unfold State.startUnit
  split
  · exact State.WritesOf.refl l s
  · exact (State.WritesOf.modLine s l _).trans (State.WritesOf.startWork _ l _)

theorem State.WritesOf.grant (s : State) (l : Line) (n : Nat) : State.WritesOf l s (s.grant l n) :=
  (State.WritesOf.modLine s l _).trans (State.WritesOf.startUnit _ l)

theorem State.WritesOf.requestUnit (s : State) (l : Line) (w : Work) : State.WritesOf l s (s.requestUnit l w) := by
  unfold State.requestUnit
  dsimp only
  split
  · exact (State.WritesOf.modLine s l _).trans (State.WritesOf.grant _ l _)
  · exact (State.WritesOf.modLine s l _).trans (State.WritesOf.same rfl)

theorem State.WritesOf.boundary (s : State) (l : Line) : State.WritesOf l s (s.boundary l) := by
  unfold State.boundary
  dsimp only
  split
  · exact State.WritesOf.requestUnit s l _
  · exact State.WritesOf.finishBoundary s l

theorem State.WritesOf.chooseInCycle (s : State) (l : Line) : State.WritesOf l s (s.chooseInCycle l) := by
  unfold State.chooseInCycle
  dsimp only
  split
  · split
    · exact (State.WritesOf.modLine s l _).trans (State.WritesOf.requestUnit _ l _)
    · exact (State.WritesOf.modLine s l _).trans (State.WritesOf.requestUnit _ l _)
  · exact (State.WritesOf.modLine s l _).trans (State.WritesOf.requestUnit _ l _)

theorem State.WritesOf.chooseOutside (s : State) (l : Line) : State.WritesOf l s (s.chooseOutside l) := by
  unfold State.chooseOutside
  split
  · exact State.WritesOf.requestUnit s l _
  · exact State.WritesOf.refl l s

theorem State.WritesOf.invokeArbiter (s : State) (l : Line) : State.WritesOf l s (s.invokeArbiter l) := by
  unfold State.invokeArbiter
  dsimp only
  split
  · exact State.WritesOf.refl l s
  · split
    · exact State.WritesOf.refl l s
    · split
      · exact (State.WritesOf.modLine s l _).trans (State.WritesOf.boundary _ l)
      · exact (State.WritesOf.modLine s l _).trans (State.WritesOf.chooseInCycle _ l)
    · split
      · exact State.WritesOf.modLine s l _
      · exact State.WritesOf.chooseOutside s l
    · split
      · exact State.WritesOf.modLine s l _
      · exact State.WritesOf.chooseOutside s l

theorem State.WritesOf.settleLine (l : Line) : ∀ (n : Nat) (s : State), State.WritesOf l s (State.settleLine l n s)
  | 0, s => State.WritesOf.refl l s
  | n + 1, s => by
    unfold State.settleLine
    split
    · exact (State.WritesOf.invokeArbiter s l).trans (State.WritesOf.settleLine l n _)
    · exact State.WritesOf.refl l s

theorem State.WritesOf.afterGrant (s : State) (l : Line) : State.WritesOf l s (s.afterGrant l) := by
  unfold State.afterGrant
  split
  · dsimp only
    split
    · exact State.WritesOf.trans (State.WritesOf.same rfl) (State.WritesOf.settleLine l _ _)
    · exact State.WritesOf.same rfl
  · exact State.WritesOf.refl l s

/-! ### A line that writes no records -/

theorem State.WroteThen.same {m : Line} {s t : State} (h : t.queue.records = s.queue.records) : State.WroteThen m [] s t :=
  ⟨[], by rw [h]; simp, fun _ hr => by cases hr⟩

theorem State.WroteThen.refl (m : Line) (s : State) : State.WroteThen m [] s s :=
  State.WroteThen.same rfl

/-- What line m wrote first stays what it wrote while it writes no more. -/
theorem State.WroteThen.trans {m : Line} {own : List Record} {s t u : State} (h : State.WroteThen m own s t)
    (k : State.WroteThen m [] t u) : State.WroteThen m own s u := by
  obtain ⟨a, h1, h2⟩ := h
  obtain ⟨b, k1, k2⟩ := k
  refine ⟨a ++ b, by rw [k1, h1]; simp, fun r hr => ?_⟩
  rcases List.mem_append.1 hr with hr | hr
  · exact h2 r hr
  · exact k2 r hr

theorem State.WritesOf.none {l m : Line} {s t : State} (h : State.WritesOf l s t) (hm : l ≠ m) :
    State.WroteThen m [] s t := by
  obtain ⟨a, h1, h2⟩ := h
  exact ⟨a, by rw [h1]; simp, fun r hr => by rw [h2 r hr]; exact hm⟩

/-- The arbiters write no record of a line that is not free. -/
theorem settleArbiters_wrote {m : Line} : ∀ (n : Nat) (s : State), (s.line m).free = false →
    State.WroteThen m [] s (State.settleArbiters n s)
  | 0, s, _ => State.WroteThen.refl m s
  | n + 1, s, hf => by
    unfold State.settleArbiters
    split
    · exact State.WroteThen.refl m s
    · next l hl =>
      have hm : m ≠ l := by
        rintro rfl
        rw [arbiterDue_free (nextArbiter_due hl)] at hf
        cases hf
      have h0 : State.OnlyLine l s (if s.lineA.arbiterDue && s.lineB.arbiterDue then s.nextRace else s) := by
        split
        · exact State.OnlyLine.nextRace s l
        · exact State.OnlyLine.refl l s
      have w0 : State.WritesOf l s (if s.lineA.arbiterDue && s.lineB.arbiterDue then s.nextRace else s) := by
        split
        · exact State.WritesOf.same rfl
        · exact State.WritesOf.refl l s
      have hline := (h0.trans (State.OnlyLine.invokeArbiter _ l)).line m hm
      exact ((w0.trans (State.WritesOf.invokeArbiter _ l)).none (Ne.symm hm)).trans
        (settleArbiters_wrote n _ (by rw [hline]; exact hf))

theorem finish_wrote {s : State} {m : Line} (h : (s.line m).free = false) : State.WroteThen m [] s s.finish :=
  settleArbiters_wrote _ s h

/-- The serving of the hold list writes no record of a line that is not in it. -/
theorem serveHoldList_wrote {m : Line} : ∀ (n : Nat) (s : State), (∀ h ∈ s.queue.holdList, h.line ≠ m) →
    State.WroteThen m [] s (State.serveHoldList n s)
  | 0, s, _ => State.WroteThen.refl m s
  | n + 1, s, hh => by
    unfold State.serveHoldList
    split
    · exact State.WroteThen.refl m s
    · next e rest he =>
      split
      · dsimp only
        have h0 : State.OnlyLine e.line s { s with queue := { s.queue with holdList := rest } } :=
          ⟨fun l _ => by cases l <;> rfl, fun l hl => by simp [State.heldOf, he, Ne.symm hl], fun _ _ => rfl⟩
        have h1 := (h0.trans (State.OnlyLine.grant _ e.line e.request)).trans (State.OnlyLine.afterGrant _ e.line)
        have w0 : State.WritesOf e.line s { s with queue := { s.queue with holdList := rest } } := State.WritesOf.same rfl
        have w1 := (w0.trans (State.WritesOf.grant _ e.line e.request)).trans (State.WritesOf.afterGrant _ e.line)
        refine (w1.none (hh e (by rw [he]; exact List.mem_cons_self))).trans
          (serveHoldList_wrote n _ fun h hmem => ?_)
        rcases h1.held h hmem with h2 | h2
        · exact hh h h2
        · rw [h2]
          exact hh e (by rw [he]; exact List.mem_cons_self)
      · exact State.WroteThen.refl m s

theorem serve_wrote {s : State} {m : Line} (h : ∀ e ∈ s.queue.holdList, e.line ≠ m) : State.WroteThen m [] s s.serve :=
  serveHoldList_wrote _ s h

theorem enterStopped_wrote (s : State) (l m : Line) : State.WroteThen m [] s (s.enterStopped l) :=
  State.WroteThen.same (by rw [queue_enterStopped])

/-- Behind the records a completing unit hands on, its line writes none. -/
theorem completeUnit_wrote {s : State} {l : Line} {c : UnitContext} (e : UnitEnd) (hs : s.Coherent)
    (hc : (s.line l).current = some c) : State.WroteThen l [] (s.handedOn l c e) (s.completeUnit l e) := by
  have hco := (coherent_iff s).1 hs
  have hno := LineCoherent_no_entry (hco l) ((hco l).good.chosen_none (by rw [hc]; rfl))
  have hlist : ∀ h ∈ ((s.handedOn l c e).dropReservation l).queue.holdList, h.line ≠ l := by
    rw [State.queue_dropReservation, holdList_handedOn]
    exact hno
  have hdrop : State.WroteThen l [] (s.handedOn l c e) ((s.handedOn l c e).dropReservation l) :=
    State.WroteThen.same (by rw [State.queue_dropReservation])
  rw [completeUnit_eq e hc]
  have hret : State.WroteThen l [] (s.handedOn l c e) ((s.handedOn l c e).returnReservation l) := by
    unfold State.returnReservation
    split
    · exact hdrop.trans (serve_wrote hlist)
    · exact hdrop
  exact hret.trans (State.WroteThen.same (by rw [State.queue_modLine]))

end Sys2Proof.Machine
end

