-- ==== Sys2Proof/Laws/Elsewhere.lean ====
section
/-! SUPPORT. What the end of a unit leaves alone on the other line and in every entry but that of the unit's station. -/

namespace Sys2Proof.Machine

/-- From s to t the work of line l on the station `target` went on: the other line was only served, and so was every
other entry. -/
structure State.Elsewhere (l : Line) (target : Option StationIndex) (s t : State) : Prop where
  line : ∀ m, m ≠ l → (s.line m).Selected (t.line m)
  entry : ∀ i, target ≠ some i → (s.entry i).onlyServed (t.entry i)

theorem State.Selected.elsewhere {s t : State} (h : s.Selected t) (l : Line) (target : Option StationIndex) :
    State.Elsewhere l target s t :=
  ⟨fun m _ => h.lines m, fun i _ => h.entries i⟩

theorem State.Elsewhere.refl (l : Line) (target : Option StationIndex) (s : State) : State.Elsewhere l target s s :=
  (State.Selected.refl s).elsewhere l target

theorem State.Elsewhere.trans {l : Line} {target : Option StationIndex} {s t u : State}
    (h : State.Elsewhere l target s t) (k : State.Elsewhere l target t u) : State.Elsewhere l target s u :=
  ⟨fun m hm => (h.line m hm).trans (k.line m hm), fun i hi => Entry.onlyServed_trans (h.entry i hi) (k.entry i hi)⟩

theorem State.Elsewhere.modLine (l : Line) (target : Option StationIndex) (s : State) (f : LineEngine → LineEngine) :
    State.Elsewhere l target s (s.modLine l f) :=
  ⟨fun m hm => by rw [State.line_modLine_ne _ _ hm]; exact LineEngine.Selected.refl _,
    fun i _ => by rw [State.entry_modLine]; exact Entry.onlyServed_refl _⟩

theorem State.Elsewhere.modEntry (l : Line) (s : State) (i : StationIndex) (f : Entry → Entry) :
    State.Elsewhere l (some i) s (s.modEntry i f) :=
  ⟨fun m _ => by rw [State.line_modEntry]; exact LineEngine.Selected.refl _,
    fun j hj => by
      rw [State.entry_modEntry_ne _ _ fun h => hj (by rw [h])]
      exact Entry.onlyServed_refl _⟩

theorem State.Elsewhere.disableNow {l : Line} {s : State} {i : StationIndex} (hi : (s.entry i).line = l) :
    State.Elsewhere l (some i) s (s.disableNow i) := by
  unfold State.disableNow State.leaveAlertSet
  rw [hi]
  exact (State.Elsewhere.modEntry l s i _).trans (State.Elsewhere.modLine l _ _ _)

theorem State.Elsewhere.recordChange (l : Line) (target : Option StationIndex) (s : State) (w : Work) (i : StationIndex)
    (old new : StationState) (c : RecordCause) : State.Elsewhere l target s (s.recordChange l w i old new c) :=
  (State.Selected.writeRecord s l _).elsewhere l target

theorem State.Elsewhere.outcomeAnswered (l : Line) (s : State) (w : Work) (i : StationIndex) (c : RecordCause)
    (a : HeldAnswer) : State.Elsewhere l (some i) s (s.outcomeAnswered l w i c a) := by
  have h1 := State.Elsewhere.modEntry l s i Entry.answer
  have h2 : ∀ d : State, State.Elsewhere l (some i) s d → State.Elsewhere l (some i) s
      (d.modLine l (fun x => { x with alertSet := alertInsert i x.alertSet })) :=
    fun d hd => hd.trans (State.Elsewhere.modLine l _ d _)
  unfold State.outcomeAnswered
  dsimp only
  repeat' split
  all_goals first
    | exact State.Elsewhere.refl _ _ _
    | exact h1
    | exact h1.trans (State.Elsewhere.recordChange l _ _ _ _ _ _ _)
    | exact h2 _ h1
    | exact h2 _ (h1.trans (State.Elsewhere.recordChange l _ _ _ _ _ _ _))

theorem State.Elsewhere.outcomeFailed (l : Line) (s : State) (w : Work) (i : StationIndex) (o : FailingOutcome) :
    State.Elsewhere l (some i) s (s.outcomeFailed l w i o) := by
  have h1 := State.Elsewhere.modEntry l s i
  unfold State.outcomeFailed
  dsimp only
  repeat' split
  · exact State.Elsewhere.refl _ _ _
  · exact ((h1 _).trans (State.Elsewhere.recordChange l _ _ _ _ _ _ _)).trans (State.Elsewhere.modLine l _ _ _)
  · exact (h1 _).trans (State.Elsewhere.recordChange l _ _ _ _ _ _ _)
  · exact h1 _

theorem State.Elsewhere.applyOutcome (l : Line) (s : State) (w : Work) (e : UnitEnd) :
    State.Elsewhere l (workStation w) s (s.applyOutcome l w e) := by
  unfold State.applyOutcome
  split
  · exact State.Elsewhere.refl _ _ _
  · next i hi =>
    rw [hi]
    split
    · exact State.Elsewhere.outcomeAnswered l s w i _ _
    · exact State.Elsewhere.outcomeAnswered l s w i _ _
    · exact State.Elsewhere.outcomeFailed l s w i _
    all_goals exact State.Elsewhere.refl _ _ _

theorem State.Elsewhere.leaveService {l : Line} {s : State} {w : Work}
    (hw : ∀ i, workStation w = some i → (s.entry i).line = l) :
    State.Elsewhere l (workStation w) s (s.leaveService w) := by
  unfold State.leaveService
  split
  · exact State.Elsewhere.refl _ _ _
  · next i hi =>
    rw [hi]
    have h1 := State.Elsewhere.modEntry l s i (fun e => { e with inService := false })
    dsimp only
    split
    · refine h1.trans (State.Elsewhere.disableNow ?_)
      rw [State.entry_modEntry]
      exact hw i hi
    · exact h1

theorem State.Elsewhere.leaveDirected (l : Line) (target : Option StationIndex) (s : State) (w : Work) :
    State.Elsewhere l target s (s.leaveDirected l w) := by
  unfold State.leaveDirected
  split
  · exact State.Elsewhere.modLine l _ s _
  · exact State.Elsewhere.refl _ _ _

theorem State.Elsewhere.returnReservation (l : Line) (target : Option StationIndex) (s : State) :
    State.Elsewhere l target s (s.returnReservation l) := by
  have h1 := (State.Selected.dropReservation s l).elsewhere l target
  unfold State.returnReservation
  split
  · exact h1.trans ((State.Selected.serve _).elsewhere l target)
  · exact h1

/-- A unit that completes leaves the other line and every entry but that of its own station as serving leaves them
(R38, R62). -/
theorem State.Elsewhere.completeUnit {l : Line} {s : State} {c : UnitContext} (e : UnitEnd)
    (hc : (s.line l).current = some c) (hw : ∀ i, workStation c.work = some i → (s.entry i).line = l) :
    State.Elsewhere l (workStation c.work) s (s.completeUnit l e) := by
  unfold State.completeUnit
  rw [hc]
  refine State.Elsewhere.trans ?_ (State.Elsewhere.modLine l _ _ _)
  refine State.Elsewhere.trans ?_ (State.Elsewhere.returnReservation l _ _)
  refine State.Elsewhere.trans ?_ (State.Elsewhere.leaveDirected l _ _ _)
  have h1 : State.Evolves s (s.writeRecord? l (ownRecord l (s.line l).cycleNumber c.work e)) :=
    State.Evolves.writeRecord? s l _
  have h2 := h1.trans (State.Evolves.applyOutcome _ l c.work e)
  refine State.Elsewhere.trans ?_ (State.Elsewhere.leaveService fun i hi => ((h2.entries i).1).trans (hw i hi))
  refine State.Elsewhere.trans ?_ (State.Elsewhere.applyOutcome l _ _ _)
  cases ownRecord l (s.line l).cycleNumber c.work e with
  | none => exact State.Elsewhere.refl _ _ _
  | some r => exact (State.Selected.writeRecord s l r).elsewhere l _

/-- The entry of a line into STOPPED. -/
theorem State.Elsewhere.enterStopped (l : Line) (target : Option StationIndex) (s : State) :
    State.Elsewhere l target s (s.enterStopped l) := by
  unfold State.enterStopped
  refine State.Elsewhere.trans ?_ ((State.Selected.raise _ _).elsewhere l target)
  exact (State.Elsewhere.modLine l target s _).trans ((State.Selected.applyPendingSwap _ l).elsewhere l target)

/-- The fault of a line with a unit in progress (R62, R133). -/
theorem State.Elsewhere.faultLine {l : Line} {s : State} {c : UnitContext} (cause : FaultCause)
    (hc : (s.line l).current = some c) (hw : ∀ i, workStation c.work = some i → (s.entry i).line = l) :
    State.Elsewhere l (workStation c.work) s (s.faultLine l cause) := by
  unfold State.faultLine
  dsimp only
  refine State.Elsewhere.trans ?_ ((State.Selected.raise _ _).elsewhere l _)
  refine State.Elsewhere.trans ?_ ((State.Selected.applyPendingSwap _ l).elsewhere l _)
  exact (State.Elsewhere.completeUnit _ hc hw).trans (State.Elsewhere.modLine l _ _ _)

/-- The discard of a pending unit (R113). -/
theorem State.Elsewhere.discardPending (l : Line) (target : Option StationIndex) (s : State) :
    State.Elsewhere l target s (s.discardPending l) := by
  have h0 : State.Elsewhere l target s (s.leaveHoldList l) := by
    refine State.Selected.elsewhere ?_ l target
    exact State.Selected.withQueue s _ rfl rfl List.prefix_rfl fun _ => rfl
  have h1 := (h0.trans ((State.Selected.dropReservation _ l).elsewhere l target)).trans
    (State.Elsewhere.modLine l target _ LineEngine.clearChosen)
  unfold State.discardPending
  dsimp only
  split
  · exact h1.trans ((State.Selected.serve _).elsewhere l target)
  · exact h1

/-- What a LINE HALT or LINE RESET does first (R62, R131, R132). -/
theorem State.Elsewhere.cutShort {l : Line} {s : State} {target : Option StationIndex}
    (ht : target = (s.line l).current.bind (fun c => workStation c.work))
    (hw : ∀ i, target = some i → (s.entry i).line = l) : State.Elsewhere l target s (s.cutShort l) := by
  unfold State.cutShort
  split
  · next hc =>
    obtain ⟨c, hc⟩ := Option.isSome_iff_exists.1 hc
    rw [hc] at ht
    obtain rfl : target = workStation c.work := ht
    refine (State.Elsewhere.modLine l _ s LineEngine.endLead).trans ?_
    refine State.Elsewhere.completeUnit _ ((current_endLead s l).trans hc) fun i hi => ?_
    rw [State.entry_modLine]
    exact hw i hi
  · split
    · exact State.Elsewhere.discardPending l target s
    · exact State.Elsewhere.refl l target s

end Sys2Proof.Machine
end

