-- ==== Sys2Proof/Tests/Slice0.lean ====
section
/-! SUPPORT. Tests on small concrete states: the refused terms, the manual's worked numbers, one step of every row, and
for every obligation with hypotheses a state that meets them. -/

namespace Sys2Proof.Tests

open Sys2Proof.Machine

set_option Elab.async false

/-! ### Small states -/

/-- The part READY after reset. -/
def ready : State :=
  { State.reset with window := { Window.reset with readiness := .ready } }

/-- A state with the four PARAM registers at given words. -/
def params (s : State) (p0 p1 p2 p3 : Word) : State :=
  { s with window := { s.window with param0 := p0, param1 := p1, param2 := p2, param3 := p3 } }

/-- A state with the table address at a region and index. -/
def tableAt (s : State) (r : BitVec 4) (k : BitVec 12) : State :=
  { s with window := { s.window with tableRegion := r, tableIndex := k } }

/-- A configured entry with retry limit 1, fail threshold 2 and follow-up enabled. -/
def entryOf (l : Line) (address : Nat) (state : StationState) : Entry :=
  { Entry.reset with
    state := state, line := l, address := address, retryLimit := 1, failThreshold := 2, alertFollowUp := true
    consecutive := match state with | .offline => 2 | .suspect => 1 | _ => 0 }

/-- READY with six stations configured: 1 to 4 of Line A, UNKNOWN, ONLINE, SUSPECT, OFFLINE; 5 DISABLED; 6 of Line B. -/
def stations : State :=
  ((((((ready.setEntry 1 (entryOf .a 1 .unknown)).setEntry 2 (entryOf .a 2 .online)).setEntry 3
    (entryOf .a 3 .suspect)).setEntry 4 (entryOf .a 4 .offline)).setEntry 5 (entryOf .a 5 .disabled)).setEntry 6
    (entryOf .b 1 .online))

/-- A bank of two slots: station 2, group 1, limit 8, every cycle; station 3, group 2, limit 40, every second cycle. -/
def bank : Bank :=
  { length := 2
    slots := (Bank.reset.slots.set 0 { station := 2, group := 1, limit := 8, divisor := 1 }).set 1
      { station := 3, group := 2, limit := 40, divisor := 2 } }

/-- The stations' state with Line A RUNNING in its first cycle, the slot cursor at slot 0, and nothing taken up. -/
def running : State :=
  stations.setLine .a
    { LineEngine.reset with runState := .running, condition := .inCycle, cycleNumber := 1, bankZero := bank }

/-- The unit context of a schedule visit of slot 0 of `bank`, or of any other work, for a line address. -/
def contextOf (w : Work) (address : Nat) : UnitContext :=
  { work := w, frame := workFrame w address, budget := 2, used := 0, lastFailing := none, held := none }

/-- A line with a unit in progress in a phase, in its first cycle, past slot 0. -/
def inProgress (w : Work) (address : Nat) (p : Phase) : LineEngine :=
  { LineEngine.reset with
    runState := .running, condition := .inCycle, cycleNumber := 1, cursor := 1, bankZero := bank, receiver := .hunt
    phase := p, current := some (contextOf w address), reservation := some (workRequest w) }

/-- The visit of slot 0 of `bank`. -/
def visit : Work :=
  .visit 0 2 1 8

/-- A directed POLL of station 2, group 1, at most 8 bytes, tag 5. -/
def pollEntry : DirectedEntry :=
  { kind := .poll, station := 2, group := 1, count := 8, tag := 5, payload := [] }

/-- A BCAST of one byte. -/
def bcastEntry : DirectedEntry :=
  { kind := .bcast, station := 0, group := 1, count := 1, tag := 9, payload := [0x55] }

/-- A MARK record of Line A. -/
def markRecord : Record :=
  .mark .a 1 false 1

/-- A DATA record of Line A with one byte. -/
def dataRecord : Record :=
  .data .a .schedule 2 1 0 false [0x77] 1

/-- Line A in a run state with a unit of station 2 in a phase, station 2 an entry of Line A; Line B RUNNING with a
follow-up of station 6 as its pending unit, HELD for 26 words; one record queued; station 3 in Line A's alert set. -/
def busyWith (r : RunState) (w : Work) (e : Entry) (p : Phase) : State :=
  let s := (stations.setEntry 2 e).setLine .a
    { inProgress w e.address p with
      runState := r, condition := if r = .running then .inCycle else .none, alertSet := [3]
      directed := match w with | .directed d => [d] | _ => [] }
  let t := s.setLine .b
    { LineEngine.reset with
      runState := .running, condition := .idleEmpty, chosen := some (.alert 6), alertSet := [6] }
  { t with queue := { ReplyQueue.reset with records := [dataRecord], holdList := [⟨.b, 26⟩] } }

/-- Station 2 of Line A, ONLINE and in service. -/
def served : Entry :=
  { entryOf .a 2 .online with inService := true }

/-- That state with the visit of slot 0 in a phase. -/
def busy (p : Phase) : State :=
  busyWith .running visit served p

/-- Both lines in the hold list, Line B first, and as many records before them as asked. -/
def bothHeld (n : Nat) : State :=
  let s := (busy (.await none)).setLine .a
    { LineEngine.reset with
      runState := .running, condition := .inCycle, cycleNumber := 1, cursor := 1, bankZero := bank, chosen := some visit }
  { s with queue := { s.queue with records := List.replicate n markRecord, holdList := [⟨.b, 26⟩, ⟨.a, 10⟩] } }

/-- Line A alone, with the BCAST in progress in a phase. -/
def casting (p : Phase) : State :=
  stations.setLine .a { inProgress (.directed bcastEntry) 0 p with directed := [bcastEntry] }

/-- The state a command answers with, the state itself where it does not answer one. -/
def after (c : Instr) (s : State) : State :=
  match exec c s with
  | .next t => t
  | .fault _ => s
  | .refused _ => s

/-- The state a step answers with, the state itself where it does not answer one. -/
def stepped (s : State) : State :=
  match step s with
  | .next t => t
  | .fault _ => s
  | .refused _ => s

/-- RESULT and RESULT DETAIL. -/
def verdict (s : State) : Result × Nat :=
  (s.window.result, s.window.resultDetail.toNat)

/-! ### Terms the well-formedness check refuses -/

theorem test_unknownCommand_of_a_command_is_refused : (Instr.unknownCommand 0x0010).wellFormed = false := by decide

theorem test_registerWrite_of_a_row_register_is_refused :
    rowRegisters.all (fun a => !(Instr.registerWrite a 0).wellFormed) = true := by decide

theorem test_wellFormed_terms : (Instr.unknownCommand 0x00A6).wellFormed = true ∧
    (Instr.registerWrite 0x02 7).wellFormed = true := by decide

/-! ### The opcode table's words -/

theorem test_no_word_spells_a_command (nbits w : Nat) (s : State) :
    decodeTableWord nbits w = none ∧ s.withFetchWord nbits w = s := ⟨rfl, rfl⟩

/-! ### The manual's worked numbers -/

theorem test_crc_check_value :
    crcBytes 0xFFFF [0x31, 0x32, 0x33, 0x34, 0x35, 0x36, 0x37, 0x38, 0x39] = 0x29B1 := by decide +kernel

theorem test_poll_example_frame :
    buildFrame .poll 5 2 8 [] = [0xC5, 0x01, 0x05, 0x02, 0x08, 0xFE, 0xEE] := by decide +kernel

theorem test_part_status_words : ready.partStatus = 0x4820 ∧ State.reset.partStatus = 0x4821 ∧
    ready.refuseTable.partStatus = 0x4822 := by decide +kernel

theorem test_slot_words_drop_unstored_bits :
    ((Bank.reset.write 1 0xFFFF).write 2 0xFFFF).word 1 = 0x3F0F ∧
    ((Bank.reset.write 1 0xFFFF).write 2 0xFFFF).word 2 = 0x1F3F := by decide +kernel

theorem test_data_record_words :
    (Record.data .a .schedule 4 2 3 false [1, 2, 3, 4] 12).words = [0x2084, 0x0304, 0x000C, 0x0102, 0x0304] := by
  decide +kernel

theorem test_fault_record_words :
    (Record.fault .b 9 1 42 .busy 31).words = [0x7449, 0x2A07, 0x001F] := by decide +kernel

theorem test_station_words :
    (stations.stationWord 8, stations.stationWord 9, stations.stationWord 13) = (0x6802, 0x2001, 0x2101) := by
  decide +kernel

theorem test_line_status_word : (busy (.await (some 0))).lineStatus .a 0 = 0x5580 ∧
    (busy (.await (some 0))).lineStatus .b 0 = 0x7800 ∧ (busy (.await (some 0))).lineStatus .a 2 = 0x0001 := by
  decide +kernel

/-! ### One step of every row -/

theorem test_hardwareResetAssert : (after .hardwareResetAssert (busy (.idle .none))).window.resetInput = true ∧
    (after .hardwareResetAssert (busy (.idle .none))).queue = ReplyQueue.reset := by decide +kernel

theorem test_hardwareResetRelease :
    after .hardwareResetRelease (after .hardwareResetAssert ready) = State.reset := by decide +kernel

theorem test_initEnd : after .initEnd State.reset = ready := by decide +kernel

theorem test_stationConfigure : verdict (after .stationConfigure (params ready 7 1 62 0x0F07)) = (.accepted, 0) ∧
    (after .stationConfigure (params ready 7 1 62 0x0F07)).entry 7 =
      { Entry.reset with state := .disabled, line := .b, address := 62, retryLimit := 7, failThreshold := 15 } ∧
    verdict (after .stationConfigure (params stations 5 0 2 0x0201)) = (.duplicate, 2) := by decide +kernel

theorem test_stationEnable : ((after .stationEnable (params stations 5 0 0 0)).entry 5).state = .unknown ∧
    verdict (after .stationEnable (params stations 2 0 0 0)) = (.state, 3) := by decide +kernel

theorem test_stationDisable : ((after .stationDisable (params stations 2 0 0 0)).entry 2).state = .disabled ∧
    verdict (after .stationDisable (params (busy (.await none)) 2 0 0 0)) = (.accepted, 1) := by decide +kernel

theorem test_stationClear : ((after .stationClear (params stations 5 0 0 0)).entry 5).state = .unconfigured ∧
    verdict (after .stationClear (params stations 4 0 0 0)) = (.state, 5) := by decide +kernel

theorem test_stationZeroCounts :
    verdict (after .stationZeroCounts (params stations 64 0 0 0)) = (.range, 0) ∧
    ((after .stationZeroCounts (params (stations.setEntry 2 { entryOf .a 2 .online with answered := 9 }) 2 0 0
      0)).entry 2).answered = 0 := by decide +kernel

theorem test_listSwap :
    verdict (after .listSwap (params (stations.setLine .a { LineEngine.reset with bankOne := bank }) 0 0 0 0)) =
      (.accepted, 0) ∧
    verdict (after .listSwap (params (busy (.await none)) 0 0 0 0)) = (.accepted, 1) ∧
    verdict (after .listSwap (params (stations.setLine .a
      { LineEngine.reset with bankOne := { bank with length := 3 } }) 0 0 0 0)) = (.range, 2) := by decide +kernel

theorem test_submit :
    (after .submit (params (stations.setLine .a { LineEngine.reset with
      submitBuffer := LineEngine.reset.submitBuffer.set 0 0xABCD }) 0 0x0202 0x0103 7)).lineA.directed =
      [{ kind := .set, station := 2, group := 1, count := 3, tag := 7, payload := [0xAB, 0xCD, 0x00] }] ∧
    verdict (after .submit (params stations 0 0x0106 0 0)) = (.state, 0x83) := by decide +kernel

theorem test_queueRelease : (after .queueRelease (busy (.await none))).queue.holdList = [] ∧
    verdict (after .queueRelease ready) = (.empty, 0) := by decide +kernel

theorem test_queueFlush : verdict (after .queueFlush (busy (.await none))) = (.state, 2) ∧
    verdict (after .queueFlush { ready with queue := { ReplyQueue.reset with records := [markRecord] } }) =
      (.accepted, 1) := by decide +kernel

theorem test_queueSetThreshold : (after .queueSetThreshold (params ready 255 0 0 0)).queue.threshold = 255 ∧
    verdict (after .queueSetThreshold (params ready 256 0 0 0)) = (.range, 0) := by decide +kernel

theorem test_drainMode : (after .drainMode (params ready 2 0 0 0)).queue.drainMode = .dma ∧
    verdict (after .drainMode (params { ready with
      queue := { ReplyQueue.reset with records := [markRecord], cursor := 1 } } 2 0 0 0)) = (.mode, 1) := by
  decide +kernel

theorem test_lineSet : (after .lineSet (params ready 1 6 8 0)).lineB.params.burst = 8 ∧
    verdict (after .lineSet (params ready 1 6 9 0)) = (.range, 6) := by decide +kernel

theorem test_lineStart :
    (after .lineStart (params (stations.setLine .a { LineEngine.reset with bankZero := bank }) 0 0 0 0)).lineA.current =
      some (contextOf visit 2) ∧
    verdict (after .lineStart (params ready 1 0 0 0)) = (.accepted, 1) := by decide +kernel

theorem test_lineStop : (after .lineStop (params (busy (.await none)) 0 0 0 0)).lineA.runState = .stopping ∧
    (after .lineStop (params (busy (.await none)) 1 0 0 0)).lineB =
      { LineEngine.reset with alertSet := [6] } := by decide +kernel

theorem test_lineHalt : (after .lineHalt (params (busy (.await none)) 0 0 0 0)).lineA.runState = .stopped ∧
    ((after .lineHalt (params (busy (.await none)) 0 0 0 0)).entry 2).inService = false := by decide +kernel

theorem test_lineReset : (after .lineReset (params (busy (.await none)) 0 0 0 0)).lineA.cycleNumber = 0 ∧
    ((after .lineReset (params (busy (.await none)) 0 0 0 0)).entry 4).state = .unknown := by decide +kernel

theorem test_partReset : after .partReset (busy (.await none)) = State.reset := by decide +kernel

theorem test_unknownCommand : verdict (after (.unknownCommand 0x00A6) ready) = (.unknown, 0x00A6) ∧
    verdict (after (.unknownCommand 0x00A6) State.reset) = (.notReady, 0) := by decide +kernel

theorem test_queueDataRead : (after .queueDataRead (busy (.await none))).window.dataLines = 0x2042 ∧
    (after .queueDataRead (busy (.await none))).queue.cursor = 1 := by decide +kernel

theorem test_tableDataRead : (after .tableDataRead (tableAt stations 0 8)).window.dataLines = 0x6802 ∧
    (after .tableDataRead (tableAt stations 0 4095)).window.tableIndex = 0 := by decide +kernel

theorem test_tableDataWrite : (after (.tableDataWrite 3) (tableAt ready 2 0)).lineA.bankOne.length = 3 ∧
    (after (.tableDataWrite 3) (tableAt ready 1 0)).window.tableRefused = true := by decide +kernel

theorem test_partStatusRead : (after .partStatusRead ready.refuseTable).window.dataLines = 0x4822 ∧
    (after .partStatusRead ready.refuseTable).window.tableRefused = false := by decide +kernel

theorem test_intEnableWrite : (after (.intEnableWrite 0xF005) ready).interrupts.enables = 0x005 := by decide +kernel

theorem test_intAckWrite : (after (.intAckWrite 3) (ready.raise .queueHeld)).interrupts.latched = 0 ∧
    (after (.intAckWrite 4) (ready.raise .queueHeld)).interrupts.latched = 4 := by decide +kernel

theorem test_registerWrite : (after (.registerWrite 8 0x3FFF) ready).window.tableRegion = 3 ∧
    after (.registerWrite 0 0xFFFF) ready = ready := by decide +kernel

theorem test_dackStrobe : (after (.dackStrobe .none) { ready with
      queue := { ReplyQueue.reset with records := [markRecord], cursor := 2, drainMode := .dma } }).queue.records = [] ∧
    after (.dackStrobe (.hostWrite 1 0x10)) ready = ready := by decide +kernel

theorem test_startDetected :
    (after (.startDetected .a) (busy (.await (some 7)))).lineA.phase = .await none ∧
    (after (.startDetected .a) (busy (.guard 5 6))).lineA.phase = .guard 0 6 := by decide +kernel

theorem test_character :
    (after (.character .a 0xC5 .good) (after (.startDetected .a) (busy (.await (some 7))))).lineA.phase =
      .receive [] 0xFFFF (some 0) ∧
    (after (.character .a 0xC4 .good) (after (.startDetected .a) (busy (.send 0 false)))).lineA.contention = 1 := by
  decide +kernel

theorem test_waitMarkEnd : (after (.waitMarkEnd .a) State.reset).lineA.receiver = .hunt := by decide +kernel

theorem test_quietReached : ((after (.quietReached .a) (busy (.guard 9 9))).lineA.shifter.map Shifter.char) =
    some 0xC5 ∧ (after (.quietReached .a) (busy (.guard 9 9))).de .a = true := by decide +kernel

theorem test_noiseLimitExpiry : (after (.noiseLimitExpiry .a) (busy (.guard 9 9))).lineA.runState = .faulted ∧
    (after (.noiseLimitExpiry .a) (busy (.guard 9 9))).isPending (.lineFault .a) = true := by decide +kernel

/-- NOISE faults nothing once quiet has reached 3 CT: 24960 periods at RATE 51. -/
theorem test_noiseLimitExpiry_after_quiet :
    after (.noiseLimitExpiry .a) (busy (.guard 24960 532480)) = busy (.guard 24960 532480) ∧
    (after (.noiseLimitExpiry .a) (busy (.guard 24959 532480))).lineA.runState = .faulted := by decide +kernel

theorem test_transmitCharacterEnd :
    (after (.transmitCharacterEnd .a) ((busy (.send 6 true)).modLine .a (fun x =>
      { x with shifter := some (x.shift 6 false) }))).lineA.phase = .await (some 0) ∧
    (after (.transmitCharacterEnd .a) ((busy (.send 0 true)).modLine .a (fun x =>
      { x with shifter := some (x.shift 0 false) }))).lineA.phase = .send 1 false := by decide +kernel

theorem test_responseTimeout : (after (.responseTimeout .a) (busy (.await (some 9)))).lineA.phase = .guard 0 0 ∧
    ((after (.responseTimeout .a) (busy (.await (some 9)))).entry 2).failedAttempts = 1 := by decide +kernel

theorem test_gapLimitExpiry : (after (.gapLimitExpiry .a) (busy (.receive [] 0 (some 9)))).lineA.phase = .guard 0 0 ∧
    ((after (.gapLimitExpiry .a) (busy (.receive [] 0 (some 9)))).entry 2).failedAttempts = 1 := by decide +kernel

theorem test_backoffEnd :
    (after (.backoffEnd .a) (busy (.idle (.backoff 9)))).lineA.phase = .guard 0 0 := by decide +kernel

theorem test_settleEnd : (after (.settleEnd .a) (casting (.idle (.settle 9)))).queue.records =
    [.confirm .a 0 1 9 false true 1] ∧ (after (.settleEnd .a) (casting (.idle (.settle 9)))).isPending
      (.directedDone .a) = true := by decide +kernel

theorem test_intervalElapsed : (after (.intervalElapsed .a) (running.modLine .a (fun x =>
    { x with condition := .waiting }))).lineA.cycleNumber = 2 := by decide +kernel

theorem test_unitStart : (after (.unitStart .a) (stations.setLine .a { LineEngine.reset with
    runState := .running, condition := .inCycle, chosen := some visit, reservation := some 10 })).lineA.current =
      some (contextOf visit 2) := by decide +kernel

theorem test_deferredDisable : ((after (.deferredDisable 2) (stations.setEntry 2
    { entryOf .a 2 .online with disablePending := true })).entry 2).state = .disabled := by decide +kernel

theorem test_stoppingLineStopped : (after (.stoppingLineStopped .a) (stations.setLine .a { LineEngine.reset with
    runState := .stopping })).isPending (.lineStopped .a) = true := by decide +kernel

theorem test_holdListGrant :
    ((after .holdListGrant (busy (.await none))).lineB.current.map UnitContext.work) = some (.alert 6) := by
  decide +kernel

theorem test_workSelection : (after (.workSelection .a) running).lineA.current = some (contextOf visit 2) ∧
    (after (.workSelection .a) running).lineA.reservation = some 10 := by decide +kernel

theorem test_pendingSwapTakesEffect : (after (.pendingSwapTakesEffect .a) (stations.setLine .a
    { LineEngine.reset with swapPending := true })).lineA.active = .one := by decide +kernel

theorem test_cycleStart : (after (.cycleStart .a) (running.modLine .a (fun x =>
    { x with condition := .idleEmpty }))).lineA.cycleNumber = 2 := by decide +kernel

theorem test_step_takes_the_front : stepped { State.reset with pending := [.initEnd] } = ready := by
  decide +kernel

theorem test_step_idles : stepped (busy (.await (some 0))) =
    (busy (.await (some 1))).modLine .a (fun x => { x with interval := 1 }) := by decide +kernel

/-! ### The invariants hold of the busy states -/

/-- What Entry.Legal says, as a check. -/
def legalEntry (e : Entry) : Bool :=
  decide (e.address ≤ 62 ∧ e.retryLimit ≤ 7 ∧ e.failThreshold ≤ 15) &&
    decide (e.state ≠ .unconfigured → 1 ≤ e.address ∧ 1 ≤ e.failThreshold) &&
    decide (isWorking e.state = false → e.consecutive = 0 ∧ e.inService = false ∧ e.disablePending = false) &&
    decide (e.consecutive ≤ e.failThreshold) &&
    decide (isWorking e.state = true → (e.state = .offline ↔ e.consecutive = e.failThreshold)) &&
    decide (e.state = .online → e.consecutive = 0) && decide (e.answered ≤ 65535) &&
    decide (e.failedAttempts ≤ 65535) && decide (e.disablePending = true → e.inService = true)

theorem legal_of_legalEntry {e : Entry} (h : legalEntry e = true) : e.Legal := by
  simp only [legalEntry, Bool.and_eq_true, decide_eq_true_eq] at h
  obtain ⟨⟨⟨⟨⟨⟨⟨⟨h1, h2⟩, h3⟩, h4⟩, h5⟩, h6⟩, h7⟩, h8⟩, h9⟩ := h
  exact ⟨h1, h2, h3, h4, h5, h6, h7, h8, h9⟩

theorem busyWith_coherent {r : RunState} {w : Work} {e : Entry} {p : Phase} (hr : r = .running ∨ r = .stopping)
    (hw : w.Legal) (hm : w.isMark = false) : (busyWith r w e p).Coherent where
  lines l := by
    cases l with
    | a =>
      refine ⟨?_, ?_, ?_, ?_, rfl, ?_, ?_, ?_, ?_⟩
      · intro h
        rcases hr with rfl | rfl <;> rcases h with h | h <;> cases h
      · intro _
        rfl
      · rcases hr with rfl | rfl
        · exact (by decide : (CycleCondition.inCycle = .none ↔ RunState.running ≠ .running))
        · exact (by decide : (CycleCondition.none = .none ↔ RunState.stopping ≠ .running))
      · rcases hr with rfl | rfl
        · exact (by decide : (FaultCause.none = .none ↔ RunState.running ≠ .faulted))
        · exact (by decide : (FaultCause.none = .none ↔ RunState.stopping ≠ .faulted))
      · intro h
        cases h
      · intro h
        cases h
      · intro c h
        obtain rfl : contextOf w e.address = c := Option.some.inj h
        exact ⟨hw, hm⟩
      · intro v h
        cases h
    | b =>
      refine ⟨?_, ?_, ?_, ?_, rfl, ?_, ?_, ?_, ?_⟩
      · intro h
        rcases h with h | h <;> cases h
      · intro h
        cases h
      · exact (by decide : (CycleCondition.idleEmpty = .none ↔ RunState.running ≠ .running))
      · exact (by decide : (FaultCause.none = .none ↔ RunState.running ≠ .faulted))
      · intro _
        rfl
      · intro _
        rfl
      · intro c h
        cases h
      · intro v h
        obtain rfl : Work.alert 6 = v := Option.some.inj h
        exact trivial
  hold := by
    refine ⟨?_, ?_, ?_⟩
    · exact (by decide : [Line.b].Nodup)
    · intro l
      show (∃ n, (⟨l, n⟩ : HoldEntry) ∈ [⟨Line.b, 26⟩]) ↔ _
      cases l with
      | a =>
        constructor
        · rintro ⟨n, h⟩
          simp at h
        · intro h
          cases h
      | b =>
        constructor
        · intro _
          rfl
        · intro _
          exact ⟨26, by simp⟩
    · intro h hh v hv
      obtain rfl : h = ⟨.b, 26⟩ := List.mem_singleton.1 hh
      obtain rfl : Work.alert 6 = v := Option.some.inj hv
      rfl
  lists l := by
    cases l with
    | a => exact ⟨(by decide +kernel : bank.swapRefusal = none), fun h => by cases h⟩
    | b => exact ⟨(by decide +kernel : Bank.reset.swapRefusal = none), fun h => by cases h⟩
  directed l := by
    cases l with
    | a =>
      cases w with
      | directed d =>
        refine ⟨(by decide : 1 ≤ 8), ?_⟩
        intro x hx
        obtain rfl : x = d := List.mem_singleton.1 hx
        exact hw
      | visit _ _ _ _ => exact ⟨Nat.zero_le _, fun x hx => by cases hx⟩
      | alert _ => exact ⟨Nat.zero_le _, fun x hx => by cases hx⟩
      | mark _ _ => exact ⟨Nat.zero_le _, fun x hx => by cases hx⟩
    | b => exact ⟨Nat.zero_le _, fun x hx => by cases hx⟩

/-- A directed SET of station 2, group 1, one byte, tag 5. -/
def setEntry : DirectedEntry :=
  { kind := .set, station := 2, group := 1, count := 1, tag := 5, payload := [0x11] }

/-- The visit, a directed POLL, a directed SET and the BCAST are legal units. -/
theorem units_legal : visit.Legal ∧ (Work.directed pollEntry).Legal ∧ (Work.directed setEntry).Legal ∧
    (Work.directed bcastEntry).Legal :=
  ⟨(by decide : 8 ≤ 40), ⟨(by decide : 8 ≤ 40), rfl⟩, ⟨(by decide : 1 ≤ 40), rfl⟩, ⟨(by decide : 1 ≤ 40), rfl, rfl⟩⟩

theorem busyWith_entries (r : RunState) (w : Work) (p : Phase) {e : Entry} (he : legalEntry e = true) :
    (busyWith r w e p).EntriesLegal := by
  intro i
  apply legal_of_legalEntry
  by_cases hi : i = 2
  · subst hi
    exact he
  · have h : (busyWith r w e p).entry i = (stations.setEntry 2 e).entry i := rfl
    rw [h, State.entry_setEntry_ne _ _ hi]
    exact (by decide +kernel : ∀ i : StationIndex, legalEntry (stations.entry i) = true) i

theorem busyWith_units {r : RunState} {w : Work} {p : Phase} {e : Entry} (hw : ∀ i, workStation w = some i → i = 2)
    (hl : e.line = .a) (hs : isWorking e.state = true) (hi : e.inService = true) :
    (busyWith r w e p).UnitsOwnStations := by
  intro l c i hc hi2
  cases l with
  | a =>
    obtain rfl : contextOf w e.address = c := Option.some.inj hc
    obtain rfl := hw i hi2
    exact ⟨hl, hs, hi⟩
  | b => cases hc

/-- The busy state with the visit has every property the invariants name. -/
theorem busy_invariants (p : Phase) : (busy p).Coherent ∧ (busy p).EntriesLegal ∧ (busy p).UnitsOwnStations ∧
    (busy p).ServiceOwned ∧ (busy p).AlertsLegal ∧ (busy p).wordsUsed + (busy p).wordsReserved ≤ 1024 := by
  refine ⟨busyWith_coherent (Or.inl rfl) units_legal.1 rfl, busyWith_entries _ _ _ (by decide +kernel),
    busyWith_units (fun i hi => (Option.some.inj hi).symm) rfl rfl rfl, ?_, ?_, (by decide +kernel : 4 + 10 ≤ 1024)⟩
  · intro i
    constructor
    · intro h
      have : i = 2 := (by decide +kernel : ∀ i : StationIndex,
        ((busy (.idle .none)).entry i).inService = true → i = 2) i h
      subst this
      exact ⟨.a, contextOf visit 2, rfl, rfl, rfl⟩
    · rintro ⟨l, c, hc, hw, -⟩
      cases l with
      | a =>
        obtain rfl : contextOf visit 2 = c := Option.some.inj hc
        obtain rfl : (2 : StationIndex) = i := Option.some.inj hw
        rfl
      | b => cases hc
  · intro l
    cases l with
    | a =>
      refine ⟨(by decide : [(3 : StationIndex)].Pairwise (· < ·)), ?_⟩
      intro i hi
      obtain rfl : i = 3 := List.mem_singleton.1 hi
      exact ⟨rfl, Or.inr rfl⟩
    | b =>
      refine ⟨(by decide : [(6 : StationIndex)].Pairwise (· < ·)), ?_⟩
      intro i hi
      obtain rfl : i = 6 := List.mem_singleton.1 hi
      exact ⟨rfl, Or.inl rfl⟩

theorem busy_addresses (p : Phase) : (busy p).NoSharedAddress := by
  intro i j
  exact (by decide +kernel : ∀ i j : StationIndex, i ≠ j → ((busy (.idle .none)).entry i).state ≠ .unconfigured →
    ((busy (.idle .none)).entry j).state ≠ .unconfigured →
    ((busy (.idle .none)).entry i).line = ((busy (.idle .none)).entry j).line →
    ((busy (.idle .none)).entry i).address ≠ ((busy (.idle .none)).entry j).address) i j

/-! ### For each obligation with hypotheses, states that meet them, clause by clause -/

theorem witness_StepIdlePassesOnePeriod :
    ((after .hardwareResetAssert ready).pending = [] ∧ (after .hardwareResetAssert ready).window.resetInput = true) ∧
    (State.reset.pending = [] ∧ State.reset.window.resetInput = false ∧ State.reset.window.readiness = .init 0) ∧
    (ready.pending = [] ∧ ready.window.resetInput = false ∧ ready.window.readiness = .ready) := by decide +kernel

/-- The busy state in the backoff with the character of a transmission cut short in Line A's shifter. -/
def cutShort (lead : Bool) (elapsed : Nat) : State :=
  (busy (.idle (.backoff 0))).modLine .a (fun x => { x with shifter := some { x.shift 0 lead with elapsed := elapsed } })

/-- Each time of READY, at RATE 51 (CT = 8320 periods), in the period in which it comes, and one period before. -/
theorem witness_times_come :
    ((stepped (busy (.guard 24959 9))).lineA.phase = .send 0 false ∧
      (stepped (busy (.guard 24958 9))).lineA.phase = .guard 24959 10) ∧
    ((stepped (busy (.guard 7 532479))).lineA.runState = .faulted ∧
      (stepped (busy (.guard 7 532478))).lineA.phase = .guard 8 532479 ∧
      (stepped (busy (.guard 24959 532479))).lineA.phase = .send 0 false) ∧
    ((stepped (busy (.await (some 166399)))).lineA.phase = .guard 0 0 ∧
      (stepped (busy (.await (some 166398)))).lineA.phase = .await (some 166399)) ∧
    ((stepped (busy (.receive [] 0 (some 16640)))).lineA.phase = .guard 0 0 ∧
      (stepped (busy (.receive [] 0 (some 16639)))).lineA.phase = .receive [] 0 (some 16640)) ∧
    ((stepped (busy (.idle (.backoff 66559)))).lineA.phase = .guard 0 0 ∧
      (stepped (busy (.idle (.backoff 66558)))).lineA.phase = .idle (.backoff 66559)) ∧
    ((stepped (casting (.idle (.settle 83199)))).lineA.current = none ∧
      (stepped (casting (.idle (.settle 83198)))).lineA.phase = .idle (.settle 83199)) := by decide +kernel

/-- The busy state with a character in Line A's shifter. -/
def carrying (p : Phase) (r : Shifter) : State :=
  (busy p).modLine .a (fun x => { x with shifter := some r })

/-- A character of an earlier transmission, at RATE 4095. -/
def slow (n : Nat) : Shifter :=
  { char := 0x55, lead := false, elapsed := n, bitPeriods := 65536 }

/-- SEND is entered with quiet at 3 CT while an old character is still in the shifter; its own transmission begins when
that character has ended, and a character received before is discarded (log entry 11). -/
theorem test_send_waits_for_the_transmitter :
    ((stepped (carrying (.guard 24959 9) (slow 100))).lineA.phase = .sendWaiting ∧
      (stepped (carrying (.guard 24959 9) (slow 100))).lineA.shifter = some (slow 101)) ∧
    ((stepped (carrying .sendWaiting (slow 655358))).lineA.phase = .sendWaiting ∧
      (stepped (carrying .sendWaiting (slow 655359))).lineA.phase = .send 0 false ∧
      (stepped (carrying .sendWaiting (slow 655359))).lineA.shifter =
        some { char := 0xC5, lead := true, elapsed := 0, bitPeriods := 832 }) ∧
    (let s := (carrying .sendWaiting (slow 0)).modLine .a (fun x => { x with receiver := .assemble })
     (after (.character .a 0xC4 .good) s).lineA.phase = .sendWaiting ∧
       (after (.character .a 0xC4 .good) s).lineA.contention = 0) := by decide +kernel

/-- LINE HALT with the frame's first character in the shifter: in the bit time of DE lead DE falls at once, later the
character is finished (log entry 23). -/
theorem test_halt_in_the_lead :
    let s (n : Nat) : State := params (carrying (.send 0 false)
      { char := 0xC5, lead := true, elapsed := n, bitPeriods := 832 }) 0 0 0 0
    (after .lineHalt (s 831)).lineA.shifter = none ∧ (after .lineHalt (s 831)).de .a = false ∧
    (after .lineHalt (s 832)).de .a = true ∧ (after .lineReset (s 0)).de .a = false := by decide +kernel

/-- GUARD does not outlast its limit, however the quiet count moved: an expiry that is late still comes. -/
theorem test_noise_limit_after_its_period :
    (stepped (busy (.guard 0 600000))).lineA.runState = .faulted ∧
    (stepped (carrying (.guard 0 600000) (slow 100))).lineA.runState = .faulted := by decide +kernel

/-- The windows of 10 and 11 bit times of 832 periods, and the interval of 1 CT of a WAITING line. -/
theorem witness_windows_and_interval_end :
    ((stepped (cutShort false 8319)).lineA.shifter = none ∧ (stepped (cutShort false 8318)).lineA.shifter.isSome = true) ∧
    ((stepped (cutShort true 9151)).lineA.shifter = none ∧ (stepped (cutShort true 9150)).lineA.shifter.isSome = true) ∧
    (let s (n : Nat) : State := running.modLine .a (fun x => { x with condition := .waiting, interval := n })
     (stepped (s 8319)).lineA.cycleNumber = 2 ∧ (stepped (s 8318)).lineA.cycleNumber = 1 ∧
       (stepped (s 8318)).lineA.interval = 8319) := by decide +kernel

/-- The end of a character cut short uncovers a backoff that has run out meanwhile: two times of one line in a period. -/
theorem witness_second_time_comes :
    (stepped ((cutShort true 9151).modLine .a (fun x => { x with phase := .idle (.backoff 66559) }))).lineA.phase =
      .guard 0 0 := by decide +kernel

/-- Both lines have a time in the same period; which comes first is the free order of log entry 6. -/
theorem witness_both_lines_due :
    let s := (busy (.await (some 166399))).modLine .b (fun x =>
      { x with shifter := some { x.shift 0 false with elapsed := 8319 } })
    s.pending = [] ∧ s.live = true ∧ (s.lineA.tick).timedEvent = some .response ∧
      (s.lineB.tick).timedEvent = some .characterSent := by decide +kernel

/-- The own record of the line that acts second in a period stands before or behind a record of the first, as the free
order says, and its STATE record behind both (R107, log entry 24). -/
theorem test_records_of_both_lines_interleave :
    let own : Record := .data .b .schedule 6 1 0 false [] 1
    let change : Record := .state .b .schedule 6 .suspect .online .good 1
    let s (records : List Record) : State := { ready with queue := { ReplyQueue.reset with records := records } }
    ((s [markRecord, dataRecord, own, change]).recordsApart 1 2).queue.records =
      (if Config.raceFirst 0 = true then [markRecord, own, dataRecord, change]
       else [markRecord, dataRecord, own, change]) ∧
    (s [markRecord, dataRecord, own, markRecord]).recordsApart 1 2 = s [markRecord, dataRecord, own, markRecord] := by
  refine ⟨?_, by decide +kernel⟩
  cases h : Config.raceFirst 0 <;>
    simp [State.recordsApart, recordsOfOneUnit, slipBack, Record.line, ready, State.reset, h]

/-- A directed POLL in its last attempt, on a line of an otherwise busy state. -/
def lastAttempt (x : LineEngine) (d : DirectedEntry) (p : Phase) : LineEngine :=
  { x with
    phase := p, current := some { contextOf (.directed d) 2 with used := 1 }, reservation := some 11, directed := [d] }

/-- Both lines end a unit in the same period, each with a record of its own and a STATE record. -/
theorem witness_both_lines_write_two_records :
    let line (d : DirectedEntry) (n : Nat) : LineEngine := lastAttempt (inProgress visit 1 (.idle .none)) d (.await (some n))
    let s (n : Nat) : State :=
      (stations.setLine .a (line pollEntry n)).setLine .b (line { pollEntry with station := 6 } n)
    (s 166399).pending = [] ∧ (s 166399).live = true ∧
    ((s 166399).lineA.tick.timedEvent = some .response ∧ (s 166399).lineB.tick.timedEvent = some .response) ∧
    (((s 166400).fireDue .a).fireDue .b).queue.records =
      [.fault .a 2 1 5 .timeout 1, .state .a .directed 2 .online .suspect .timeout 1, .fault .b 6 1 5 .timeout 1,
        .state .b .directed 6 .online .suspect .timeout 1] := by decide +kernel

/-- TXD and DE through a window with DE lead, at the first period of each part: lead, start bit, the two lowest bits of
C5H, the highest, the stop bit; and with an empty shifter. -/
theorem witness_txd_and_de :
    ([0, 831, 832, 1664, 2496, 7488, 8320, 9151] : List Nat).map (fun n => (cutShort true n).txd .a) =
      [true, true, false, true, false, true, true, true] ∧
    (cutShort true 0).de .a = true ∧ (cutShort true 9151).de .a = true ∧
    (busy (.idle .none)).txd .a = true ∧ (busy (.idle .none)).de .a = false := by decide +kernel

/-- INIT about to reach its 4096th period. -/
def lateInit : State :=
  { State.reset with window := { Window.reset with readiness := .init 4095 } }

theorem witness_init_ends_at_its_limit : (stepped lateInit).window.readiness = .ready ∧
    (stepped { lateInit with window := { lateInit.window with readiness := .init 4094 } }).window.readiness =
      .init 4095 := by decide +kernel

theorem witness_ResetRowsAct : (after .hardwareResetAssert ready).window.resetInput = true ∧
    ready.window.resetInput = false ∧ ready.live = true := by decide +kernel

theorem witness_CommandSlotRefusals :
    (State.reset.window.resetInput = false ∧ State.reset.window.readiness = .init 0) ∧
    (ready.live = true ∧ (Instr.unknownCommand 0).wellFormed = true ∧ (Instr.unknownCommand 0xFFFF).wellFormed = true) := by
  decide +kernel

theorem witness_NothingActsInReset : (after .hardwareResetAssert ready).window.resetInput = true ∧
    State.reset.live = false ∧ (after .hardwareResetAssert ready).live = false := by decide +kernel

theorem witness_RegisterWritesAct : ready.window.resetInput = false ∧ State.reset.window.resetInput = false ∧
    ([0x00, 0x06, 0x0A, 0x10, 0x12, 0x14, 0x1F] : List (BitVec 5)).all (fun a =>
      a ∉ [(0x01 : BitVec 5), 0x02, 0x03, 0x04, 0x05, 0x08, 0x09, 0x11, 0x13]) = true := by decide +kernel

theorem witness_WindowReadsAct : State.reset.window.resetInput = false ∧ State.reset.window.readiness ≠ .ready ∧
    ready.window.resetInput = false ∧ ready.window.readiness = .ready := by decide +kernel

theorem witness_StationWordsLayout : (stations.entry 0).Legal ∧ (stations.entry 4).Legal ∧ (stations.entry 63).Legal :=
  ⟨legal_of_legalEntry (by decide +kernel), legal_of_legalEntry (by decide +kernel),
    legal_of_legalEntry (by decide +kernel)⟩

theorem witness_TableWritesRefusedOrIgnored : ready.live = true ∧
    ((tableAt ready 0 255).window.tableRegion = 0 ∧ (tableAt ready 0 255).window.tableIndex.toNat < 256) ∧
    ((tableAt ready 1 192).window.tableRegion = 1 ∧ (tableAt ready 1 192).window.tableIndex.toNat < 193 ∧
      BankNumber.zero = (ready.line .a).active) ∧
    (((ready.setLine .b { LineEngine.reset with swapPending := true }).line .b).swapPending = true) ∧
    (tableAt ready 0 256).window.tableIndex.toNat = 256 ∧ (tableAt ready 4 193).window.tableIndex.toNat = 193 ∧
    (tableAt ready 6 20).window.tableIndex.toNat = 20 ∧ (tableAt ready 7 0).window.tableRegion = 7 := by decide +kernel

theorem witness_BankWriteKeepsStoredFields :
    (tableAt ready 2 0).live = true ∧ (tableAt ready 2 0).window.tableRegion = 2 ∧
    (tableAt ready 2 0).window.tableIndex.toNat < 193 ∧ (tableAt ready 4 192).window.tableIndex.toNat < 193 ∧
    BankNumber.one ≠ ((tableAt ready 2 0).line .a).active ∧ ((tableAt ready 2 0).line .a).swapPending = false := by
  decide +kernel

theorem witness_TableWordsLayout : (tableAt ready 5 0).live = true ∧ (tableAt ready 5 0).window.tableRegion = 5 ∧
    (tableAt ready 5 0).window.tableIndex.toNat = (0 : Fin 20).val ∧
    (tableAt ready 6 19).window.tableIndex.toNat = (19 : Fin 20).val := by decide +kernel

theorem witness_StationIndexChecked : (params ready 64 0 0 0).live = true ∧
    63 < (params ready 64 0 0 0).window.param0.toNat ∧ 63 < (params ready 0xFFFF 0 0 0).window.param0.toNat := by
  decide +kernel

theorem witness_ConfigureDecided_working : (params stations 1 0 0 0).live = true ∧
    (params stations 1 0 0 0).window.param0.toNat = (1 : StationIndex).val ∧
    isWorking ((params stations 1 0 0 0).entry 1).state = true := by decide +kernel

/-- The first fields of Table 3-1 that STATION CONFIGURE of an idle entry refuses, each at a boundary value. -/
theorem witness_ConfigureDecided_fields :
    isWorking (stations.entry 5).state = false ∧ (params stations 5 0 0 0).live = true ∧
    verdict (after .stationConfigure (params stations 5 2 0 0)) = (.range, 1) ∧
    verdict (after .stationConfigure (params stations 5 1 0 0)) = (.range, 2) ∧
    verdict (after .stationConfigure (params stations 5 0 63 0)) = (.range, 2) ∧
    verdict (after .stationConfigure (params stations 5 0 62 0x0108)) = (.range, 3) ∧
    verdict (after .stationConfigure (params stations 5 0 62 0x0007)) = (.range, 4) ∧
    verdict (after .stationConfigure (params stations 5 0 62 0x1007)) = (.range, 4) ∧
    verdict (after .stationConfigure (params stations 5 0 62 0x0F07)) = (.accepted, 0) ∧
    verdict (after .stationConfigure (params stations 5 0 1 0x0100)) = (.duplicate, 1) := by decide +kernel

theorem witness_EnableClearZeroDecided : (params stations 5 0 0 0).live = true ∧
    (params stations 5 0 0 0).window.param0.toNat = (5 : StationIndex).val ∧ (stations.entry 5).state = .disabled ∧
    (stations.entry 63).state = .unconfigured ∧
    (params stations 63 0 0 0).window.param0.toNat = (63 : StationIndex).val := by decide +kernel

theorem witness_DisableDecided : (isWorking (stations.entry 4).state = true ∧ (stations.entry 4).inService = false) ∧
    (isWorking ((busy (.await none)).entry 2).state = true ∧ ((busy (.await none)).entry 2).inService = true) ∧
    (stations.entry 5).state = .disabled ∧ (stations.entry 0).state = .unconfigured ∧
    (params (busy (.await none)) 2 0 0 0).live = true := by decide +kernel

theorem witness_DeferredDisableTakesEffect :
    let s := stations.setEntry 2 { entryOf .a 2 .online with disablePending := true }
    s.live = true ∧ (s.entry 2).disablePending = true ∧ (s.entry 2).inService = false ∧
      (s.entry 1).disablePending = false := by decide +kernel

theorem witness_InterruptWritesAct : ready.live = true ∧
    ([1, 2, 3, 5, 11, 12] : List Word).all (fun w => 1 ≤ w.toNat ∧ w.toNat ≤ 12 ∧ w.toNat ≠ 4) = true ∧
    ([0, 4, 13, 0xFFFF] : List Word).all (fun w => w.toNat = 0 ∨ w.toNat = 4 ∨ 12 < w.toNat) = true := by
  decide +kernel

theorem witness_InterruptOutputs : (ready.raise .queueHeld).window.resetInput = false ∧
    (ready.raise .queueHeld).NoThresholdLatch ∧ ready.NoThresholdLatch :=
  ⟨rfl, (by decide +kernel : (ready.raise .queueHeld).interrupts.latched &&& causeBit .queueThreshold = 0),
    (by decide +kernel : ready.interrupts.latched &&& causeBit .queueThreshold = 0)⟩

theorem witness_QueueSettingsDecided :
    ([0, 1, 2, 3, 255, 256] : List Word).all (fun w => (params ready w 0 0 0).live) = true ∧
    (DrainMode.dma = .dma ∧ (busy (.await none)).queue.drainMode ≠ .dma ∧
      (after .queueDataRead (busy (.await none))).queue.cursor ≠ 0) ∧
    ready.queue.cursor = 0 := by decide +kernel

theorem witness_FlushDecided : (busy (.await none)).live = true ∧
    ((busy (.await none)).line .a).reservation.isSome = true ∧ (busy (.await none)).isHeld .b = true ∧
    ready.live = true ∧ (ready.line .a).reservation = none ∧ ready.isHeld .a = false ∧ ready.isHeld .b = false := by
  decide +kernel

/-- READY in a drain mode with one MARK record queued and the read cursor at a word of it. -/
def queued (m : DrainMode) (k : Nat) : State :=
  { ready with queue := { ReplyQueue.reset with records := [markRecord], drainMode := m, cursor := k } }

theorem witness_ReleaseDecided : ((queued .dma 0).live = true ∧ (queued .dma 0).queue.drainMode = .dma) ∧
    (ready.queue.drainMode ≠ .dma ∧ ready.queue.records = []) ∧
    ((queued .pioAuto 0).queue.drainMode ≠ .dma ∧ (queued .pioAuto 0).queue.records ≠ [] ∧
      (queued .pioAuto 0).queue.holdList = [] ∧ (queued .pioAuto 0).nextArbiter = none) := by decide +kernel

theorem witness_QueueWordsServed : (queued .pioManual 3).headSize ≤ (queued .pioManual 3).queue.cursor ∧
    ready.headSize ≤ ready.queue.cursor ∧ (queued .pioManual 3).live = true ∧
    (queued .dma 2).queue.cursor < markRecord.words.length ∧ (queued .dma 2).queue.records = [markRecord] ∧
    (queued .dma 2).queue.cursor + 1 = markRecord.size ∧ (queued .dma 1).queue.cursor + 1 < markRecord.size ∧
    (queued .pioAuto 2).queue.drainMode = .pioAuto := by decide +kernel

theorem witness_RecordWordsMatchSize :
    (Record.data .a .schedule 1 1 0 false (List.replicate 39 0xEE) 0).size = 23 ∧
    (Record.data .a .schedule 1 1 0 false [] 0).size = 3 ∧ (List.replicate 39 (0xEE : Byte)).length ≤ 40 ∧
    2 * 19 < (List.replicate 39 (0xEE : Byte)).length ∧
    (Record.data .a .schedule 1 1 0 false (List.replicate 39 0xEE) 0).words[22]? = some 0xEE00 ∧
    (Record.confirm .b 0 15 0xA5 false true 7).words = [0x57C0, 0xA540, 7] ∧
    (Record.state .a .alert 3 .suspect .offline .timeout 7).words = [0x8803, 0x4503, 7] ∧
    (Record.mark .b 96 true 7).words = [0xBC00, 0x00E0, 7] := by decide +kernel

theorem witness_RecordWriteMovesWords : ((busy (.await none)).line .a).reservation = some 10 ∧
    markRecord.size ≤ 10 ∧ markRecord.line = .a := by decide +kernel

theorem witness_ListSwapDecided_refused :
    1 < (params ready 2 0 0 0).window.param0.toNat ∧ (params ready 1 0 0 0).window.param0.toNat = 1 ∧
    verdict (after .listSwap (params (stations.setLine .b
      { LineEngine.reset with bankOne := { bank with length := 97 } }) 1 0 0 0)) = (.range, 0xFF) ∧
    verdict (after .listSwap (params (stations.setLine .b
      { LineEngine.reset with bankOne := { bank with length := 96 } }) 1 0 0 0)) = (.range, 2) ∧
    verdict (after .listSwap (params (stations.setLine .b
      { LineEngine.reset with bankOne := bank, swapPending := true }) 1 0 0 0)) = (.pending, 0) := by decide +kernel

theorem witness_ListSwapDecided_accepted :
    (busyWith .stopping visit served (.await none)).lineA.runState = .stopping ∧
    (busy (.await none)).lineA.runState = .running ∧ (busy (.await none)).lineA.activeBank.length ≠ 0 ∧
    (busy (.await none)).lineA.bankOne.length.toNat ≤ 96 ∧ (busy (.await none)).lineA.swapPending = false ∧
    (busy (.await none)).lineB.runState = .running ∧ (busy (.await none)).lineB.activeBank.length = 0 ∧
    ready.lineA.runState = .stopped := by decide +kernel

/-- The steps of Table 5-1 that refuse, each at a boundary value. -/
theorem witness_SubmitRefused : (params stations 0 0 0 0).live = true ∧
    verdict (after .submit (params stations 2 0x0102 0 0)) = (.range, 0) ∧
    verdict (after .submit (params stations 0 0x0002 0 0)) = (.range, 1) ∧
    verdict (after .submit (params stations 0 0x0402 0 0)) = (.range, 1) ∧
    verdict (after .submit (params stations 0 0x0140 0 0)) = (.range, 2) ∧
    verdict (after .submit (params stations 0 0x03FF 0x1000 0)) = (.range, 3) ∧
    verdict (after .submit (params stations 0 0x0102 0x0F29 0)) = (.range, 4) ∧
    verdict (after .submit (params stations 0 0x0102 0x0F28 256)) = (.range, 5) ∧
    verdict (after .submit (params stations 0 0x013F 0x0F28 255)) = (.state, 0) ∧
    verdict (after .submit (params stations 1 0x0202 0 0)) = (.state, 0x83) ∧
    verdict (after .submit (params (stations.setLine .a
      { LineEngine.reset with directed := List.replicate 8 pollEntry }) 0 0x0302 0 0)) = (.full, 8) := by
  decide +kernel

theorem witness_SubmitAccepted :
    let s := params (stations.setLine .a { LineEngine.reset with directed := List.replicate 7 pollEntry }) 0 0x0202 0x0F28 255
    s.live = true ∧ s.window.param0.toNat = 0 ∧ s.window.param1.toNat / 256 = 2 ∧ s.window.param1.toNat % 256 = 2 ∧
    s.window.param2.toNat / 256 = 15 ∧ s.window.param2.toNat % 256 = 40 ∧ s.window.param3.toNat = 255 ∧
    (s.entry 2).state ≠ .unconfigured ∧ (s.entry 2).line = .a ∧ (s.line .a).directed.length < 8 ∧
    s.nextArbiter = none := by decide +kernel

theorem witness_RestingLineEventsAct :
    let s := stations.setLine .a { LineEngine.reset with swapPending := true }
    let t := stations.setLine .a { LineEngine.reset with runState := .stopping }
    s.live = true ∧ (s.line .a).swapPending = true ∧ (s.line .a).runState = .stopped ∧
    (s.line .b).swapPending = false ∧ (t.line .a).runState = .stopping ∧ (t.line .a).current = none ∧
    (busyWith .stopping visit served (.await none)).lineA.current.isSome = true ∧
    (s.line .a).runState ≠ .stopping := by decide +kernel

/-- The bounds of Table 7-2, each kept and passed. -/
theorem witness_LineSetDecided :
    verdict (after .lineSet (params ready 2 1 0 0)) = (.range, 0xFE) ∧
    verdict (after .lineSet (params ready 0 0 0 0)) = (.range, 0xFD) ∧
    verdict (after .lineSet (params ready 0 8 0 0)) = (.range, 0xFD) ∧
    verdict (after .lineSet (params (busy (.await none)) 0 1 0 0)) = (.state, 1) ∧
    ([(1, 4095), (2, 2), (2, 255), (3, 2), (3, 255), (4, 65535), (5, 1), (5, 64), (6, 1), (6, 8), (7, 1)] :
      List (Word × Word)).all (fun p => verdict (after .lineSet (params ready 1 p.1 p.2 0)) = (.accepted, 0)) = true ∧
    ([(1, 4096), (2, 1), (2, 256), (3, 1), (3, 256), (5, 0), (5, 65), (6, 0), (6, 9), (7, 2)] :
      List (Word × Word)).all (fun p =>
        verdict (after .lineSet (params ready 1 p.1 p.2 0)) = (.range, p.1.toNat)) = true := by decide +kernel

theorem witness_LineStartDecided :
    let s := stations.setLine .a { LineEngine.reset with bankZero := bank, runState := .faulted, faultCause := .noise }
    (params s 0 0 0 0).live = true ∧ (s.line .a).runState = .faulted ∧ (s.line .a).activeBank.length ≠ 0 ∧
    (s.line .b).runState = .stopped ∧ (s.line .b).activeBank.length = 0 ∧
    (busy (.await none)).lineA.runState = .running := by decide +kernel

theorem witness_LineStopDecided : (params (busy (.await none)) 1 0 0 0).Coherent ∧
    ((busy (.await none)).line .b).runState = .running ∧ ((busy (.await none)).line .b).current = none ∧
    ((busy (.await none)).line .a).current.isSome = true ∧ (ready.line .a).runState = .stopped ∧
    ((busyWith .stopping visit served (.await none)).line .a).runState = .stopping := by
  have h := (busy_invariants (.await none)).1
  exact ⟨⟨h.lines, ⟨h.hold.once, h.hold.listed, h.hold.request⟩, h.lists, h.directed⟩, by decide +kernel⟩

/-- LINE STOP of the head of the hold list: the line behind it is served, and no record is written for the unit
discarded. -/
theorem witness_LineStopDecided_head :
    (bothHeld 330).queue.holdList.head? = some ⟨.b, 26⟩ ∧ ((bothHeld 330).line .b).runState = .running ∧
    ((bothHeld 330).line .b).current = none ∧
    (let t := after .lineStop (params (bothHeld 330) 1 0 0 0)
     t.queue.holdList = [] ∧ t.lineA.current = some (contextOf visit 2) ∧ t.queue.records = (bothHeld 330).queue.records) := by
  decide +kernel

/-- Station 2 of Line A, in service with a disable pending. -/
def leaving : Entry :=
  { served with disablePending := true }

theorem witness_LineHaltDecided (e : Entry) (he : e = served ∨ e = leaving) :
    (busyWith .running (.directed setEntry) e (.await none)).Coherent ∧
    (busyWith .stopping visit e (.await none)).Coherent ∧
    (busyWith .running (.directed setEntry) e (.await none)).UnitsOwnStations ∧
    (busyWith .stopping visit e (.await none)).UnitsOwnStations := by
  have h1 : e.line = .a ∧ isWorking e.state = true ∧ e.inService = true := by
    rcases he with rfl | rfl <;> exact ⟨rfl, rfl, rfl⟩
  exact ⟨busyWith_coherent (Or.inl rfl) units_legal.2.2.1 rfl, busyWith_coherent (Or.inr rfl) units_legal.1 rfl,
    busyWith_units (fun i hi => (Option.some.inj hi).symm) h1.1 h1.2.1 h1.2.2,
    busyWith_units (fun i hi => (Option.some.inj hi).symm) h1.1 h1.2.1 h1.2.2⟩

theorem witness_LineHaltDecided_operands :
    (params (busyWith .stopping visit leaving (.await none)) 0 0 0 0).live = true ∧
    ((busyWith .stopping visit leaving (.await none)).line .a).runState = .stopping ∧
    ((busyWith .running visit leaving (.await none)).entry 2).disablePending = true ∧
    ((busy (.await none)).entry 2).disablePending = false ∧ (ready.line .b).runState = .stopped ∧
    (params (busy (.await none)) 1 0 0 0).window.param0.toNat = 1 ∧ ((busy (.await none)).line .b).runState = .running ∧
    ((busy (.await none)).line .b).current = none := by decide +kernel

/-- Words of the reservation left to return; and the line at the head of the hold list, another behind it. -/
theorem witness_LineHaltDecided_frees :
    (let s := busyWith .running (.directed setEntry) served (.await none)
     3 < (s.line .a).reservation.getD 0 ∧ (s.line .a).chosen = none) ∧
    (bothHeld 330).queue.holdList.head? = some ⟨.b, 26⟩ ∧ ((bothHeld 330).line .b).current = none ∧
    (after .lineHalt (params (bothHeld 330) 1 0 0 0)).queue.holdList = [] ∧
    ((after .lineHalt (params (bothHeld 330) 1 0 0 0)).lineA.current = some (contextOf visit 2)) := by decide +kernel

theorem witness_LineResetDecided (e : Entry) (he : e = served ∨ e = leaving) :
    let s := busyWith .running (.directed setEntry) e (.await none)
    s.Coherent ∧ s.UnitsOwnStations ∧ s.live = true ∧ s.window.param0.toNat = 0 ∧ (s.line .a).directed = [setEntry] ∧
      (s.line .b).current = none :=
  ⟨(witness_LineHaltDecided e he).1, (witness_LineHaltDecided e he).2.2.1, rfl, rfl, rfl, rfl⟩

/-- LINE RESET of the line with the directed SET in progress: no entry of Line A is left working but as UNKNOWN, the
station of the unit is DISABLED if a disable was pending, and the record of the entry cut short is the only one of the
line. -/
theorem test_lineReset_of_a_working_line :
    let s := busyWith .running (.directed setEntry) leaving (.await none)
    let t := after .lineReset (params s 0 0 0 0)
    ([1, 2, 3, 4, 5] : List StationIndex).map (fun i => (t.entry i).state) =
      [.unknown, .disabled, .unknown, .unknown, .disabled] ∧
    verdict t = (.accepted, 0) ∧ t.queue.records.take 2 = [dataRecord, .fault .a 2 1 5 .aborted 1] := by decide +kernel

theorem witness_ReceiverEventsAct : (busy (.await none)).window.resetInput = false ∧
    ((busy (.await none)).line .a).receiver = .hunt ∧ ((busy (.await none)).line .b).receiver = .waitMark := by
  decide +kernel

/-- The busy state with Line A's receiver assembling a character. -/
def assembling (p : Phase) : State :=
  (busy p).modLine .a (fun x => { x with receiver := .assemble })

/-- Every phase, and in RECEIVE every place in the answer: before COUNT, at COUNT, in the payload, at the first and at the
second byte of the CRC. -/
theorem witness_CharacterActs :
    ((assembling (.receive [] 0 none)).line .a).receiver = .assemble ∧
    (assembling (.receive [] 0 none)).window.resetInput = false ∧
    (contextOf visit 2).frame.getD 0 0 = 0xC5 ∧ (contextOf visit 2).frame.getD 2 0 = 2 ∧
    ((assembling .sendWaiting).line .a).phase = .sendWaiting ∧
    (([1, 2, 3] : List Byte).length = 3 ∧ 40 < (41 : Byte).toNat ∧ (40 : Byte).toNat ≤ 40) ∧
    (3 < ([1, 2, 3, 1] : List Byte).length ∧ ([1, 2, 3, 1] : List Byte).length < 4 + (1 : Byte).toNat) ∧
    ([1, 2, 3, 1, 9] : List Byte).length = 4 + (([1, 2, 3, 1, 9] : List Byte).getD 3 0).toNat ∧
    4 + (([1, 2, 3, 1, 9, 8] : List Byte).getD 3 0).toNat < ([1, 2, 3, 1, 9, 8] : List Byte).length ∧
    ((assembling (.receive [] 0 none)).line .a).current = some (contextOf visit 2) := by decide +kernel

/-- The busy state with a character of the frame in Line A's shifter and a count of contentions before it. -/
def sending (p : Phase) (k n : Nat) : State :=
  (busy p).modLine .a (fun x => { x with shifter := some (x.shift k false), contention := n })

theorem witness_TransmissionProceeds : (busy (.guard 0 0)).live = true ∧
    (((busy (.guard 0 0)).line .a).receiver = .hunt ∧ ((busy (.guard 0 0)).line .a).shifter = none) ∧
    ((carrying (.guard 0 0) (slow 0)).line .a).shifter.isSome = true ∧
    (((carrying .sendWaiting (slow 0)).line .a).phase = .sendWaiting ∧
      ((carrying .sendWaiting (slow 0)).line .a).shifter.isSome = true) ∧
    ((sending (.send 5 true) 5 0).line .a).shifter.isSome = true ∧
    (5 + 1 < (contextOf visit 2).frame.length ∧ (contextOf visit 2).frame.length ≤ 6 + 1) ∧
    ((sending (.send 0 false) 0 3).line .a).contention + 1 = 4 ∧
    ((sending (.idle .fallOfDe) 0 3).line .a).contention < 4 ∧
    4 ≤ ((sending (.idle .fallOfDe) 0 4).line .a).contention := by decide +kernel

theorem witness_ExchangeTimersAct : (busy (.await (some 0))).live = true ∧
    ((busy (.await (some 0))).line .a).phase = .await (some 0) ∧
    ((busy (.receive [] 0 (some 0))).line .a).phase = .receive [] 0 (some 0) ∧
    ((busy (.idle (.backoff 0))).line .a).phase = .idle (.backoff 0) ∧
    ((casting (.idle (.settle 0))).line .a).phase = .idle (.settle 0) ∧
    ((busy (.guard 24959 0)).line .a).phase = .guard 24959 0 ∧
    24959 < 3 * (160 * (((busy (.guard 24959 0)).line .a).params.rate + 1)) ∧
    3 * (160 * (((busy (.guard 24960 0)).line .a).params.rate + 1)) ≤ 24960 := by decide +kernel

theorem witness_AttemptsCounted : ((busy (.await none)).line .a).current = some (contextOf visit 2) ∧
    (contextOf visit 2).used + 1 < (contextOf visit 2).budget ∧
    (contextOf visit 2).budget ≤ { contextOf visit 2 with used := 1 }.used + 1 := by decide +kernel

/-- The four frames a unit sends that call for an answer, each with its group and limit, and the verdicts on both sides
of a limit. -/
theorem witness_AnswersValidated :
    ((RequestKind.poll ≠ .bcast ∧ pollEntry.kind = .poll ∧ setEntry.kind = .set ∧ RequestKind.set ≠ .bcast) ∧
      (0x21 : Byte).toNat % 16 = (1 : Group).toNat ∧ (0x2F : Byte).toNat % 16 = (15 : Group).toNat) ∧
    validate visit 2 0x18 2 0x21 (List.replicate 8 0) = .good ⟨.reply, true, List.replicate 8 0⟩ ∧
    validate visit 2 0x18 2 0x21 (List.replicate 9 0) = .failing .overlong ∧
    validate (.alert 2) 2 0x08 2 0x0F (List.replicate 40 0) = .good ⟨.reply, false, List.replicate 40 0⟩ ∧
    validate (.directed pollEntry) 2 0x08 2 1 (List.replicate 9 0) = .failing .overlong ∧
    validate (.directed setEntry) 2 0x09 2 1 [7] = .good ⟨.confirm, false, [7]⟩ ∧
    validate (.directed setEntry) 2 0x08 2 1 [] = .failing .mismatch := by
  decide +kernel

/-- The busy states of both run states meet what the statement on the end of a unit asks, for each of its ends. -/
theorem witness_UnitEndHandsOn (r : RunState) (hr : r = .running ∨ r = .stopping) (e : Entry)
    (he : e = served ∨ e = leaving) (w : Work)
    (hw : w = visit ∨ w = .directed setEntry ∨ w = .directed bcastEntry) :
    (busyWith r w e (.await none)).Coherent ∧ (busyWith r w e (.await none)).EntriesLegal ∧
    (busyWith r w e (.await none)).UnitsOwnStations ∧
    ((busyWith r w e (.await none)).line .a).current = some (contextOf w e.address) := by
  have h1 : legalEntry e = true ∧ e.line = .a ∧ isWorking e.state = true ∧ e.inService = true := by
    rcases he with rfl | rfl <;> exact ⟨by decide +kernel, rfl, rfl, rfl⟩
  have h2 : w.Legal ∧ w.isMark = false ∧ ∀ i, workStation w = some i → i = 2 := by
    rcases hw with rfl | rfl | rfl
    · exact ⟨units_legal.1, rfl, fun i hi => (Option.some.inj hi).symm⟩
    · exact ⟨units_legal.2.2.1, rfl, fun i hi => (Option.some.inj hi).symm⟩
    · exact ⟨units_legal.2.2.2, rfl, fun i hi => by cases hi⟩
  exact ⟨busyWith_coherent hr h2.1 h2.2.1, busyWith_entries _ _ _ h1.1,
    busyWith_units h2.2.2 h1.2.1 h1.2.2.1 h1.2.2.2, rfl⟩

/-- The words left of a reservation when a unit ends: of the visit with a DATA record of no byte and no STATE record, and
of the directed SET with its record and a STATE record none is. -/
theorem witness_UnitEndHandsOn_words :
    dataRecord.size < ((busy (.await none)).line .a).reservation.getD 0 ∧
    ((busyWith .running (.directed setEntry) served (.await none)).line .a).reservation = some 6 ∧
    ((Record.confirm .a 2 1 5 false false 1).size + (Record.state .a .directed 2 .suspect .online .good 1).size = 6) := by
  decide +kernel

theorem witness_UnitEndHandsOn_ends : workKind visit = .poll ∧ ([1, 2, 3, 4, 5, 6, 7, 8] : List Byte).length ≤ workLimit visit ∧
    workKind (.directed setEntry) = .set ∧ workKind (.directed bcastEntry) = .bcast := by decide +kernel

theorem witness_LineFaultActs (p : Phase) : (busy p).Coherent ∧ (busy p).UnitsOwnStations ∧
    ((busy p).line .a).current = some (contextOf visit 2) ∧ FaultCause.noise ≠ .none ∧ FaultCause.contention ≠ .none :=
  ⟨(busy_invariants p).1, (busy_invariants p).2.2.1, rfl, by decide, by decide⟩

theorem witness_VisitOutcomeMovesEntry (i : StationIndex) (hi : i = 1 ∨ i = 2 ∨ i = 3 ∨ i = 4) :
    (stations.entry i).Legal ∧ isWorking (stations.entry i).state = true ∧ workStation (.alert i) = some i := by
  rcases hi with rfl | rfl | rfl | rfl <;>
    exact ⟨legal_of_legalEntry (by decide +kernel), by decide +kernel, rfl⟩

theorem witness_MasterFrameBuilt : (40 : Nat) ≤ 40 ∧ (buildFrame .set 1 2 40 (List.replicate 40 0x33)).length = 47 ∧
    crcBytes 0xFFFF (buildFrame .set 1 2 40 (List.replicate 40 0x33)).tail = 0 := by decide +kernel

theorem witness_UnitsStart : (isWorking (stations.entry 4).state = true ∧ (stations.entry 4).line = .a ∧
      (stations.entry 4).state = .offline) ∧
    (isWorking (stations.entry 2).state = true ∧ (stations.entry 2).line = .a) ∧
    ¬ (isWorking (stations.entry 5).state = true ∧ (stations.entry 5).line = .a) ∧
    ¬ (isWorking (stations.entry 6).state = true ∧ (stations.entry 6).line = .a) ∧
    pollEntry.kind ≠ .bcast ∧ bcastEntry.kind = .bcast := by decide +kernel

/-- A mark that starts: its record stands, the reservation is used up, and the line waits for its next cycle. -/
theorem test_mark_completes_as_it_starts :
    let t := (running.modLine .a (fun x => { x with reservation := some 3 })).startWork .a (.mark 2 false)
    t.queue.records = [.mark .a 2 false 1] ∧ t.lineA.reservation = none ∧ t.lineA.condition = .waiting ∧
      t.isPending (.cycleEnd .a) = true := by decide +kernel

/-- A request that fits exactly, and one that does not by a single word. -/
theorem witness_ReservationRequested :
    let s (n : Nat) : State := { running with queue := { ReplyQueue.reset with
      records := List.replicate n (Record.data .a .schedule 0 0 0 false (List.replicate 8 0) 0) } }
    ((s 144).line .a).reservation = none ∧ (s 144).queue.holdList = [] ∧ (s 144).wordsUsed = 1008 ∧
    (s 144).wordsUsed + (s 144).wordsReserved + workRequest (.visit 0 2 1 20) = 1024 ∧
    1024 < (s 144).wordsUsed + (s 144).wordsReserved + workRequest (.visit 0 2 1 21) := by decide +kernel

theorem witness_WorkSelected : running.live = true ∧
    ((running.line .a).runState = .running ∧ (running.line .a).current = none ∧ (running.line .a).chosen = none ∧
      (running.line .a).condition = .inCycle) ∧
    (running.slotDue .a 0 = true ∧ (running.line .a).listLength = 2 ∧ running.slotDue .a 1 = false) ∧
    (let s := running.modLine .a (fun x => { x with cursor := 1, directed := [pollEntry] })
     (s.line .a).priorityWork = some (.directed pollEntry) ∧ s.slotDue .a 1 = false ∧
       (s.line .a).burst < (s.line .a).params.burst) ∧
    (let s := running.modLine .a (fun x => { x with condition := .waiting, alertSet := [2] })
     (s.line .a).cycleDue = false ∧ (s.line .a).priorityWork = some (.alert 2)) ∧
    (let s := running.modLine .a (fun x => { x with condition := .waiting, interval := 8320 })
     (s.line .a).condition = .waiting ∧
       max (s.line .a).params.interval 1 * (160 * ((s.line .a).params.rate + 1)) ≤ (s.line .a).interval) ∧
    (let s := running.modLine .a (fun x => { x with condition := .idleEmpty })
     (s.line .a).condition = .idleEmpty ∧ (s.line .a).listLength ≠ 0) ∧
    ((ready.line .a).runState ≠ .running) := by decide +kernel

theorem witness_CyclesTurn :
    let s := running.modLine .a (fun x => { x with condition := .waiting, interval := 8320 })
    let t := running.modLine .a (fun x => { x with condition := .idleEmpty })
    s.live = true ∧ (max (s.line .a).params.interval 1 * (160 * ((s.line .a).params.rate + 1)) ≤ (s.line .a).interval) ∧
    ((t.line .a).condition = .idleEmpty ∧ (t.line .a).activeBank.length ≠ 0) ∧
    ((ready.line .a).runState ≠ .running) ∧ (running.line .a).condition = .inCycle := by decide +kernel

theorem witness_GrantedUnitsStart :
    let s := stations.setLine .a { LineEngine.reset with
      runState := .running, condition := .inCycle, chosen := some visit, reservation := some 10 }
    (s.live = true ∧ (s.line .a).chosen = some visit ∧ (s.line .a).current = none ∧
      (s.line .a).reservation.isSome = true) ∧ (ready.line .a).chosen = none ∧ ready.queue.holdList = [] ∧
    ((busy (.await none)).queue.holdList = [⟨.b, 26⟩] ∧ ((busy (.await none)).line .b).chosen = some (.alert 6) ∧
      (busy (.await none)).wordsUsed + (busy (.await none)).wordsReserved + 26 ≤ 1024) ∧
    1024 < ({ busy (.await none) with queue := { (busy (.await none)).queue with
      records := List.replicate 330 markRecord } } : State).wordsUsed + 10 + 26 := by decide +kernel

/-- Two entries: the first does not fit; it fits and the second does not; both fit. -/
theorem witness_GrantedUnitsStart_two :
    ((bothHeld 333).live = true ∧ 1024 < (bothHeld 333).wordsUsed + (bothHeld 333).wordsReserved + 26) ∧
    ((bothHeld 332).queue.holdList = [⟨.b, 26⟩, ⟨.a, 10⟩] ∧
      (bothHeld 332).wordsUsed + (bothHeld 332).wordsReserved + 26 ≤ 1024 ∧
      ((bothHeld 332).line .b).chosen = some (.alert 6) ∧
      (after .holdListGrant (bothHeld 332)).queue.holdList = [⟨.a, 10⟩]) ∧
    (((bothHeld 329).line .a).chosen = some visit ∧ (after .holdListGrant (bothHeld 329)).queue.holdList = [] ∧
      (after .holdListGrant (bothHeld 329)).lineA.current = some (contextOf visit 2)) := by decide +kernel

theorem witness_EngineEventsFrame : (busy (.await (some 0))).pending = [] ∧ (busy (.await (some 0))).live = true := by
  decide +kernel

/-- No arbiter due, one, and both. -/
theorem witness_SelectionSettles_due :
    (ready.lineA.arbiterDue = false ∧ ready.lineB.arbiterDue = false) ∧
    (running.live = true ∧ running.lineA.arbiterDue = true ∧ running.lineB.arbiterDue = false) ∧
    (let s := running.setLine .b { LineEngine.reset with runState := .running, condition := .inCycle }
     s.live = true ∧ s.lineA.arbiterDue = true ∧ s.lineB.arbiterDue = true) := by decide +kernel

theorem witness_SelectionSettles : (busy (.await none)).Coherent ∧ (busy (.await none)).EntriesLegal ∧
    (busy (.await none)).AlertsLegal :=
  ⟨(busy_invariants _).1, (busy_invariants _).2.1, (busy_invariants _).2.2.2.2.1⟩

/-- The premises of the invariants that every step keeps, and a step that takes a command in such a state. -/
theorem witness_invariants_kept (p : Phase) :
    let s : State := { busy p with pending := [.responseTimeout .a] }
    s.Coherent ∧ s.EntriesLegal ∧ s.UnitsOwnStations ∧ s.ServiceOwned ∧ s.AlertsLegal ∧ s.NoSharedAddress ∧
      s.wordsUsed + s.wordsReserved ≤ 1024 ∧ ∃ t, step s = .next t := by
  obtain ⟨h1, h2, h3, h4, h5, h6⟩ := busy_invariants p
  exact ⟨⟨h1.lines, ⟨h1.hold.once, h1.hold.listed, h1.hold.request⟩, h1.lists, h1.directed⟩, h2, h3, h4, h5,
    busy_addresses p, h6, _, rfl⟩

/-- The bounds under which the register views are stated, met in READY and INIT and in PIO and DMA mode, at the highest
threshold, cursor, directed count and size of a head record. -/
theorem witness_RegisterViews :
    let s := (queued .dma 3).setLine .a { LineEngine.reset with directed := List.replicate 8 pollEntry, cursor := 96 }
    let t : State := { s with queue := { s.queue with threshold := 255 } }
    let u : State := { ready with queue := { ReplyQueue.reset with
      records := [.data .a .schedule 1 1 0 false (List.replicate 40 0) 0] } }
    (t.window.resetInput = false ∧ t.window.readiness = .ready ∧ t.queue.drainMode = .dma ∧ t.queue.records = [markRecord] ∧
      t.wordsUsed + t.wordsReserved ≤ Config.storeWords ∧ t.queue.cursor ≤ t.headSize ∧ t.queue.threshold ≤ 255 ∧
      (t.line .a).directed.length ≤ 8 ∧ (t.line .a).cursor ≤ 96 ∧ (t.line .a).alertSet.length ≤ 64) ∧
    (t.readRegister 0x0E = 0x0303 ∧ t.readRegister 0x0F = 0x02FF ∧ t.readRegister 0x16 = 0x8060) ∧
    (u.queue.drainMode ≠ .dma ∧ u.headSize = 23 ∧ u.readRegister 0x0A = 0x2041) ∧
    (State.reset.window.resetInput = false ∧ State.reset.window.readiness ≠ .ready ∧ State.reset.queue.records = []) := by
  decide +kernel

theorem witness_BoundsKept (p : Phase) : (busy p).ParamsInRange ∧ (busy p).CursorLegal ∧ (busy p).NoThresholdLatch := by
  refine ⟨?_, (by decide +kernel : 0 ≤ 4),
    (by decide +kernel : (busy (.idle .none)).interrupts.latched &&& causeBit .queueThreshold = 0)⟩
  intro l
  cases l <;>
    exact (by decide : (51 ≤ 4095) ∧ (2 ≤ 20 ∧ 20 ≤ 255) ∧ (2 ≤ 10 ∧ 10 ≤ 255) ∧ 0 ≤ 65535 ∧ (1 ≤ 8 ∧ 8 ≤ 64) ∧
      (1 ≤ 2 ∧ 2 ≤ 8))

end Sys2Proof.Tests
end

section
/-! SUPPORT. What the events of an exchange do to the line they come on: one equation for each branch of the disposal
of a receiver event (Table 2-5), of QUIET_REACHED and of TRANSMIT_CHARACTER_END. -/

namespace Sys2Proof.Machine

/-! ### A line replaced -/

@[simp] theorem State.setLine_setLine (s : State) (l : Line) (x y : LineEngine) :
    (s.setLine l x).setLine l y = s.setLine l y := by
  cases l <;> rfl

theorem State.modLine_eq_setLine (s : State) (l : Line) (f : LineEngine → LineEngine) :
    s.modLine l f = s.setLine l (f (s.line l)) := rfl

theorem LineEngine.with_own_phase {x : LineEngine} {p : Phase} (h : x.phase = p) : { x with phase := p } = x := by
  subst h
  rfl

/-! ### START_DETECTED and WAIT_MARK_END -/

theorem exec_startDetected (l : Line) (s : State) : exec (.startDetected l) s = .next (s.startDetected l) := rfl

theorem exec_waitMarkEnd (l : Line) (s : State) : exec (.waitMarkEnd l) s = .next (s.waitMarkEnd l) := rfl

/-- The phase after a START DETECTED event (Table 2-5): a running quiet count starts again, a running timer stops. -/
def Phase.afterStart : Phase → Phase
  | .idle wait => .idle wait
  | .guard _ noise => .guard 0 noise
  | .send window echoed => .send window echoed
  | .sendWaiting => .sendWaiting
  | .await _ => .await none
  | .receive buffer crc _ => .receive buffer crc none

theorem LineEngine.disposeStart_eq (x : LineEngine) : x.disposeStart = { x with phase := x.phase.afterStart } := by
  cases hp : x.phase <;> simp only [LineEngine.disposeStart, hp, Phase.afterStart]
  case idle => exact (LineEngine.with_own_phase hp).symm
  case send => exact (LineEngine.with_own_phase hp).symm
  case sendWaiting => exact (LineEngine.with_own_phase hp).symm

theorem State.startDetected_of_hunt {s : State} {l : Line} (hreset : s.window.resetInput = false)
    (hr : (s.line l).receiver = .hunt) : s.startDetected l =
      s.setLine l { s.line l with receiver := .assemble, phase := (s.line l).phase.afterStart } := by
  simp [State.startDetected, hreset, hr, State.modLine_eq_setLine, LineEngine.disposeStart_eq]

theorem State.startDetected_of_ne_hunt {s : State} {l : Line} (hr : (s.line l).receiver ≠ .hunt) :
    s.startDetected l = s := by
  simp [State.startDetected, hr]

theorem State.waitMarkEnd_of_waitMark {s : State} {l : Line} (hreset : s.window.resetInput = false)
    (hr : (s.line l).receiver = .waitMark) : s.waitMarkEnd l = s.setLine l { s.line l with receiver := .hunt } := by
  simp [State.waitMarkEnd, hreset, hr, State.modLine_eq_setLine]

theorem State.waitMarkEnd_of_ne_waitMark {s : State} {l : Line} (hr : (s.line l).receiver ≠ .waitMark) :
    s.waitMarkEnd l = s := by
  simp [State.waitMarkEnd, hr]

/-! ### CHARACTER -/

theorem exec_character (l : Line) (v : Byte) (f : Framing) (s : State) :
    exec (.character l v f) s = .next (s.character l v f) := rfl

theorem State.character_of_assemble {s : State} {l : Line} (v : Byte) (f : Framing)
    (hreset : s.window.resetInput = false) (hr : (s.line l).receiver = .assemble) : s.character l v f =
      (s.setLine l { s.line l with receiver := afterCharacter f }).disposeCharacter l v f := by
  simp [State.character, hreset, hr, State.modLine_eq_setLine]

theorem State.character_of_ne_assemble {s : State} {l : Line} (v : Byte) (f : Framing)
    (hr : (s.line l).receiver ≠ .assemble) : s.character l v f = s := by
  simp [State.character, hr]

section
variable {s : State} {l : Line} (v : Byte) (f : Framing)

theorem State.disposeCharacter_idle {w : IdleWait} (hp : (s.line l).phase = .idle w) :
    s.disposeCharacter l v f = s := by
  simp only [State.disposeCharacter, hp]

theorem State.disposeCharacter_guard {q n : Nat} (hp : (s.line l).phase = .guard q n) :
    s.disposeCharacter l v f = s.setLine l { s.line l with phase := .guard 0 n } := by
  simp only [State.disposeCharacter, hp, State.modLine_eq_setLine]

theorem State.disposeCharacter_sendWaiting (hp : (s.line l).phase = .sendWaiting) :
    s.disposeCharacter l v f = s := by
  simp only [State.disposeCharacter, hp]

theorem State.disposeCharacter_await {t : Option Nat} (hp : (s.line l).phase = .await t) :
    s.disposeCharacter l v f = s.firstAnswerCharacter l v f := by
  simp only [State.disposeCharacter, hp]

theorem State.disposeCharacter_receive {buffer : List Byte} {crc : Word} {g : Option Nat}
    (hp : (s.line l).phase = .receive buffer crc g) :
    s.disposeCharacter l v f = s.nextAnswerCharacter l buffer crc v f := by
  simp only [State.disposeCharacter, hp]

theorem LineEngine.echoMatches_iff (x : LineEngine) (k : Nat) (e : Bool) :
    x.echoMatches k e v f = true ↔ f = .good ∧ v = x.frameChar k ∧ e = false := by
  simp [LineEngine.echoMatches, and_assoc]

theorem State.disposeCharacter_echo {k : Nat} {e : Bool} (hp : (s.line l).phase = .send k e)
    (h : f = .good ∧ v = (s.line l).frameChar k ∧ e = false) :
    s.disposeCharacter l v f = s.setLine l { s.line l with phase := .send k true } := by
  have hm := (LineEngine.echoMatches_iff v f (s.line l) k e).mpr h
  simp only [State.disposeCharacter, hp, hm, if_true, State.modLine_eq_setLine]

theorem State.disposeCharacter_contention {k : Nat} {e : Bool} (hp : (s.line l).phase = .send k e)
    (h : ¬ (f = .good ∧ v = (s.line l).frameChar k ∧ e = false)) :
    s.disposeCharacter l v f =
      s.setLine l { s.line l with contention := (s.line l).contention + 1, phase := .idle .fallOfDe } := by
  have hm := mt (LineEngine.echoMatches_iff v f (s.line l) k e).mp h
  simp only [State.disposeCharacter, hp, if_neg hm, State.modLine_eq_setLine, LineEngine.contentionInWindow]

end

/-! ### The characters of an answer -/

theorem State.firstAnswerCharacter_start (s : State) (l : Line) : s.firstAnswerCharacter l Config.startByte .good =
    s.setLine l { s.line l with phase := .receive [] Config.crcLoad (some 0) } := by
  simp [State.firstAnswerCharacter, State.modLine_eq_setLine]

theorem State.firstAnswerCharacter_other {s : State} {l : Line} {v : Byte} {f : Framing}
    (h : f = .framingError ∨ v ≠ Config.startByte) : s.firstAnswerCharacter l v f = s.attemptFails l .corrupt := by
  have hn : ¬ (f = .good ∧ v = Config.startByte) := by
    rintro ⟨rfl, rfl⟩
    simp at h
  simp only [State.firstAnswerCharacter, if_neg hn]

section
variable (s : State) (l : Line) {buffer : List Byte} (crc : Word) {v : Byte}

theorem State.nextAnswerCharacter_framingError :
    s.nextAnswerCharacter l buffer crc v .framingError = s.attemptFails l .corrupt := by
  simp [State.nextAnswerCharacter]

theorem State.nextAnswerCharacter_overlongCount (hn : buffer.length = 3) (hv : 40 < v.toNat) :
    s.nextAnswerCharacter l buffer crc v .good = s.attemptFails l .corrupt := by
  simp [State.nextAnswerCharacter, hn, Config.maxPayload, hv]

theorem State.nextAnswerCharacter_covered (h : buffer.length < 3 ∨ buffer.length = 3 ∧ v.toNat ≤ 40 ∨
      3 < buffer.length ∧ buffer.length < 4 + answerCount buffer) :
    s.nextAnswerCharacter l buffer crc v .good =
      s.setLine l { s.line l with phase := .receive (buffer ++ [v]) (crcByte crc v) (some 0) } := by
  simp only [State.nextAnswerCharacter, State.modLine_eq_setLine, Config.maxPayload]
  rcases h with hn | ⟨hn, hv⟩ | ⟨hn, hc⟩
  · simp [hn]
  · simp [hn, Nat.not_lt.mpr hv]
  · simp [Nat.not_lt.mpr hn.le, hn.ne', hc]

theorem State.nextAnswerCharacter_firstCrc (hn : 3 < buffer.length) (hc : buffer.length = 4 + answerCount buffer) :
    s.nextAnswerCharacter l buffer crc v .good =
      s.setLine l { s.line l with phase := .receive (buffer ++ [v]) crc (some 0) } := by
  simp [State.nextAnswerCharacter, State.modLine_eq_setLine, Nat.not_lt.mpr hn.le, hn.ne', hc.symm]

theorem State.nextAnswerCharacter_secondCrc {c : UnitContext} (hcur : (s.line l).current = some c)
    (hn : 3 < buffer.length) (hc : 4 + answerCount buffer < buffer.length) :
    s.nextAnswerCharacter l buffer crc v .good = s.attemptJudged l (judgeAnswer c buffer crc v) := by
  simp [State.nextAnswerCharacter, hcur, Nat.not_lt.mpr hn.le, hn.ne', Nat.not_lt.mpr hc.le, hc.ne']

end

/-! ### QUIET_REACHED -/

theorem exec_quietReached (l : Line) (s : State) : exec (.quietReached l) s = .next (s.quietReached l) := rfl

theorem LineEngine.quietGrowing_iff (x : LineEngine) :
    x.quietGrowing = true ↔ (∃ q n, x.phase = .guard q n) ∧ x.receiver = .hunt := by
  cases hp : x.phase <;> simp [LineEngine.quietGrowing, hp]

theorem State.quietReached_of_growing {s : State} {l : Line} (hlive : s.live = true)
    (h : (s.line l).quietGrowing = true) : s.quietReached l = s.setLine l (s.line l).enterSend := by
  simp [State.quietReached, whenLive_of_live _ hlive, h, State.modLine_eq_setLine]

theorem State.quietReached_of_not_growing {s : State} {l : Line} (hlive : s.live = true)
    (h : ¬ (s.line l).quietGrowing = true) : s.quietReached l = s := by
  simp [State.quietReached, whenLive_of_live _ hlive, h]

theorem LineEngine.enterSend_of_silent {x : LineEngine} (h : x.shifter = none) :
    x.enterSend = x.beginTransmission := by
  simp [LineEngine.enterSend, h]

theorem LineEngine.enterSend_of_sending {x : LineEngine} (h : x.shifter.isSome = true) :
    x.enterSend = { x with phase := .sendWaiting } := by
  simp [LineEngine.enterSend, h]

/-! ### TRANSMIT_CHARACTER_END -/

theorem exec_transmitCharacterEnd (l : Line) (s : State) :
    exec (.transmitCharacterEnd l) s = .next (s.transmitCharacterEnd l) := rfl

theorem State.transmitCharacterEnd_of_sending {s : State} {l : Line} (hlive : s.live = true)
    (h : (s.line l).shifter.isSome = true) : s.transmitCharacterEnd l = s.characterSent l := by
  simp [State.transmitCharacterEnd, whenLive_of_live _ hlive, h]

theorem State.transmitCharacterEnd_of_silent {s : State} {l : Line} (hlive : s.live = true)
    (h : (s.line l).shifter = none) : s.transmitCharacterEnd l = s := by
  simp [State.transmitCharacterEnd, whenLive_of_live _ hlive, h]

theorem State.afterContention_of_limit {s : State} {l : Line} (h : 4 ≤ (s.line l).contention) :
    s.afterContention l = (s.faultLine l .contention).finish := by
  simp [State.afterContention, Config.contentionLimit, h]

theorem State.afterContention_below_limit {s : State} {l : Line} (h : (s.line l).contention < 4) :
    s.afterContention l = s.setLine l { s.line l with phase := .idle (.backoff 0) } := by
  simp [State.afterContention, Config.contentionLimit, Nat.not_le.mpr h, State.modLine_eq_setLine]

section
variable {s : State} {l : Line}

theorem State.characterSent_nextWindow {k : Nat} (hp : (s.line l).phase = .send k true)
    (hk : k + 1 < (s.line l).frameLength) : s.characterSent l = s.setLine l ((s.line l).nextWindow k) := by
  simp only [State.characterSent, hp, if_pos hk, State.modLine_eq_setLine]

theorem State.characterSent_lastWindow {k : Nat} (hp : (s.line l).phase = .send k true)
    (hk : (s.line l).frameLength ≤ k + 1) : s.characterSent l = s.setLine l (s.line l).cleanSend := by
  simp only [State.characterSent, hp, if_neg (Nat.not_lt.mpr hk), State.modLine_eq_setLine]

theorem State.characterSent_sendWaiting (hp : (s.line l).phase = .sendWaiting) :
    s.characterSent l = s.setLine l (s.line l).beginTransmission := by
  simp only [State.characterSent, hp, State.modLine_eq_setLine]

theorem State.characterSent_unechoed {k : Nat} (hp : (s.line l).phase = .send k false) : s.characterSent l =
    (s.setLine l { s.line l with shifter := none, contention := (s.line l).contention + 1 }).afterContention l := by
  simp [State.characterSent, hp, State.modLine_eq_setLine]

theorem State.characterSent_fallOfDe (hp : (s.line l).phase = .idle .fallOfDe) :
    s.characterSent l = (s.setLine l { s.line l with shifter := none }).afterContention l := by
  simp only [State.characterSent, hp, State.modLine_eq_setLine]

theorem State.characterSent_elsewhere (hsend : ∀ k e, (s.line l).phase ≠ .send k e)
    (hwait : (s.line l).phase ≠ .sendWaiting) (hfall : (s.line l).phase ≠ .idle .fallOfDe) :
    s.characterSent l = s.setLine l { s.line l with shifter := none } := by
  cases hp : (s.line l).phase with
  | idle wait =>
    cases wait with
    | fallOfDe => exact absurd hp hfall
    | none => simp only [State.characterSent, hp, State.modLine_eq_setLine]
    | backoff _ => simp only [State.characterSent, hp, State.modLine_eq_setLine]
    | settle _ => simp only [State.characterSent, hp, State.modLine_eq_setLine]
  | send k e => exact absurd hp (hsend k e)
  | sendWaiting => exact absurd hp hwait
  | guard _ _ => simp only [State.characterSent, hp, State.modLine_eq_setLine]
  | await _ => simp only [State.characterSent, hp, State.modLine_eq_setLine]
  | receive _ _ _ => simp only [State.characterSent, hp, State.modLine_eq_setLine]

end

/-! ### The phase after a clean SEND -/

theorem workKind_eq_bcast_iff (w : Work) : workKind w = .bcast ↔ ∃ d, w = .directed d ∧ d.kind = .bcast := by
  cases w <;> simp [workKind]

theorem LineEngine.afterSend_of_bcast {x : LineEngine} {c : UnitContext} (hc : x.current = some c)
    (hk : workKind c.work = .bcast) : x.afterSend = .idle (.settle 0) := by
  simp only [LineEngine.afterSend, hc, hk]

theorem LineEngine.afterSend_of_answered {x : LineEngine} {c : UnitContext} (hc : x.current = some c)
    (hk : workKind c.work ≠ .bcast) : x.afterSend = .await (some 0) := by
  cases hw : workKind c.work with
  | poll => simp only [LineEngine.afterSend, hc, hw]
  | set => simp only [LineEngine.afterSend, hc, hw]
  | bcast => exact absurd hw hk

end Sys2Proof.Machine
end

section
/-! SUPPORT. The check sequence, the frames that carry it, and the checks of Table 2-4 on an answer. -/

namespace Sys2Proof.Machine

/-! ### Check sequence -/

theorem crcBytes_append (crc : Word) (xs ys : List Byte) : crcBytes crc (xs ++ ys) = crcBytes (crcBytes crc xs) ys :=
  List.foldl_append

/-- R15 step 3 with the bit shifted out written as bit 15 of the register. -/
theorem crcBit_eq (crc : Word) (bit : Bool) :
    crcBit crc bit = if bit ≠ crc.getLsbD 15 then (crc <<< 1) ^^^ 0x1021 else crc <<< 1 := by
  have hmsb : crc.msb = crc.getLsbD 15 := BitVec.msb_eq_getLsbD_last crc
  simp only [crcBit, hmsb, Bool.xor_iff_ne]
  rfl

/-- Feeding the register its own top bit shifts it without the generator; here after `j` such shifts. -/
theorem crcBit_own_bit (crc : Word) {j : Nat} (hj : j < 16) :
    crcBit (crc <<< j) (crc.getLsbD (15 - j)) = crc <<< (j + 1) := by
  have htop : (crc <<< j).getLsbD 15 = crc.getLsbD (15 - j) := by
    rw [BitVec.getLsbD_shiftLeft]
    simp [Nat.not_lt.mpr (Nat.le_of_lt_succ hj), -BitVec.getLsbD_eq_getElem]
  rw [crcBit_eq, htop, if_neg (by simp), ← BitVec.shiftLeft_add]

theorem hiByte_getLsbD (w : Word) {k : Nat} (hk : k < 8) : (hiByte w).getLsbD k = w.getLsbD (8 + k) := by
  simp [hiByte, hk]

/-- The register that is fed its own high byte moves its low byte up. -/
theorem crcByte_hiByte (crc : Word) : crcByte crc (hiByte crc) = crc <<< 8 := by
  have step (j : Nat) (hj : j < 16) := crcBit_own_bit crc hj
  have h0 : crcBit crc (crc.getLsbD 15) = crc <<< 1 := by simpa using step 0 (by decide)
  simp only [crcByte, List.foldl_cons, List.foldl_nil, hiByte_getLsbD, Nat.reduceLT, Nat.reduceAdd]
  rw [h0, step 1 (by decide), step 2 (by decide), step 3 (by decide), step 4 (by decide), step 5 (by decide),
    step 6 (by decide), step 7 (by decide)]

theorem hiByte_shiftLeft_eight (w : Word) : hiByte (w <<< 8) = loByte w := by
  apply BitVec.eq_of_toNat_eq
  rw [hiByte_toNat, loByte_toNat, BitVec.toNat_shiftLeft, Nat.shiftLeft_eq]
  omega

/-- The residue of R16: a register fed its own two bytes, high byte first, is left 0. -/
theorem crcBytes_own_bytes (crc : Word) : crcBytes crc [hiByte crc, loByte crc] = 0 := by
  calc crcBytes crc [hiByte crc, loByte crc]
      = crcByte (crcByte crc (hiByte crc)) (loByte crc) := rfl
    _ = crcByte (crc <<< 8) (hiByte (crc <<< 8)) := by rw [crcByte_hiByte, hiByte_shiftLeft_eight]
    _ = crc <<< 8 <<< 8 := crcByte_hiByte _
    _ = 0 := by rw [← BitVec.shiftLeft_add]; exact BitVec.shiftLeft_eq_zero (by decide)

/-! ### Master frames -/

/-- The bytes of a master frame that its check sequence covers: CTRL to the last payload byte (R15). -/
def coveredBytes (kind : RequestKind) (address : Byte) (group : Group) (count : Nat) (payload : List Byte) :
    List Byte :=
  masterCtrl kind :: address :: groupByte group :: BitVec.ofNat 8 count :: payload

theorem coveredBytes_length (kind : RequestKind) (address : Byte) (group : Group) (count : Nat) (payload : List Byte) :
    (coveredBytes kind address group count payload).length = 4 + payload.length := by
  simp only [coveredBytes, List.length_cons]
  omega

section
variable (kind : RequestKind) (address : Byte) (group : Group) (count : Nat) (payload : List Byte)

theorem buildFrame_eq : buildFrame kind address group count payload =
    Config.startByte :: (coveredBytes kind address group count payload ++
      [hiByte (crcBytes Config.crcLoad (coveredBytes kind address group count payload)),
       loByte (crcBytes Config.crcLoad (coveredBytes kind address group count payload))]) := rfl

theorem buildFrame_length : (buildFrame kind address group count payload).length = 7 + payload.length := by
  rw [buildFrame_eq, List.length_cons, List.length_append, coveredBytes_length]
  simp only [List.length_cons, List.length_nil]
  omega

theorem buildFrame_covered : (buildFrame kind address group count payload).tail.take (4 + payload.length) =
    coveredBytes kind address group count payload := by
  rw [buildFrame_eq, List.tail_cons, ← coveredBytes_length kind address group count payload, List.take_left]

theorem buildFrame_payload :
    ((buildFrame kind address group count payload).drop 5).take payload.length = payload :=
  List.take_left

theorem buildFrame_crc : (buildFrame kind address group count payload).drop (5 + payload.length) =
    [hiByte (crcBytes Config.crcLoad (coveredBytes kind address group count payload)),
     loByte (crcBytes Config.crcLoad (coveredBytes kind address group count payload))] := by
  have hlen : 5 + payload.length = (coveredBytes kind address group count payload).length + 1 := by
    rw [coveredBytes_length]
    omega
  rw [buildFrame_eq, hlen, List.drop_succ_cons, List.drop_left]

/-- The receiver of a frame that feeds its CRC bytes as well is left with 0000H (R16). -/
theorem buildFrame_residue : crcBytes Config.crcLoad (buildFrame kind address group count payload).tail = 0 := by
  rw [buildFrame_eq, List.tail_cons, crcBytes_append]
  exact crcBytes_own_bytes _

end

theorem groupByte_toNat (group : Group) : (groupByte group).toNat = group.toNat := by
  simp only [groupByte, BitVec.toNat_append]
  simp

/-! ### Answers -/

/-- The kind of an answer is that of the low four bits of CTRL; bits 7 to 5 enter no check (R10). -/
theorem answerKindOfCode_ctrl (ctrl : Byte) : answerKindOfCode (ctrl.extractLsb' 0 4) =
    if ctrl.toNat % 16 = 8 then some .reply
    else if ctrl.toNat % 16 = 9 then some .confirm
    else if ctrl.toNat % 16 = 10 then some .busy
    else none := by
  simp [answerKindOfCode, ← BitVec.toNat_inj]

/-- The group of an answer is compared in the low four bits of GROUP; bits 7 to 4 enter no check (R12). -/
theorem low_bits_eq_iff (b : Byte) (g : Group) : b.extractLsb' 0 4 = g ↔ b.toNat % 16 = g.toNat := by
  simp [← BitVec.toNat_inj]

section
variable {w : Work} {address ctrl addr group : Byte} {payload : List Byte}

theorem validate_of_no_kind (h : answerKindOfCode (ctrl.extractLsb' 0 4) = none) :
    validate w address ctrl addr group payload = .failing .mismatch := by
  simp only [validate, h]

theorem validate_of_other_sender (h : ¬ (addr = address ∧ group.extractLsb' 0 4 = workGroup w)) :
    validate w address ctrl addr group payload = .failing .mismatch := by
  cases hk : answerKindOfCode (ctrl.extractLsb' 0 4) with
  | none => exact validate_of_no_kind hk
  | some k =>
    by_cases ha : addr = address
    · have hg : group.extractLsb' 0 4 ≠ workGroup w := fun hg => h ⟨ha, hg⟩
      simp only [validate, hk, ne_eq, ha, not_true_eq_false, if_false, hg, not_false_eq_true, if_true]
    · simp only [validate, hk, ne_eq, ha, not_false_eq_true, if_true]

variable (hfrom : addr = address ∧ group.extractLsb' 0 4 = workGroup w)
include hfrom

theorem validate_of_disallowed {k : AnswerKind} (hk : answerKindOfCode (ctrl.extractLsb' 0 4) = some k)
    (h : answerAllowed (workKind w) k = false) :
    validate w address ctrl addr group payload = .failing .mismatch := by
  obtain ⟨ha, hg⟩ := hfrom
  simp [validate, hk, ha, hg, h]

theorem validate_of_reply (hk : answerKindOfCode (ctrl.extractLsb' 0 4) = some .reply) (h : workKind w = .poll) :
    validate w address ctrl addr group payload =
      if payload.length ≤ workLimit w then .good { kind := .reply, alert := ctrl.getLsbD 4, payload := payload }
      else .failing .overlong := by
  obtain ⟨ha, hg⟩ := hfrom
  simp [validate, hk, ha, hg, h, answerAllowed]

theorem validate_of_confirm (hk : answerKindOfCode (ctrl.extractLsb' 0 4) = some .confirm) (h : workKind w = .set) :
    validate w address ctrl addr group payload =
      .good { kind := .confirm, alert := ctrl.getLsbD 4, payload := payload } := by
  obtain ⟨ha, hg⟩ := hfrom
  simp [validate, hk, ha, hg, h, answerAllowed]

theorem validate_of_busy (hk : answerKindOfCode (ctrl.extractLsb' 0 4) = some .busy) (h : workKind w ≠ .bcast) :
    validate w address ctrl addr group payload =
      .deferred { kind := .busy, alert := ctrl.getLsbD 4, payload := payload } := by
  obtain ⟨ha, hg⟩ := hfrom
  have hallowed : answerAllowed (workKind w) .busy = true := by
    cases hw : workKind w with
    | poll => rfl
    | set => rfl
    | bcast => exact absurd hw h
  simp [validate, hk, ha, hg, hallowed]

end

end Sys2Proof.Machine
end

section
/-! PROOFS. The statements about the station line: the receiver's events, the transmission, the judging of an answer
and the building of a frame. -/

namespace Sys2Proof.Machine

/-! ### Receiver events -/

/-- Settles O36: each of the two rows acts in one receiver state, and START_DETECTED on the phase as
`Phase.afterStart` says. -/
theorem receiverEventsAct : Obligations.ReceiverEventsAct := by
  intro s l hreset x
  refine ⟨fun hr => ?_, fun hr => ?_, fun hr => ?_, fun hr => ?_⟩
  · rw [exec_startDetected, State.startDetected_of_hunt hreset hr]
    simp only [x]
    cases (s.line l).phase <;> rfl
  · rw [exec_startDetected, State.startDetected_of_ne_hunt hr]
  · rw [exec_waitMarkEnd, State.waitMarkEnd_of_waitMark hreset hr]
  · rw [exec_waitMarkEnd, State.waitMarkEnd_of_ne_waitMark hr]

/-- Settles O37: the receiver has moved before the engine disposes of the character, and the disposal of that state
`u` is read off the phase, in RECEIVE off the number of bytes collected. -/
theorem characterActs : Obligations.CharacterActs := by
  intro s l v f hreset x r u go byte
  have hr : afterCharacter f = r := by cases f <;> rfl
  have hbyte (k : Nat) : (u.line l).frameChar k = byte k := by simp only [u, State.line_setLine]; rfl
  have hphase : (u.line l).phase = x.phase := by simp only [u, State.line_setLine]
  have hgo (p : Phase) : u.setLine l { u.line l with phase := p } =
      s.setLine l { x with receiver := r, phase := p } := by
    simp only [u, State.line_setLine, State.setLine_setLine]
  refine ⟨fun h => ?_, fun h => ?_⟩
  · rw [exec_character, State.character_of_ne_assemble v f h]
  have hexec : exec (.character l v f) s = .next (u.disposeCharacter l v f) := by
    rw [exec_character, State.character_of_assemble v f hreset h, hr]
  rw [hexec]
  simp only [go, ← hgo]
  refine ⟨fun w hp => ?_, fun q n hp => ?_, fun k e hp => ⟨fun hf hv he => ?_, fun hbad => ?_⟩, fun hp => ?_,
    fun t hp => ?_, fun buffer crc g hp => ?_⟩ <;> rw [← hphase] at hp
  · rw [State.disposeCharacter_idle v f hp]
  · rw [State.disposeCharacter_guard v f hp]
  · rw [State.disposeCharacter_echo v f hp ⟨hf, hv.trans (hbyte k).symm, he⟩]
  · rw [State.disposeCharacter_contention v f hp]
    · simp only [u, State.line_setLine, State.setLine_setLine]
    · rintro ⟨rfl, hv, rfl⟩
      simp [hv, hbyte] at hbad
  · rw [State.disposeCharacter_sendWaiting v f hp]
  · rw [State.disposeCharacter_await v f hp]
    refine ⟨?_, fun hbad => ?_⟩
    · rintro rfl rfl
      exact congrArg _ (State.firstAnswerCharacter_start u l)
    · rw [State.firstAnswerCharacter_other hbad]
  · rw [State.disposeCharacter_receive v f hp]
    refine ⟨?_, ?_⟩
    · rintro rfl
      rw [State.nextAnswerCharacter_framingError]
    · rintro rfl
      refine ⟨fun hn hv => ?_, fun hcov => ?_, fun hn hc => ?_, fun c hcur hn hc => ?_⟩
      · rw [State.nextAnswerCharacter_overlongCount u l crc hn hv]
      · rw [State.nextAnswerCharacter_covered u l crc hcov]
      · rw [State.nextAnswerCharacter_firstCrc u l crc hn hc]
      · have hcur' : (u.line l).current = some c := by simpa only [u, State.line_setLine] using hcur
        rw [State.nextAnswerCharacter_secondCrc u l crc hcur' hn hc]
        rfl

/-! ### Transmission -/

/-- Settles O38, by the phase in which each of the two rows comes. -/
theorem transmissionProceeds : Obligations.TransmissionProceeds := by
  intro s l hlive x byte length first cut
  have hgrow : x.quietGrowing = true ↔ (∃ q n, x.phase = .guard q n) ∧ x.receiver = .hunt := x.quietGrowing_iff
  refine ⟨fun q n hp hr hsh => ?_, fun q n hp hr hsh => ?_, fun hno => ?_, fun hsh => ?_, fun hsh => ?_⟩
  · rw [exec_quietReached, State.quietReached_of_growing hlive (hgrow.mpr ⟨⟨q, n, hp⟩, hr⟩),
      LineEngine.enterSend_of_silent hsh]
    rfl
  · rw [exec_quietReached, State.quietReached_of_growing hlive (hgrow.mpr ⟨⟨q, n, hp⟩, hr⟩),
      LineEngine.enterSend_of_sending hsh]
  · rw [exec_quietReached, State.quietReached_of_not_growing hlive]
    intro h
    obtain ⟨⟨q, n, hp⟩, hr⟩ := hgrow.mp h
    exact hno.elim (fun hg => hg q n hp) (fun hh => hh hr)
  · rw [exec_transmitCharacterEnd, State.transmitCharacterEnd_of_silent hlive hsh]
  rw [exec_transmitCharacterEnd, State.transmitCharacterEnd_of_sending hlive hsh]
  refine ⟨fun k hp => ⟨fun hk => ?_, fun c hc hk => ⟨fun hb => ?_, fun hb => ?_⟩⟩, fun hp => ?_,
    fun n hn => ?_, fun hsend hwait hfall => ?_⟩
  · rw [State.characterSent_nextWindow hp hk]
    rfl
  · rw [State.characterSent_lastWindow hp hk, LineEngine.cleanSend,
      LineEngine.afterSend_of_bcast hc ((workKind_eq_bcast_iff c.work).mpr hb)]
  · rw [State.characterSent_lastWindow hp hk, LineEngine.cleanSend,
      LineEngine.afterSend_of_answered hc (mt (workKind_eq_bcast_iff c.work).mp hb)]
  · rw [State.characterSent_sendWaiting hp]
    rfl
  · have hcut : s.characterSent l = (cut n).afterContention l := by
      rcases hn with ⟨rfl, k, hp⟩ | ⟨rfl, hp⟩
      · exact State.characterSent_unechoed hp
      · exact State.characterSent_fallOfDe hp
    have hcount : ((cut n).line l).contention = n := by simp only [cut, State.line_setLine]
    rw [hcut]
    refine ⟨fun h => ?_, fun h => ?_⟩
    · rw [State.afterContention_of_limit (hcount.symm ▸ h)]
    · rw [State.afterContention_below_limit (hcount.symm ▸ h)]
      simp only [cut, State.line_setLine, State.setLine_setLine]
  · rw [State.characterSent_elsewhere hsend hwait hfall]

/-! ### Answers -/

/-- Settles O41: the frame sent fixes what `validate` compares the answer with, and each clause is one check of
Table 2-4. -/
theorem answersValidated : Obligations.AnswersValidated := by
  intro w address ctrl addr group payload sent sentGroup limit hsent hbcast kind verdict held match3
  have hframe : workKind w = sent ∧ workGroup w = sentGroup ∧ (sent = .poll → workLimit w = limit) := by
    cases w with
    | visit _ _ _ _ => obtain ⟨rfl, rfl, rfl⟩ := hsent; exact ⟨rfl, rfl, fun _ => rfl⟩
    | alert _ => obtain ⟨rfl, rfl, rfl⟩ := hsent; exact ⟨rfl, rfl, fun _ => rfl⟩
    | directed e =>
      obtain ⟨rfl, rfl, rfl⟩ := hsent
      exact ⟨rfl, rfl, fun hpoll => by simp only [workLimit, hpoll]⟩
    | mark _ _ => exact hsent.elim
  obtain ⟨hkind, hgroup, hlimit⟩ := hframe
  have hfrom : addr = address ∧ group.extractLsb' 0 4 = workGroup w ↔ match3 := by
    rw [low_bits_eq_iff, hgroup]
  have hreply (h : kind = 8) : answerKindOfCode (ctrl.extractLsb' 0 4) = some .reply := by
    rw [answerKindOfCode_ctrl, if_pos h]
  have hconfirm (h : kind = 9) : answerKindOfCode (ctrl.extractLsb' 0 4) = some .confirm := by
    simp [answerKindOfCode_ctrl, show ctrl.toNat % 16 = 9 from h]
  have hbusy (h : kind = 10) : answerKindOfCode (ctrl.extractLsb' 0 4) = some .busy := by
    simp [answerKindOfCode_ctrl, show ctrl.toNat % 16 = 10 from h]
  refine ⟨fun ⟨h8, h9, h10⟩ => ?_, fun hm => validate_of_other_sender (mt hfrom.mp hm), fun hm => ?_⟩
  · apply validate_of_no_kind
    rw [answerKindOfCode_ctrl, if_neg h8, if_neg h9, if_neg h10]
  have hf := hfrom.mpr hm
  refine ⟨fun hp hk => ?_, fun hp hk => ?_, fun hp hk hlong => ?_, fun hp hk hfits => ?_, fun hp hk => ?_,
    fun hk => ?_⟩
  · exact validate_of_disallowed hf (hconfirm hk) (by rw [hkind, hp]; rfl)
  · exact validate_of_disallowed hf (hreply hk) (by rw [hkind, hp]; rfl)
  · rw [← hlimit hp] at hlong
    exact (validate_of_reply hf (hreply hk) (hkind.trans hp)).trans (if_neg (Nat.not_le.mpr hlong))
  · rw [← hlimit hp] at hfits
    exact (validate_of_reply hf (hreply hk) (hkind.trans hp)).trans (if_pos hfits)
  · exact validate_of_confirm hf (hconfirm hk) (hkind.trans hp)
  · exact validate_of_busy hf (hbusy hk) (hkind ▸ hbcast)

/-! ### Frames -/

/-- Settles O45: the fields stand one behind the other as `buildFrame_eq` has them, the CRC's acceptance is
`buildFrame_residue`, and a byte is eight turns of `crcBit`. -/
theorem masterFrameBuilt : Obligations.MasterFrameBuilt := by
  refine ⟨fun kind address group count payload hcount => ?_, ?_, by decide +kernel, fun address => ?_⟩
  · have hn : (BitVec.ofNat 8 count).toNat = count := by
      rw [BitVec.toNat_ofNat]
      omega
    refine ⟨buildFrame_length kind address group count payload, rfl, ⟨masterCtrl kind, rfl, ?_⟩, rfl,
      ⟨groupByte group, rfl, groupByte_toNat group⟩, ⟨BitVec.ofNat 8 count, rfl, hn⟩,
      buildFrame_payload kind address group count payload, ?_, buildFrame_residue kind address group count payload⟩
    · cases kind <;> rfl
    · rw [buildFrame_covered]
      exact buildFrame_crc kind address group count payload
  · intro fed register b bs
    have hfed (r : Word) (bit : Bool) : fed r bit = crcBit r bit := (crcBit_eq r bit).symm
    simp only [hfed]
    exact ⟨rfl, rfl⟩
  · refine ⟨fun _ _ _ _ => rfl, fun _ => rfl, fun e => ⟨fun h => ?_, fun h => ?_, fun h => ?_⟩⟩
    · simp only [workFrame, h]
    · simp only [workFrame, h]
    · simp only [workFrame, h]
      rfl

end Sys2Proof.Machine
end

section
/-! SUPPORT. The timers of an exchange and the end of an attempt: one equation for each case of the rows' condition and
for each verdict. -/

namespace Sys2Proof.Machine

/-! ### The rows of the timers -/

theorem exec_responseTimeout (l : Line) (s : State) :
    exec (.responseTimeout l) s = .next (s.responseTimeout l) := rfl

theorem exec_gapLimitExpiry (l : Line) (s : State) :
    exec (.gapLimitExpiry l) s = .next (s.gapLimitExpiry l) := rfl

theorem exec_backoffEnd (l : Line) (s : State) : exec (.backoffEnd l) s = .next (s.backoffEnd l) := rfl

theorem exec_settleEnd (l : Line) (s : State) : exec (.settleEnd l) s = .next (s.settleEnd l) := rfl

theorem exec_noiseLimitExpiry (l : Line) (s : State) :
    exec (.noiseLimitExpiry l) s = .next (s.noiseLimitExpiry l) := rfl

section
variable {s : State} {l : Line}

theorem State.responseTimeout_of_running {n : Nat} (hlive : s.live = true)
    (hp : (s.line l).phase = .await (some n)) : s.responseTimeout l = s.attemptFails l .timeout := by
  simp only [State.responseTimeout, whenLive_of_live _ hlive, hp]

theorem State.responseTimeout_of_stopped (hlive : s.live = true)
    (hp : ∀ n, (s.line l).phase ≠ .await (some n)) : s.responseTimeout l = s := by
  rw [State.responseTimeout, whenLive_of_live _ hlive]
  split
  · next h => exact absurd h (hp _)
  all_goals rfl

theorem State.gapLimitExpiry_of_running {b : List Byte} {crc : Word} {n : Nat} (hlive : s.live = true)
    (hp : (s.line l).phase = .receive b crc (some n)) : s.gapLimitExpiry l = s.attemptFails l .corrupt := by
  simp only [State.gapLimitExpiry, whenLive_of_live _ hlive, hp]

theorem State.gapLimitExpiry_of_stopped (hlive : s.live = true)
    (hp : ∀ b crc n, (s.line l).phase ≠ .receive b crc (some n)) : s.gapLimitExpiry l = s := by
  rw [State.gapLimitExpiry, whenLive_of_live _ hlive]
  split
  · next h => exact absurd h (hp _ _ _)
  all_goals rfl

theorem State.backoffEnd_of_running {n : Nat} (hlive : s.live = true)
    (hp : (s.line l).phase = .idle (.backoff n)) : s.backoffEnd l = s.nextAttempt l := by
  simp only [State.backoffEnd, whenLive_of_live _ hlive, hp]

theorem State.backoffEnd_of_stopped (hlive : s.live = true)
    (hp : ∀ n, (s.line l).phase ≠ .idle (.backoff n)) : s.backoffEnd l = s := by
  rw [State.backoffEnd, whenLive_of_live _ hlive]
  split
  · next h => exact absurd h (hp _)
  all_goals rfl

theorem State.settleEnd_of_running {n : Nat} (hlive : s.live = true)
    (hp : (s.line l).phase = .idle (.settle n)) : s.settleEnd l = s.endUnit l .settled := by
  simp only [State.settleEnd, whenLive_of_live _ hlive, hp]

theorem State.settleEnd_of_stopped (hlive : s.live = true)
    (hp : ∀ n, (s.line l).phase ≠ .idle (.settle n)) : s.settleEnd l = s := by
  rw [State.settleEnd, whenLive_of_live _ hlive]
  split
  · next h => exact absurd h (hp _)
  all_goals rfl

/-- Quiet is lacking in GUARD alone, with less than 3 CT of it (R22). -/
theorem LineEngine.quietLacking_iff (x : LineEngine) :
    x.quietLacking = true ↔ ∃ q n, x.phase = .guard q n ∧ q < 3 * (160 * (x.params.rate + 1)) := by
  cases hp : x.phase with
  | guard q n =>
    have hq : x.quietLacking = decide (q < Config.quietCt * x.params.ct) := by simp only [LineEngine.quietLacking, hp]
    rw [hq, decide_eq_true_eq]
    simp [Config.quietCt, Params.ct]
  | _ => simp [LineEngine.quietLacking, hp]

theorem State.noiseLimitExpiry_of_lacking (hlive : s.live = true) (h : (s.line l).quietLacking = true) :
    s.noiseLimitExpiry l = (s.faultLine l .noise).finish := by
  rw [State.noiseLimitExpiry, whenLive_of_live _ hlive, if_pos h]

theorem State.noiseLimitExpiry_of_not_lacking (hlive : s.live = true) (h : ¬ (s.line l).quietLacking = true) :
    s.noiseLimitExpiry l = s := by
  rw [State.noiseLimitExpiry, whenLive_of_live _ hlive, if_neg h]

end

/-! ### The end of an attempt -/

theorem State.nextAttempt_eq (s : State) (l : Line) :
    s.nextAttempt l = s.setLine l { s.line l with phase := .guard 0 0 } := rfl

theorem State.chargeAttempt_of_none (s : State) {w : Work} (h : workStation w = none) : s.chargeAttempt w = s := by
  simp only [State.chargeAttempt, h]

theorem State.chargeAttempt_of_station (s : State) {w : Work} {i : StationIndex} (h : workStation w = some i) :
    s.chargeAttempt w =
      s.setEntry i { s.entry i with failedAttempts := min ((s.entry i).failedAttempts + 1) 65535 } := by
  simp only [State.chargeAttempt, h]
  rfl

section
variable {s : State} {l : Line} {c : UnitContext} (hc : (s.line l).current = some c)
include hc

theorem State.attemptFails_below_budget (o : FailingOutcome) (h : c.used + 1 < c.budget) : s.attemptFails l o =
    ((s.setLine l { s.line l with current := some (c.fail o) }).chargeAttempt c.work).nextAttempt l := by
  simp only [State.attemptFails, hc, if_pos h, State.modLine_eq_setLine]

theorem State.attemptFails_at_budget (o : FailingOutcome) (h : c.budget ≤ c.used + 1) : s.attemptFails l o =
    ((s.setLine l { s.line l with current := some (c.fail o) }).chargeAttempt c.work).endUnit l (.failed o) := by
  simp only [State.attemptFails, hc, if_neg (Nat.not_lt.mpr h), State.modLine_eq_setLine]

theorem State.attemptGood_eq (a : HeldAnswer) : s.attemptGood l a =
    (s.setLine l { s.line l with current := some (c.answered a) }).endUnit l (.good a) := by
  simp only [State.attemptGood, hc, State.modLine_eq_setLine]

theorem State.attemptDeferred_again (a : HeldAnswer) (hd : isDirected c.work = true) (h : c.used + 1 < c.budget) :
    s.attemptDeferred l a = (s.setLine l { s.line l with current := some (c.answered a) }).nextAttempt l := by
  simp [State.attemptDeferred, hc, hd, h, State.modLine_eq_setLine]

theorem State.attemptDeferred_ends (a : HeldAnswer) (h : isDirected c.work = false ∨ c.budget ≤ c.used + 1) :
    s.attemptDeferred l a =
      (s.setLine l { s.line l with current := some (c.answered a) }).endUnit l (.deferred a) := by
  have hn : ¬ (isDirected c.work && decide (c.used + 1 < c.budget)) = true := by
    simp only [Bool.and_eq_true, decide_eq_true_eq, not_and, Nat.not_lt]
    intro hd
    rcases h with h | h
    · rw [hd] at h
      cases h
    · exact h
  simp only [State.attemptDeferred, hc, if_neg hn, State.modLine_eq_setLine]

end

theorem isDirected_iff (w : Work) : isDirected w = true ↔ ∃ e, w = .directed e := by
  cases w <;> simp [isDirected]

end Sys2Proof.Machine
end

section
/-! SUPPORT. How a unit starts, and how the hold list is served: one equation for each case of `State.startWork` and of
`State.serveHoldList`, and what an invocation of an arbiter can do to the hold list and to the words of the store. -/

namespace Sys2Proof.Machine

/-! ### Unit start -/

/-- A directed POLL or SET targets the station of its entry (Table 2-2). -/
theorem workStation_directed {e : DirectedEntry} (hk : e.kind ≠ .bcast) :
    workStation (.directed e) = some e.station := by
  cases h : e.kind with
  | poll => simp only [workStation, h]
  | set => simp only [workStation, h]
  | bcast => exact absurd h hk

/-- A unit whose station is valid starts on it, whatever its kind. -/
theorem State.startWork_of_valid {s : State} {l : Line} {w : Work} {i : StationIndex} (hw : workStation w = some i)
    (hv : s.stationValid l i = true) : s.startWork l w = s.beginTargeted l w i := by
  cases w with
  | visit k j g n =>
    obtain rfl : j = i := Option.some.inj hw
    simp only [State.startWork, if_pos hv]
  | alert j =>
    obtain rfl : j = i := Option.some.inj hw
    simp only [State.startWork, if_pos hv]
  | directed e =>
    cases hk : e.kind <;> simp only [workStation, hk, Option.some.injEq, reduceCtorEq] at hw
    case poll => simp only [State.startWork, hk, hw, if_pos hv]
    case set => simp only [State.startWork, hk, hw, if_pos hv]
  | mark _ _ => cases hw

section
variable {s : State} {l : Line}

theorem State.startWork_visit_invalid {k n : Nat} {i : StationIndex} {g : Group} (hv : ¬ s.stationValid l i = true) :
    s.startWork l (.visit k i g n) = s.setLine l { s.line l with reservation := none } := by
  simp only [State.startWork, if_neg hv]
  rfl

theorem State.startWork_alert_invalid {i : StationIndex} (hv : ¬ s.stationValid l i = true) :
    s.startWork l (.alert i) = s.setLine l { s.line l with reservation := none } := by
  simp only [State.startWork, if_neg hv]
  rfl

theorem State.startWork_directed_invalid {e : DirectedEntry} (hk : e.kind ≠ .bcast)
    (hv : ¬ s.stationValid l e.station = true) : s.startWork l (.directed e) = s.faultStation l e := by
  cases h : e.kind with
  | poll => simp only [State.startWork, h, if_neg hv]
  | set => simp only [State.startWork, h, if_neg hv]
  | bcast => exact absurd h hk

theorem State.startWork_bcast {e : DirectedEntry} (hk : e.kind = .bcast) : s.startWork l (.directed e) =
    s.setLine l { s.line l with current := some (newContext (.directed e) Entry.reset), phase := .guard 0 0 } := by
  simp only [State.startWork, hk]
  rfl

theorem State.startWork_mark (visits : Nat) (overrun : Bool) : s.startWork l (.mark visits overrun) =
    State.finishBoundary { s.setLine l { s.line l with reservation := none } with
      queue := s.queue.push (.mark l visits overrun (s.line l).cycleNumber) } l := by
  have h : (s.writeRecord l (.mark l visits overrun (s.line l).cycleNumber)).dropReservation l =
      { s.setLine l { s.line l with reservation := none } with
        queue := s.queue.push (.mark l visits overrun (s.line l).cycleNumber) } := by
    cases l <;> rfl
  rw [← h]
  rfl

/-! ### What a unit that starts on a station does to its line -/

theorem State.beginTargeted_visit (k : Nat) (i : StationIndex) (g : Group) (n : Nat) :
    s.beginTargeted l (.visit k i g n) i =
      (s.setEntry i { s.entry i with inService := true }).setLine l
        { s.line l with visitCount := (s.line l).visitCount + 1,
                        current := some (newContext (.visit k i g n) (s.entry i)), phase := .guard 0 0 } := by
  simp only [State.beginTargeted, State.modEntry, State.modLine_eq_setLine, State.line_setEntry]
  rfl

theorem State.beginTargeted_alert (i : StationIndex) : s.beginTargeted l (.alert i) i =
    (s.setEntry i { s.entry i with inService := true }).setLine l
      { s.line l with alertSet := (s.line l).alertSet.filter (fun j => j ≠ i), alertCursor := i,
                      current := some (newContext (.alert i) (s.entry i)), phase := .guard 0 0 } := by
  simp only [State.beginTargeted, State.modEntry, State.modLine_eq_setLine, State.line_setEntry]
  rfl

theorem State.beginTargeted_directed (e : DirectedEntry) (i : StationIndex) : s.beginTargeted l (.directed e) i =
    (s.setEntry i { s.entry i with inService := true }).setLine l
      { s.line l with current := some (newContext (.directed e) (s.entry i)), phase := .guard 0 0 } := by
  simp only [State.beginTargeted, State.modEntry, State.modLine_eq_setLine, State.line_setEntry]
  rfl

/-! ### A directed unit whose station is invalid -/

theorem State.queue_faultStation (e : DirectedEntry) : (s.faultStation l e).queue =
    s.queue.push (.fault l e.station e.group e.tag .station (s.line l).cycleNumber) := by
  simp [State.faultStation]

theorem State.line_faultStation (e : DirectedEntry) : (s.faultStation l e).line l =
    { s.line l with directed := (s.line l).directed.tail, reservation := none } := by
  simp [State.faultStation, State.dropReservation]

theorem State.stations_faultStation (e : DirectedEntry) : (s.faultStation l e).stations = s.stations := by
  simp [State.faultStation]

end

/-- The start of a unit leaves the hold list and the counter of free orders alone. -/
theorem startWork_keeps_order (s : State) (l : Line) (w : Work) :
    (s.startWork l w).queue.holdList = s.queue.holdList ∧ (s.startWork l w).raceCount = s.raceCount := by
  have hbegin (i : StationIndex) : (s.beginTargeted l w i).queue.holdList = s.queue.holdList ∧
      (s.beginTargeted l w i).raceCount = s.raceCount := by
    simp [State.beginTargeted]
  by_cases hv : ∃ i, workStation w = some i ∧ s.stationValid l i = true
  · obtain ⟨i, hw, hv⟩ := hv
    rw [State.startWork_of_valid hw hv]
    exact hbegin i
  cases w with
  | visit k i g n =>
    rw [State.startWork_visit_invalid fun h => hv ⟨i, rfl, h⟩]
    simp
  | alert i =>
    rw [State.startWork_alert_invalid fun h => hv ⟨i, rfl, h⟩]
    simp
  | directed e =>
    by_cases hk : e.kind = .bcast
    · rw [State.startWork_bcast hk]
      simp
    · rw [State.startWork_directed_invalid hk fun h => hv ⟨_, workStation_directed hk, h⟩]
      simp [State.faultStation, State.holdList_push]
  | mark v o =>
    rw [State.startWork_mark]
    simp [State.finishBoundary, State.holdList_push]

/-! ### Grants -/

/-- A grant takes up the pending unit: the line holds the reservation, and the unit starts (R112). -/
theorem State.grant_of_chosen {s : State} {l : Line} {w : Work} (n : Nat) (hc : (s.line l).chosen = some w) :
    s.grant l n = (s.setLine l { s.line l with chosen := none, reservation := some n }).startWork l w := by
  simp only [State.grant, State.startUnit, hc, State.modLine_eq_setLine, State.line_setLine,
    State.setLine_setLine, LineEngine.clearChosen]

theorem State.holdList_grant (s : State) (l : Line) (n : Nat) : (s.grant l n).queue.holdList = s.queue.holdList := by
  cases hc : (s.line l).chosen with
  | none => simp [State.grant, State.startUnit, hc]
  | some w => rw [State.grant_of_chosen n hc, (startWork_keeps_order _ l w).1, State.queue_setLine]

theorem State.afterGrant_of_empty {s : State} (l : Line) (h : s.queue.holdList = []) : s.afterGrant l = s := by
  simp [State.afterGrant, h]

/-- While another line waits, the granted line whose arbiter is due may go first (R171, log entry 6). -/
theorem State.afterGrant_of_waiting {s : State} (l : Line) (h : s.queue.holdList ≠ []) : s.afterGrant l =
    if (s.line l).arbiterDue = true then
      if Config.raceFirst s.raceCount = true then State.settleLine l 256 s.nextRace else s.nextRace
    else s := by
  have he : s.queue.holdList.isEmpty = false := by simpa using h
  simp only [State.afterGrant, he, Bool.not_false, Bool.and_true]
  rfl

/-! ### Serving -/

theorem serveHoldList_of_empty {s : State} (n : Nat) (h : s.queue.holdList = []) : State.serveHoldList n s = s := by
  cases n <;> simp [State.serveHoldList, h]

theorem serveHoldList_of_unfit {s : State} {h : HoldEntry} {rest : List HoldEntry} (n : Nat)
    (hl : s.queue.holdList = h :: rest) (hn : 1024 < s.wordsUsed + s.wordsReserved + h.request) :
    State.serveHoldList n s = s := by
  have hf : ¬ s.wordsUsed + s.wordsReserved + h.request ≤ Config.storeWords := Nat.not_le.mpr hn
  cases n with
  | zero => rfl
  | succ n => simp only [State.serveHoldList, hl, if_neg hf]

theorem serveHoldList_of_fit {s : State} {h : HoldEntry} {rest : List HoldEntry} (n : Nat)
    (hl : s.queue.holdList = h :: rest) (hf : s.wordsUsed + s.wordsReserved + h.request ≤ 1024) :
    State.serveHoldList (n + 1) s = State.serveHoldList n
      ((State.grant { s with queue := { s.queue with holdList := rest } } h.line h.request).afterGrant h.line) := by
  have hf' : s.wordsUsed + s.wordsReserved + h.request ≤ Config.storeWords := hf
  simp only [State.serveHoldList, hl, if_pos hf']

/-- The only entry of the hold list is granted when it fits, and nothing is left to serve. -/
theorem serveHoldList_of_only_fit {s : State} {h : HoldEntry} (n : Nat) (hl : s.queue.holdList = [h])
    (hf : s.wordsUsed + s.wordsReserved + h.request ≤ 1024) : State.serveHoldList (n + 1) s =
      State.grant { s with queue := { s.queue with holdList := [] } } h.line h.request := by
  have he : (State.grant { s with queue := { s.queue with holdList := [] } } h.line h.request).queue.holdList = [] := by
    rw [State.holdList_grant]
  rw [serveHoldList_of_fit n hl hf, State.afterGrant_of_empty _ he, serveHoldList_of_empty n he]

/-! ### What an invocation of an arbiter can do -/

/-- From s to t the queue and the words of the reservations stand. -/
structure State.SameStore (s t : State) : Prop where
  queue : t.queue = s.queue
  reserved : t.wordsReserved = s.wordsReserved

theorem State.SameStore.refl (s : State) : s.SameStore s :=
  ⟨rfl, rfl⟩

theorem State.SameStore.trans {s t u : State} (h : s.SameStore t) (k : t.SameStore u) : s.SameStore u :=
  ⟨k.queue.trans h.queue, k.reserved.trans h.reserved⟩

theorem wordsReserved_congr {s t : State} (h : ∀ m, (t.line m).reservation = (s.line m).reservation) :
    t.wordsReserved = s.wordsReserved := by
  have ha : t.lineA.reservation = s.lineA.reservation := h .a
  have hb : t.lineB.reservation = s.lineB.reservation := h .b
  simp only [State.wordsReserved, LineEngine.reservedWords, ha, hb]

theorem State.SameStore.modLine (s : State) (l : Line) (f : LineEngine → LineEngine)
    (h : (f (s.line l)).reservation = (s.line l).reservation) : s.SameStore (s.modLine l f) := by
  refine ⟨State.queue_modLine s l f, wordsReserved_congr fun m => ?_⟩
  rw [State.line_modLine_eq]
  split
  · next hm => rw [hm, h]
  · rfl

theorem State.SameStore.finishBoundary (s : State) (l : Line) : s.SameStore (s.finishBoundary l) := by
  refine ⟨holdList_finishBoundary s l, wordsReserved_congr fun m => ?_⟩
  by_cases hm : m = l
  · rw [hm, reservation_finishBoundary]
  · rw [(State.OnlyLine.finishBoundary s l).line m hm]

theorem State.SameStore.enterStopped (s : State) (l : Line) : s.SameStore (s.enterStopped l) := by
  refine ⟨queue_enterStopped s l, wordsReserved_congr fun m => ?_⟩
  by_cases hm : m = l
  · rw [hm, line_enterStopped]
    split <;> rfl
  · rw [(onlyLine_enterStopped s l).line m hm]

/-- The arbiter changes counters of its line and then stops there, passes the cycle boundary, or takes up a unit. -/
theorem invokeArbiter_cases (s : State) (l : Line) : ∃ u, s.SameStore u ∧
    (s.invokeArbiter l = u ∨ s.invokeArbiter l = u.finishBoundary l ∨
      ∃ w, s.invokeArbiter l = u.requestUnit l w) := by
  have houtside : s.chooseOutside l = s ∨ ∃ w, s.chooseOutside l = s.requestUnit l w := by
    unfold State.chooseOutside
    split
    · exact Or.inr ⟨_, rfl⟩
    · exact Or.inl rfl
  have hwait : ∀ t, t = (if (s.line l).cycleDue then s.modLine l LineEngine.startCycle else s.chooseOutside l) →
      ∃ u, s.SameStore u ∧ (t = u ∨ t = u.finishBoundary l ∨ ∃ w, t = u.requestUnit l w) := by
    rintro t rfl
    split
    · exact ⟨_, State.SameStore.modLine s l LineEngine.startCycle rfl, Or.inl rfl⟩
    · exact ⟨s, State.SameStore.refl s, houtside.imp_right Or.inr⟩
  have hcursor : s.SameStore (s.modLine l (fun y => { y with cursor := s.walk l })) :=
    State.SameStore.modLine s l _ rfl
  unfold State.invokeArbiter
  dsimp only
  split
  · exact ⟨s, State.SameStore.refl s, Or.inl rfl⟩
  · split
    · exact ⟨s, State.SameStore.refl s, Or.inl rfl⟩
    · split
      · refine ⟨_, hcursor, Or.inr ?_⟩
        unfold State.boundary
        dsimp only
        split
        · exact Or.inr ⟨_, rfl⟩
        · exact Or.inl rfl
      · unfold State.chooseInCycle
        dsimp only
        split
        · split
          · exact ⟨_, hcursor.trans (State.SameStore.modLine _ l _ rfl), Or.inr (Or.inr ⟨_, rfl⟩)⟩
          · exact ⟨_, hcursor.trans (State.SameStore.modLine _ l _ rfl), Or.inr (Or.inr ⟨_, rfl⟩)⟩
        · exact ⟨_, hcursor.trans (State.SameStore.modLine _ l _ rfl), Or.inr (Or.inr ⟨_, rfl⟩)⟩
    · exact hwait _ rfl
    · exact hwait _ rfl

/-! ### A line that acts while the hold list waits -/

/-- With lines waiting, a unit taken up waits behind them (R109, R111). -/
theorem requestUnit_of_waiting {s : State} (l : Line) (w : Work) (h : s.queue.holdList ≠ []) :
    s.requestUnit l w = (s.modLine l (fun x => { x with chosen := some w })).joinHoldList l (workRequest w) := by
  have hg : ¬ s.grantable (workRequest w) = true := by simp [State.grantable, h]
  simp only [State.requestUnit, if_neg hg]

theorem holdList_joinHoldList (s : State) (l : Line) (n : Nat) :
    (s.joinHoldList l n).queue.holdList = s.queue.holdList ++ [⟨l, n⟩] := rfl

theorem free_of_chosen {x : LineEngine} (h : x.chosen.isSome = true) : x.free = false := by
  cases hc : x.chosen with
  | none => rw [hc] at h; cases h
  | some w => simp [LineEngine.free, hc]

/-- With lines waiting, the arbiter leaves the hold list alone or puts its line at the tail, no longer free. -/
theorem invokeArbiter_of_waiting {s : State} (l : Line) (h : s.queue.holdList ≠ []) :
    (s.invokeArbiter l).queue.holdList = s.queue.holdList ∨
      ((s.invokeArbiter l).line l).free = false ∧
        ∃ n, (s.invokeArbiter l).queue.holdList = s.queue.holdList ++ [⟨l, n⟩] := by
  obtain ⟨u, hu, he | he | ⟨w, he⟩⟩ := invokeArbiter_cases s l
  · exact Or.inl (by rw [he, hu.queue])
  · exact Or.inl (by rw [he, holdList_finishBoundary, hu.queue])
  · rw [he, requestUnit_of_waiting l w (by rw [hu.queue]; exact h)]
    refine Or.inr ⟨free_of_chosen ?_, workRequest w, ?_⟩
    · rw [State.line_joinHoldList, State.line_modLine]
      rfl
    · rw [holdList_joinHoldList, State.queue_modLine, hu.queue]

theorem arbiterDue_of_not_free {x : LineEngine} (h : x.free = false) : x.arbiterDue = false := by
  simp [LineEngine.arbiterDue, h]

theorem settleLine_of_not_due {s : State} {l : Line} (n : Nat) (h : (s.line l).arbiterDue = false) :
    State.settleLine l n s = s := by
  cases n <;> simp [State.settleLine, h]

/-- With lines waiting, a line whose arbiter is invoked until it has nothing to do joins them once at most. -/
theorem settleLine_of_waiting (l : Line) : ∀ (n : Nat) (s : State), s.queue.holdList ≠ [] →
    (State.settleLine l n s).queue.holdList = s.queue.holdList ∨
      ∃ k, (State.settleLine l n s).queue.holdList = s.queue.holdList ++ [⟨l, k⟩]
  | 0, _, _ => Or.inl rfl
  | n + 1, s, h => by
    unfold State.settleLine
    split
    · rcases invokeArbiter_of_waiting l h with hq | ⟨hf, k, hq⟩
      · rw [← hq] at h ⊢
        exact settleLine_of_waiting l n _ h
      · rw [settleLine_of_not_due n (arbiterDue_of_not_free hf)]
        exact Or.inr ⟨k, hq⟩
    · exact Or.inl rfl

/-! ### The rows -/

theorem exec_unitStart (l : Line) (s : State) : exec (.unitStart l) s = .next (s.unitStart l) := rfl

theorem exec_holdListGrant {s : State} (hlive : s.live = true) :
    exec .holdListGrant s = .next (State.serveHoldList 256 s).finish := by
  show Host.Outcome.next s.holdListGrant = _
  rw [State.holdListGrant, whenLive_of_live _ hlive]
  rfl

theorem State.unitStart_of_granted {s : State} {l : Line} {w : Work} (hlive : s.live = true)
    (hw : (s.line l).chosen = some w) (hg : (s.line l).granted = true) :
    s.unitStart l = ((s.setLine l { s.line l with chosen := none }).startWork l w).serve.finish := by
  rw [State.unitStart, whenLive_of_live _ hlive, if_pos hg]
  simp only [State.startUnit, hw]
  rfl

theorem State.unitStart_of_not_granted {s : State} {l : Line} (hlive : s.live = true)
    (hg : ¬ (s.line l).granted = true) : s.unitStart l = s := by
  rw [State.unitStart, whenLive_of_live _ hlive, if_neg hg]

theorem LineEngine.granted_iff (x : LineEngine) :
    x.granted = true ↔ x.chosen.isSome = true ∧ x.current = none ∧ x.reservation.isSome = true := by
  simp [LineEngine.granted, and_assoc]

end Sys2Proof.Machine
end

section
/-! SUPPORT. The end of a unit: what its visit outcome does to its station and its line in one equation, what the
completion hands on, and that the arbiters leave the hold list served. -/

namespace Sys2Proof.Machine

/-! ### The visit outcome -/

/-- The STATE record of a visit outcome on a station with the entry `y`, if its state changes (R61). -/
def changeRecord (l : Line) (cycle : Word) (w : Work) (i : StationIndex) (y : Entry) (e : UnitEnd) : Option Record :=
  (visitOutcome y e).2.map fun cause => .state l (workOrigin w) i y.state (visitOutcome y e).1.state cause cycle

/-- The alert set of the line after a visit outcome on the station `i` with the entry `y` (R57 step 5, R58). -/
def alertsAfter (i : StationIndex) (y : Entry) (e : UnitEnd) (xs : List StationIndex) : List StationIndex :=
  match e with
  | .good a => if a.alert && y.alertFollowUp then alertInsert i xs else xs
  | .deferred a => if a.alert && y.alertFollowUp then alertInsert i xs else xs
  | .failed _ => if y.state ≠ .offline ∧ y.consecutive + 1 = y.failThreshold then alertRemove i xs else xs
  | .settled => xs
  | .aborted => xs
  | .lineFault => xs

/-- The part after a visit outcome on the station `i`, as `visitOutcome` gives its entry and its STATE record. -/
def State.withOutcome (s : State) (l : Line) (w : Work) (i : StationIndex) (e : UnitEnd) : State :=
  ((s.setEntry i { (visitOutcome (s.entry i) e).1 with inService := (s.entry i).inService }).writeRecord? l
    (changeRecord l (s.line l).cycleNumber w i (s.entry i) e)).modLine l
      (fun x => { x with alertSet := alertsAfter i (s.entry i) e x.alertSet })

theorem State.setEntry_entry (s : State) (i : StationIndex) : s.setEntry i (s.entry i) = s := by
  simp [State.setEntry, State.entry, Vector.get_eq_getElem]

/-- An outcome that does nothing to the station leaves the part as it stands. -/
theorem withOutcome_of_stands {s : State} {l : Line} {w : Work} {i : StationIndex} {e : UnitEnd}
    (hout : visitOutcome (s.entry i) e = ({ s.entry i with inService := false }, none))
    (halerts : ∀ xs, alertsAfter i (s.entry i) e xs = xs) : s.withOutcome l w i e = s := by
  have hentry : { (visitOutcome (s.entry i) e).1 with inService := (s.entry i).inService } = s.entry i := by rw [hout]
  have hrecord : changeRecord l (s.line l).cycleNumber w i (s.entry i) e = none := by rw [changeRecord, hout]; rfl
  simp only [State.withOutcome, halerts]
  rw [hentry, State.setEntry_entry, hrecord]
  exact State.modLine_id s l

theorem outcomeAnswered_eq {s : State} {l : Line} {w : Work} {i : StationIndex} {cause : RecordCause} {a : HeldAnswer}
    {e : UnitEnd} (he : cause = .good ∧ e = .good a ∨ cause = .deferred ∧ e = .deferred a)
    (hk : isWorking (s.entry i).state = true) : s.outcomeAnswered l w i cause a = s.withOutcome l w i e := by
  have hentry : { (visitOutcome (s.entry i) e).1 with inService := (s.entry i).inService } = (s.entry i).answer := by
    rcases he with ⟨-, rfl⟩ | ⟨-, rfl⟩ <;> rfl
  have halerts (xs : List StationIndex) : alertsAfter i (s.entry i) e xs =
      if a.alert && (s.entry i).alertFollowUp then alertInsert i xs else xs := by
    rcases he with ⟨-, rfl⟩ | ⟨-, rfl⟩ <;> rfl
  have hrecord : changeRecord l (s.line l).cycleNumber w i (s.entry i) e = if (s.entry i).state = .online then none
      else some (.state l (workOrigin w) i (s.entry i).state .online cause (s.line l).cycleNumber) := by
    rcases he with ⟨rfl, rfl⟩ | ⟨rfl, rfl⟩ <;> by_cases ho : (s.entry i).state = .online <;>
      simp [changeRecord, visitOutcome, ho]
  unfold State.outcomeAnswered State.withOutcome
  simp only [hk, hentry, halerts, hrecord]
  by_cases ho : (s.entry i).state = .online <;> by_cases ha : (a.alert && (s.entry i).alertFollowUp) = true <;>
    simp [ho, ha, State.writeRecord?, State.recordChange, State.modEntry]

theorem outcomeFailed_eq {s : State} {l : Line} {w : Work} {i : StationIndex} (o : FailingOutcome)
    (hk : isWorking (s.entry i).state = true) : s.outcomeFailed l w i o = s.withOutcome l w i (.failed o) := by
  by_cases hoff : (s.entry i).state = .offline
  · rw [withOutcome_of_stands (by simp only [visitOutcome, if_pos hoff]) fun xs => by simp [alertsAfter, hoff]]
    simp [State.outcomeFailed, hoff]
  unfold State.outcomeFailed State.withOutcome
  by_cases hth : (s.entry i).consecutive + 1 = (s.entry i).failThreshold
  · simp [hk, hoff, hth, changeRecord, visitOutcome, alertsAfter, State.writeRecord?, State.recordChange,
      State.modEntry, State.leaveAlertSet]
  by_cases hon : (s.entry i).state = .online
  · simp [isWorking, hon, hth, changeRecord, visitOutcome, alertsAfter, State.writeRecord?, State.recordChange,
      State.modEntry]
  · simp [hk, hoff, hon, hth, changeRecord, visitOutcome, alertsAfter, State.writeRecord?, State.modEntry]

/-- The visit outcome on a station in a working state (R57 to R59). -/
theorem applyOutcome_eq {s : State} {l : Line} {w : Work} {i : StationIndex} (e : UnitEnd) (hw : workStation w = some i)
    (hk : isWorking (s.entry i).state = true) : s.applyOutcome l w e = s.withOutcome l w i e := by
  unfold State.applyOutcome
  simp only [hw]
  cases e with
  | good a => exact outcomeAnswered_eq (Or.inl ⟨rfl, rfl⟩) hk
  | deferred a => exact outcomeAnswered_eq (Or.inr ⟨rfl, rfl⟩) hk
  | failed o => exact outcomeFailed_eq o hk
  | settled => exact (withOutcome_of_stands rfl fun _ => rfl).symm
  | aborted => exact (withOutcome_of_stands rfl fun _ => rfl).symm
  | lineFault => exact (withOutcome_of_stands rfl fun _ => rfl).symm

theorem applyOutcome_of_none (s : State) (l : Line) {w : Work} (e : UnitEnd) (hw : workStation w = none) :
    s.applyOutcome l w e = s := by
  simp only [State.applyOutcome, hw]

/-! ### A record written, if there is one -/

theorem records_writeRecord? (s : State) (l : Line) (r : Option Record) :
    (s.writeRecord? l r).queue.records = s.queue.records ++ r.toList := by
  cases r with
  | none => simp [State.writeRecord?]
  | some r => exact records_writeRecord s l r

@[simp] theorem entry_writeRecord? (s : State) (l : Line) (r : Option Record) (i : StationIndex) :
    (s.writeRecord? l r).entry i = s.entry i := by
  cases r with
  | none => rfl
  | some r => exact State.entry_writeRecord s l r i

/-- The words of a record leave the reservation of the line that writes it (R106). -/
theorem line_writeRecord?_self (s : State) (l : Line) (r : Option Record) : (s.writeRecord? l r).line l =
    { s.line l with reservation := (s.line l).reservation.map (fun n => n - wordsOf r.toList) } := by
  cases r with
  | none => simp [State.writeRecord?, wordsOf]
  | some r => simp [State.writeRecord?, wordsOf]

theorem reservedWords_map (x : LineEngine) (k : Nat) :
    ({ x with reservation := x.reservation.map (fun n => n - k) } : LineEngine).reservedWords =
      x.reservedWords - k := by
  cases h : x.reservation <;> simp [LineEngine.reservedWords, h]

/-! ### What the completion hands on -/

/-- The records a completing unit writes: its own, and the STATE record of its visit outcome (R38 steps 1 and 2). -/
def State.unitRecords (s : State) (l : Line) (c : UnitContext) (e : UnitEnd) : List Record :=
  (ownRecord l (s.line l).cycleNumber c.work e).toList ++
    match workStation c.work with
    | none => []
    | some i => (changeRecord l (s.line l).cycleNumber c.work i (s.entry i) e).toList

/-- The alert set of the line after a unit has completed: the visit outcome, then a deferred disable (R50, R57, R58). -/
def State.unitAlerts (s : State) (l : Line) (c : UnitContext) (e : UnitEnd) : List StationIndex :=
  match workStation c.work with
  | none => (s.line l).alertSet
  | some i =>
    let xs := alertsAfter i (s.entry i) e (s.line l).alertSet
    if (s.entry i).disablePending then alertRemove i xs else xs

theorem leaveService_of_none (s : State) {w : Work} (hw : workStation w = none) : s.leaveService w = s := by
  simp only [State.leaveService, hw]

theorem queue_leaveService (s : State) (w : Work) : (s.leaveService w).queue = s.queue := by
  unfold State.leaveService
  split
  · rfl
  · dsimp only
    split <;> simp

theorem entry_leaveService {s : State} {w : Work} {i : StationIndex} (hw : workStation w = some i) :
    (s.leaveService w).entry i = if (s.entry i).disablePending then
        { s.entry i with state := .disabled, consecutive := 0, inService := false, disablePending := false }
      else { s.entry i with inService := false } := by
  simp only [State.leaveService, hw]
  split <;> simp [State.disableNow]

theorem line_leaveService {s : State} {l : Line} {w : Work} {i : StationIndex} (hw : workStation w = some i)
    (hl : (s.entry i).line = l) : (s.leaveService w).line l =
      { s.line l with alertSet :=
          if (s.entry i).disablePending then alertRemove i (s.line l).alertSet else (s.line l).alertSet } := by
  simp only [State.leaveService, hw]
  split <;> simp [State.disableNow, State.leaveAlertSet, hl]

theorem visitOutcome_marks (y : Entry) (e : UnitEnd) :
    (visitOutcome y e).1.disablePending = y.disablePending ∧ (visitOutcome y e).1.line = y.line := by
  cases e with
  | failed o =>
    simp only [visitOutcome]
    split
    · exact ⟨rfl, rfl⟩
    · split
      · exact ⟨rfl, rfl⟩
      · split <;> exact ⟨rfl, rfl⟩
  | _ => exact ⟨rfl, rfl⟩

theorem entry_withOutcome (s : State) (l : Line) (w : Work) (i : StationIndex) (e : UnitEnd) :
    (s.withOutcome l w i e).entry i =
      { (visitOutcome (s.entry i) e).1 with inService := (s.entry i).inService } := by
  simp [State.withOutcome]

theorem records_withOutcome (s : State) (l : Line) (w : Work) (i : StationIndex) (e : UnitEnd) :
    (s.withOutcome l w i e).queue.records =
      s.queue.records ++ (changeRecord l (s.line l).cycleNumber w i (s.entry i) e).toList := by
  simp [State.withOutcome, records_writeRecord?]

theorem line_withOutcome (s : State) (l : Line) (w : Work) (i : StationIndex) (e : UnitEnd) :
    (s.withOutcome l w i e).line l = { s.line l with
      alertSet := alertsAfter i (s.entry i) e (s.line l).alertSet,
      reservation := (s.line l).reservation.map
        (fun n => n - wordsOf (changeRecord l (s.line l).cycleNumber w i (s.entry i) e).toList) } := by
  simp [State.withOutcome, line_writeRecord?_self]

section
variable {s : State} {l : Line} {c : UnitContext} (e : UnitEnd)

theorem handedOn_of_none (hw : workStation c.work = none) : s.handedOn l c e =
    (s.writeRecord? l (ownRecord l (s.line l).cycleNumber c.work e)).leaveDirected l c.work := by
  rw [State.handedOn, applyOutcome_of_none _ l e hw, leaveService_of_none _ hw]

theorem handedOn_of_station {i : StationIndex} (hw : workStation c.work = some i)
    (hk : isWorking (s.entry i).state = true) : s.handedOn l c e =
      (((s.writeRecord? l (ownRecord l (s.line l).cycleNumber c.work e)).withOutcome l c.work i e).leaveService
        c.work).leaveDirected l c.work := by
  rw [State.handedOn, applyOutcome_eq e hw (by rw [entry_writeRecord?]; exact hk)]

theorem entry_leaveDirected (s : State) (l : Line) (w : Work) (i : StationIndex) :
    (s.leaveDirected l w).entry i = s.entry i := by
  unfold State.leaveDirected
  split <;> simp

/-- The entry of a station whose unit has completed: the outcome, then out of service, then a deferred disable (R38
steps 2 and 3). -/
theorem entry_handedOn {i : StationIndex} (hw : workStation c.work = some i)
    (hk : isWorking (s.entry i).state = true) : (s.handedOn l c e).entry i =
      if (visitOutcome (s.entry i) e).1.disablePending = true then
        { (visitOutcome (s.entry i) e).1 with
          state := .disabled, consecutive := 0, inService := false, disablePending := false }
      else { (visitOutcome (s.entry i) e).1 with inService := false } := by
  rw [handedOn_of_station e hw hk, entry_leaveDirected, entry_leaveService hw, entry_withOutcome, entry_writeRecord?]

variable (hw : ∀ i, workStation c.work = some i → (s.entry i).line = l ∧ isWorking (s.entry i).state = true)
include hw

theorem records_handedOn : (s.handedOn l c e).queue.records = s.queue.records ++ s.unitRecords l c e := by
  cases hi : workStation c.work with
  | none => simp [handedOn_of_none e hi, holdList_leaveDirected, records_writeRecord?, State.unitRecords, hi]
  | some i =>
    rw [handedOn_of_station e hi (hw i hi).2, holdList_leaveDirected, queue_leaveService, records_withOutcome]
    simp [records_writeRecord?, State.unitRecords, hi, line_writeRecord?_self]

theorem line_handedOn_eq : (s.handedOn l c e).line l = { s.line l with
    alertSet := s.unitAlerts l c e, directed := directedAfter c.work (s.line l).directed,
    reservation := (s.line l).reservation.map (fun n => n - wordsOf (s.unitRecords l c e)) } := by
  cases hi : workStation c.work with
  | none =>
    simp [handedOn_of_none e hi, line_leaveDirected, line_writeRecord?_self, State.unitRecords, State.unitAlerts, hi]
  | some i =>
    have hline : (((s.writeRecord? l (ownRecord l (s.line l).cycleNumber c.work e)).withOutcome l c.work i e).entry
        i).line = l := by
      rw [entry_withOutcome, entry_writeRecord?]
      exact (visitOutcome_marks _ e).2.trans (hw i hi).1
    rw [handedOn_of_station e hi (hw i hi).2, line_leaveDirected, line_leaveService hi hline, line_withOutcome,
      entry_withOutcome, line_writeRecord?_self]
    simp [State.unitRecords, State.unitAlerts, hi, (visitOutcome_marks (s.entry i) e).1, wordsOf_append,
      Function.comp_def, Nat.sub_sub]

end

/-! ### The hold list after a completion -/

theorem HoldListServed_of_same {s t : State} (h : s.HoldListServed) (k : s.SameStore t) : t.HoldListServed := by
  intro e he
  rw [k.queue] at he
  rw [State.wordsUsed, k.queue, k.reserved]
  exact h e he

theorem HoldListServed_of_empty {s : State} (h : s.queue.holdList = []) : s.HoldListServed := by
  intro e he
  rw [h] at he
  cases he

/-- Where one line at most waits, serving ends with an empty hold list or a request that does not fit (R112). -/
theorem holdListServed_serve {s : State} (h : s.queue.holdList.length ≤ 1) : s.serve.HoldListServed := by
  cases hl : s.queue.holdList with
  | nil =>
    rw [serve_of_empty hl]
    exact HoldListServed_of_empty hl
  | cons e rest =>
    obtain rfl : rest = [] := by
      rw [hl, List.length_cons] at h
      exact List.eq_nil_of_length_eq_zero (by omega)
    by_cases hf : s.wordsUsed + s.wordsReserved + e.request ≤ 1024
    · refine HoldListServed_of_empty ?_
      have hs : s.serve = State.grant { s with queue := { s.queue with holdList := [] } } e.line e.request :=
        serveHoldList_of_only_fit 255 hl hf
      rw [hs, State.holdList_grant]
    · rw [serve_of_unfit hl (Nat.not_le.mp hf)]
      intro k hk
      rw [hl] at hk
      obtain rfl : e = k := Option.some.inj hk
      exact Nat.not_le.mp hf

/-- A unit taken up is granted on an empty hold list, joins an empty one because it does not fit, or joins lines that
wait already (R109, R111). -/
theorem holdListServed_requestUnit {s : State} (l : Line) (w : Work) (h : s.HoldListServed) :
    (s.requestUnit l w).HoldListServed := by
  have hsame : s.SameStore (s.modLine l (fun x => { x with chosen := some w })) := State.SameStore.modLine s l _ rfl
  by_cases hg : s.grantable (workRequest w) = true
  · have he : s.queue.holdList = [] := by
      simp only [State.grantable, Bool.and_eq_true, List.isEmpty_iff] at hg
      exact hg.1
    refine HoldListServed_of_empty ?_
    simp only [State.requestUnit, if_pos hg]
    rw [State.holdList_grant, State.queue_modLine, he]
  · simp only [State.requestUnit, if_neg hg]
    intro k hk
    rw [holdList_joinHoldList, hsame.queue] at hk
    have hwords : 1024 < s.wordsUsed + s.wordsReserved + k.request := by
      cases hl : s.queue.holdList with
      | nil =>
        rw [hl] at hk
        obtain rfl : (⟨l, workRequest w⟩ : HoldEntry) = k := Option.some.inj hk
        exact Nat.not_le.mp fun hf => hg (by simp [State.grantable, hl, Config.storeWords, hf])
      | cons e rest =>
        rw [hl] at hk
        exact h k (by rw [hl]; exact hk)
    have hreserved := hsame.reserved
    have hused : (s.modLine l (fun x => { x with chosen := some w })).wordsUsed = s.wordsUsed := by
      rw [State.wordsUsed, hsame.queue]
      rfl
    rw [← hreserved, ← hused] at hwords
    exact hwords

theorem holdListServed_invokeArbiter {s : State} (l : Line) (h : s.HoldListServed) :
    (s.invokeArbiter l).HoldListServed := by
  obtain ⟨u, hu, he | he | ⟨w, he⟩⟩ := invokeArbiter_cases s l
  · rw [he]
    exact HoldListServed_of_same h hu
  · rw [he]
    exact HoldListServed_of_same h (hu.trans (State.SameStore.finishBoundary u l))
  · rw [he]
    exact holdListServed_requestUnit l w (HoldListServed_of_same h hu)

theorem State.SameStore.nextRace (s : State) : s.SameStore s.nextRace :=
  ⟨rfl, rfl⟩

theorem holdListServed_settleArbiters : ∀ (n : Nat) (s : State), s.HoldListServed →
    (State.settleArbiters n s).HoldListServed
  | 0, _, h => h
  | n + 1, s, h => by
    unfold State.settleArbiters
    split
    · exact h
    · refine holdListServed_settleArbiters n _ (holdListServed_invokeArbiter _ ?_)
      split
      · exact HoldListServed_of_same h (State.SameStore.nextRace s)
      · exact h

/-- The arbiters' turn leaves nobody waiting for words that are free. -/
theorem holdListServed_finish {s : State} (h : s.HoldListServed) : s.finish.HoldListServed :=
  holdListServed_settleArbiters _ s h

/-- Without the entries of a line, one line at most is left in a hold list that names each line once. -/
theorem holdList_length_le_one {s : State} {l : Line} (h : s.HoldListCoherent)
    (hno : ∀ e ∈ s.queue.holdList, e.line ≠ l) : s.queue.holdList.length ≤ 1 := by
  have hother : ∀ m ∈ s.queue.holdList.map HoldEntry.line, m = otherLine l := by
    intro m hm
    obtain ⟨e, he, rfl⟩ := List.mem_map.1 hm
    have := hno e he
    cases hl : e.line <;> cases l <;> simp_all [otherLine]
  have hrep := List.eq_replicate_of_mem hother
  have hone : (s.queue.holdList.map HoldEntry.line).length ≤ 1 := by
    have hn := h.once
    rw [hrep] at hn
    exact List.nodup_replicate.1 hn
  rwa [List.length_map] at hone

/-! ### Causes that stay pending -/

/-- A latched cause has been raised and not been acknowledged (R161). -/
structure State.Latched (s : State) (c : Cause) : Prop where
  bit : s.interrupts.latched.getLsbD (causeCode c - 1) = true

theorem isPending_of_latched {s : State} {c : Cause} (h : s.Latched c) : s.isPending c = true := by
  rw [State.isPending, State.pendingCauses, BitVec.getLsbD_or, h.bit, Bool.true_or]

theorem latched_raise (s : State) (c : Cause) : (s.raise c).Latched c := by
  have hbit : (causeBit c).getLsbD (causeCode c - 1) = true := by
    cases c with
    | queueHeld => decide
    | queueThreshold => decide
    | lineFault l => cases l <;> decide
    | stationState l => cases l <;> decide
    | directedDone l => cases l <;> decide
    | lineStopped l => cases l <;> decide
    | cycleEnd l => cases l <;> decide
  refine ⟨?_⟩
  show (s.interrupts.latched ||| causeBit c).getLsbD _ = true
  rw [BitVec.getLsbD_or, hbit, Bool.or_true]

theorem State.Evolves.keeps_latched {s t : State} (h : s.Evolves t) {c : Cause} (hc : s.Latched c) : t.Latched c := by
  have hl := hc.bit
  rw [← h.latched, BitVec.getLsbD_and, Bool.and_eq_true] at hl
  exact ⟨hl.2⟩

theorem latched_foldl_raise {c : Cause} (cs : List Cause) (s : State) (h : c ∈ cs) :
    (cs.foldl State.raise s).Latched c := by
  induction cs generalizing s with
  | nil => exact absurd h List.not_mem_nil
  | cons d cs ih =>
    rw [List.foldl_cons]
    rcases List.mem_cons.1 h with rfl | h
    · exact (State.Selected.foldl_raise cs _).evolves.keeps_latched (latched_raise s c)
    · exact ih _ h

/-- A record written leaves the causes it raises pending (R106 step 5). -/
theorem latched_writeRecord {c : Cause} (s : State) (l : Line) {r : Record} (h : c ∈ recordCauses r) :
    (s.writeRecord l r).Latched c :=
  latched_foldl_raise _ _ h

/-- Every cause of a completing unit's own record is pending once its unit is handed on. -/
theorem latched_ownRecord {s : State} {l : Line} {c : UnitContext} {e : UnitEnd} {r : Record} {k : Cause}
    (hr : ownRecord l (s.line l).cycleNumber c.work e = some r) (hk : k ∈ recordCauses r) :
    (s.handedOn l c e).Latched k := by
  have hwrote : (s.writeRecord? l (ownRecord l (s.line l).cycleNumber c.work e)).Latched k := by
    rw [hr]
    exact latched_writeRecord s l hk
  refine State.Evolves.keeps_latched ?_ hwrote
  exact ((State.Evolves.applyOutcome _ l c.work e).trans (State.Evolves.leaveService _ _)).trans
    (State.Evolves.leaveDirected _ l _)

/-- STATION STATE is pending once a visit outcome has changed a state. -/
theorem latched_changeRecord {s : State} {l : Line} {c : UnitContext} {e : UnitEnd} {i : StationIndex}
    (hw : workStation c.work = some i) (hk : isWorking (s.entry i).state = true)
    (hr : changeRecord l (s.line l).cycleNumber c.work i (s.entry i) e ≠ none) :
    (s.handedOn l c e).Latched (.stationState l) := by
  have hwrote : ((s.writeRecord? l (ownRecord l (s.line l).cycleNumber c.work e)).withOutcome l c.work i e).Latched
      (.stationState l) := by
    unfold State.withOutcome
    refine State.Evolves.keeps_latched (State.Evolves.modLine_keep _ l _ ?_) ?_
    · exact fun _ => ⟨rfl, rfl, rfl, rfl, rfl, rfl⟩
    rw [entry_writeRecord?, line_writeRecord?_self]
    unfold changeRecord at hr ⊢
    cases hc : (visitOutcome (s.entry i) e).2 with
    | none => simp [hc] at hr
    | some cause => exact latched_writeRecord _ l (List.mem_singleton.2 rfl)
  rw [handedOn_of_station e hw hk]
  exact ((State.Evolves.leaveService _ _).trans (State.Evolves.leaveDirected _ l _)).keeps_latched hwrote

end Sys2Proof.Machine
end

section
/-! SUPPORT. What stands after a unit of a coherent part has completed, and after its line has gone on: the line, the
records, the alert set, the hold list, the causes. -/

namespace Sys2Proof.Machine

/-! ### The alert set -/

theorem mem_alertsAfter_answered {i j : StationIndex} {y : Entry} {a : HeldAnswer} {xs : List StationIndex} :
    j ∈ (if a.alert && y.alertFollowUp then alertInsert i xs else xs) ↔
      j ∈ xs ∨ j = i ∧ a.alert = true ∧ y.alertFollowUp = true := by
  split
  · next h =>
    rw [mem_alertInsert]
    simp only [Bool.and_eq_true] at h
    simp only [h, and_true]
    exact or_comm
  · next h =>
    simp only [Bool.and_eq_true] at h
    simp only [h, and_false, or_false]

theorem mem_alertsAfter_failed {i j : StationIndex} {y : Entry} {o : FailingOutcome} {xs : List StationIndex} :
    j ∈ alertsAfter i y (.failed o) xs ↔
      j ∈ xs ∧ (y.state = .offline ∨ y.consecutive + 1 ≠ y.failThreshold ∨ j ≠ i) := by
  simp only [alertsAfter]
  split
  · next h =>
    rw [mem_alertRemove]
    simp [h.1, h.2]
  · next h =>
    have hstays : y.state = .offline ∨ y.consecutive + 1 ≠ y.failThreshold ∨ j ≠ i := by tauto
    simp only [hstays, and_true]

theorem unitAlerts_of_none {s : State} {l : Line} {c : UnitContext} (e : UnitEnd) (hw : workStation c.work = none) :
    s.unitAlerts l c e = (s.line l).alertSet := by
  simp only [State.unitAlerts, hw]

theorem mem_unitAlerts {s : State} {l : Line} {c : UnitContext} {e : UnitEnd} {i j : StationIndex}
    (hw : workStation c.work = some i) : j ∈ s.unitAlerts l c e ↔
      (j = i → (s.entry i).disablePending = false) ∧ j ∈ alertsAfter i (s.entry i) e (s.line l).alertSet := by
  simp only [State.unitAlerts, hw]
  cases (s.entry i).disablePending with
  | false => simp
  | true => simp [mem_alertRemove, and_comm]

/-! ### The records -/

/-- A directed unit that ends at the end of an attempt or of a settle time writes a record of its own, which raises
DIRECTED DONE (R90, Table 5-3). -/
theorem ownRecord_directed {l : Line} {cycle : Word} {d : DirectedEntry} {e : UnitEnd}
    (hgood : ∀ a, e = .good a → d.kind ≠ .bcast) :
    ∃ r, ownRecord l cycle (.directed d) e = some r ∧ Cause.directedDone l ∈ recordCauses r := by
  cases e with
  | good a =>
    cases hk : d.kind with
    | poll => exact ⟨_, by simp only [ownRecord, hk]; rfl, List.mem_singleton.2 rfl⟩
    | set => exact ⟨_, by simp only [ownRecord, hk]; rfl, List.mem_singleton.2 rfl⟩
    | bcast => exact absurd hk (hgood a rfl)
  | _ => exact ⟨_, rfl, List.mem_singleton.2 rfl⟩

/-! ### The return of the reservation -/

section
variable {s : State} {l : Line} (hno : ∀ k ∈ s.queue.holdList, k.line ≠ l)
include hno

theorem line_returnReservation : (s.returnReservation l).line l = { s.line l with reservation := none } := by
  have hdrop : (s.dropReservation l).line l = { s.line l with reservation := none } := by
    rw [State.dropReservation, State.line_modLine]
  unfold State.returnReservation
  split
  · rw [(serve_untouched (by rw [State.queue_dropReservation]; exact hno)).1, hdrop]
  · exact hdrop

/-- Words that are left serve the hold list (R110, R112). -/
theorem holdListServed_returnReservation (h : s.HoldListCoherent) (hr : 0 < (s.line l).reservedWords) :
    (s.returnReservation l).HoldListServed := by
  rw [State.returnReservation, if_pos hr]
  refine holdListServed_serve ?_
  rw [State.queue_dropReservation]
  exact holdList_length_le_one h hno

end

/-! ### After the completion -/

section
variable {s : State} {l : Line} {c : UnitContext} (e : UnitEnd) (hs : s.Coherent) (hc : (s.line l).current = some c)
include hc

theorem unit_station (hu : s.UnitsOwnStations) : ∀ i, workStation c.work = some i →
    (s.entry i).line = l ∧ isWorking (s.entry i).state = true := by
  intro i hi
  obtain ⟨hl, hk, -⟩ := hu l c i hc hi
  exact ⟨hl, hk⟩

/-- What has been handed on, the completion only adds to. -/
theorem evolves_completeUnit_handedOn : (s.handedOn l c e).Evolves (s.completeUnit l e) := by
  rw [completeUnit_eq e hc]
  refine (State.Evolves.returnReservation _ l).trans (State.Evolves.modLine_keep _ l _ ?_)
  exact fun _ => ⟨rfl, rfl, rfl, rfl, rfl, rfl⟩

include hs

theorem no_entry_handedOn : ∀ k ∈ (s.handedOn l c e).queue.holdList, k.line ≠ l := by
  have hg := (coherent_iff s).1 hs l
  rw [holdList_handedOn]
  exact LineCoherent_no_entry hg (hg.good.chosen_none (by rw [hc]; rfl))

/-- The engine of the line, field by field, after its unit has completed. -/
theorem line_completeUnit (hu : s.UnitsOwnStations) : (s.completeUnit l e).line l = { s.line l with
    alertSet := s.unitAlerts l c e, directed := directedAfter c.work (s.line l).directed, reservation := none,
    current := none, phase := .idle .none } := by
  rw [completeUnit_eq e hc, State.line_modLine, line_returnReservation (no_entry_handedOn e hs hc),
    line_handedOn_eq e (unit_station hc hu)]

theorem wroteThen_completeUnit (hu : s.UnitsOwnStations) :
    State.WroteThen l (s.unitRecords l c e) s (s.completeUnit l e) := by
  have hhanded : State.WroteThen l (s.unitRecords l c e) s (s.handedOn l c e) :=
    ⟨[], by rw [records_handedOn e (unit_station hc hu), List.append_nil], fun _ hr => absurd hr List.not_mem_nil⟩
  exact hhanded.trans (completeUnit_wrote e hs hc)

theorem entry_completeUnit (hu : s.UnitsOwnStations) {i : StationIndex} (hi : workStation c.work = some i) :
    (s.completeUnit l e).entry i = (s.handedOn l c e).entry i := by
  obtain ⟨hl, hk⟩ := unit_station hc hu i hi
  obtain ⟨-, -, -, hstands⟩ := completeUnit_lines e hs hc
  refine hstands i ?_
  rw [entry_handedOn e hi hk]
  split
  · exact (visitOutcome_marks _ e).2.trans hl
  · exact (visitOutcome_marks _ e).2.trans hl

theorem holdListServed_completeUnit (hu : s.UnitsOwnStations)
    (hw : wordsOf (s.unitRecords l c e) < (s.line l).reservedWords) : (s.completeUnit l e).HoldListServed := by
  have hhold : (s.handedOn l c e).HoldListCoherent := by
    have hq := holdList_handedOn s l c e
    obtain ⟨a, r, hl⟩ := line_handedOn s l c e
    have hchosen (m : Line) : ((s.handedOn l c e).line m).chosen = (s.line m).chosen := by
      by_cases hm : m = l
      · rw [hm, hl]
      · obtain ⟨b, hb⟩ := line_handedOn_other s c e hm
        rw [hb]
    refine ⟨by rw [hq]; exact hs.hold.once, fun m => by rw [hq, hchosen]; exact hs.hold.listed m, fun k hk w => ?_⟩
    rw [hchosen]
    rw [hq] at hk
    exact hs.hold.request k hk w
  have hleft : 0 < ((s.handedOn l c e).line l).reservedWords := by
    rw [line_handedOn_eq e (unit_station hc hu)]
    have := reservedWords_map (s.line l) (wordsOf (s.unitRecords l c e))
    simp only [LineEngine.reservedWords] at this hw ⊢
    omega
  rw [completeUnit_eq e hc]
  exact HoldListServed_of_same (holdListServed_returnReservation (no_entry_handedOn e hs hc) hhold hleft)
    (State.SameStore.modLine _ l _ rfl)

end

/-! ### After the line has gone on -/

theorem entry_enterStopped (s : State) (l : Line) (i : StationIndex) : (s.enterStopped l).entry i = s.entry i := by
  simp [State.enterStopped]

theorem latched_enterStopped (s : State) (l : Line) : (s.enterStopped l).Latched (.lineStopped l) :=
  latched_raise _ _

theorem line_enterStopped_fields (s : State) (l : Line) : ((s.enterStopped l).line l).runState = .stopped ∧
    ((s.enterStopped l).line l).condition = .none ∧ ((s.enterStopped l).line l).current = (s.line l).current ∧
    ((s.enterStopped l).line l).reservation = (s.line l).reservation := by
  rw [line_enterStopped]
  split <;> exact ⟨rfl, rfl, rfl, rfl⟩

/-- A line that has entered STOPPED is left alone by the arbiters' turn, and so are the entries of its stations. -/
theorem finish_enterStopped (s : State) (l : Line) : ((s.enterStopped l).finish.line l) = (s.enterStopped l).line l ∧
    ∀ i, (s.entry i).line = l → (s.enterStopped l).finish.entry i = s.entry i := by
  have hfree : ((s.enterStopped l).line l).free = false := by
    simp [LineEngine.free, (line_enterStopped_fields s l).1]
  obtain ⟨hline, hentry, -⟩ := finish_untouched hfree
  refine ⟨hline, fun i hi => ?_⟩
  rw [hentry i (by rw [entry_enterStopped]; exact hi), entry_enterStopped]

end Sys2Proof.Machine
end

section
/-! PROOFS. The statements about exchanges: timers, attempts, the start of a unit, its grant, its end, and what every
event of the engines leaves alone. -/

namespace Sys2Proof.Machine

/-! ### Timers and attempts -/

/-- Settles O39: each row acts in the one phase its timer runs in, and NOISE_LIMIT_EXPIRY by `quietLacking`. -/
theorem exchangeTimersAct : Obligations.ExchangeTimersAct := by
  intro s l hlive x
  have hquiet : x.quietLacking = true ↔ ∃ q n, x.phase = .guard q n ∧ q < 3 * (160 * (x.params.rate + 1)) :=
    x.quietLacking_iff
  refine ⟨fun n hp => ?_, fun hp => ?_, fun b crc n hp => ?_, fun hp => ?_, fun n hp => ?_, fun hp => ?_,
    fun n hp => ?_, fun hp => ?_, fun q n hp hq => ?_, fun hp => ?_⟩
  · rw [exec_responseTimeout, State.responseTimeout_of_running hlive hp]
  · rw [exec_responseTimeout, State.responseTimeout_of_stopped hlive hp]
  · rw [exec_gapLimitExpiry, State.gapLimitExpiry_of_running hlive hp]
  · rw [exec_gapLimitExpiry, State.gapLimitExpiry_of_stopped hlive hp]
  · rw [exec_backoffEnd, State.backoffEnd_of_running hlive hp, State.nextAttempt_eq]
  · rw [exec_backoffEnd, State.backoffEnd_of_stopped hlive hp]
  · rw [exec_settleEnd, State.settleEnd_of_running hlive hp]
  · rw [exec_settleEnd, State.settleEnd_of_stopped hlive hp]
  · rw [exec_noiseLimitExpiry, State.noiseLimitExpiry_of_lacking hlive (hquiet.mpr ⟨q, n, hp, hq⟩)]
  · rw [exec_noiseLimitExpiry, State.noiseLimitExpiry_of_not_lacking hlive]
    intro h
    obtain ⟨q, n, hg, hq⟩ := hquiet.mp h
    exact absurd hq (Nat.not_lt.mpr (hp q n hg))

/-- Settles O40: the context and the station's count are as `chargeAttempt` leaves them, and the budget decides between
the next attempt and the end of the unit. -/
theorem attemptsCounted : Obligations.AttemptsCounted := by
  intro s l c hc hold again
  refine ⟨fun o => ?_, fun o => rfl, fun a => ?_, fun a => ⟨?_, fun h => ?_⟩⟩
  · intro d t
    have ht : (s.setLine l { s.line l with current := some (c.fail o) }).chargeAttempt c.work = t := by
      cases hw : workStation c.work with
      | none => simp only [State.chargeAttempt_of_none _ hw, t, hw]; rfl
      | some i => simp only [State.chargeAttempt_of_station _ hw, t, hw, State.entry_setLine]; rfl
    refine ⟨fun h => ?_, fun h => ?_⟩
    · rw [State.attemptFails_below_budget hc o h, ht, State.nextAttempt_eq]
    · rw [State.attemptFails_at_budget hc o h, ht]
  · exact State.attemptGood_eq hc a
  · rintro ⟨e, he⟩ h
    exact State.attemptDeferred_again hc a ((isDirected_iff _).mpr ⟨e, he⟩) h
  · refine State.attemptDeferred_ends hc a (h.imp_left fun hne => ?_)
    rw [← Bool.not_eq_true, isDirected_iff]
    rintro ⟨e, he⟩
    exact hne e he

/-! ### The start of a unit -/

/-- Settles O46: a valid station is `State.startWork_of_valid`, and each way to complete at once is an equation of its
kind of unit. -/
theorem unitsStart : Obligations.UnitsStart := by
  intro s l x valid context started usual skipped
  have hvalid (i : StationIndex) : s.stationValid l i = true ↔ valid i := stationValid_iff
  refine ⟨fun k i g n => ⟨fun h => ?_, fun h => ?_⟩, fun i => ⟨fun h => ?_, fun h => ?_⟩,
    fun e hk => ⟨fun h => ?_, fun h => ?_⟩, fun e hk => ?_, fun visits overrun => ?_⟩
  · rw [State.startWork_of_valid rfl ((hvalid i).mpr h), State.beginTargeted_visit]
    rfl
  · exact State.startWork_visit_invalid (mt (hvalid i).mp h)
  · rw [State.startWork_of_valid rfl ((hvalid i).mpr h), State.beginTargeted_alert]
    rfl
  · exact State.startWork_alert_invalid (mt (hvalid i).mp h)
  · have hbudget : workBudget (.directed e) (s.entry e.station) = usual e.station := by
      cases he : e.kind with
      | poll => simp only [workBudget, he, usual]
      | set => simp only [workBudget, he, usual]
      | bcast => exact absurd he hk
    rw [State.startWork_of_valid (workStation_directed hk) ((hvalid _).mpr h), State.beginTargeted_directed]
    simp only [started, context, newContext, hbudget, x]
  · rw [State.startWork_directed_invalid hk (mt (hvalid _).mp h)]
    exact ⟨State.queue_faultStation e, State.line_faultStation e, State.stations_faultStation e⟩
  · rw [State.startWork_bcast hk]
    have hbudget : workBudget (.directed e) Entry.reset = 0 := by simp only [workBudget, hk]
    simp only [context, newContext, hbudget, x]
    rfl
  · rw [State.startWork_mark, ReplyQueue.push]
    simp only [List.isEmpty_iff]
    rfl

/-- Settles O50: serving by the number of waiting lines; with two of them, what the granted line may do before serving
goes on is `State.afterGrant_of_waiting` and `settleLine_of_waiting`. -/
theorem grantedUnitsStart : Obligations.GrantedUnitsStart := by
  intro s hlive
  refine ⟨fun l w hw hc hr => ?_, fun l h => ?_, fun h rest hl hn => ?_, fun hl => ?_, fun h w hl hf hw => ?_,
    fun h1 h2 w hl hf hw => ?_⟩
  · have hg : (s.line l).granted = true := (s.line l).granted_iff.mpr ⟨by rw [hw]; rfl, hc, hr⟩
    rw [exec_unitStart, State.unitStart_of_granted hlive hw hg]
  · rw [exec_unitStart, State.unitStart_of_not_granted hlive]
    intro hg
    obtain ⟨h1, h2, h3⟩ := (s.line l).granted_iff.mp hg
    rcases h with h | h | h
    · simp [h] at h1
    · simp [h2] at h
    · simp [h] at h3
  · rw [exec_holdListGrant hlive, serveHoldList_of_unfit 256 hl hn]
  · rw [exec_holdListGrant hlive, serveHoldList_of_empty 256 hl]
  · rw [exec_holdListGrant hlive, serveHoldList_of_only_fit 255 hl hf,
      State.grant_of_chosen _ (by rw [State.line_withQueue]; exact hw), State.line_withQueue]
  intro granted g counted r
  have hgrant (t : State) (rest : List HoldEntry) (h : HoldEntry) (v : Work) (hv : (t.line h.line).chosen = some v) :
      State.grant { t with queue := { t.queue with holdList := rest } } h.line h.request = granted t rest h v := by
    rw [State.grant_of_chosen _ (by rw [State.line_withQueue]; exact hv), State.line_withQueue]
  obtain ⟨hgl, hgr⟩ : g.queue.holdList = [h2] ∧ g.raceCount = s.raceCount := by
    obtain ⟨hq, hr⟩ := startWork_keeps_order ({ s with queue := { s.queue with holdList := [h2] } }.setLine h1.line
      { s.line h1.line with chosen := none, reservation := some h1.request }) h1.line w
    exact ⟨hq.trans (by rw [State.queue_setLine]), hr.trans (by rw [State.raceCount_setLine])⟩
  have hrace : g.nextRace = counted := by simp only [State.nextRace, hgr, counted]
  have hafter : g.afterGrant h1.line = r := by
    rw [State.afterGrant_of_waiting _ (by rw [hgl]; simp), hrace, hgr]
  have hexec : exec .holdListGrant s = .next (State.serveHoldList 255 r).finish := by
    rw [exec_holdListGrant hlive, serveHoldList_of_fit 255 hl hf, hgrant s [h2] h1 w hw, hafter]
  have hrl : r.queue.holdList = [h2] ∨ ∃ n, r.queue.holdList = [h2, ⟨h1.line, n⟩] := by
    have hcl : counted.queue.holdList = [h2] := hgl
    have hsettled := settleLine_of_waiting h1.line 256 counted (by rw [hcl]; simp)
    rw [hcl] at hsettled
    simp only [r]
    split
    · split
      · exact hsettled
      · exact Or.inl hcl
    · exact Or.inl hgl
  refine ⟨hrl, hexec, fun hn => ?_, fun w2 hr hf2 hw2 => ?_⟩
  · obtain ⟨rest, hrest⟩ : ∃ rest, r.queue.holdList = h2 :: rest := by
      rcases hrl with h | ⟨n, h⟩
      · exact ⟨_, h⟩
      · exact ⟨_, h⟩
    rw [hexec, serveHoldList_of_unfit 255 hrest hn]
  · rw [hexec, serveHoldList_of_only_fit 254 hr hf2, hgrant r [] h2 w2 hw2]

/-! ### The end of a unit -/

/-- Settles O42: the completion is read off `State.handedOn`, whose visit outcome is `applyOutcome_eq`; what follows it
only serves the hold list, stops the line and gives the arbiters their turn. -/
theorem unitEndHandsOn : Obligations.UnitEndHandsOn := by
  intro s l c e hs _ hu hc hend x cycle fault own change v t
  have hstation := unit_station hc hu
  have hown : own = (ownRecord l cycle c.work e).toList := by
    simp only [own, fault]
    cases e with
    | good a =>
      cases c.work with
      | directed d => cases hk : d.kind <;> simp [ownRecord, hk]
      | _ => rfl
    | failed o => cases c.work <;> cases o <;> rfl
    | aborted => exact hend.elim
    | lineFault => exact hend.elim
    | _ => cases c.work <;> rfl
  have hchange : change = match workStation c.work with
      | none => []
      | some i => (changeRecord l cycle c.work i (s.entry i) e).toList := by
    simp only [change]
    cases workStation c.work with
    | none => rfl
    | some i =>
      simp only [changeRecord]
      cases visitOutcome (s.entry i) e with
      | mk f cause => cases cause <;> rfl
  have hrecords : own ++ change = s.unitRecords l c e := by rw [hown, hchange]; rfl
  have hline : v.line l = _ := line_completeUnit e hs hc hu
  have hgone : t = (if x.runState = .stopping then v.enterStopped l else v).finish := by
    have hrun : (v.line l).runState = x.runState := by rw [hline]
    show (if (v.line l).runState = .stopping then v.enterStopped l else v).finish = _
    rw [hrun]
  have hwrote : State.WroteThen l (own ++ change) s v := by
    rw [hrecords]
    exact wroteThen_completeUnit e hs hc hu
  have helsewhere : State.Elsewhere l none v t := by
    rw [hgone]
    refine State.Elsewhere.trans ?_ ((State.Selected.finish _).elsewhere l none)
    split
    · exact State.Elsewhere.enterStopped l none v
    · exact State.Elsewhere.refl l none v
  have hvt : v.Evolves t := by
    rw [hgone]
    refine State.Evolves.trans ?_ (State.Evolves.finish _)
    split
    · exact State.Evolves.enterStopped v l
    · exact State.Evolves.refl v
  have hhanded : (s.handedOn l c e).Evolves t := (evolves_completeUnit_handedOn e hc).trans hvt
  have hcompleted := State.Elsewhere.completeUnit e hc fun i hi => (hstation i hi).1
  refine ⟨hwrote, ?_, fun i hi => ?_, hcompleted.entry, fun i => helsewhere.entry i (by simp),
    fun m hm => (hcompleted.line m hm).trans (helsewhere.line m hm), ?_, fun hne => ?_, fun j => ?_, fun hw => ?_,
    by rw [hline]; rfl, by rw [hline], by rw [hline], by rw [hline], hgone, State.Evolves.endUnit s l e,
    fun hr => ?_, fun hr => ?_⟩
  · obtain ⟨added, hadded, -⟩ := hwrote
    refine List.IsPrefix.trans ?_ hvt.records
    rw [hadded, List.append_assoc s.queue.records own change]
    exact List.prefix_append _ _
  · intro f
    rw [entry_completeUnit e hs hc hu hi, entry_handedOn e hi (hstation i hi).2]
  · rintro ⟨d, hd⟩
    have hkind : ∀ a, e = .good a → d.kind ≠ .bcast := by
      rintro a rfl hb
      simp [hd, workKind, hb] at hend
    obtain ⟨r, hr, hcause⟩ := ownRecord_directed (l := l) (cycle := cycle) hkind
    rw [← hd] at hr
    exact isPending_of_latched (hhanded.keeps_latched (latched_ownRecord hr hcause))
  · rw [hchange] at hne
    cases hi : workStation c.work with
    | none => simp [hi] at hne
    | some i =>
      refine isPending_of_latched (hhanded.keeps_latched (latched_changeRecord hi (hstation i hi).2 fun hn => ?_))
      simp only [hi] at hne
      exact hne (by rw [hn]; rfl)
  · rw [hline]
    cases hi : workStation c.work with
    | none => simp only [unitAlerts_of_none e hi]; rfl
    | some i =>
      rw [mem_unitAlerts hi]
      cases e with
      | good a => exact and_congr_right fun _ => mem_alertsAfter_answered
      | deferred a => exact and_congr_right fun _ => mem_alertsAfter_answered
      | failed o => exact and_congr_right fun _ => mem_alertsAfter_failed
      | _ => exact Iff.rfl
  · rw [hrecords] at hw
    have hserved : v.HoldListServed := holdListServed_completeUnit e hs hc hu hw
    refine ⟨hserved, ?_⟩
    rw [hgone]
    refine holdListServed_finish ?_
    split
    · exact HoldListServed_of_same hserved (State.SameStore.enterStopped v l)
    · exact hserved
  · have hrun : (v.line l).runState = .running := by rw [hline]; exact hr
    rw [hgone, if_neg (by rw [hr]; decide), ((State.Selected.finish v).lines l).runState, hrun]
  · obtain ⟨hrun, hcond, hcur, hres⟩ := line_enterStopped_fields v l
    obtain ⟨hstands, hentry⟩ := finish_enterStopped v l
    rw [hline] at hcur hres
    rw [if_pos hr] at hgone
    rw [hgone, hstands]
    refine ⟨hrun, hcond, hcur, hres, ?_, fun i hi => hentry i ?_⟩
    · exact isPending_of_latched ((State.Evolves.finish _).keeps_latched (latched_enterStopped v l))
    · exact ((State.Evolves.completeUnit s l e).entries i).1.trans (hstation i hi).1

/-! ### Every event -/

/-- Settles O51: each row is an operation for which `State.Evolves` is proved, and a reference period ticks both lines
and then fires their due events. -/
theorem engineEventsFrame : Obligations.EngineEventsFrame := by
  intro s l
  refine ⟨?_, ?_, fun v f => ⟨_, rfl, State.Evolves.character s l v f⟩,
    fun i => ⟨_, rfl, State.Evolves.deferredDisable s i⟩, fun hq hlive => ?_⟩
  · simp only [engineRows, List.forall_mem_cons]
    exact ⟨⟨_, rfl, State.Evolves.quietReached s l⟩, ⟨_, rfl, State.Evolves.noiseLimitExpiry s l⟩,
      ⟨_, rfl, State.Evolves.transmitCharacterEnd s l⟩, ⟨_, rfl, State.Evolves.responseTimeout s l⟩,
      ⟨_, rfl, State.Evolves.gapLimitExpiry s l⟩, ⟨_, rfl, State.Evolves.backoffEnd s l⟩,
      ⟨_, rfl, State.Evolves.settleEnd s l⟩, ⟨_, rfl, State.Evolves.intervalElapsed s l⟩,
      ⟨_, rfl, State.Evolves.unitStart s l⟩, ⟨_, rfl, State.Evolves.stoppingLineStopped s l⟩,
      ⟨_, rfl, State.Evolves.holdListGrant s⟩, ⟨_, rfl, State.Evolves.workSelection s l⟩,
      ⟨_, rfl, State.Evolves.pendingSwapTakesEffect s l⟩, ⟨_, rfl, State.Evolves.cycleStart s l⟩,
      fun _ h => absurd h List.not_mem_nil⟩
  · simp only [List.forall_mem_cons]
    exact ⟨⟨_, rfl, State.Evolves.startDetected s l⟩, ⟨_, rfl, State.Evolves.waitMarkEnd s l⟩,
      fun _ h => absurd h List.not_mem_nil⟩
  · obtain ⟨hreset, hready⟩ := (live_iff s).mp hlive
    refine ⟨((s.modLine .a LineEngine.tick).modLine .b LineEngine.tick).fireBoth, ?_,
      (State.Evolves.tickLines s).trans (State.Evolves.fireBoth _)⟩
    simp [step, hq, State.passTime, hreset, hready]

end Sys2Proof.Machine
end

section
/-! SUPPORT. The units that start: what the arbiters and the serving of the hold list do to the station entries and to
the stations the units in progress target, said once for the invariants of the station table. -/

namespace Sys2Proof.Machine

/-! ### The target of a line -/

/-- The station the unit in progress of a line targets, if it targets one (Table 2-2). -/
def LineEngine.target (x : LineEngine) : Option StationIndex :=
  x.current.bind fun c => workStation c.work

theorem LineEngine.target_of_current {x : LineEngine} {c : UnitContext} (h : x.current = some c) :
    x.target = workStation c.work := by
  simp [LineEngine.target, h]

theorem LineEngine.target_of_idle {x : LineEngine} (h : x.current = none) : x.target = none := by
  simp [LineEngine.target, h]

/-- From s to t no entry and no line's target changed. -/
structure State.SameService (s t : State) : Prop where
  entry : ∀ i, t.entry i = s.entry i
  target : ∀ m, (t.line m).target = (s.line m).target

theorem State.SameService.refl (s : State) : s.SameService s :=
  ⟨fun _ => rfl, fun _ => rfl⟩

theorem State.SameService.trans {s t u : State} (h : s.SameService t) (k : t.SameService u) : s.SameService u :=
  ⟨fun i => (k.entry i).trans (h.entry i), fun m => (k.target m).trans (h.target m)⟩

theorem State.SameService.modLine (s : State) (l : Line) (f : LineEngine → LineEngine)
    (h : (f (s.line l)).target = (s.line l).target := by rfl) : s.SameService (s.modLine l f) := by
  refine ⟨fun i => State.entry_modLine s l f i, fun m => ?_⟩
  rw [State.line_modLine_eq]
  split
  · next hm => rw [hm, h]
  · rfl

theorem State.SameService.setLine (s : State) (l : Line) (x : LineEngine)
    (h : x.target = (s.line l).target := by rfl) : s.SameService (s.setLine l x) := by
  refine ⟨fun i => State.entry_setLine s l x i, fun m => ?_⟩
  rw [State.line_setLine_eq]
  split
  · next hm => rw [hm, h]
  · rfl

/-- Changes outside the lines and the station table. -/
theorem State.SameService.of_lines {s t : State} (hstations : t.stations = s.stations)
    (hline : ∀ m, t.line m = s.line m) : s.SameService t :=
  ⟨fun i => by rw [State.entry, State.entry, hstations], fun m => by rw [hline m]⟩

theorem State.SameService.withQueue (s : State) (q : ReplyQueue) : s.SameService { s with queue := q } :=
  State.SameService.of_lines rfl (State.line_withQueue s q)

theorem State.SameService.nextRace (s : State) : s.SameService s.nextRace :=
  State.SameService.of_lines rfl (State.line_withRace s _)

theorem State.SameService.raise (s : State) (k : Cause) : s.SameService (s.raise k) :=
  State.SameService.of_lines rfl (State.line_raise s k)

theorem State.SameService.modWindow (s : State) (f : Window → Window) : s.SameService (s.modWindow f) :=
  State.SameService.of_lines rfl (State.line_modWindow s f)

theorem State.SameService.writeRecord (s : State) (l : Line) (r : Record) : s.SameService (s.writeRecord l r) := by
  have h := State.SameService.modLine s l
    (fun x => { x with reservation := x.reservation.map (fun n => n - r.size) })
  exact ⟨State.entry_writeRecord s l r, fun m => by rw [State.line_writeRecord, h.target]⟩

theorem State.SameService.writeRecord? (s : State) (l : Line) (r : Option Record) :
    s.SameService (s.writeRecord? l r) := by
  cases r with
  | none => exact State.SameService.refl s
  | some r => exact State.SameService.writeRecord s l r

theorem State.SameService.dropReservation (s : State) (l : Line) : s.SameService (s.dropReservation l) :=
  State.SameService.modLine s l _

theorem State.SameService.joinHoldList (s : State) (l : Line) (n : Nat) : s.SameService (s.joinHoldList l n) :=
  (State.SameService.withQueue s _).trans (State.SameService.raise _ _)

theorem State.SameService.applyPendingSwap (s : State) (l : Line) : s.SameService (s.applyPendingSwap l) := by
  refine State.SameService.modLine s l _ ?_
  split <;> rfl

theorem State.SameService.finishBoundary (s : State) (l : Line) : s.SameService (s.finishBoundary l) :=
  ((State.SameService.raise s _).trans (State.SameService.applyPendingSwap _ l)).trans
    (State.SameService.modLine _ l _)

theorem State.SameService.faultStation (s : State) (l : Line) (e : DirectedEntry) :
    s.SameService (s.faultStation l e) :=
  ((State.SameService.writeRecord s l _).trans (State.SameService.modLine _ l _)).trans
    (State.SameService.dropReservation _ l)

/-! ### A unit that starts -/

/-- From s to t at most one unit started, on line l: none that targets a station, or one on a valid station, which
entered service (R19, R55). -/
structure State.Starts (l : Line) (s t : State) : Prop where
  other : ∀ m, m ≠ l → (t.line m).target = (s.line m).target
  own : (((s.line l).target = none → (t.line l).target = none) ∧ ∀ i, t.entry i = s.entry i) ∨
    ∃ i, s.stationValid l i = true ∧ (t.line l).target = some i ∧
      ∀ j, t.entry j = if j = i then { s.entry j with inService := true } else s.entry j

theorem State.SameService.starts {s t : State} (l : Line) (h : s.SameService t) : State.Starts l s t :=
  ⟨fun m _ => h.target m, Or.inl ⟨fun hn => (h.target l).trans hn, h.entry⟩⟩

theorem State.SameService.then_starts {l : Line} {s t u : State} (h : s.SameService t) (k : State.Starts l t u) :
    State.Starts l s u := by
  refine ⟨fun m hm => (k.other m hm).trans (h.target m), ?_⟩
  rcases k.own with ⟨htarget, hentry⟩ | ⟨i, hv, htarget, hentry⟩
  · exact Or.inl ⟨fun hn => htarget ((h.target l).trans hn), fun i => (hentry i).trans (h.entry i)⟩
  · refine Or.inr ⟨i, ?_, htarget, fun j => ?_⟩
    · rw [stationValid_iff] at hv ⊢
      rwa [← h.entry i]
    · rw [hentry j, h.entry j]

theorem State.Starts.beginTargeted {s : State} {l : Line} {w : Work} {i : StationIndex} (hw : workStation w = some i)
    (hv : s.stationValid l i = true) : State.Starts l s (s.beginTargeted l w i) := by
  refine ⟨fun m hm => ?_, Or.inr ⟨i, hv, ?_, fun j => ?_⟩⟩
  · rw [(State.OnlyLine.beginTargeted w (stationValid_iff.1 hv).2).line m hm]
  · rw [State.beginTargeted, State.line_modLine, ← hw]
    cases w <;> rfl
  · rw [State.beginTargeted, State.entry_modLine, State.entry_modEntry_eq]

theorem State.Starts.startWork (s : State) (l : Line) (w : Work) : State.Starts l s (s.startWork l w) := by
  by_cases hv : ∃ i, workStation w = some i ∧ s.stationValid l i = true
  · obtain ⟨i, hw, hv⟩ := hv
    rw [State.startWork_of_valid hw hv]
    exact State.Starts.beginTargeted hw hv
  cases w with
  | visit k i g n =>
    rw [State.startWork_visit_invalid fun h => hv ⟨i, rfl, h⟩]
    exact (State.SameService.setLine s l _).starts l
  | alert i =>
    rw [State.startWork_alert_invalid fun h => hv ⟨i, rfl, h⟩]
    exact (State.SameService.setLine s l _).starts l
  | directed e =>
    by_cases hk : e.kind = .bcast
    · rw [State.startWork_bcast hk]
      refine ⟨fun m hm => by rw [State.line_setLine_ne s _ hm], Or.inl ⟨fun _ => ?_, fun i => by simp⟩⟩
      rw [State.line_setLine, LineEngine.target_of_current rfl]
      simp only [newContext, workStation, hk]
    · rw [State.startWork_directed_invalid hk fun h => hv ⟨_, workStation_directed hk, h⟩]
      exact (State.SameService.faultStation s l e).starts l
  | mark v o =>
    rw [State.startWork_mark]
    exact (((State.SameService.setLine s l _).trans (State.SameService.withQueue _ _)).trans
      (State.SameService.finishBoundary _ l)).starts l

theorem State.Starts.startUnit (s : State) (l : Line) : State.Starts l s (s.startUnit l) := by
  unfold State.startUnit
  split
  · exact (State.SameService.refl s).starts l
  · exact (State.SameService.modLine s l LineEngine.clearChosen).then_starts (State.Starts.startWork _ l _)

theorem State.Starts.grant (s : State) (l : Line) (n : Nat) : State.Starts l s (s.grant l n) :=
  (State.SameService.modLine s l _).then_starts (State.Starts.startUnit _ l)

theorem State.Starts.requestUnit (s : State) (l : Line) (w : Work) : State.Starts l s (s.requestUnit l w) := by
  have hchosen : s.SameService (s.modLine l (fun x => { x with chosen := some w })) :=
    State.SameService.modLine s l _
  unfold State.requestUnit
  dsimp only
  split
  · exact hchosen.then_starts (State.Starts.grant _ l _)
  · exact (hchosen.trans (State.SameService.joinHoldList _ l _)).starts l

/-- The arbiter takes up one unit at most (R97). -/
theorem State.Starts.invokeArbiter (s : State) (l : Line) : State.Starts l s (s.invokeArbiter l) := by
  have hcycle : State.Starts l s (s.modLine l LineEngine.startCycle) := (State.SameService.modLine s l _).starts l
  have houtside : State.Starts l s (s.chooseOutside l) := by
    unfold State.chooseOutside
    split
    · exact State.Starts.requestUnit s l _
    · exact (State.SameService.refl s).starts l
  have hcursor := State.SameService.modLine s l (fun y => { y with cursor := s.walk l })
  unfold State.invokeArbiter
  dsimp only
  split
  · exact (State.SameService.refl s).starts l
  · split
    · exact (State.SameService.refl s).starts l
    · split
      · refine hcursor.then_starts ?_
        unfold State.boundary
        dsimp only
        split
        · exact State.Starts.requestUnit _ l _
        · exact (State.SameService.finishBoundary _ l).starts l
      · refine hcursor.then_starts ?_
        unfold State.chooseInCycle
        dsimp only
        split
        · split
          · exact (State.SameService.modLine _ l _).then_starts (State.Starts.requestUnit _ l _)
          · exact (State.SameService.modLine _ l _).then_starts (State.Starts.requestUnit _ l _)
        · exact (State.SameService.modLine _ l _).then_starts (State.Starts.requestUnit _ l _)
    · split
      · exact hcycle
      · exact houtside
    · split
      · exact hcycle
      · exact houtside

/-! ### Units that start one after another -/

/-- From s to t units started one after another; where `c` holds, each on a line whose unit in progress targeted no
station. -/
inductive State.Undertakes (c : Prop) : State → State → Prop where
  | same {s t : State} (h : s.SameService t) : State.Undertakes c s t
  | start {s t : State} (l : Line) (hfree : c → (s.line l).target = none) (h : State.Starts l s t) :
      State.Undertakes c s t
  | trans {s t u : State} (h : State.Undertakes c s t) (k : State.Undertakes c t u) : State.Undertakes c s u

section
variable {c : Prop}

theorem State.Undertakes.refl (s : State) : s.Undertakes c s :=
  .same (State.SameService.refl s)

theorem State.Undertakes.invokeArbiter (s : State) (l : Line) : s.Undertakes c (s.invokeArbiter l) := by
  by_cases hf : (s.line l).free = true
  · exact .start l (fun _ => LineEngine.target_of_idle (LineEngine.free_iff.1 hf).2.1) (State.Starts.invokeArbiter s l)
  · have hs : s.invokeArbiter l = s := by simp [State.invokeArbiter, hf]
    rw [hs]
    exact .refl s

theorem State.Undertakes.settleLine (l : Line) : ∀ (n : Nat) (s : State), s.Undertakes c (State.settleLine l n s)
  | 0, s => .refl s
  | n + 1, s => by
    unfold State.settleLine
    split
    · exact (State.Undertakes.invokeArbiter s l).trans (State.Undertakes.settleLine l n _)
    · exact .refl s

theorem State.Undertakes.settleArbiters : ∀ (n : Nat) (s : State), s.Undertakes c (State.settleArbiters n s)
  | 0, s => .refl s
  | n + 1, s => by
    unfold State.settleArbiters
    split
    · exact .refl s
    · refine State.Undertakes.trans (State.Undertakes.trans ?_ (State.Undertakes.invokeArbiter _ _))
        (State.Undertakes.settleArbiters n _)
      split
      · exact .same (State.SameService.nextRace s)
      · exact .refl s

theorem State.Undertakes.finish (s : State) : s.Undertakes c s.finish :=
  State.Undertakes.settleArbiters _ s

theorem State.Undertakes.afterGrant (s : State) (l : Line) : s.Undertakes c (s.afterGrant l) := by
  have hrace : s.Undertakes c s.nextRace := .same (State.SameService.nextRace s)
  unfold State.afterGrant
  split
  · dsimp only
    split
    · exact hrace.trans (State.Undertakes.settleLine l _ _)
    · exact hrace
  · exact .refl s

/-- A line that waits in the hold list has no unit in progress (R111). -/
theorem current_of_held {s : State} {h : HoldEntry} (hg : s.LineCoherent h.line) (hh : h ∈ s.queue.holdList) :
    (s.line h.line).current = none := by
  refine hg.good.engine.oneUnit ?_
  cases hc : (s.line h.line).chosen with
  | none => exact absurd rfl (LineCoherent_no_entry hg hc h hh)
  | some w => rfl

/-- One turn of the serving keeps the lines of the hold list coherent (R112). -/
theorem lineCoherent_turn {s : State} {h : HoldEntry} {rest : List HoldEntry} (hl : s.queue.holdList = h :: rest)
    (hh : ∀ k ∈ s.queue.holdList, s.LineCoherent k.line) :
    let r := (State.grant { s with queue := { s.queue with holdList := rest } } h.line h.request).afterGrant h.line
    ∀ k ∈ r.queue.holdList, r.LineCoherent k.line := by
  intro r k hk
  have htake : State.OnlyLine h.line s { s with queue := { s.queue with holdList := rest } } :=
    ⟨fun m _ => State.line_withQueue s _ m, fun m hm => by simp [State.heldOf, hl, Ne.symm hm], fun _ _ => rfl⟩
  have hgrant := htake.trans (State.OnlyLine.grant _ h.line h.request)
  by_cases hkl : k.line = h.line
  · rw [hkl]
    exact lineCoherent_afterGrant (lineCoherent_grant hl (hh h (by rw [hl]; exact List.mem_cons_self)))
  · rcases (hgrant.trans (State.OnlyLine.afterGrant _ h.line)).held k hk with hk | hk
    · exact lineCoherent_afterGrant ((hh k hk).other hgrant hkl)
    · exact absurd hk hkl

theorem State.Undertakes.serveHoldList : ∀ (n : Nat) (s : State),
    (c → ∀ h ∈ s.queue.holdList, s.LineCoherent h.line) → s.Undertakes c (State.serveHoldList n s)
  | 0, s, _ => .refl s
  | n + 1, s, hh => by
    unfold State.serveHoldList
    split
    · exact .refl s
    · next h rest hl =>
      split
      · dsimp only
        have htake : s.Undertakes c { s with queue := { s.queue with holdList := rest } } :=
          .same (State.SameService.withQueue s _)
        have hmem : h ∈ s.queue.holdList := by
          rw [hl]
          exact List.mem_cons_self
        refine ((htake.trans (.start h.line (fun hc => ?_) (State.Starts.grant _ h.line h.request))).trans
          (State.Undertakes.afterGrant _ h.line)).trans
          (State.Undertakes.serveHoldList n _ fun hc => lineCoherent_turn hl (hh hc))
        rw [State.line_withQueue]
        exact LineEngine.target_of_idle (current_of_held (hh hc h hmem) hmem)
      · exact .refl s

theorem State.Undertakes.serve {s : State} (hh : c → ∀ h ∈ s.queue.holdList, s.LineCoherent h.line) :
    s.Undertakes c s.serve :=
  State.Undertakes.serveHoldList _ s hh

theorem State.Undertakes.serve_of_coherent {s : State} (hs : c → s.Coherent) : s.Undertakes c s.serve :=
  State.Undertakes.serve fun hc h _ => (coherent_iff s).1 (hs hc) h.line

theorem State.Undertakes.returnReservation {s : State} (l : Line)
    (hh : c → ∀ h ∈ s.queue.holdList, (s.dropReservation l).LineCoherent h.line) :
    s.Undertakes c (s.returnReservation l) := by
  have hdrop : s.Undertakes c (s.dropReservation l) := .same (State.SameService.dropReservation s l)
  unfold State.returnReservation
  split
  · exact hdrop.trans (State.Undertakes.serve fun hc h hk => hh hc h (by rwa [State.queue_dropReservation] at hk))
  · exact hdrop

end

end Sys2Proof.Machine
end

section
/-! SUPPORT. What may become of a station entry: legality and the configuration through each change the part makes to
one (R43, R47 to R60). -/

namespace Sys2Proof.Machine

/-! ### Legal entries -/

section
variable {e : Entry} (h : e.Legal)
include h

/-- The threshold of an entry that has been configured is not 0 (R47). -/
theorem Entry.Legal.threshold_pos (hk : e.state ≠ .unconfigured) : 1 ≤ e.failThreshold :=
  (h.configured hk).2

theorem Entry.Legal.working_of_inService (hi : e.inService = true) : isWorking e.state = true := by
  by_contra hk
  have hidle := (h.idle (by simpa using hk)).2.1
  rw [hi] at hidle
  cases hidle

theorem Entry.Legal.working_of_disablePending (hp : e.disablePending = true) : isWorking e.state = true :=
  h.working_of_inService (h.pendingServed hp)

theorem Entry.Legal.withCounts {a f : Nat} (ha : a ≤ 65535) (hf : f ≤ 65535) :
    ({ e with answered := a, failedAttempts := f } : Entry).Legal :=
  ⟨h.stored, h.configured, h.idle, h.failures, h.offline, h.online, ha, hf, h.pendingServed⟩

/-- A configured entry in a new working state, with the consecutive failures that belong to it. -/
theorem Entry.Legal.inState {k : StationState} {n : Nat} (hk : e.state ≠ .unconfigured) (hw : isWorking k = true)
    (hn : n ≤ e.failThreshold) (hoff : k = .offline ↔ n = e.failThreshold) (hon : k = .online → n = 0) :
    ({ e with state := k, consecutive := n } : Entry).Legal :=
  ⟨h.stored, fun _ => h.configured hk, (fun hi => by rw [show isWorking k = false from hi] at hw; cases hw), hn,
    fun _ => hoff, hon, h.answered, h.failed, h.pendingServed⟩

/-- A configured entry disabled, out of service (R50, R51). -/
theorem Entry.Legal.disabled {b : Bool} (hk : e.state ≠ .unconfigured) (hb : b = false) :
    ({ e with state := .disabled, consecutive := 0, inService := b, disablePending := false } : Entry).Legal :=
  ⟨h.stored, fun _ => h.configured hk, fun _ => ⟨rfl, hb, rfl⟩, Nat.zero_le _, (fun hw => by cases hw), fun _ => rfl,
    h.answered, h.failed, (fun hp => by cases hp)⟩

/-- Without a disable pending the in-service mark may come and go on a working entry, and go on any (R55). -/
theorem Entry.Legal.withInService {b : Bool} (hb : b = true → isWorking e.state = true)
    (hp : e.disablePending = true → b = true) : ({ e with inService := b } : Entry).Legal := by
  refine ⟨h.stored, h.configured, fun hi => ?_, h.failures, h.offline, h.online, h.answered, h.failed, hp⟩
  obtain ⟨hcount, -, hpending⟩ := h.idle hi
  refine ⟨hcount, ?_, hpending⟩
  cases b with
  | false => rfl
  | true =>
    have hi : isWorking e.state = false := hi
    rw [hb rfl] at hi
    cases hi

/-- A DISABLED entry cleared (R53). -/
theorem Entry.Legal.cleared (hk : e.state = .disabled) : ({ e with state := .unconfigured } : Entry).Legal :=
  ⟨h.stored, fun hne => absurd rfl hne, (fun _ => h.idle (by rw [hk]; rfl)), h.failures, (fun hw => by cases hw),
    (fun ho => by cases ho), h.answered, h.failed, h.pendingServed⟩

theorem Entry.Legal.withDisablePending (hi : e.inService = true) :
    ({ e with disablePending := true } : Entry).Legal := by
  have hw := h.working_of_inService hi
  exact ⟨h.stored, h.configured, (fun hi => by rw [show isWorking e.state = false from hi] at hw; cases hw),
    h.failures, h.offline, h.online, h.answered, h.failed, fun _ => hi⟩

end

theorem lineOfCode_none_iff (n : Nat) : lineOfCode n = none ↔ 2 ≤ n := by
  match n with
  | 0 => simp [lineOfCode]
  | 1 => simp [lineOfCode]
  | n + 2 => simp [lineOfCode]

theorem ConfigureFields.badField_none_iff (f : ConfigureFields) : f.badField = none ↔
    f.lineCode < 2 ∧ (1 ≤ f.address ∧ f.address ≤ 62) ∧ f.retryLimit ≤ 7 ∧
      1 ≤ f.failThreshold ∧ f.failThreshold ≤ 15 := by
  unfold ConfigureFields.badField
  simp only [Option.isNone_iff_eq_none, lineOfCode_none_iff]
  split_ifs <;> simp <;> omega

theorem isIdle_iff (k : StationState) : isIdle k = true ↔ isWorking k = false := by
  cases k <;> decide

theorem Entry.Legal.configure {e : Entry} {f : ConfigureFields} (l : Line) (h : e.Legal)
    (hi : isWorking e.state = false) (hf : f.badField = none) : (e.configure l f).Legal := by
  obtain ⟨-, haddress, hretry, hthreshold⟩ := f.badField_none_iff.1 hf
  obtain ⟨-, hservice, hpending⟩ := h.idle hi
  exact ⟨⟨haddress.2, hretry, hthreshold.2⟩, fun _ => ⟨haddress.1, hthreshold.1⟩, fun _ => ⟨rfl, hservice, hpending⟩,
    Nat.zero_le _, (fun hw => by cases hw), fun _ => rfl, h.answered, h.failed, h.pendingServed⟩

theorem Entry.legal_reset : Entry.reset.Legal :=
  ⟨by decide, fun h => absurd rfl h, fun _ => ⟨rfl, rfl, rfl⟩, by decide, fun h => (by cases h), fun h => (by cases h),
    by decide, by decide, (fun h => by cases h)⟩

/-! ### Lawful changes -/

/-- A change of an entry that keeps its place on the line, its legality, and an UNCONFIGURED entry unconfigured. -/
structure Entry.Lawful (e f : Entry) : Prop where
  line : f.line = e.line
  address : f.address = e.address
  legal : e.Legal → f.Legal
  unconfigured : e.Legal → e.state = .unconfigured → f.state = .unconfigured

/-- A lawful change that leaves the in-service mark alone. -/
structure Entry.Steady (e f : Entry) : Prop extends e.Lawful f where
  inService : f.inService = e.inService

theorem Entry.Lawful.refl (e : Entry) : e.Lawful e :=
  ⟨rfl, rfl, id, fun _ => id⟩

theorem Entry.Lawful.trans {e f g : Entry} (h : e.Lawful f) (k : f.Lawful g) : e.Lawful g :=
  ⟨k.line.trans h.line, k.address.trans h.address, fun hl => k.legal (h.legal hl),
    fun hl hk => k.unconfigured (h.legal hl) (h.unconfigured hl hk)⟩

theorem Entry.Steady.refl (e : Entry) : e.Steady e :=
  ⟨Entry.Lawful.refl e, rfl⟩

theorem Entry.Lawful.enterService {e : Entry} (hw : isWorking e.state = true) :
    e.Lawful { e with inService := true } :=
  ⟨rfl, rfl, fun h => h.withInService (fun _ => hw) fun _ => rfl, fun _ => id⟩

theorem ne_unconfigured_of_working {k : StationState} (h : isWorking k = true) : k ≠ .unconfigured := by
  rintro rfl
  cases h

/-- A new working state of an entry that is not UNCONFIGURED. -/
theorem Entry.Steady.inState {e : Entry} {k : StationState} {n : Nat} (hk : e.state ≠ .unconfigured)
    (hw : isWorking k = true)
    (hn : e.Legal → n ≤ e.failThreshold ∧ (k = .offline ↔ n = e.failThreshold) ∧ (k = .online → n = 0)) :
    e.Steady { e with state := k, consecutive := n } :=
  ⟨⟨rfl, rfl, fun h => h.inState hk hw (hn h).1 (hn h).2.1 (hn h).2.2, fun _ hu => absurd hu hk⟩, rfl⟩

/-- A new working state that is neither ONLINE nor OFFLINE, with no consecutive failures (R49, R132). -/
theorem Entry.Steady.unknown {e : Entry} (hk : e.state ≠ .unconfigured) :
    e.Steady { e with state := .unknown, consecutive := 0 } := by
  refine Entry.Steady.inState hk rfl fun h => ⟨Nat.zero_le _, ?_, fun _ => rfl⟩
  have hpos := h.threshold_pos hk
  exact ⟨(fun ho => by cases ho), fun hn => by omega⟩

theorem Entry.Steady.withCounts {e : Entry} {a f : Nat}
    (ha : a ≤ 65535 ∨ a = e.answered) (hf : f ≤ 65535 ∨ f = e.failedAttempts) :
    e.Steady { e with answered := a, failedAttempts := f } := by
  refine ⟨⟨rfl, rfl, fun h => h.withCounts ?_ ?_, fun _ => id⟩, rfl⟩
  · rcases ha with ha | rfl
    · exact ha
    · exact h.answered
  · rcases hf with hf | rfl
    · exact hf
    · exact h.failed

/-- A disable takes effect on a station out of service (R50, R51). -/
theorem Entry.Steady.disabled {e : Entry} (hk : isWorking e.state = true ∨ e.disablePending = true)
    (hi : e.inService = false) : e.Steady { e with state := .disabled, consecutive := 0, disablePending := false } := by
  have hne (h : e.Legal) : e.state ≠ .unconfigured :=
    ne_unconfigured_of_working (hk.elim id h.working_of_disablePending)
  exact ⟨⟨rfl, rfl, fun h => h.disabled (hne h) hi, fun h hu => absurd hu (hne h)⟩, rfl⟩

theorem Entry.Steady.cleared {e : Entry} (hk : e.state = .disabled) : e.Steady { e with state := .unconfigured } :=
  ⟨⟨rfl, rfl, fun h => h.cleared hk, fun _ _ => rfl⟩, rfl⟩

theorem Entry.Steady.withDisablePending {e : Entry} (hi : e.inService = true) :
    e.Steady { e with disablePending := true } :=
  ⟨⟨rfl, rfl, fun h => h.withDisablePending hi, fun _ => id⟩, rfl⟩

theorem Entry.Steady.resetOnLine (e : Entry) (l : Line) : e.Steady (e.resetOnLine l) := by
  unfold Entry.resetOnLine
  split
  · next h => exact Entry.Steady.unknown (ne_unconfigured_of_working h.2)
  · exact Entry.Steady.refl e

/-! ### The end of a unit -/

/-- A visit outcome moves a working station within R57 and R58, legal if it was legal. -/
theorem Entry.Steady.visitOutcome {e : Entry} (o : UnitEnd) (hw : isWorking e.state = true) :
    e.Steady { (visitOutcome e o).1 with inService := e.inService } := by
  have hk := ne_unconfigured_of_working hw
  have hanswered : e.Steady
      { e with answered := min (e.answered + 1) 65535, consecutive := 0, state := .online } := by
    have hcount : e.Steady { e with answered := min (e.answered + 1) 65535 } :=
      Entry.Steady.withCounts (Or.inl (Nat.min_le_right _ _)) (Or.inr rfl)
    have hstate : ({ e with answered := min (e.answered + 1) 65535 } : Entry).Steady
        { e with answered := min (e.answered + 1) 65535, consecutive := 0, state := .online } := by
      refine Entry.Steady.inState (e := { e with answered := min (e.answered + 1) 65535 }) hk rfl fun h => ?_
      have hpos := h.threshold_pos hk
      exact ⟨Nat.zero_le _, ⟨(fun ho => by cases ho), fun hn => by omega⟩, fun _ => rfl⟩
    exact ⟨hcount.toLawful.trans hstate.toLawful, rfl⟩
  cases o with
  | good a => exact hanswered
  | deferred a => exact hanswered
  | failed f =>
    simp only [Sys2Proof.Machine.visitOutcome]
    split
    · exact Entry.Steady.refl e
    next hoff =>
    have hbelow (h : e.Legal) : e.consecutive < e.failThreshold :=
      lt_of_le_of_ne h.failures fun hn => hoff ((h.offline hw).2 hn)
    split
    · exact Entry.Steady.inState hk rfl fun _ => ⟨le_rfl, ⟨fun _ => rfl, fun _ => rfl⟩, (fun ho => by cases ho)⟩
    next hth =>
    split
    · refine Entry.Steady.inState hk rfl fun h => ⟨hbelow h, ?_, (fun ho => by cases ho)⟩
      exact ⟨(fun ho => by cases ho), fun hn => absurd hn hth⟩
    next hon =>
    refine Entry.Steady.inState hk hw fun h => ⟨hbelow h, ?_, fun ho => absurd ho hon⟩
    exact ⟨fun ho => absurd ho hoff, fun hn => absurd hn hth⟩
  | _ => exact Entry.Steady.refl e

section
variable (s : State) (l : Line) (w : Work)

theorem entry_withOutcome_ne {i j : StationIndex} (e : UnitEnd) (h : j ≠ i) :
    (s.withOutcome l w i e).entry j = s.entry j := by
  simp [State.withOutcome, State.entry_setEntry_ne, h]

/-- A visit outcome leaves an idle station alone (log entry 22). -/
theorem applyOutcome_of_idle {s : State} (l : Line) {w : Work} {i : StationIndex} (e : UnitEnd)
    (hw : workStation w = some i) (hk : isWorking (s.entry i).state = false) : s.applyOutcome l w e = s := by
  cases e <;> simp [State.applyOutcome, hw, State.outcomeAnswered, State.outcomeFailed, hk]

theorem entry_applyOutcome_steady (e : UnitEnd) (j : StationIndex) :
    (s.entry j).Steady ((s.applyOutcome l w e).entry j) := by
  cases hw : workStation w with
  | none =>
    rw [applyOutcome_of_none s l e hw]
    exact Entry.Steady.refl _
  | some i =>
    by_cases hk : isWorking (s.entry i).state = true
    · rw [applyOutcome_eq e hw hk]
      by_cases hj : j = i
      · rw [hj, entry_withOutcome]
        exact Entry.Steady.visitOutcome e hk
      · rw [entry_withOutcome_ne s l w e hj]
        exact Entry.Steady.refl _
    · rw [applyOutcome_of_idle l e hw (by simpa using hk)]
      exact Entry.Steady.refl _

theorem entry_leaveService_ne {j : StationIndex} (h : workStation w ≠ some j) :
    (s.leaveService w).entry j = s.entry j := by
  cases hw : workStation w with
  | none => rw [leaveService_of_none s hw]
  | some i =>
    have hj : j ≠ i := fun hj => h (hw.trans (by rw [hj]))
    simp only [State.leaveService, hw]
    split <;> simp [State.disableNow, State.entry_modEntry_ne, hj]

/-- The in-service mark is gone from the unit's station and stands on every other as it stood (R38 step 3). -/
theorem inService_leaveService (j : StationIndex) :
    ((s.leaveService w).entry j).inService = if workStation w = some j then false else (s.entry j).inService := by
  split
  · next hw =>
    rw [entry_leaveService hw]
    split <;> rfl
  · next hw => rw [entry_leaveService_ne s w hw]

theorem entry_leaveService_lawful (j : StationIndex) : (s.entry j).Lawful ((s.leaveService w).entry j) := by
  by_cases hw : workStation w = some j
  · rw [entry_leaveService hw]
    split
    · next hp =>
      have hne (h : (s.entry j).Legal) := ne_unconfigured_of_working (h.working_of_disablePending hp)
      exact ⟨rfl, rfl, fun h => h.disabled (hne h) rfl, fun h hu => absurd hu (hne h)⟩
    · next hp =>
      exact ⟨rfl, rfl, fun h => h.withInService (fun hb => by cases hb) fun hd => absurd hd hp, fun _ => id⟩
  · rw [entry_leaveService_ne s w hw]
    exact Entry.Lawful.refl _

end

section
variable (s : State) (l : Line) (c : UnitContext) (e : UnitEnd)

theorem entry_handedOn_lawful (j : StationIndex) : (s.entry j).Lawful ((s.handedOn l c e).entry j) := by
  rw [State.handedOn, entry_leaveDirected]
  refine Entry.Lawful.trans ?_ (entry_leaveService_lawful _ _ j)
  have h := entry_applyOutcome_steady (s.writeRecord? l (ownRecord l (s.line l).cycleNumber c.work e)) l c.work e j
  rw [entry_writeRecord?] at h
  exact h.toLawful

theorem inService_handedOn (j : StationIndex) : ((s.handedOn l c e).entry j).inService =
    if workStation c.work = some j then false else (s.entry j).inService := by
  have h := (entry_applyOutcome_steady (s.writeRecord? l (ownRecord l (s.line l).cycleNumber c.work e)) l c.work e
    j).inService
  rw [State.handedOn, entry_leaveDirected, inService_leaveService, h, entry_writeRecord?]

end

theorem State.Undertakes.lawful {c : Prop} {s t : State} (h : s.Undertakes c t) (i : StationIndex) :
    (s.entry i).Lawful (t.entry i) := by
  induction h with
  | same h => rw [h.entry i]; exact Entry.Lawful.refl _
  | start l _ h =>
    rcases h.own with ⟨-, hentry⟩ | ⟨j, hv, -, hentry⟩
    · rw [hentry i]
      exact Entry.Lawful.refl _
    · rw [hentry i]
      split
      · next hi => exact Entry.Lawful.enterService (by rw [hi]; exact (stationValid_iff.1 hv).1)
      · exact Entry.Lawful.refl _
  | trans _ _ ih1 ih2 => exact ih1.trans ih2

/-- A unit that completes changes every entry lawfully (R38). -/
theorem entry_completeUnit_lawful (s : State) (l : Line) (e : UnitEnd) (i : StationIndex) :
    (s.entry i).Lawful ((s.completeUnit l e).entry i) := by
  cases hc : (s.line l).current with
  | none =>
    simp only [State.completeUnit, hc]
    exact Entry.Lawful.refl _
  | some c =>
    rw [completeUnit_eq e hc, State.entry_modLine]
    have hreturn : (s.handedOn l c e).Undertakes False ((s.handedOn l c e).returnReservation l) :=
      State.Undertakes.returnReservation l False.elim
    exact (entry_handedOn_lawful s l c e i).trans (hreturn.lawful i)

end Sys2Proof.Machine
end

section
/-! SUPPORT. The course of a step: every effect of a row and of a reference period is made of the units that start, the
units that complete, and changes of the station table that leave every unit alone. -/

namespace Sys2Proof.Machine

/-- From s to t the part went through the changes below, one after another. Where `c` holds, the states in which a unit
completed are known to be Coherent. -/
inductive State.Course (c : Prop) : State → State → Prop where
  /-- Units start (R19, R97, R112). -/
  | undertakes {s t : State} (h : s.Undertakes c t) : State.Course c s t
  /-- Entries change lawfully; no unit and no in-service mark does. -/
  | steady {s t : State} (hentry : ∀ i, (s.entry i).Steady (t.entry i))
      (htarget : ∀ m, (t.line m).target = (s.line m).target) : State.Course c s t
  /-- A unit completes (R38). -/
  | completes {s : State} (l : Line) (e : UnitEnd) (hs : c → s.Coherent) : State.Course c s (s.completeUnit l e)
  /-- STATION CONFIGURE is accepted (R47, R48). -/
  | configures {s : State} {i : StationIndex} {l : Line} {f : ConfigureFields}
      (hidle : isWorking (s.entry i).state = false) (hfields : f.badField = none)
      (hunique : s.duplicateOf i l f.address = none) : State.Course c s (s.modEntry i (fun e => e.configure l f))
  /-- The part is reset (R155, R158). -/
  | resets {s t : State} (hentry : ∀ i, t.entry i = Entry.reset) (htarget : ∀ m, (t.line m).target = none) :
      State.Course c s t
  | trans {s t u : State} (h : State.Course c s t) (k : State.Course c t u) : State.Course c s u

section
variable {c : Prop} {s : State}

/-! ### The operations of the engines -/

theorem State.SameService.course {t : State} (h : s.SameService t) : s.Course c t :=
  .undertakes (.same h)

theorem State.Course.refl (s : State) : s.Course c s :=
  (State.SameService.refl s).course

theorem State.Course.modLine (l : Line) (f : LineEngine → LineEngine)
    (h : (f (s.line l)).target = (s.line l).target := by rfl) : s.Course c (s.modLine l f) :=
  (State.SameService.modLine s l f h).course

theorem State.Course.modEntry (i : StationIndex) (f : Entry → Entry) (h : (s.entry i).Steady (f (s.entry i))) :
    s.Course c (s.modEntry i f) := by
  refine .steady (fun j => ?_) fun m => by rw [State.line_modEntry]
  rw [State.entry_modEntry_eq]
  split
  · next hj => rw [hj]; exact h
  · exact Entry.Steady.refl _

theorem State.Course.finish (s : State) : s.Course c s.finish :=
  .undertakes (State.Undertakes.finish s)

theorem State.Course.serve (hs : c → s.Coherent) : s.Course c s.serve :=
  .undertakes (State.Undertakes.serve_of_coherent hs)

theorem State.Course.disableNow {i : StationIndex}
    (hk : isWorking (s.entry i).state = true ∨ (s.entry i).disablePending = true)
    (hi : (s.entry i).inService = false) : s.Course c (s.disableNow i) :=
  (State.Course.modEntry i _ (Entry.Steady.disabled hk hi)).trans
    (State.Course.modLine _ (fun x => { x with alertSet := alertRemove i x.alertSet }))

theorem State.SameService.enterStopped (s : State) (l : Line) : s.SameService (s.enterStopped l) :=
  ((State.SameService.modLine s l _).trans (State.SameService.applyPendingSwap _ l)).trans (State.SameService.raise _ _)

theorem State.Course.enterStopped (s : State) (l : Line) : s.Course c (s.enterStopped l) :=
  (State.SameService.enterStopped s l).course

theorem State.Course.endUnit (l : Line) (e : UnitEnd) (hs : c → s.Coherent) : s.Course c (s.endUnit l e) := by
  unfold State.endUnit State.afterCompletion
  refine State.Course.trans ?_ (State.Course.finish _)
  split
  · exact (State.Course.completes l e hs).trans (State.Course.enterStopped _ l)
  · exact .completes l e hs

theorem State.Course.faultLine (l : Line) (cause : FaultCause) (hs : c → s.Coherent) :
    s.Course c (s.faultLine l cause) :=
  (State.Course.completes l .lineFault hs).trans
    (((State.SameService.modLine _ l _).trans (State.SameService.applyPendingSwap _ l)).trans
      (State.SameService.raise _ _)).course

/-- A discarded unit leaves the hold list; the lines that stay in it are coherent as they were (R113). -/
theorem State.Course.discardPending (l : Line) (hs : c → s.Coherent) : s.Course c (s.discardPending l) := by
  have hbase : s.SameService (((s.leaveHoldList l).dropReservation l).modLine l LineEngine.clearChosen) :=
    ((State.SameService.withQueue s _).trans (State.SameService.dropReservation _ l)).trans
      (State.SameService.modLine _ l LineEngine.clearChosen)
  unfold State.discardPending
  dsimp only
  split
  · refine hbase.course.trans (.undertakes (State.Undertakes.serve fun hc h hh => ?_))
    rw [State.queue_modLine, State.queue_dropReservation] at hh
    exact ((coherent_iff s).1 (hs hc) h.line).other (onlyLine_discardBase s l) (no_entry_leaveHoldList s l h hh)
  · exact hbase.course

theorem State.Course.cutShort (l : Line) (hs : c → s.Coherent) : s.Course c (s.cutShort l) := by
  unfold State.cutShort
  split
  · exact (State.Course.modLine l LineEngine.endLead).trans
      (.completes l .aborted fun hc => coherent_endLead l (hs hc))
  · split
    · exact State.Course.discardPending l hs
    · exact .refl s

/-! ### Attempts -/

theorem State.Course.nextAttempt (s : State) (l : Line) : s.Course c (s.nextAttempt l) :=
  State.Course.modLine l _

/-- The context of the unit in progress changes, its work stands. -/
theorem State.Course.withContext {l : Line} {d : UnitContext} (d' : UnitContext) (hd : (s.line l).current = some d)
    (hw : d'.work = d.work) : s.Course c (s.modLine l (fun x => { x with current := some d' })) := by
  refine State.Course.modLine l _ ?_
  rw [LineEngine.target_of_current rfl, LineEngine.target_of_current hd, hw]

theorem State.Course.chargeAttempt (s : State) (w : Work) : s.Course c (s.chargeAttempt w) := by
  unfold State.chargeAttempt
  split
  · exact .refl s
  · exact State.Course.modEntry _ _ (Entry.Steady.withCounts (Or.inr rfl) (Or.inl (countUp_le _)))

theorem State.Course.attemptFails (l : Line) (o : FailingOutcome) (hs : c → s.Coherent) :
    s.Course c (s.attemptFails l o) := by
  unfold State.attemptFails
  split
  · exact .refl s
  · next d hd =>
    dsimp only
    have hcharged : s.Course c ((s.modLine l (fun x => { x with current := some (d.fail o) })).chargeAttempt d.work) :=
      (State.Course.withContext (d.fail o) hd rfl).trans (State.Course.chargeAttempt _ d.work)
    split
    · exact hcharged.trans (State.Course.nextAttempt _ l)
    · exact hcharged.trans (State.Course.endUnit l _ fun hc =>
        coherent_chargeAttempt d.work (coherent_withContext (d.fail o) (hs hc) hd rfl))

theorem State.Course.attemptJudged (l : Line) (v : Verdict) (hs : c → s.Coherent) :
    s.Course c (s.attemptJudged l v) := by
  have hend {d : UnitContext} (a : HeldAnswer) (e : UnitEnd) (hd : (s.line l).current = some d) :
      s.Course c ((s.modLine l (fun x => { x with current := some (d.answered a) })).endUnit l e) :=
    (State.Course.withContext (d.answered a) hd rfl).trans (State.Course.endUnit l e fun hc =>
      coherent_withContext (d.answered a) (hs hc) hd rfl)
  cases v with
  | good a =>
    show s.Course c (s.attemptGood l a)
    unfold State.attemptGood
    split
    · exact .refl s
    · next hd => exact hend a _ hd
  | deferred a =>
    show s.Course c (s.attemptDeferred l a)
    unfold State.attemptDeferred
    split
    · exact .refl s
    · next d hd =>
      dsimp only
      split
      · exact (State.Course.withContext (d.answered a) hd rfl).trans (State.Course.nextAttempt _ l)
      · exact hend a _ hd
  | failing o => exact State.Course.attemptFails l o hs

/-! ### Receiver and transmitter -/

theorem State.Course.whenLive {f : State → State} (h : s.Course c (f s)) : s.Course c (s.whenLive f) := by
  unfold State.whenLive
  split
  · exact h
  · exact .refl s

theorem State.Course.startDetected (l : Line) : s.Course c (s.startDetected l) := by
  unfold State.startDetected
  split
  · exact .refl s
  · split
    · refine State.Course.modLine l _ ?_
      rw [LineEngine.disposeStart_eq]
      rfl
    · exact .refl s

theorem State.Course.waitMarkEnd (l : Line) : s.Course c (s.waitMarkEnd l) := by
  unfold State.waitMarkEnd
  split
  · exact .refl s
  · split
    · exact State.Course.modLine l _
    · exact .refl s

theorem State.Course.nextAnswerCharacter (l : Line) (b : List Byte) (crc : Word) (v : Byte) (f : Framing)
    (hs : c → s.Coherent) : s.Course c (s.nextAnswerCharacter l b crc v f) := by
  have hfails := State.Course.attemptFails l .corrupt hs
  have hcollect (crc' : Word) :
      s.Course c (s.modLine l (fun x => { x with phase := .receive (b ++ [v]) crc' (some 0) })) :=
    State.Course.modLine l _
  unfold State.nextAnswerCharacter
  dsimp only
  split
  · exact hfails
  split
  · exact hcollect _
  split
  · split
    · exact hfails
    · exact hcollect _
  split
  · exact hcollect _
  split
  · exact hcollect _
  split
  · exact .refl s
  · exact State.Course.attemptJudged l _ hs

theorem State.Course.disposeCharacter (l : Line) (v : Byte) (f : Framing) (hs : c → s.Coherent) :
    s.Course c (s.disposeCharacter l v f) := by
  unfold State.disposeCharacter
  split
  · exact .refl s
  · exact State.Course.modLine l _
  · split
    · exact State.Course.modLine l _
    · exact State.Course.modLine l _
  · exact .refl s
  · unfold State.firstAnswerCharacter
    split
    · exact State.Course.modLine l _
    · exact State.Course.attemptFails l _ hs
  · exact State.Course.nextAnswerCharacter l _ _ _ _ hs

theorem State.Course.character (l : Line) (v : Byte) (f : Framing) (hs : c → s.Coherent) :
    s.Course c (s.character l v f) := by
  unfold State.character
  split
  · exact .refl s
  · split
    · exact (State.Course.modLine l _).trans
        (State.Course.disposeCharacter l v f fun hc => coherent_receiver _ (hs hc))
    · exact .refl s

theorem State.Course.quietReached (l : Line) : s.Course c (s.quietReached l) := by
  refine State.Course.whenLive ?_
  split
  · refine State.Course.modLine l _ ?_
    unfold LineEngine.enterSend
    split <;> rfl
  · exact .refl s

theorem State.Course.noiseLimitExpiry (l : Line) (hs : c → s.Coherent) : s.Course c (s.noiseLimitExpiry l) := by
  refine State.Course.whenLive ?_
  split
  · exact (State.Course.faultLine l _ hs).trans (State.Course.finish _)
  · exact .refl s

theorem State.Course.afterContention (l : Line) (hs : c → s.Coherent) : s.Course c (s.afterContention l) := by
  unfold State.afterContention
  split
  · exact (State.Course.faultLine l _ hs).trans (State.Course.finish _)
  · exact State.Course.modLine l _

/-- The transmission ends early, and with it the attempt, contended (R34, R35). -/
theorem State.Course.contended (l : Line) (n : Nat) (hs : c → s.Coherent) :
    s.Course c ((s.setLine l { s.line l with shifter := none, contention := n }).afterContention l) := by
  refine State.Course.trans (State.SameService.setLine s l _).course (State.Course.afterContention l fun hc => ?_)
  exact coherent_silent n (hs hc)

theorem State.Course.characterSent (l : Line) (hs : c → s.Coherent) : s.Course c (s.characterSent l) := by
  cases hp : (s.line l).phase with
  | send k echoed =>
    cases echoed with
    | true =>
      simp only [State.characterSent, hp]
      split
      · exact State.Course.modLine l _
      · exact State.Course.modLine l _
    | false =>
      rw [State.characterSent_unechoed hp]
      exact State.Course.contended l _ hs
  | sendWaiting =>
    rw [State.characterSent_sendWaiting hp]
    exact (State.SameService.setLine s l _).course
  | idle wait =>
    by_cases hw : wait = .fallOfDe
    · rw [State.characterSent_fallOfDe (by rw [hp, hw])]
      exact State.Course.contended l (s.line l).contention hs
    · rw [State.characterSent_elsewhere (by simp [hp]) (by simp [hp]) (by simpa [hp] using hw)]
      exact (State.SameService.setLine s l _).course
  | _ =>
    rw [State.characterSent_elsewhere (by simp [hp]) (by simp [hp]) (by simp [hp])]
    exact (State.SameService.setLine s l _).course

theorem State.Course.transmitCharacterEnd (l : Line) (hs : c → s.Coherent) :
    s.Course c (s.transmitCharacterEnd l) := by
  refine State.Course.whenLive ?_
  split
  · exact State.Course.characterSent l hs
  · exact .refl s

/-! ### Timers and inner events -/

theorem State.Course.responseTimeout (l : Line) (hs : c → s.Coherent) : s.Course c (s.responseTimeout l) := by
  refine State.Course.whenLive ?_
  split
  · exact State.Course.attemptFails l _ hs
  all_goals exact .refl s

theorem State.Course.gapLimitExpiry (l : Line) (hs : c → s.Coherent) : s.Course c (s.gapLimitExpiry l) := by
  refine State.Course.whenLive ?_
  split
  · exact State.Course.attemptFails l _ hs
  all_goals exact .refl s

theorem State.Course.backoffEnd (l : Line) : s.Course c (s.backoffEnd l) := by
  refine State.Course.whenLive ?_
  split
  · exact State.Course.nextAttempt s l
  all_goals exact .refl s

theorem State.Course.settleEnd (l : Line) (hs : c → s.Coherent) : s.Course c (s.settleEnd l) := by
  refine State.Course.whenLive ?_
  split
  · exact State.Course.endUnit l _ hs
  all_goals exact .refl s

theorem State.Course.intervalElapsed (l : Line) : s.Course c (s.intervalElapsed l) := by
  refine State.Course.whenLive ?_
  split
  · exact (State.Course.modLine l _).trans (State.Course.finish _)
  · exact .refl s

/-- A unit granted but not started, which no Coherent state has. -/
theorem State.Course.unitStart (l : Line) (hs : c → s.Coherent) : s.Course c (s.unitStart l) := by
  refine State.Course.whenLive ?_
  split
  · next hg =>
    have hnot (hc : c) : False := by
      rw [not_granted l (hs hc)] at hg
      cases hg
    exact ((State.Course.undertakes (.start l (fun hc => (hnot hc).elim) (State.Starts.startUnit s l))).trans
      (State.Course.serve fun hc => (hnot hc).elim)).trans (State.Course.finish _)
  · exact .refl s

theorem State.Course.deferredDisable (i : StationIndex) : s.Course c (s.deferredDisable i) := by
  refine State.Course.whenLive ?_
  split
  · next h =>
    simp only [Bool.and_eq_true, Bool.not_eq_true'] at h
    exact State.Course.disableNow (Or.inr h.1) h.2
  · exact .refl s

theorem State.Course.stoppingLineStopped (l : Line) : s.Course c (s.stoppingLineStopped l) := by
  refine State.Course.whenLive ?_
  split
  · exact State.Course.enterStopped s l
  · exact .refl s

theorem State.Course.holdListGrant (hs : c → s.Coherent) : s.Course c s.holdListGrant :=
  State.Course.whenLive ((State.Course.serve hs).trans (State.Course.finish _))

theorem State.Course.workSelection (l : Line) : s.Course c (s.workSelection l) := by
  refine State.Course.whenLive ?_
  split
  · exact (State.Course.undertakes (State.Undertakes.invokeArbiter s l)).trans (State.Course.finish _)
  · exact .refl s

theorem State.Course.pendingSwapTakesEffect (l : Line) : s.Course c (s.pendingSwapTakesEffect l) := by
  refine State.Course.whenLive ?_
  split
  · exact State.Course.modLine l _
  · exact .refl s

theorem State.Course.cycleStart (l : Line) : s.Course c (s.cycleStart l) := by
  refine State.Course.whenLive ?_
  split
  · exact (State.Course.modLine l _).trans (State.Course.finish _)
  · exact .refl s

/-! ### One reference period -/

theorem State.Course.fire (l : Line) (e : TimedEvent) (hs : c → s.Coherent) : s.Course c (s.fire l e) := by
  cases e with
  | characterSent => exact State.Course.transmitCharacterEnd l hs
  | quiet => exact State.Course.quietReached l
  | noise => exact State.Course.noiseLimitExpiry l hs
  | response => exact State.Course.responseTimeout l hs
  | gap => exact State.Course.gapLimitExpiry l hs
  | backoff => exact State.Course.backoffEnd l
  | settle => exact State.Course.settleEnd l hs
  | interval => exact State.Course.intervalElapsed l

theorem State.Course.fireNext (l : Line) (hs : c → s.Coherent) : s.Course c (s.fireNext l) := by
  unfold State.fireNext
  split
  · exact .refl s
  · exact State.Course.fire l _ hs

theorem State.Course.fireDue (l : Line) (hs : c → s.Coherent) : s.Course c (s.fireDue l) :=
  (State.Course.fireNext l hs).trans (State.Course.fireNext l fun hc => coherent_fireNext l (hs hc))

theorem State.Course.fireTwo (l m : Line) (hs : c → s.Coherent) : s.Course c ((s.fireDue l).fireDue m) :=
  (State.Course.fireDue l hs).trans (State.Course.fireDue m fun hc => coherent_fireDue l (hs hc))

/-- The order of the records of a period bears on no line and no entry. -/
theorem State.SameService.recordsApart (s : State) (before middle : Nat) :
    s.SameService (s.recordsApart before middle) := by
  unfold State.recordsApart
  split
  · split
    · exact State.SameService.of_lines rfl fun m => by cases m <;> rfl
    · exact State.SameService.refl s
  · exact State.SameService.refl s

theorem State.Course.fireInTurn (l m : Line) (hs : c → s.Coherent) : s.Course c (s.fireInTurn l m) :=
  (State.Course.fireTwo l m hs).trans (State.SameService.recordsApart _ _ _).course

theorem State.Course.fireBoth (hs : c → s.Coherent) : s.Course c s.fireBoth := by
  have hrace : s.Course c s.nextRace := (State.SameService.nextRace s).course
  unfold State.fireBoth
  split
  · split
    · exact hrace.trans (State.Course.fireInTurn _ _ fun hc => coherent_nextRace (hs hc))
    · exact hrace.trans (State.Course.fireInTurn _ _ fun hc => coherent_nextRace (hs hc))
  · exact State.Course.fireTwo .a .b hs

theorem State.Course.passTime (hs : c → s.Coherent) : s.Course c s.passTime := by
  have htick (u : State) : u.Course c ((u.modLine .a LineEngine.tick).modLine .b LineEngine.tick) :=
    (State.Course.modLine .a _).trans (State.Course.modLine .b _)
  unfold State.passTime
  split
  · exact .refl s
  · split
    · exact (State.SameService.modWindow s _).course.trans (htick _)
    · exact (htick s).trans (State.Course.fireBoth fun hc => coherent_tickLine _ (coherent_tickLine _ (hs hc)))

/-! ### The commands of stations -/

theorem State.Course.reply (s : State) (r : Result) (n : Nat) : s.Course c (s.reply r n) :=
  (State.SameService.modWindow s _).course

/-- A command that did `t` and answers. -/
theorem State.Course.andReply {t : State} (h : s.Course c t) (r : Result) (n : Nat) : s.Course c (t.reply r n) :=
  h.trans (State.Course.reply t r n)

theorem State.Course.issue (code : Word) {d : State → State} (hs : c → s.Coherent)
    (hd : ∀ t : State, (c → t.Coherent) → t.Course c (d t)) : s.Course c (s.issue code d) := by
  have hcode : s.Course c (s.modWindow (fun w => { w with command := code })) :=
    (State.SameService.modWindow s _).course
  unfold State.issue
  split
  · exact .refl s
  · dsimp only
    split
    · exact hcode.andReply _ _
    · exact hcode.trans (hd _ fun hc => coherent_modWindow _ (hs hc))

theorem State.Course.withStation {body : StationIndex → State} (hb : ∀ i, s.Course c (body i)) :
    s.Course c (s.withStation body) := by
  unfold State.withStation
  split
  · exact State.Course.reply s _ _
  · exact hb _

theorem State.Course.cmdStationConfigure (s : State) : s.Course c s.cmdStationConfigure := by
  refine State.Course.withStation fun i => ?_
  dsimp only
  split
  · exact State.Course.reply s _ _
  next hidle =>
  split
  · exact State.Course.reply s _ _
  next hfields =>
  split
  · exact State.Course.reply s _ _
  split
  · exact State.Course.reply s _ _
  next hunique =>
  have hworking : isWorking (s.entry i).state = false := (isIdle_iff _).1 (by simpa using hidle)
  exact (State.Course.configures hworking hfields hunique).andReply _ _

theorem State.Course.cmdStationEnable (s : State) : s.Course c s.cmdStationEnable := by
  refine State.Course.withStation fun i => ?_
  split
  · next hk =>
    exact (State.Course.modEntry i _ (Entry.Steady.unknown (by rw [hk]; decide))).andReply _ _
  · exact State.Course.reply s _ _

theorem State.Course.cmdStationDisable (s : State) : s.Course c s.cmdStationDisable := by
  refine State.Course.withStation fun i => ?_
  dsimp only
  split
  · next hk =>
    split
    · next hi => exact (State.Course.modEntry i _ (Entry.Steady.withDisablePending hi)).andReply _ _
    · next hi => exact (State.Course.disableNow (Or.inl hk) (by simpa using hi)).andReply _ _
  · split
    · exact State.Course.reply s _ _
    · exact State.Course.reply s _ _

theorem State.Course.cmdStationClear (s : State) : s.Course c s.cmdStationClear := by
  refine State.Course.withStation fun i => ?_
  split
  · next hk => exact (State.Course.modEntry i _ (Entry.Steady.cleared hk)).andReply _ _
  · exact State.Course.reply s _ _

theorem State.Course.cmdStationZeroCounts (s : State) : s.Course c s.cmdStationZeroCounts := by
  refine State.Course.withStation fun i => ?_
  split
  · exact State.Course.reply s _ _
  · exact (State.Course.modEntry i _
      (Entry.Steady.withCounts (Or.inl (Nat.zero_le _)) (Or.inl (Nat.zero_le _)))).andReply _ _

/-! ### The other commands -/

theorem State.Course.cmdListSwap (s : State) : s.Course c s.cmdListSwap := by
  unfold State.cmdListSwap
  split
  · exact State.Course.reply s _ _
  next l _ =>
  dsimp only
  split
  · exact State.Course.reply s _ _
  split
  · exact State.Course.reply s _ _
  split
  · exact ((State.Course.modLine l _).trans (State.Course.finish _)).andReply _ _
  · exact (State.Course.modLine l _).andReply _ _

theorem State.Course.cmdSubmit (s : State) : s.Course c s.cmdSubmit := by
  unfold State.cmdSubmit
  dsimp only
  split
  · exact State.Course.reply s _ _
  next l _ =>
  split
  · exact State.Course.reply s _ _
  split
  · exact State.Course.reply s _ _
  split
  · exact State.Course.reply s _ _
  split
  · exact State.Course.reply s _ _
  · exact ((State.Course.modLine l _).trans (State.Course.finish _)).andReply _ _

theorem State.Course.withQueue (s : State) (q : ReplyQueue) : s.Course c { s with queue := q } :=
  (State.SameService.withQueue s q).course

theorem State.Course.releaseHead (hs : c → s.Coherent) : s.Course c s.releaseHead.finish := by
  have hdrop : s.Course c s.dropHead := State.Course.withQueue s _
  have hcoherent (hc : c) : s.dropHead.Coherent := coherent_withQueue _ (hs hc) rfl
  exact (hdrop.trans (State.Course.serve hcoherent)).trans (State.Course.finish _)

theorem State.Course.cmdQueueRelease (hs : c → s.Coherent) : s.Course c s.cmdQueueRelease := by
  unfold State.cmdQueueRelease
  split
  · exact State.Course.reply s _ _
  split
  · exact State.Course.reply s _ _
  · exact (State.Course.releaseHead hs).andReply _ _

theorem State.Course.cmdQueueFlush (s : State) : s.Course c s.cmdQueueFlush := by
  unfold State.cmdQueueFlush
  split
  · exact State.Course.reply s _ _
  · exact (State.Course.withQueue s _).andReply _ _

theorem State.Course.cmdQueueSetThreshold (s : State) : s.Course c s.cmdQueueSetThreshold := by
  unfold State.cmdQueueSetThreshold
  dsimp only
  split
  · exact State.Course.reply s _ _
  · exact (State.Course.withQueue s _).andReply _ _

theorem State.Course.cmdDrainMode (s : State) : s.Course c s.cmdDrainMode := by
  unfold State.cmdDrainMode
  split
  · exact State.Course.reply s _ _
  split
  · exact State.Course.reply s _ _
  · exact (State.Course.withQueue s _).andReply _ _

theorem State.Course.drive (s : State) (w : Word) : s.Course c (s.drive w) :=
  (State.SameService.modWindow s _).course

/-- A word of the head record is taken, and the record released if it was its last (R118, R140). -/
theorem State.Course.takeWord (w : Word) (hs : c → s.Coherent) : s.Course c ((s.drive w).advanceCursor) ∧
    s.Course c ((s.drive w).advanceCursor.releaseHead.finish) := by
  have htake : s.Course c ((s.drive w).advanceCursor) :=
    (State.Course.drive s w).trans (State.Course.withQueue _ _)
  exact ⟨htake, htake.trans (State.Course.releaseHead fun hc => coherent_takeWord w (hs hc))⟩

theorem State.Course.queueDataRead (hs : c → s.Coherent) : s.Course c s.queueDataRead := by
  unfold State.queueDataRead
  split
  · split
    · exact State.Course.drive s _
    · split
      · exact State.Course.drive s _
      · exact (State.Course.takeWord _ hs).1
    · split
      · exact State.Course.drive s _
      · dsimp only
        split
        · exact (State.Course.takeWord _ hs).2
        · exact (State.Course.takeWord _ hs).1
  · exact State.Course.drive s _

theorem State.Course.dackStrobe (hs : c → s.Coherent) : s.Course c s.dackStrobe := by
  unfold State.dackStrobe
  split
  · split
    · exact State.Course.drive s _
    · exact State.Course.drive s _
    · split
      · exact State.Course.drive s _
      · dsimp only
        split
        · exact (State.Course.takeWord _ hs).2
        · exact (State.Course.takeWord _ hs).1
  · exact State.Course.drive s _

theorem State.Course.withLine {body : Line → State} (hb : ∀ l, s.Course c (body l)) : s.Course c (s.withLine body) := by
  unfold State.withLine
  split
  · exact State.Course.reply s _ _
  · exact hb _

theorem State.Course.cmdLineSet (s : State) : s.Course c s.cmdLineSet := by
  refine State.Course.withLine fun l => ?_
  split
  · exact State.Course.reply s _ _
  split
  · exact State.Course.reply s _ _
  split
  · exact (State.Course.modLine l _).andReply _ _
  · exact State.Course.reply s _ _

theorem LineEngine.target_start (x : LineEngine) : x.start.target = x.target := by
  unfold LineEngine.start
  dsimp only
  split <;> rfl

theorem State.Course.cmdLineStart (s : State) : s.Course c s.cmdLineStart := by
  refine State.Course.withLine fun l => ?_
  split
  · exact ((State.Course.modLine l _ (LineEngine.target_start _)).trans (State.Course.finish _)).andReply _ _
  · exact State.Course.reply s _ _

theorem State.Course.stopRunning (l : Line) (hs : c → s.Coherent) : s.Course c (s.stopRunning l) := by
  have hstop (u : State) : u.Course c (u.enterStopped l).finish :=
    (State.Course.enterStopped u l).trans (State.Course.finish _)
  unfold State.stopRunning
  split
  · exact (State.Course.modLine l _).andReply _ _
  split
  · exact ((State.Course.discardPending l hs).trans (hstop _)).andReply _ _
  · exact (hstop s).andReply _ _

theorem State.Course.cmdLineStop (hs : c → s.Coherent) : s.Course c s.cmdLineStop := by
  refine State.Course.withLine fun l => ?_
  split
  · exact State.Course.reply s _ _
  · exact State.Course.reply s _ _
  · exact State.Course.reply s _ _
  · exact State.Course.stopRunning l hs

theorem State.Course.cmdLineHalt (hs : c → s.Coherent) : s.Course c s.cmdLineHalt := by
  refine State.Course.withLine fun l => ?_
  split
  · exact State.Course.reply s _ _
  · exact (((State.Course.cutShort l hs).trans (State.Course.enterStopped _ l)).trans
      (State.Course.finish _)).andReply _ _

theorem State.entry_resetStations (s : State) (l : Line) (i : StationIndex) :
    (s.resetStations l).entry i = (s.entry i).resetOnLine l := by
  simp [State.resetStations, State.entry, Vector.get_eq_getElem]

theorem State.Course.cmdLineReset (hs : c → s.Coherent) : s.Course c s.cmdLineReset := by
  refine State.Course.withLine fun l => ?_
  have hstations (u : State) : u.Course c (u.resetStations l) := by
    refine .steady (fun i => ?_) fun m => by rw [line_resetStations]
    rw [State.entry_resetStations]
    exact Entry.Steady.resetOnLine _ l
  exact (((((State.Course.cutShort l hs).trans (State.Course.modLine l LineEngine.resetCounters)).trans
    (hstations _)).trans (State.Course.enterStopped _ l)).trans (State.Course.finish _)).andReply _ _

theorem State.entry_reset (i : StationIndex) : State.reset.entry i = Entry.reset := by
  simp only [State.entry, State.reset, Vector.get_eq_getElem, Vector.getElem_replicate]

theorem State.Course.resetEffects (s : State) : s.Course c s.resetEffects :=
  .resets State.entry_reset fun m => by cases m <;> rfl

theorem State.Course.decideCommand (k : Command) (hs : c → s.Coherent) : s.Course c (s.decideCommand k) := by
  cases k with
  | stationConfigure => exact State.Course.cmdStationConfigure s
  | stationEnable => exact State.Course.cmdStationEnable s
  | stationDisable => exact State.Course.cmdStationDisable s
  | stationClear => exact State.Course.cmdStationClear s
  | stationZeroCounts => exact State.Course.cmdStationZeroCounts s
  | listSwap => exact State.Course.cmdListSwap s
  | submit => exact State.Course.cmdSubmit s
  | queueRelease => exact State.Course.cmdQueueRelease hs
  | queueFlush => exact State.Course.cmdQueueFlush s
  | queueSetThreshold => exact State.Course.cmdQueueSetThreshold s
  | drainMode => exact State.Course.cmdDrainMode s
  | lineSet => exact State.Course.cmdLineSet s
  | lineStart => exact State.Course.cmdLineStart s
  | lineStop => exact State.Course.cmdLineStop hs
  | lineHalt => exact State.Course.cmdLineHalt hs
  | lineReset => exact State.Course.cmdLineReset hs
  | partReset => exact State.Course.resetEffects s

theorem State.Course.command (k : Command) (hs : c → s.Coherent) :
    s.Course c (s.issue (commandCode k) fun t => t.decideCommand k) :=
  State.Course.issue _ hs fun _ ht => State.Course.decideCommand k ht

theorem State.Course.writeCommand (code : Word) (hs : c → s.Coherent) : s.Course c (s.writeCommand code) := by
  refine State.Course.issue _ hs fun t ht => ?_
  unfold State.decideWord
  split
  · exact State.Course.decideCommand _ ht
  · exact State.Course.reply t _ _

/-! ### The host window -/

theorem State.Course.modWindow (s : State) (f : Window → Window) : s.Course c (s.modWindow f) :=
  (State.SameService.modWindow s f).course

theorem State.Course.tableStore (r : BitVec 4) (k : Nat) (w : Word) : s.Course c (s.tableStore r k w) := by
  unfold State.tableStore
  split
  · exact .refl s
  · split
    · exact State.Course.modWindow s _
    · exact .refl s
  · next l n _ =>
    split
    · split
      · exact State.Course.modLine l _ (by cases n <;> rfl)
      · exact State.Course.modWindow s _
    · exact .refl s
  · next l _ => exact State.Course.modLine l _

theorem State.Course.tableDataRead (s : State) : s.Course c s.tableDataRead := by
  unfold State.tableDataRead
  split
  · exact State.Course.drive s _
  · exact (State.Course.drive s _).trans (State.Course.modWindow _ _)

theorem State.Course.tableDataWrite (s : State) (w : Word) : s.Course c (s.tableDataWrite w) := by
  unfold State.tableDataWrite
  split
  · exact .refl s
  · refine State.Course.trans ?_ (State.Course.modWindow _ _)
    split
    · exact State.Course.tableStore _ _ _
    · exact .refl s

theorem State.Course.partStatusRead (s : State) : s.Course c s.partStatusRead := by
  unfold State.partStatusRead
  split
  · exact State.Course.drive s _
  · exact (State.Course.drive s _).trans (State.Course.modWindow _ _)

theorem State.SameService.withInterrupts (s : State) (u : InterruptUnit) : s.SameService { s with interrupts := u } :=
  State.SameService.of_lines rfl fun m => by cases m <;> rfl

theorem State.Course.intEnableWrite (s : State) (w : Word) : s.Course c (s.intEnableWrite w) :=
  State.Course.whenLive (State.SameService.withInterrupts s _).course

theorem State.Course.intAckWrite (s : State) (w : Word) : s.Course c (s.intAckWrite w) := by
  refine State.Course.whenLive ?_
  split
  · exact .refl s
  · exact .refl s
  · exact (State.SameService.withInterrupts s _).course

theorem State.Course.registerWrite (a : BitVec 5) (w : Word) (hs : c → s.Coherent) :
    s.Course c (s.registerWrite a w) := by
  unfold State.registerWrite
  split
  · exact .refl s
  · split
    · exact State.Course.writeCommand w hs
    · exact State.Course.modWindow s _
    · exact State.Course.modWindow s _
    · exact State.Course.modWindow s _
    · exact State.Course.modWindow s _
    · exact State.Course.modWindow s _
    · exact State.Course.tableDataWrite s w
    · exact State.Course.intEnableWrite s w
    · exact State.Course.intAckWrite s w
    · exact .refl s

theorem State.Course.releaseReset (s : State) : s.Course c s.releaseReset := by
  unfold State.releaseReset
  split
  · exact State.Course.modWindow s _
  · exact .refl s

theorem State.Course.endInit (s : State) : s.Course c s.endInit := by
  unfold State.endInit
  split
  · exact .refl s
  · exact State.Course.modWindow s _

/-! ### Every row, and the step -/

/-- Each row of the opcode table answers a state the part reaches by a course. -/
theorem State.Course.exec (i : Instr) (hs : c → s.Coherent) :
    ∃ t, Sys2Proof.Machine.exec i s = .next t ∧ s.Course c t := by
  cases i with
  | hardwareResetAssert => exact ⟨_, rfl, (State.Course.resetEffects s).trans (State.Course.modWindow _ _)⟩
  | hardwareResetRelease => exact ⟨_, rfl, State.Course.releaseReset s⟩
  | initEnd => exact ⟨_, rfl, State.Course.endInit s⟩
  | stationConfigure => exact ⟨_, rfl, State.Course.command .stationConfigure hs⟩
  | stationEnable => exact ⟨_, rfl, State.Course.command .stationEnable hs⟩
  | stationDisable => exact ⟨_, rfl, State.Course.command .stationDisable hs⟩
  | stationClear => exact ⟨_, rfl, State.Course.command .stationClear hs⟩
  | stationZeroCounts => exact ⟨_, rfl, State.Course.command .stationZeroCounts hs⟩
  | listSwap => exact ⟨_, rfl, State.Course.command .listSwap hs⟩
  | submit => exact ⟨_, rfl, State.Course.command .submit hs⟩
  | queueRelease => exact ⟨_, rfl, State.Course.command .queueRelease hs⟩
  | queueFlush => exact ⟨_, rfl, State.Course.command .queueFlush hs⟩
  | queueSetThreshold => exact ⟨_, rfl, State.Course.command .queueSetThreshold hs⟩
  | drainMode => exact ⟨_, rfl, State.Course.command .drainMode hs⟩
  | lineSet => exact ⟨_, rfl, State.Course.command .lineSet hs⟩
  | lineStart => exact ⟨_, rfl, State.Course.command .lineStart hs⟩
  | lineStop => exact ⟨_, rfl, State.Course.command .lineStop hs⟩
  | lineHalt => exact ⟨_, rfl, State.Course.command .lineHalt hs⟩
  | lineReset => exact ⟨_, rfl, State.Course.command .lineReset hs⟩
  | partReset => exact ⟨_, rfl, State.Course.command .partReset hs⟩
  | unknownCommand code => exact ⟨_, rfl, State.Course.writeCommand code hs⟩
  | queueDataRead => exact ⟨_, rfl, State.Course.queueDataRead hs⟩
  | tableDataRead => exact ⟨_, rfl, State.Course.tableDataRead s⟩
  | tableDataWrite w => exact ⟨_, rfl, State.Course.tableDataWrite s w⟩
  | partStatusRead => exact ⟨_, rfl, State.Course.partStatusRead s⟩
  | intEnableWrite w => exact ⟨_, rfl, State.Course.intEnableWrite s w⟩
  | intAckWrite w => exact ⟨_, rfl, State.Course.intAckWrite s w⟩
  | registerWrite a w => exact ⟨_, rfl, State.Course.registerWrite a w hs⟩
  | dackStrobe overlap => cases overlap <;> exact ⟨_, rfl, State.Course.dackStrobe hs⟩
  | startDetected l => exact ⟨_, rfl, State.Course.startDetected l⟩
  | character l v f => exact ⟨_, rfl, State.Course.character l v f hs⟩
  | waitMarkEnd l => exact ⟨_, rfl, State.Course.waitMarkEnd l⟩
  | quietReached l => exact ⟨_, rfl, State.Course.quietReached l⟩
  | noiseLimitExpiry l => exact ⟨_, rfl, State.Course.noiseLimitExpiry l hs⟩
  | transmitCharacterEnd l => exact ⟨_, rfl, State.Course.transmitCharacterEnd l hs⟩
  | responseTimeout l => exact ⟨_, rfl, State.Course.responseTimeout l hs⟩
  | gapLimitExpiry l => exact ⟨_, rfl, State.Course.gapLimitExpiry l hs⟩
  | backoffEnd l => exact ⟨_, rfl, State.Course.backoffEnd l⟩
  | settleEnd l => exact ⟨_, rfl, State.Course.settleEnd l hs⟩
  | intervalElapsed l => exact ⟨_, rfl, State.Course.intervalElapsed l⟩
  | unitStart l => exact ⟨_, rfl, State.Course.unitStart l hs⟩
  | deferredDisable i => exact ⟨_, rfl, State.Course.deferredDisable i⟩
  | stoppingLineStopped l => exact ⟨_, rfl, State.Course.stoppingLineStopped l⟩
  | holdListGrant => exact ⟨_, rfl, State.Course.holdListGrant hs⟩
  | workSelection l => exact ⟨_, rfl, State.Course.workSelection l⟩
  | pendingSwapTakesEffect l => exact ⟨_, rfl, State.Course.pendingSwapTakesEffect l⟩
  | cycleStart l => exact ⟨_, rfl, State.Course.cycleStart l⟩

/-- A step is a course (95_what_each_step_holds). -/
theorem State.Course.step {t : State} (hs : c → s.Coherent) (h : Sys2Proof.Machine.step s = .next t) :
    s.Course c t := by
  unfold Sys2Proof.Machine.step at h
  split at h
  · obtain rfl := Host.Outcome.next.inj h
    exact State.Course.passTime hs
  · next i rest _ =>
    have htaken : s.SameService { s with pending := rest } :=
      State.SameService.of_lines rfl fun m => by cases m <;> rfl
    have hcoherent (hc : c) : State.Coherent { s with pending := rest } :=
      coherent_of_same (hs hc) (fun m => by cases m <;> rfl) rfl
    obtain ⟨u, hu, hcourse⟩ := State.Course.exec i hcoherent
    rw [hu] at h
    obtain rfl := Host.Outcome.next.inj h
    exact htaken.course.trans hcourse

end

end Sys2Proof.Machine
end

section
/-! SUPPORT. What a course keeps: the legality of the entries, the addresses unshared, and the in-service marks on the
stations the units in progress target. -/

namespace Sys2Proof.Machine

/-! ### Legal entries and addresses -/

/-- No other entry that is not UNCONFIGURED stands on the line and address (R47 step 4). -/
theorem duplicateOf_none_iff {s : State} {i : StationIndex} {l : Line} {a : Nat} : s.duplicateOf i l a = none ↔
    ∀ j, ¬ (j ≠ i ∧ (s.entry j).state ≠ .unconfigured ∧ (s.entry j).line = l ∧ (s.entry j).address = a) := by
  simp [State.duplicateOf, List.find?_eq_none, List.mem_finRange]

theorem noSharedAddress_of_lawful {s t : State} (h : ∀ i, (s.entry i).Lawful (t.entry i)) (hs : s.EntriesLegal)
    (hn : s.NoSharedAddress) : t.NoSharedAddress := by
  intro i j hij hi hj hline
  rw [(h i).line, (h j).line] at hline
  rw [(h i).address, (h j).address]
  exact hn i j hij (mt ((h i).unconfigured (hs i)) hi) (mt ((h j).unconfigured (hs j)) hj) hline

theorem noSharedAddress_configure {s : State} {i : StationIndex} {l : Line} {f : ConfigureFields}
    (hunique : s.duplicateOf i l f.address = none) (hn : s.NoSharedAddress) :
    (s.modEntry i (fun e => e.configure l f)).NoSharedAddress := by
  have hfree := duplicateOf_none_iff.1 hunique
  intro j k hjk hj hk hline
  by_cases hji : j = i
  · subst hji
    rw [State.entry_modEntry_ne _ _ (Ne.symm hjk)] at hk hline ⊢
    rw [State.entry_modEntry] at hline ⊢
    exact fun haddress => hfree k ⟨Ne.symm hjk, hk, hline.symm, haddress.symm⟩
  · rw [State.entry_modEntry_ne _ _ hji] at hj hline ⊢
    by_cases hki : k = i
    · subst hki
      rw [State.entry_modEntry] at hline ⊢
      exact fun haddress => hfree j ⟨hji, hj, hline, haddress⟩
    · rw [State.entry_modEntry_ne _ _ hki] at hk hline ⊢
      exact hn j k hjk hj hk hline

/-- The station table stays legal, and its addresses unshared, on any course (R47, R58, R60). -/
theorem State.Course.keeps_table {c : Prop} {s t : State} (h : s.Course c t) (hs : s.EntriesLegal) :
    t.EntriesLegal ∧ (s.NoSharedAddress → t.NoSharedAddress) := by
  have hlawful {u v : State} (hu : u.EntriesLegal) (hk : ∀ i, (u.entry i).Lawful (v.entry i)) :
      v.EntriesLegal ∧ (u.NoSharedAddress → v.NoSharedAddress) :=
    ⟨fun i => (hk i).legal (hu i), noSharedAddress_of_lawful hk hu⟩
  induction h with
  | undertakes h => exact hlawful hs h.lawful
  | steady hentry _ => exact hlawful hs fun i => (hentry i).toLawful
  | completes l e _ => exact hlawful hs (entry_completeUnit_lawful _ l e)
  | configures hidle hfields hunique =>
    refine ⟨fun j => ?_, noSharedAddress_configure hunique⟩
    rw [State.entry_modEntry_eq]
    split
    · next hj => exact (hs j).configure _ (by rw [hj]; exact hidle) hfields
    · exact hs j
  | resets hentry _ =>
    refine ⟨fun i => ?_, fun _ i j _ hi => ?_⟩
    · rw [hentry i]
      exact Entry.legal_reset
    · rw [hentry i] at hi
      exact absurd rfl hi
  | trans _ _ ih1 ih2 =>
    obtain ⟨hmid, hshared⟩ := ih1 hs
    obtain ⟨hend, hshared'⟩ := ih2 hmid
    exact ⟨hend, fun hn => hshared' (hshared hn)⟩

/-! ### The in-service marks of a line -/

/-- On line l the in-service mark stands on the station its unit in progress targets, and on no other (R55). -/
def State.LineServed (s : State) (l : Line) : Prop :=
  ∀ i, (s.line l).target = some i ↔ (s.entry i).line = l ∧ (s.entry i).inService = true

theorem target_eq_some_iff {x : LineEngine} {i : StationIndex} :
    x.target = some i ↔ ∃ c, x.current = some c ∧ workStation c.work = some i := by
  simp [LineEngine.target, Option.bind_eq_some_iff]

/-- Owned marks on stations of the units' own lines are served lines; that a station in service works is its
legality. -/
theorem lineServed_iff {s : State} (hs : s.EntriesLegal) :
    (∀ l, s.LineServed l) ↔ s.ServiceOwned ∧ s.UnitsOwnStations := by
  constructor
  · intro h
    refine ⟨fun i => ⟨fun hi => ?_, ?_⟩, fun l c i hc hw => ?_⟩
    · obtain ⟨c, hc, hw⟩ := target_eq_some_iff.1 ((h (s.entry i).line i).2 ⟨rfl, hi⟩)
      exact ⟨_, c, hc, hw, rfl⟩
    · rintro ⟨l, c, hc, hw, -⟩
      exact ((h l i).1 (target_eq_some_iff.2 ⟨c, hc, hw⟩)).2
    · obtain ⟨hline, hi⟩ := (h l i).1 (target_eq_some_iff.2 ⟨c, hc, hw⟩)
      exact ⟨hline, (hs i).working_of_inService hi, hi⟩
  · rintro ⟨howned, hunits⟩ l i
    constructor
    · intro ht
      obtain ⟨c, hc, hw⟩ := target_eq_some_iff.1 ht
      obtain ⟨hline, -, hi⟩ := hunits l c i hc hw
      exact ⟨hline, hi⟩
    · rintro ⟨hline, hi⟩
      obtain ⟨m, c, hc, hw, hm⟩ := (howned i).1 hi
      rw [← hline, hm]
      exact target_eq_some_iff.2 ⟨c, hc, hw⟩

/-- A line whose target and whose stations' marks stand is served as it was. -/
theorem State.LineServed.congr {s t : State} {l : Line} (h : s.LineServed l)
    (htarget : (t.line l).target = (s.line l).target) (hline : ∀ i, (t.entry i).line = (s.entry i).line)
    (hmark : ∀ i, (s.entry i).line = l → (t.entry i).inService = (s.entry i).inService) : t.LineServed l := by
  intro i
  rw [htarget, hline i, h i]
  exact and_congr_right fun hi => by rw [hmark i hi]

/-- Units that start keep each line served (R19, R55). -/
theorem State.Undertakes.lineServed {c : Prop} {s t : State} {m : Line} (h : s.Undertakes c t) (hc : c)
    (hs : s.LineServed m) : t.LineServed m := by
  induction h with
  | same h => exact hs.congr (h.target m) (fun i => by rw [h.entry i]) fun i _ => by rw [h.entry i]
  | @start s t l hfree h =>
    have hline (i : StationIndex) : (t.entry i).line = (s.entry i).line :=
      ((State.Undertakes.start l hfree h).lawful i).line
    by_cases hm : m = l
    · subst hm
      have hno (i : StationIndex) (hi : (s.entry i).line = m) : ¬ (s.entry i).inService = true := fun hmark => by
        have htarget := (hs i).2 ⟨hi, hmark⟩
        rw [hfree hc] at htarget
        cases htarget
      rcases h.own with ⟨htarget, hentry⟩ | ⟨j, hv, htarget, hentry⟩
      · refine hs.congr ?_ hline fun i _ => by rw [hentry i]
        rw [hfree hc, htarget (hfree hc)]
      · intro i
        rw [htarget, hline i, hentry i]
        by_cases hij : i = j
        · subst hij
          simp [(stationValid_iff.1 hv).2]
        · rw [if_neg hij]
          exact ⟨fun hj => absurd (Option.some.inj hj).symm hij, fun ⟨hi, hmark⟩ => absurd hmark (hno i hi)⟩
    · refine hs.congr (h.other m hm) hline fun i hi => ?_
      rcases h.own with ⟨-, hentry⟩ | ⟨j, hv, -, hentry⟩
      · rw [hentry i]
      · have hij : i ≠ j := by
          rintro rfl
          exact hm (hi.symm.trans (stationValid_iff.1 hv).2)
        rw [hentry i, if_neg hij]
  | trans _ _ ih1 ih2 => exact ih2 (ih1 hs)

theorem target_handedOn (s : State) (l : Line) (c : UnitContext) (e : UnitEnd) (m : Line) :
    ((s.handedOn l c e).line m).target = (s.line m).target := by
  by_cases hm : m = l
  · obtain ⟨a, r, ha⟩ := line_handedOn s l c e
    rw [hm, ha]
    rfl
  · obtain ⟨a, ha⟩ := line_handedOn_other s c e hm
    rw [ha]
    rfl

/-- A unit that completes takes the mark off its station and leaves its line without a target; what is served behind it
is the other line (R38, R55). -/
theorem lineServed_completeUnit {s : State} (l : Line) (e : UnitEnd) (hs : s.Coherent) (h : ∀ m, s.LineServed m)
    (m : Line) : (s.completeUnit l e).LineServed m := by
  cases hc : (s.line l).current with
  | none =>
    simp only [State.completeUnit, hc]
    exact h m
  | some c =>
    have hstation {i : StationIndex} (hw : workStation c.work = some i) : (s.entry i).line = l :=
      ((h l i).1 ((LineEngine.target_of_current hc).trans hw)).1
    have hmark := inService_handedOn s l c e
    have hline (i : StationIndex) : ((s.handedOn l c e).entry i).line = (s.entry i).line :=
      (entry_handedOn_lawful s l c e i).line
    by_cases hm : m = l
    · subst hm
      obtain ⟨⟨a, hown⟩, -, -, hentry⟩ := completeUnit_lines e hs hc
      have hidle : ((s.completeUnit m e).line m).target = none := LineEngine.target_of_idle (by rw [hown])
      intro i
      rw [hidle]
      refine ⟨(fun hn => by cases hn), fun ⟨hi, hin⟩ => ?_⟩
      have hi' : (s.entry i).line = m := (entry_completeUnit_lawful s m e i).line.symm.trans hi
      rw [hentry i ((hline i).trans hi'), hmark i] at hin
      split at hin
      · cases hin
      · next hne =>
        exact absurd ((LineEngine.target_of_current hc).symm.trans ((h m i).2 ⟨hi', hin⟩)) hne
    · have hhanded : (s.handedOn l c e).LineServed m := by
        refine (h m).congr (target_handedOn s l c e m) hline fun i hi => ?_
        rw [hmark i, if_neg]
        exact fun hw => hm (hi.symm.trans (hstation hw))
      have hreturn : (s.handedOn l c e).Undertakes True ((s.handedOn l c e).returnReservation l) := by
        refine State.Undertakes.returnReservation l fun _ k hk => ?_
        have hk' : k.line ≠ l := no_entry_handedOn e hs hc k hk
        exact (lineCoherent_handedOn_other c e hk' ((coherent_iff s).1 hs k.line)).other (State.OnlyLine.modLine _ l _) hk'
      rw [completeUnit_eq e hc]
      refine (hreturn.lineServed trivial hhanded).congr ?_ (fun i => by rw [State.entry_modLine])
        fun i _ => by rw [State.entry_modLine]
      rw [State.line_modLine_ne _ _ hm]

/-- Both lines stay served on a course whose states are Coherent where units complete (R55). -/
theorem State.Course.lineServed {c : Prop} {s t : State} (h : s.Course c t) (hc : c) (hs : s.EntriesLegal)
    (hserved : ∀ m, s.LineServed m) : ∀ m, t.LineServed m := by
  induction h with
  | undertakes h => exact fun m => h.lineServed hc (hserved m)
  | steady hentry htarget =>
    exact fun m => (hserved m).congr (htarget m) (fun i => (hentry i).line) fun i _ => (hentry i).inService
  | completes l e hcoherent => exact lineServed_completeUnit l e (hcoherent hc) hserved
  | @configures s i l f hidle _ _ =>
    intro m j
    rw [State.line_modEntry, hserved m j]
    by_cases hj : j = i
    · subst hj
      have hout : (s.entry j).inService = false := ((hs j).idle hidle).2.1
      rw [State.entry_modEntry]
      simp [Entry.configure, hout]
    · rw [State.entry_modEntry_ne _ _ hj]
  | resets hentry htarget =>
    intro m i
    rw [htarget m, hentry i]
    simp [Entry.reset]
  | trans h1 _ ih1 ih2 => exact ih2 (h1.keeps_table hs).1 (ih1 hs hserved)

end Sys2Proof.Machine
end

section
/-! SUPPORT. The STATION commands in READY: one equation for each branch of a decision. -/

namespace Sys2Proof.Machine

/-! ### The decision of a STATION command -/

/-- The part with the code of a command in COMMAND, before its decision (R153). -/
def State.commanded (s : State) (code : Word) : State :=
  { s with window := { s.window with command := code } }

@[simp] theorem State.entry_commanded (s : State) (code : Word) (i : StationIndex) :
    (s.commanded code).entry i = s.entry i := rfl

@[simp] theorem State.reply_commanded (s : State) (code : Word) (r : Result) (n : Nat) :
    (s.commanded code).reply r n = s.decided code r n := rfl

@[simp] theorem State.configureFields_commanded (s : State) (code : Word) :
    (s.commanded code).window.configureFields = s.window.configureFields := rfl

@[simp] theorem State.duplicateOf_commanded (s : State) (code : Word) (i : StationIndex) (l : Line) (a : Nat) :
    (s.commanded code).duplicateOf i l a = s.duplicateOf i l a := rfl

theorem State.refuseState_commanded (s : State) (code : Word) (i : StationIndex) :
    (s.commanded code).refuseState i = s.decided code .state (stationStateCode (s.entry i).state) := rfl

theorem State.reply_modEntry_commanded (s : State) (code : Word) (i : StationIndex) (f : Entry → Entry) (r : Result)
    (n : Nat) : ((s.commanded code).modEntry i f).reply r n = (s.setEntry i (f (s.entry i))).decided code r n := rfl

section
variable {s : State} (hlive : s.live = true)
include hlive

theorem exec_stationConfigure :
    exec .stationConfigure s = .next (s.commanded 0x0010).cmdStationConfigure :=
  congrArg Host.Outcome.next (issue_of_live _ State.cmdStationConfigure hlive)

theorem exec_stationEnable : exec .stationEnable s = .next (s.commanded 0x0011).cmdStationEnable :=
  congrArg Host.Outcome.next (issue_of_live _ State.cmdStationEnable hlive)

theorem exec_stationDisable : exec .stationDisable s = .next (s.commanded 0x0012).cmdStationDisable :=
  congrArg Host.Outcome.next (issue_of_live _ State.cmdStationDisable hlive)

theorem exec_stationClear : exec .stationClear s = .next (s.commanded 0x0013).cmdStationClear :=
  congrArg Host.Outcome.next (issue_of_live _ State.cmdStationClear hlive)

theorem exec_stationZeroCounts : exec .stationZeroCounts s = .next (s.commanded 0x0014).cmdStationZeroCounts :=
  congrArg Host.Outcome.next (issue_of_live _ State.cmdStationZeroCounts hlive)

end

/-- An index above 63 names no entry (R46). -/
theorem State.withStation_commanded_of_high {s : State} (code : Word) (body : StationIndex → State)
    (h : 63 < s.window.param0.toNat) : (s.commanded code).withStation body = s.decided code .range 0 := by
  have hnone : (s.commanded code).window.stationParam = none := dif_neg (Nat.not_lt.mpr h)
  simp only [State.withStation, hnone, State.reply_commanded]

section
variable {s : State} {i : StationIndex} (hi : s.window.param0.toNat = i.val)
include hi

theorem State.withStation_commanded (code : Word) (body : StationIndex → State) :
    (s.commanded code).withStation body = body i := by
  have hsome : (s.commanded code).window.stationParam = some i := by
    have hlt : s.window.param0.toNat < 64 := hi ▸ i.isLt
    have hparam : (s.commanded code).window.stationParam = some ⟨s.window.param0.toNat, hlt⟩ := dif_pos hlt
    rw [hparam]
    exact congrArg some (Fin.ext hi)
  simp only [State.withStation, hsome]

/-! ### STATION CONFIGURE -/

theorem cmdStationConfigure_of_working (hk : isWorking (s.entry i).state = true) :
    (s.commanded 0x0010).cmdStationConfigure =
      s.decided 0x0010 .state (stationStateCode (s.entry i).state) := by
  have hidle : isIdle (s.entry i).state = false := by
    rw [← Bool.not_eq_true, isIdle_iff, hk]
    decide
  rw [State.cmdStationConfigure, State.withStation_commanded hi]
  simp [hidle, State.refuseState_commanded]

section
variable (hk : isWorking (s.entry i).state = false)
include hk

theorem cmdStationConfigure_of_badField {n : Nat} (hf : s.window.configureFields.badField = some n) :
    (s.commanded 0x0010).cmdStationConfigure = s.decided 0x0010 .range n := by
  rw [State.cmdStationConfigure, State.withStation_commanded hi]
  simp [(isIdle_iff _).2 hk, hf]

variable {l : Line} (hl : lineOfCode s.window.configureFields.lineCode = some l)
  (hf : s.window.configureFields.badField = none)
include hl hf

theorem cmdStationConfigure_of_duplicate {j : StationIndex}
    (hj : s.duplicateOf i l s.window.configureFields.address = some j) :
    (s.commanded 0x0010).cmdStationConfigure = s.decided 0x0010 .duplicate j.val := by
  rw [State.cmdStationConfigure, State.withStation_commanded hi]
  simp [(isIdle_iff _).2 hk, hf, hl, hj]

theorem cmdStationConfigure_accepted (hj : s.duplicateOf i l s.window.configureFields.address = none) :
    (s.commanded 0x0010).cmdStationConfigure =
      (s.setEntry i ((s.entry i).configure l s.window.configureFields)).decided 0x0010 .accepted 0 := by
  rw [State.cmdStationConfigure, State.withStation_commanded hi]
  simp [(isIdle_iff _).2 hk, hf, hl, hj, State.reply_modEntry_commanded]

end

/-! ### STATION ENABLE, CLEAR, ZERO COUNTS and DISABLE -/

theorem cmdStationEnable_of_disabled (hk : (s.entry i).state = .disabled) :
    (s.commanded 0x0011).cmdStationEnable =
      (s.setEntry i { s.entry i with state := .unknown, consecutive := 0 }).decided 0x0011 .accepted 0 := by
  rw [State.cmdStationEnable, State.withStation_commanded hi, State.entry_commanded, if_pos hk,
    State.reply_modEntry_commanded]

theorem cmdStationEnable_of_ne (hk : (s.entry i).state ≠ .disabled) : (s.commanded 0x0011).cmdStationEnable =
    s.decided 0x0011 .state (stationStateCode (s.entry i).state) := by
  rw [State.cmdStationEnable, State.withStation_commanded hi, State.entry_commanded, if_neg hk,
    State.refuseState_commanded]

theorem cmdStationClear_of_disabled (hk : (s.entry i).state = .disabled) :
    (s.commanded 0x0013).cmdStationClear =
      (s.setEntry i { s.entry i with state := .unconfigured }).decided 0x0013 .accepted 0 := by
  rw [State.cmdStationClear, State.withStation_commanded hi, State.entry_commanded, if_pos hk,
    State.reply_modEntry_commanded]

theorem cmdStationClear_of_ne (hk : (s.entry i).state ≠ .disabled) : (s.commanded 0x0013).cmdStationClear =
    s.decided 0x0013 .state (stationStateCode (s.entry i).state) := by
  rw [State.cmdStationClear, State.withStation_commanded hi, State.entry_commanded, if_neg hk,
    State.refuseState_commanded]

theorem cmdStationZeroCounts_of_configured (hk : (s.entry i).state ≠ .unconfigured) :
    (s.commanded 0x0014).cmdStationZeroCounts =
      (s.setEntry i { s.entry i with answered := 0, failedAttempts := 0 }).decided 0x0014 .accepted 0 := by
  rw [State.cmdStationZeroCounts, State.withStation_commanded hi, State.entry_commanded, if_neg hk,
    State.reply_modEntry_commanded]

theorem cmdStationZeroCounts_of_unconfigured (hk : (s.entry i).state = .unconfigured) :
    (s.commanded 0x0014).cmdStationZeroCounts =
      s.decided 0x0014 .state (stationStateCode (s.entry i).state) := by
  rw [State.cmdStationZeroCounts, State.withStation_commanded hi, State.entry_commanded, if_pos hk,
    State.refuseState_commanded]

theorem cmdStationDisable_in_service (hk : isWorking (s.entry i).state = true) (hs : (s.entry i).inService = true) :
    (s.commanded 0x0012).cmdStationDisable =
      (s.setEntry i { s.entry i with disablePending := true }).decided 0x0012 .accepted 1 := by
  rw [State.cmdStationDisable, State.withStation_commanded hi]
  simp only [State.entry_commanded, hk, hs, if_true, State.reply_modEntry_commanded]

theorem cmdStationDisable_of_disabled (hk : (s.entry i).state = .disabled) :
    (s.commanded 0x0012).cmdStationDisable = s.decided 0x0012 .accepted 2 := by
  rw [State.cmdStationDisable, State.withStation_commanded hi]
  simp [hk, isWorking]

theorem cmdStationDisable_of_unconfigured (hk : (s.entry i).state = .unconfigured) :
    (s.commanded 0x0012).cmdStationDisable = s.decided 0x0012 .state 0 := by
  rw [State.cmdStationDisable, State.withStation_commanded hi]
  simp [hk, isWorking, State.refuseState_commanded, stationStateCode]

end

/-- A disable that takes effect, block by block (R50, R51). -/
theorem State.disableNow_eq (s : State) (i : StationIndex) : s.disableNow i =
    (s.setEntry i { s.entry i with state := .disabled, consecutive := 0, disablePending := false }).setLine
      (s.entry i).line { s.line (s.entry i).line with
        alertSet := (s.line (s.entry i).line).alertSet.filter (fun j => j ≠ i) } := by
  rw [State.disableNow, State.leaveAlertSet, State.modLine_eq_setLine, State.line_modEntry]
  rfl

theorem cmdStationDisable_out_of_service {s : State} {i : StationIndex} (hi : s.window.param0.toNat = i.val)
    (hk : isWorking (s.entry i).state = true) (hs : (s.entry i).inService = false) :
    (s.commanded 0x0012).cmdStationDisable = (s.disableNow i).decided 0x0012 .accepted 0 := by
  rw [State.cmdStationDisable, State.withStation_commanded hi]
  simp only [State.entry_commanded, hk, hs, if_true, Bool.false_eq_true, if_false]
  rw [State.disableNow_eq, State.disableNow_eq]
  cases hl : (s.entry i).line <;> simp only [State.entry_commanded, hl] <;> rfl

theorem State.deferredDisable_of_live {s : State} (i : StationIndex) (hlive : s.live = true) : s.deferredDisable i =
    if (s.entry i).disablePending = true ∧ (s.entry i).inService = false then s.disableNow i else s := by
  rw [State.deferredDisable, whenLive_of_live _ hlive]
  simp

/-! ### The fields of STATION CONFIGURE -/

/-- The first field out of range, in the order of R47 step 3. -/
theorem ConfigureFields.badField_eq (f : ConfigureFields) : f.badField =
    if 2 ≤ f.lineCode then some 1
    else if f.address < 1 ∨ 62 < f.address then some 2
    else if 7 < f.retryLimit then some 3
    else if f.failThreshold < 1 ∨ 15 < f.failThreshold then some 4
    else none := by
  simp only [ConfigureFields.badField, Option.isNone_iff_eq_none, lineOfCode_none_iff]

theorem lineOfCode_eq_some {n : Nat} {l : Line} (h : n = match l with | .a => 0 | .b => 1) :
    lineOfCode n = some l := by
  subst h
  cases l <;> rfl

/-- The entry STATION CONFIGURE reports as a duplicate stands on the line and address (R47 step 4). -/
theorem duplicateOf_eq_some {s : State} {i j : StationIndex} {l : Line} {a : Nat} (h : s.duplicateOf i l a = some j) :
    j ≠ i ∧ (s.entry j).state ≠ .unconfigured ∧ (s.entry j).line = l ∧ (s.entry j).address = a := by
  have hfound := List.find?_some h
  simpa only [Bool.and_eq_true, decide_eq_true_eq, and_assoc] using hfound

end Sys2Proof.Machine
end

section
/-! SUPPORT. The stores of the part at reset, the words that show an entry in region 0 (Table 11-5), and what a visit
outcome leaves as it stands on the other line. -/

namespace Sys2Proof.Machine

/-! ### The stores at reset -/

theorem State.line_reset (l : Line) : State.reset.line l = LineEngine.reset := by
  cases l <;> rfl

theorem LineEngine.bank_reset (n : BankNumber) : LineEngine.reset.bank n = Bank.reset := by
  cases n <;> rfl

theorem Bank.slots_reset (k : Fin 96) : Bank.reset.slots[k] = Slot.reset :=
  Vector.getElem_replicate k.isLt

theorem LineEngine.submitBuffer_reset (k : Fin 20) : LineEngine.reset.submitBuffer[k] = 0 :=
  Vector.getElem_replicate k.isLt

/-! ### The words of an entry -/

/-- Word j of entry k stands at index 4k + j of region 0 (R45). -/
theorem tableWord_stations (s : State) (k : StationIndex) {j : Nat} (hj : j < 4) :
    s.tableWord 0 (4 * k.val + j) = (s.entry k).word (s.alertPending k) j := by
  have hindex : 4 * k.val + j < stationRegionWords := by
    have hk := k.isLt
    simp only [stationRegionWords]
    omega
  have hregion : s.tableWord 0 (4 * k.val + j) = s.stationWord (4 * k.val + j) := if_pos hindex
  have hdiv : (4 * k.val + j) / 4 = k.val := by omega
  have hmod : (4 * k.val + j) % 4 = j := by omega
  simp only [hregion, State.stationWord, hdiv, hmod, dif_pos k.isLt]

/-- Where the fields of word 0 of an entry stand (Table 11-5). -/
theorem entryWord0_fields (k : BitVec 3) (l f p v d : BitVec 1) (z : BitVec 2) (a : BitVec 6) :
    let w : Word := k ++ l ++ f ++ p ++ v ++ d ++ z ++ a
    w.extractLsb' 13 3 = k ∧ w.getLsbD 12 = l.getLsbD 0 ∧ w.getLsbD 11 = f.getLsbD 0 ∧ w.getLsbD 10 = p.getLsbD 0 ∧
      w.getLsbD 9 = v.getLsbD 0 ∧ w.getLsbD 8 = d.getLsbD 0 ∧ w.extractLsb' 6 2 = z ∧ w.extractLsb' 0 6 = a := by
  intro w
  refine ⟨?_, ?_, ?_, ?_, ?_, ?_, ?_, ?_⟩
  · simp only [w, BitVec.extractLsb'_append_eq_of_le, Nat.reduceLeDiff, Nat.reduceSub, BitVec.extractLsb'_eq_self]
  · simp only [w, BitVec.getLsbD_append]; rfl
  · simp only [w, BitVec.getLsbD_append]; rfl
  · simp only [w, BitVec.getLsbD_append]; rfl
  · simp only [w, BitVec.getLsbD_append]; rfl
  · simp only [w, BitVec.getLsbD_append]; rfl
  · rw [BitVec.extractLsb'_append_eq_of_le (by decide), BitVec.extractLsb'_append_eq_of_add_le (by decide),
      BitVec.extractLsb'_eq_self]
  · rw [BitVec.extractLsb'_append_eq_of_add_le (by decide), BitVec.extractLsb'_eq_self]

/-- Where the fields of word 1 of an entry stand (Table 11-5). -/
theorem entryWord1_fields (t c : BitVec 4) (z : BitVec 5) (r : BitVec 3) :
    let w : Word := t ++ c ++ z ++ r
    w.extractLsb' 12 4 = t ∧ w.extractLsb' 8 4 = c ∧ w.extractLsb' 3 5 = z ∧ w.extractLsb' 0 3 = r := by
  intro w
  refine ⟨?_, ?_, ?_, ?_⟩
  · rw [BitVec.extractLsb'_append_eq_of_le (by decide), BitVec.extractLsb'_append_eq_of_le (by decide),
      BitVec.extractLsb'_append_eq_of_le (by decide), BitVec.extractLsb'_eq_self]
  · rw [BitVec.extractLsb'_append_eq_of_le (by decide), BitVec.extractLsb'_append_eq_of_le (by decide),
      BitVec.extractLsb'_append_eq_of_add_le (by decide), BitVec.extractLsb'_eq_self]
  · rw [BitVec.extractLsb'_append_eq_of_le (by decide), BitVec.extractLsb'_append_eq_of_add_le (by decide),
      BitVec.extractLsb'_eq_self]
  · rw [BitVec.extractLsb'_append_eq_of_add_le (by decide), BitVec.extractLsb'_eq_self]

theorem stationStateCode_lt (k : StationState) : stationStateCode k < 8 := by
  cases k <;> decide

theorem getLsbD_lineBit (l : Line) : (lineBit l).getLsbD 0 = true ↔ l = .b := by
  cases l <;> decide

theorem getLsbD_flagBit (b : Bool) : (flagBit b).getLsbD 0 = b := by
  cases b <;> rfl

/-- A number that fits the width is read back from its bits. -/
theorem toNat_ofNat_of_lt {w n : Nat} (h : n < 2 ^ w) : (BitVec.ofNat w n).toNat = n := by
  rw [BitVec.toNat_ofNat, Nat.mod_eq_of_lt h]

theorem alertPending_iff (s : State) (k : StationIndex) :
    s.alertPending k = true ↔ k ∈ (s.line (s.entry k).line).alertSet := by
  rw [State.alertPending, List.contains_iff_mem]

/-! ### The other line in a visit outcome -/

theorem line_writeRecord?_ne (s : State) {l m : Line} (hm : m ≠ l) (r : Option Record) :
    (s.writeRecord? l r).line m = s.line m := by
  cases r with
  | none => rfl
  | some r => exact (State.OnlyLine.writeRecord s l r).line m hm

theorem line_withOutcome_ne (s : State) {l m : Line} (hm : m ≠ l) (w : Work) (i : StationIndex) (e : UnitEnd) :
    (s.withOutcome l w i e).line m = s.line m := by
  rw [State.withOutcome, State.line_modLine_ne _ _ hm, line_writeRecord?_ne _ hm, State.line_setEntry]

end Sys2Proof.Machine
end

section
/-! PROOFS. The statements about the station table: its invariants, the STATION commands, the words that show an entry,
the visit outcome, and the reset values. -/

namespace Sys2Proof.Machine

/-! ### What every step keeps -/

/-- Settles O55: a step is a course, whose changes of entries are lawful; only an accepted STATION CONFIGURE gives an
entry an address, one that no other entry holds. -/
theorem stationTableKept : Obligations.StationTableKept := by
  intro s t hstep hs
  exact (State.Course.step (c := False) False.elim hstep).keeps_table hs

/-- Settles O58: on a course from a Coherent state each line stays served, which is both properties in one. -/
theorem serviceKept : Obligations.ServiceKept := by
  intro s t hstep hcoherent hs howned hunits
  have hcourse := State.Course.step (c := True) (fun _ => hcoherent) hstep
  have hserved := (lineServed_iff hs).2 ⟨howned, hunits⟩
  exact (lineServed_iff (hcourse.keeps_table hs).1).1 (hcourse.lineServed trivial hs hserved)

/-! ### The words of an entry -/

/-- Settles O10: each word is its fields side by side, and a legal field fits its place, so it is read back as it
stands. -/
theorem stationWordsLayout : Obligations.StationWordsLayout := by
  intro s k hlegal e w0 w1
  obtain ⟨haddress, hretry, hthreshold⟩ := hlegal.stored
  have hw0 : w0 = e.word (s.alertPending k) 0 := tableWord_stations s k (j := 0) (by decide)
  have hw1 : w1 = e.word (s.alertPending k) 1 := tableWord_stations s k (by decide)
  obtain ⟨hstate, hline, hfollow, halert, hservice, hpending, hzero, hlow⟩ :=
    entryWord0_fields (BitVec.ofNat 3 (stationStateCode e.state)) (lineBit e.line) (flagBit e.alertFollowUp)
      (flagBit (s.alertPending k)) (flagBit e.inService) (flagBit e.disablePending) 0 (BitVec.ofNat 6 e.address)
  obtain ⟨hhigh, hcount, hclear, hlimit⟩ :=
    entryWord1_fields (BitVec.ofNat 4 e.failThreshold) (BitVec.ofNat 4 e.consecutive) 0 (BitVec.ofNat 3 e.retryLimit)
  rw [hw0, hw1, tableWord_stations s k (by decide), tableWord_stations s k (by decide)]
  refine ⟨?_, ?_, ?_, ?_, ?_, ?_, hzero, ?_, ?_, ?_, hclear, ?_, ?_, ?_⟩
  · rw [Entry.word, hstate, toNat_ofNat_of_lt (stationStateCode_lt _)]
  · rw [Entry.word, hline, getLsbD_lineBit]
  · rw [Entry.word, hfollow, getLsbD_flagBit]
  · rw [Entry.word, halert, getLsbD_flagBit, alertPending_iff]
  · rw [Entry.word, hservice, getLsbD_flagBit]
  · rw [Entry.word, hpending, getLsbD_flagBit]
  · rw [Entry.word, hlow, toNat_ofNat_of_lt (Nat.lt_succ_of_le (haddress.trans (by decide)))]
  · rw [Entry.word, hhigh, toNat_ofNat_of_lt (Nat.lt_succ_of_le hthreshold)]
  · rw [Entry.word, hcount, toNat_ofNat_of_lt (Nat.lt_succ_of_le (hlegal.failures.trans hthreshold))]
  · rw [Entry.word, hlimit, toNat_ofNat_of_lt (Nat.lt_succ_of_le hretry)]
  · exact toNat_ofNat_of_lt (Nat.lt_succ_of_le hlegal.answered)
  · exact toNat_ofNat_of_lt (Nat.lt_succ_of_le hlegal.failed)

/-! ### The visit outcome -/

/-- Settles O44: the outcome is the update `State.withOutcome`, whose entry, record and alert set are each known. -/
theorem visitOutcomeMovesEntry : Obligations.VisitOutcomeMovesEntry := by
  intro s l w i e _ hk hw t cycle
  have ht : t = s.withOutcome l w i e := applyOutcome_eq e hw hk
  have hwindow : t.window = s.window := (State.Evolves.applyOutcome s l w e).window
  refine ⟨?_, ?_, ?_, fun j => ?_, hwindow, ?_⟩
  all_goals rw [ht]
  · rw [entry_withOutcome, ← (visitOutcome_marks (s.entry i) e).1]
  · exact fun j hj => entry_withOutcome_ne s l w e hj
  · rw [records_withOutcome, changeRecord]
    cases visitOutcome (s.entry i) e with
    | mk f cause => cases cause <;> rfl
  · rw [line_withOutcome]
    cases e with
    | good a => exact mem_alertsAfter_answered
    | deferred a => exact mem_alertsAfter_answered
    | failed o => exact mem_alertsAfter_failed (o := o)
    | settled => exact Iff.rfl
    | aborted => exact Iff.rfl
    | lineFault => exact Iff.rfl
  · exact fun m hm => line_withOutcome_ne s hm w i e

/-! ### The STATION commands -/

/-- Settles O14: an index above 63 names no entry, and each row asks for its entry first. -/
theorem stationIndexChecked : Obligations.StationIndexChecked := by
  intro s hlive h
  simp only [List.forall_mem_cons]
  refine ⟨?_, ?_, ?_, ?_, ?_, fun _ hp => absurd hp List.not_mem_nil⟩
  · rw [exec_stationConfigure hlive, State.cmdStationConfigure, State.withStation_commanded_of_high _ _ h]
  · rw [exec_stationEnable hlive, State.cmdStationEnable, State.withStation_commanded_of_high _ _ h]
  · rw [exec_stationDisable hlive, State.cmdStationDisable, State.withStation_commanded_of_high _ _ h]
  · rw [exec_stationClear hlive, State.cmdStationClear, State.withStation_commanded_of_high _ _ h]
  · rw [exec_stationZeroCounts hlive, State.cmdStationZeroCounts, State.withStation_commanded_of_high _ _ h]

/-- Settles O15: one equation of the decision for each of its branches, taken in the order of R47. -/
theorem configureDecided : Obligations.ConfigureDecided := by
  intro s i hlive hi code address retry threshold refused taken
  have hcode : s.window.configureFields.lineCode = code := loByte_toNat _
  have hretry : s.window.configureFields.retryLimit = retry := loByte_toNat _
  have hthreshold : s.window.configureFields.failThreshold = threshold := hiByte_toNat _
  have haddress : s.window.configureFields.address = address := rfl
  have hbad := s.window.configureFields.badField_eq
  rw [hcode, hretry, hthreshold, haddress] at hbad
  simp only [refused, exec_stationConfigure hlive]
  refine ⟨fun hk => by rw [cmdStationConfigure_of_working hi hk], fun hk => ?_⟩
  have hrange {n : Nat} (hn : s.window.configureFields.badField = some n) :
      (.next (s.commanded 0x0010).cmdStationConfigure : Host.Outcome State Fault Refusal) =
        .next (s.decided 0x0010 .range n) := by
    rw [cmdStationConfigure_of_badField hi hk hn]
  refine ⟨fun h => hrange ?_, fun h1 h => hrange ?_, fun h1 h2 h3 h => hrange ?_, fun h1 h2 h3 h4 h => hrange ?_,
    fun h2 h3 h4 h5 h6 l hl => ?_⟩
  · rw [hbad, if_pos h]
  · rw [hbad, if_neg (by omega), if_pos h]
  · rw [hbad, if_neg (by omega), if_neg (by omega), if_pos h]
  · rw [hbad, if_neg (by omega), if_neg (by omega), if_neg (by omega), if_pos h]
  · have hline : lineOfCode s.window.configureFields.lineCode = some l := lineOfCode_eq_some (hcode.trans hl)
    have hnames : ¬ 2 ≤ code := fun h => by
      rw [(lineOfCode_none_iff _).2 (hcode.symm ▸ h)] at hline
      cases hline
    have hgood : s.window.configureFields.badField = none := by
      rw [hbad, if_neg hnames, if_neg (by omega), if_neg (by omega), if_neg (by omega)]
    refine ⟨fun ⟨j, hj⟩ => ?_, fun hfree => ?_⟩
    · cases hd : s.duplicateOf i l address with
      | none => exact absurd hj (duplicateOf_none_iff.1 hd j)
      | some k =>
        exact ⟨k, duplicateOf_eq_some hd, by rw [cmdStationConfigure_of_duplicate hi hk hline hgood hd]⟩
    · rw [cmdStationConfigure_accepted hi hk hline hgood (duplicateOf_none_iff.2 hfree), Entry.configure, hretry,
        hthreshold]
      rfl

/-- Settles O16: one equation for each command and each state of the entry that decides it. -/
theorem enableClearZeroDecided : Obligations.EnableClearZeroDecided := by
  intro s i hlive hi code
  rw [exec_stationEnable hlive, exec_stationClear hlive, exec_stationZeroCounts hlive]
  refine ⟨fun hk => ⟨?_, ?_⟩, fun hk => ⟨?_, ?_⟩, fun hk => ?_, fun hk => ?_⟩
  · rw [cmdStationEnable_of_disabled hi hk]
  · rw [cmdStationClear_of_disabled hi hk]
  · rw [cmdStationEnable_of_ne hi hk]
  · rw [cmdStationClear_of_ne hi hk]
  · rw [cmdStationZeroCounts_of_configured hi hk]
  · rw [cmdStationZeroCounts_of_unconfigured hi hk]

/-- Settles O17: one equation for each of the four answers; a disable at once is `State.disableNow`. -/
theorem disableDecided : Obligations.DisableDecided := by
  intro s i hlive hi
  rw [exec_stationDisable hlive]
  refine ⟨fun hk hs => ?_, fun hk hs => ?_, fun hk => ?_, fun hk => ?_⟩
  · rw [cmdStationDisable_out_of_service hi hk hs, State.disableNow_eq]
  · rw [cmdStationDisable_in_service hi hk hs]
  · rw [cmdStationDisable_of_disabled hi hk]
  · rw [cmdStationDisable_of_unconfigured hi hk]

/-- Settles O18: in READY the row disables now under its condition, and does nothing otherwise. -/
theorem deferredDisableTakesEffect : Obligations.DeferredDisableTakesEffect := by
  intro s i hlive
  have hexec : exec (.deferredDisable i) s = .next (s.deferredDisable i) := rfl
  rw [hexec, State.deferredDisable_of_live i hlive]
  refine ⟨fun hp hs => ?_, fun h => ?_⟩
  · rw [if_pos ⟨hp, hs⟩, State.disableNow_eq]
  · rw [if_neg]
    rintro ⟨hp, hs⟩
    simp [hp, hs] at h

/-! ### The reset values -/

/-- Settles O5: each value is read off `State.reset`, the tables slot by slot. -/
theorem resetValues : Obligations.ResetValues := by
  refine ⟨State.entry_reset, fun l => ?_, rfl, rfl, by decide, by decide, rfl, rfl, rfl, rfl, rfl, rfl, rfl, rfl, rfl,
    rfl, rfl, rfl⟩
  intro x
  have hx : x = LineEngine.reset := State.line_reset l
  rw [hx, State.txd, State.de, State.line_reset]
  refine ⟨rfl, rfl, rfl, rfl, rfl, rfl, rfl, rfl, rfl, rfl, rfl, rfl, rfl, rfl, rfl, rfl, rfl, rfl, rfl,
    LineEngine.submitBuffer_reset, rfl, rfl, fun n => ?_⟩
  rw [LineEngine.bank_reset]
  exact ⟨rfl, Bank.slots_reset⟩

end Sys2Proof.Machine
end

section
/-! SUPPORT. That every row of the opcode table, and so every step, keeps `State.Coherent`. -/

namespace Sys2Proof.Machine

theorem coherent_withPending {s : State} (cs : List Instr) (hs : s.Coherent) :
    ({ s with pending := cs } : State).Coherent :=
  coherent_of_same hs (fun m => by cases m <;> rfl) rfl

/-- A command row is the write of its code, whose decision keeps coherence (R153). -/
theorem coherent_command {s : State} (c : Command) (hs : s.Coherent) :
    (s.issue (commandCode c) (fun t => t.decideCommand c)).Coherent :=
  coherent_issue _ hs fun _ ht => coherent_decideCommand c ht

theorem coherent_releaseReset {s : State} (hs : s.Coherent) : s.releaseReset.Coherent := by
  unfold State.releaseReset
  split
  · exact coherent_modWindow _ hs
  · exact hs

theorem coherent_endInit {s : State} (hs : s.Coherent) : s.endInit.Coherent := by
  unfold State.endInit
  split
  · exact hs
  · exact coherent_modWindow _ hs

theorem coherent_exec {s : State} (i : Instr) (hs : s.Coherent) : ∃ t, exec i s = .next t ∧ t.Coherent := by
  cases i with
  | hardwareResetAssert => exact ⟨_, rfl, coherent_modWindow _ (coherent_resetEffects s)⟩
  | hardwareResetRelease => exact ⟨_, rfl, coherent_releaseReset hs⟩
  | initEnd => exact ⟨_, rfl, coherent_endInit hs⟩
  | stationConfigure => exact ⟨_, rfl, coherent_command .stationConfigure hs⟩
  | stationEnable => exact ⟨_, rfl, coherent_command .stationEnable hs⟩
  | stationDisable => exact ⟨_, rfl, coherent_command .stationDisable hs⟩
  | stationClear => exact ⟨_, rfl, coherent_command .stationClear hs⟩
  | stationZeroCounts => exact ⟨_, rfl, coherent_command .stationZeroCounts hs⟩
  | listSwap => exact ⟨_, rfl, coherent_command .listSwap hs⟩
  | submit => exact ⟨_, rfl, coherent_command .submit hs⟩
  | queueRelease => exact ⟨_, rfl, coherent_command .queueRelease hs⟩
  | queueFlush => exact ⟨_, rfl, coherent_command .queueFlush hs⟩
  | queueSetThreshold => exact ⟨_, rfl, coherent_command .queueSetThreshold hs⟩
  | drainMode => exact ⟨_, rfl, coherent_command .drainMode hs⟩
  | lineSet => exact ⟨_, rfl, coherent_command .lineSet hs⟩
  | lineStart => exact ⟨_, rfl, coherent_command .lineStart hs⟩
  | lineStop => exact ⟨_, rfl, coherent_command .lineStop hs⟩
  | lineHalt => exact ⟨_, rfl, coherent_command .lineHalt hs⟩
  | lineReset => exact ⟨_, rfl, coherent_command .lineReset hs⟩
  | partReset => exact ⟨_, rfl, coherent_command .partReset hs⟩
  | unknownCommand code => exact ⟨_, rfl, coherent_writeCommand code hs⟩
  | queueDataRead => exact ⟨_, rfl, coherent_queueDataRead hs⟩
  | tableDataRead => exact ⟨_, rfl, coherent_tableDataRead hs⟩
  | tableDataWrite w => exact ⟨_, rfl, coherent_tableDataWrite w hs⟩
  | partStatusRead => exact ⟨_, rfl, coherent_partStatusRead hs⟩
  | intEnableWrite w => exact ⟨_, rfl, coherent_intEnableWrite w hs⟩
  | intAckWrite w => exact ⟨_, rfl, coherent_intAckWrite w hs⟩
  | registerWrite a w => exact ⟨_, rfl, coherent_registerWrite a w hs⟩
  | dackStrobe overlap => cases overlap <;> exact ⟨_, rfl, coherent_dackStrobe hs⟩
  | startDetected l => exact ⟨_, rfl, coherent_startDetected l hs⟩
  | character l v f => exact ⟨_, rfl, coherent_character l v f hs⟩
  | waitMarkEnd l => exact ⟨_, rfl, coherent_waitMarkEnd l hs⟩
  | quietReached l => exact ⟨_, rfl, coherent_quietReached l hs⟩
  | noiseLimitExpiry l => exact ⟨_, rfl, coherent_noiseLimitExpiry l hs⟩
  | transmitCharacterEnd l => exact ⟨_, rfl, coherent_transmitCharacterEnd l hs⟩
  | responseTimeout l => exact ⟨_, rfl, coherent_responseTimeout l hs⟩
  | gapLimitExpiry l => exact ⟨_, rfl, coherent_gapLimitExpiry l hs⟩
  | backoffEnd l => exact ⟨_, rfl, coherent_backoffEnd l hs⟩
  | settleEnd l => exact ⟨_, rfl, coherent_settleEnd l hs⟩
  | intervalElapsed l => exact ⟨_, rfl, coherent_intervalElapsed l hs⟩
  | unitStart l => exact ⟨_, rfl, coherent_unitStart l hs⟩
  | deferredDisable i => exact ⟨_, rfl, coherent_deferredDisable i hs⟩
  | stoppingLineStopped l => exact ⟨_, rfl, coherent_stoppingLineStopped l hs⟩
  | holdListGrant => exact ⟨_, rfl, coherent_holdListGrant hs⟩
  | workSelection l => exact ⟨_, rfl, coherent_workSelection l hs⟩
  | pendingSwapTakesEffect l => exact ⟨_, rfl, coherent_pendingSwapTakesEffect l hs⟩
  | cycleStart l => exact ⟨_, rfl, coherent_cycleStart l hs⟩

/-- One period with no command waiting, otherwise the row at the front of the queue. -/
theorem coherent_step {s t : State} (h : step s = .next t) (hs : s.Coherent) : t.Coherent := by
  unfold step at h
  split at h
  · obtain rfl := Host.Outcome.next.inj h
    exact coherent_passTime hs
  · next i rest _ =>
    obtain ⟨u, hu, hcoherent⟩ := coherent_exec i (coherent_withPending rest hs)
    rw [hu] at h
    obtain rfl := Host.Outcome.next.inj h
    exact hcoherent

end Sys2Proof.Machine
end

section
/-! SUPPORT. The words of a bank and of a submit buffer as the table port shows and stores them (Table 11-6). -/

namespace Sys2Proof.Machine

/-! ### Words of two fields -/

theorem toNat_append_eq {m n : Nat} (x : BitVec m) (y : BitVec n) :
    (x ++ y).toNat = 2 ^ n * x.toNat + y.toNat := by
  rw [BitVec.toNat_append, ← Nat.shiftLeft_add_eq_or_of_lt y.isLt, Nat.shiftLeft_eq, Nat.mul_comm]

section
variable {a b c d : Nat}

/-- The value of two fields, each with a gap of zeros above it. -/
theorem toNat_two_fields (x : BitVec b) (y : BitVec d) :
    ((0 : BitVec a) ++ x ++ (0 : BitVec c) ++ y).toNat = 2 ^ (c + d) * x.toNat + y.toNat := by
  simp only [toNat_append_eq, BitVec.ofNat_eq_ofNat, BitVec.toNat_ofNat, Nat.zero_mod]
  ring

/-- A word is its four parts side by side. -/
theorem four_parts (w : BitVec (a + b + c + d)) :
    w.extractLsb' (b + (c + d)) a ++ w.extractLsb' (c + d) b ++ w.extractLsb' d c ++ w.extractLsb' 0 d = w := by
  rw [BitVec.extractLsb'_append_extractLsb'_eq_extractLsb' (Nat.add_comm _ _),
    BitVec.extractLsb'_append_extractLsb'_eq_extractLsb' (Nat.add_comm _ _),
    BitVec.extractLsb'_append_extractLsb'_eq_extractLsb' (Nat.zero_add _).symm, BitVec.extractLsb'_eq_self]

/-- A word of which two fields are stored reads back masked by the places of the fields. -/
theorem two_fields_eq_mask (w : BitVec (a + b + c + d)) :
    (0 : BitVec a) ++ w.extractLsb' (c + d) b ++ (0 : BitVec c) ++ w.extractLsb' 0 d =
      w &&& ((0 : BitVec a) ++ BitVec.allOnes b ++ (0 : BitVec c) ++ BitVec.allOnes d) := by
  conv_rhs => rw [← four_parts w]
  simp only [BitVec.and_append, BitVec.ofNat_eq_ofNat, BitVec.and_zero, BitVec.and_allOnes]

end

/-! ### Slots -/

/-- The stored bits of a slot's words (R64, R169): 1F3FH in the second, 3F0FH in the first. -/
theorem Slot.word_write (t : Slot) (second : Bool) (w : Word) :
    (t.write second w).word second = w &&& (if second then 0x1F3F else 0x3F0F) := by
  cases second with
  | true => exact two_fields_eq_mask (a := 3) (b := 5) (c := 2) (d := 6) w
  | false => exact two_fields_eq_mask (a := 2) (b := 6) (c := 4) (d := 4) w

theorem Slot.word_write_ne (t : Slot) {first second : Bool} (h : first ≠ second) (w : Word) :
    (t.write second w).word first = t.word first := by
  obtain rfl : first = !second := Bool.eq_not.mpr h
  cases second <;> rfl

theorem Slot.toNat_word_first (t : Slot) : (t.word false).toNat = 256 * t.station.val + t.group.toNat :=
  toNat_two_fields (a := 2) (b := 6) (c := 4) (d := 4) (BitVec.ofFin t.station) t.group

theorem Slot.toNat_word_second (t : Slot) : (t.word true).toNat = 256 * t.divisor.toNat + t.limit.toNat :=
  toNat_two_fields (a := 3) (b := 5) (c := 2) (d := 6) t.divisor t.limit

/-! ### Banks -/

theorem Bank.slot_eq_getElem (b : Bank) (k : Fin 96) : b.slot k.val = b.slots[k] := by
  simp [Bank.slot]

theorem Bank.word_of_pos (b : Bank) {k : Nat} (h : k ≠ 0) :
    b.word k = (b.slot ((k - 1) / 2)).word (k % 2 == 0) := if_neg h

theorem Bank.word_odd (b : Bank) (k : Nat) : b.word (1 + 2 * k) = (b.slot k).word false := by
  have hslot : (1 + 2 * k - 1) / 2 = k := by omega
  rw [Bank.word_of_pos b (by omega), hslot, Nat.add_mul_mod_self_left]
  rfl

theorem Bank.word_even (b : Bank) (k : Nat) : b.word (2 + 2 * k) = (b.slot k).word true := by
  have hslot : (2 + 2 * k - 1) / 2 = k := by omega
  rw [Bank.word_of_pos b (by omega), hslot, Nat.add_mul_mod_self_left]
  rfl

theorem Bank.length_write_of_pos (b : Bank) {k : Nat} (h : k ≠ 0) (w : Word) : (b.write k w).length = b.length := by
  rw [Bank.write, if_neg h]

theorem Bank.slot_write_zero (b : Bank) (w : Word) (j : Nat) : (b.write 0 w).slot j = b.slot j := rfl

theorem Bank.slot_write_same (b : Bank) {k : Nat} (h : k ≠ 0) (hk : k < 193) (w : Word) :
    (b.write k w).slot ((k - 1) / 2) = (b.slot ((k - 1) / 2)).write (k % 2 == 0) w := by
  have hslot : (k - 1) / 2 < 96 := by omega
  simp [Bank.write, h, Bank.slot, hslot]

theorem Bank.slot_write_ne (b : Bank) {k : Nat} (h : k ≠ 0) (w : Word) {j : Nat} (hj : (k - 1) / 2 ≠ j) :
    (b.write k w).slot j = b.slot j := by
  simp [Bank.write, h, Bank.slot, hj]

/-- The word written reads back in its stored fields (R64, R169). -/
theorem Bank.word_write_same (b : Bank) {k : Nat} (hk : k < 193) (w : Word) :
    (b.write k w).word k = w &&& (if k = 0 then 0xFFFF else if k % 2 = 1 then 0x3F0F else 0x1F3F) := by
  by_cases h : k = 0
  · subst h
    exact BitVec.and_allOnes.symm
  · rw [Bank.word_of_pos _ h, Bank.slot_write_same b h hk, Slot.word_write, if_neg h]
    rcases Nat.mod_two_eq_zero_or_one k with hm | hm <;> simp [hm]

/-- Every other word of the bank stands: that of the length, of another slot, or the other word of the same slot. -/
theorem Bank.word_write_ne (b : Bank) {j k : Nat} (hk : k < 193) (hj : j ≠ k) (w : Word) :
    (b.write k w).word j = b.word j := by
  by_cases hk0 : k = 0
  · subst hk0
    rw [Bank.word_of_pos _ hj, Bank.word_of_pos _ hj, Bank.slot_write_zero]
  · by_cases hj0 : j = 0
    · subst hj0
      exact Bank.length_write_of_pos b hk0 w
    · rw [Bank.word_of_pos _ hj0, Bank.word_of_pos _ hj0]
      by_cases hs : (k - 1) / 2 = (j - 1) / 2
      · have hplace : (j % 2 == 0) ≠ (k % 2 == 0) := by
          simp only [ne_eq, Bool.beq_eq_decide_eq, decide_eq_decide]
          omega
        rw [← hs, Bank.slot_write_same b hk0 hk, Slot.word_write_ne _ hplace]
      · rw [Bank.slot_write_ne b hk0 w hs]

/-! ### The regions of the table port -/

section
variable {s : State} {r : BitVec 4} {l : Line}

theorem tableWord_bank {n : BankNumber} (hr : regionOfNumber r = some (.bank l n)) {k : Nat} (hk : k < 193) :
    s.tableWord r k = ((s.line l).bank n).word k := by
  have hsize : k < bankRegionWords := hk
  simp only [State.tableWord, hr, if_pos hsize]

theorem tableWord_buffer (hr : regionOfNumber r = some (.buffer l)) (k : Fin 20) :
    s.tableWord r k.val = (s.line l).submitBuffer[k] := by
  simp [State.tableWord, hr]

/-- In READY a write of TABLE DATA acts at the table address, and the index advances (R150). -/
theorem exec_tableDataWrite (hlive : s.live = true) (w : Word) :
    exec (.tableDataWrite w) s =
      .next (s.tableStore s.window.tableRegion s.window.tableIndex.toNat w).advanceTable := by
  have hexec : exec (.tableDataWrite w) s = .next (s.tableDataWrite w) := rfl
  rw [hexec, State.tableDataWrite, ((live_iff s).1 hlive).1, hlive]
  rfl

theorem advanceTable_setLine (x : LineEngine) : (s.setLine l x).advanceTable =
    { s.setLine l x with window := { s.window with tableIndex := s.window.tableIndex + 1 } } := by
  cases l <;> rfl

/-- A write of the shadow bank is stored while no swap is pending (R65). -/
theorem tableStore_bank {n : BankNumber} (hr : regionOfNumber r = some (.bank l n)) {k : Nat} (hk : k < 193)
    (hn : n ≠ (s.line l).active) (hp : (s.line l).swapPending = false) (w : Word) :
    s.tableStore r k w = s.setLine l ((s.line l).setBank n (((s.line l).bank n).write k w)) := by
  have hsize : k < bankRegionWords := hk
  have hwritable : (s.line l).bankWritable n = true := by simp [LineEngine.bankWritable, hn, hp]
  simp only [State.tableStore, hr, if_pos hsize, if_pos hwritable, State.modLine_eq_setLine]

/-- A write of the submit buffer is stored whole (R84). -/
theorem tableStore_buffer (hr : regionOfNumber r = some (.buffer l)) (k : Fin 20) (w : Word) :
    s.tableStore r k.val w = s.setLine l { s.line l with submitBuffer := (s.line l).submitBuffer.set k w } := by
  have hset : (s.line l).submitBuffer.setIfInBounds k.val w = (s.line l).submitBuffer.set k w :=
    Vector.ext fun i hi => by rw [Vector.getElem_setIfInBounds, Vector.getElem_set]
  simp only [State.tableStore, hr, State.modLine_eq_setLine, hset]

end

end Sys2Proof.Machine
end

section
/-! SUPPORT. The swap of the banks, LIST SWAP branch by branch, the stop of a line, the cycle boundary and the cycle
start. -/

namespace Sys2Proof.Machine

/-! ### The swap of the banks -/

theorem otherBank_eq (n : BankNumber) : otherBank n = if n = .zero then .one else .zero := by
  cases n <;> rfl

/-- A pending swap taken, if there is one, in one update. -/
theorem LineEngine.takeSwap_eq (x : LineEngine) : (if x.swapPending then x.swapBanks else x) =
    { x with active := if x.swapPending = true then otherBank x.active else x.active, swapPending := false } := by
  split
  · rfl
  · next h => rw [← Bool.eq_false_iff.mpr h]

theorem LineEngine.swapBanks_of_not_pending {x : LineEngine} (h : x.swapPending = false) :
    x.swapBanks = { x with active := otherBank x.active } := by
  simp [LineEngine.swapBanks, ← h]

theorem LineEngine.swapDue_iff (x : LineEngine) :
    x.swapDue = true ↔ x.swapPending = true ∧ (x.runState = .stopped ∨ x.runState = .faulted) := by
  cases h : x.runState <;> simp [LineEngine.swapDue, h]

theorem LineEngine.listLength_eq_zero_iff (x : LineEngine) : x.listLength = 0 ↔ x.activeBank.length = 0 :=
  (BitVec.toNat_eq (y := 0)).symm

theorem exec_pendingSwapTakesEffect {s : State} (hlive : s.live = true) (l : Line) :
    exec (.pendingSwapTakesEffect l) s =
      .next (if (s.line l).swapDue then s.setLine l (s.line l).swapBanks else s) :=
  congrArg Host.Outcome.next (whenLive_of_live _ hlive)

/-! ### The stop of a line -/

/-- The entry into STOPPED in one update (R136). -/
theorem enterStopped_eq (s : State) (l : Line) :
    let active := if (s.line l).swapPending = true then otherBank (s.line l).active else (s.line l).active
    s.enterStopped l = { s with interrupts := { s.interrupts with
        latched := s.interrupts.latched ||| causeBit (.lineStopped l) } }.setLine l
      { s.line l with runState := .stopped, condition := .none, active := active, swapPending := false } := by
  intro active
  simp only [State.enterStopped, State.applyPendingSwap, State.modLine_eq_setLine, State.line_setLine,
    State.setLine_setLine, LineEngine.takeSwap_eq]
  cases l <;> rfl

theorem exec_stoppingLineStopped {s : State} (hlive : s.live = true) (l : Line) :
    exec (.stoppingLineStopped l) s = .next
      (if (s.line l).runState = .stopping ∧ (s.line l).current.isNone = true then s.enterStopped l else s) :=
  congrArg Host.Outcome.next (whenLive_of_live _ hlive)

/-! ### LIST SWAP -/

theorem exec_listSwap {s : State} (hlive : s.live = true) :
    exec .listSwap s = .next (s.commanded 0x0020).cmdListSwap :=
  congrArg Host.Outcome.next (issue_of_live _ State.cmdListSwap hlive)

/-- A slot that LIST SWAP refuses (R67 step 2). -/
theorem Slot.not_acceptable_iff (t : Slot) :
    (!t.acceptable) = true ↔ 40 < t.limit.toNat ∨ t.divisor = 0 ∨ 16 < t.divisor.toNat := by
  have hzero : t.divisor = 0 ↔ t.divisor.toNat = 0 := BitVec.toNat_eq (y := 0)
  rw [hzero, Slot.acceptable, Config.maxPayload, Bool.not_eq_true', Bool.and_eq_false_iff, decide_eq_false_iff_not,
    decide_eq_false_iff_not]
  omega

theorem Bank.swapRefusal_of_long {b : Bank} (h : 96 < b.length.toNat) : b.swapRefusal = some 0xFF :=
  if_pos h

theorem Bank.swapRefusal_of_fits {b : Bank} (h : b.length.toNat ≤ 96) : b.swapRefusal = b.firstBadSlot :=
  if_neg (Nat.not_lt.mpr h)

theorem Bank.firstBadSlot_eq_some {b : Bank} {k : Nat} (hk : k < b.length.toNat)
    (hbad : (!(b.slot k).acceptable) = true) (hgood : ∀ j < k, ¬ (!(b.slot j).acceptable) = true) :
    b.firstBadSlot = some k := by
  rw [Bank.firstBadSlot, List.find?_range_eq_some]
  exact ⟨hbad, List.mem_range.mpr hk, fun j hj => by simpa using hgood j hj⟩

theorem Bank.firstBadSlot_eq_none {b : Bank} (hgood : ∀ k < b.length.toNat, ¬ (!(b.slot k).acceptable) = true) :
    b.firstBadSlot = none :=
  List.find?_range_eq_none.mpr fun k hk => by simpa using hgood k hk

/-- LIST SWAP takes effect at once where no unit of an older list is to be finished (Table 4-2). -/
theorem LineEngine.swapsAtOnce_iff (x : LineEngine) : x.swapsAtOnce = true ↔
    x.runState = .stopped ∨ x.runState = .faulted ∨ x.runState = .running ∧ x.activeBank.length = 0 := by
  cases h : x.runState <;> simp [LineEngine.swapsAtOnce, h, LineEngine.listLength_eq_zero_iff]

theorem cmdListSwap_of_no_line {s : State} (code : Word) (h : 1 < s.window.param0.toNat) :
    (s.commanded code).cmdListSwap = s.decided code .range 0xFE := by
  have hnone : (s.commanded code).window.lineParam = none := (lineOfCode_none_iff _).2 h
  simp only [State.cmdListSwap, hnone, State.reply_commanded]

section
variable {s : State} {l : Line} (code : Word) (hl : s.window.lineParam = some l)
include hl

theorem cmdListSwap_refused {n : Nat} (hn : (s.line l).shadowBank.swapRefusal = some n) :
    (s.commanded code).cmdListSwap = s.decided code .range n := by
  have hline : (s.commanded code).window.lineParam = some l := hl
  have hrefusal : ((s.commanded code).line l).shadowBank.swapRefusal = some n := by
    cases l <;> exact hn
  simp only [State.cmdListSwap, hline, hrefusal, State.reply_commanded]

variable (hvalid : (s.line l).shadowBank.swapRefusal = none)
include hvalid

/-- LIST SWAP of a valid shadow (R67, R68). -/
theorem cmdListSwap_of_valid : (s.commanded code).cmdListSwap =
    if (s.line l).swapPending then s.decided code .pending 0
    else if (s.line l).swapsAtOnce then
      (((s.commanded code).setLine l (s.line l).swapBanks).finish).reply .accepted 0
    else (s.setLine l { s.line l with swapPending := true }).decided code .accepted 1 := by
  have hline : (s.commanded code).window.lineParam = some l := hl
  have hx : (s.commanded code).line l = s.line l := by cases l <;> rfl
  simp only [State.cmdListSwap, hline, hx, hvalid, State.modLine_eq_setLine, State.reply_commanded]
  cases l <;> rfl

end

/-- The arbiters leave the command slot alone, so the reply after their turn is the decision. -/
theorem reply_finish_eq_decided {v : State} {code : Word} (h : v.window.command = code) (r : Result) (n : Nat) :
    v.finish.reply r n = v.finish.decided code r n :=
  reply_eq_decided r n (by rw [(State.Selected.finish v).window, h])

/-! ### The cycle -/

theorem LineEngine.intervalReached_iff (x : LineEngine) :
    x.intervalReached = true ↔ max x.params.interval 1 * (160 * (x.params.rate + 1)) ≤ x.interval :=
  decide_eq_true_iff

/-- When a cycle is due (R70, R81). -/
theorem LineEngine.cycleDue_iff (x : LineEngine) : x.cycleDue = true ↔
    x.condition = .waiting ∧ max x.params.interval 1 * (160 * (x.params.rate + 1)) ≤ x.interval ∨
      x.condition = .idleEmpty ∧ x.activeBank.length ≠ 0 := by
  cases h : x.condition <;>
    simp [LineEngine.cycleDue, h, LineEngine.intervalReached_iff, LineEngine.listLength_eq_zero_iff]

theorem LineEngine.intervalRunning_iff (x : LineEngine) : x.intervalRunning = true ↔
    x.runState = .running ∧ (x.condition = .inCycle ∨ x.condition = .waiting) := by
  cases h : x.condition <;> simp [LineEngine.intervalRunning, h]

theorem exec_cycleStart {s : State} (hlive : s.live = true) (l : Line) : exec (.cycleStart l) s = .next
    (if (s.line l).free && (s.line l).cycleDue then (s.setLine l (s.line l).startCycle).finish else s) :=
  congrArg Host.Outcome.next (whenLive_of_live _ hlive)

theorem exec_intervalElapsed {s : State} (hlive : s.live = true) (l : Line) : exec (.intervalElapsed l) s = .next
    (if (s.line l).intervalRunning then (s.setLine l { s.line l with
      interval := max (s.line l).interval (max (s.line l).params.interval 1 * (s.line l).params.ct) }).finish else s) :=
  congrArg Host.Outcome.next (whenLive_of_live _ hlive)

/-- The cycle boundary in one update (R79). -/
theorem finishBoundary_eq (s : State) (l : Line) :
    let active := if (s.line l).swapPending = true then otherBank (s.line l).active else (s.line l).active
    s.finishBoundary l =
      { s.setLine l { s.line l with
          active := active, swapPending := false,
          condition := if ((s.line l).bank active).length = 0 then .idleEmpty else .waiting } with
        interrupts := { s.interrupts with latched := s.interrupts.latched ||| causeBit (.cycleEnd l) } } := by
  intro active
  simp only [State.finishBoundary, State.applyPendingSwap, State.modLine_eq_setLine, State.line_raise,
    State.line_setLine, State.setLine_setLine, LineEngine.takeSwap_eq, LineEngine.listLength_eq_zero_iff]
  cases l <;> rfl

end Sys2Proof.Machine
end

section
/-! SUPPORT. Where the walk of the cursor stops, which priority work comes next, and what one invocation of the arbiter
does in each cycle condition. -/

namespace Sys2Proof.Machine

/-! ### The walk -/

/-- The three tests of a slot (R74). -/
theorem slotDue_iff (s : State) (l : Line) (k : Nat) :
    let t := (s.line l).activeBank.slot k
    let cycle := (s.line l).cycleNumber.toNat
    s.slotDue l k = true ↔ cycle % t.divisor.toNat = 0 ∧ isWorking (s.entry t.station).state = true ∧
      (s.entry t.station).line = l ∧ ((s.entry t.station).state = .offline →
        (cycle + t.station.val) % (s.line l).params.probe = 0) := by
  intro t cycle
  simp only [State.slotDue, stationValid_iff, Bool.and_eq_true, Bool.or_eq_true, decide_eq_true_eq, and_assoc,
    ne_eq, imp_iff_not_or]
  rfl

/-- The walk over `n` slots from `c` stops at a slot that is due, or behind them, when none before it is. -/
theorem walkFrom_eq {s : State} {l : Line} {k : Nat} (n c : Nat) (hc : c ≤ k) (hk : k ≤ c + n)
    (hstop : k < c + n → s.slotDue l k = true) (hfirst : ∀ j, c ≤ j → j < k → ¬ s.slotDue l j = true) :
    s.walkFrom l n c = k := by
  induction n generalizing c with
  | zero => exact Nat.le_antisymm hc hk
  | succ n ih =>
    rw [State.walkFrom]
    rcases Nat.eq_or_lt_of_le hc with rfl | hlt
    · rw [if_pos (hstop (by omega))]
    · rw [if_neg (hfirst c le_rfl hlt)]
      exact ih (c + 1) hlt (by omega) (fun h => hstop (by omega)) fun j hj => hfirst j (by omega)

section
variable {s : State} {l : Line}

theorem walk_of_due {k : Nat} (hc : (s.line l).cursor ≤ k) (hk : k < (s.line l).listLength)
    (hdue : s.slotDue l k = true) (hfirst : ∀ j, (s.line l).cursor ≤ j → j < k → ¬ s.slotDue l j = true) :
    s.walk l = k :=
  walkFrom_eq _ _ hc (by omega) (fun _ => hdue) hfirst

theorem walk_of_none_due (hc : (s.line l).cursor ≤ (s.line l).listLength)
    (hnone : ∀ k, (s.line l).cursor ≤ k → k < (s.line l).listLength → ¬ s.slotDue l k = true) :
    s.walk l = (s.line l).listLength :=
  walkFrom_eq _ _ hc (by omega) (by omega) hnone

end

/-! ### Priority work -/

/-- The next alert member: the first after the cursor, or the first of all when none is after it (R95). -/
theorem alertNext_eq_some_iff {c i : StationIndex} {xs : List StationIndex} : alertNext c xs = some i ↔ i ∈ xs ∧
    ((c < i ∧ xs.find? (fun j => c < j) = some i) ∨ (∀ j ∈ xs, j ≤ c) ∧ xs.head? = some i) := by
  cases hfind : xs.find? (fun j => c < j) with
  | some k =>
    have hk : c < k := by simpa using List.find?_some hfind
    have hmem : k ∈ xs := List.mem_of_find?_eq_some hfind
    simp only [alertNext, hfind, Option.some.injEq]
    constructor
    · rintro rfl
      exact ⟨hmem, Or.inl ⟨hk, rfl⟩⟩
    · rintro ⟨-, ⟨-, h⟩ | ⟨hle, -⟩⟩
      · exact h
      · exact absurd hk (not_lt.2 (hle k hmem))
  | none =>
    have hle : ∀ j ∈ xs, j ≤ c := by simpa using List.find?_eq_none.1 hfind
    simp only [alertNext, hfind, reduceCtorEq, and_false, false_or]
    exact ⟨fun h => ⟨List.mem_of_mem_head? h, hle, h⟩, fun h => h.2.2⟩

/-- Priority work is the head of the directed queue, else a follow-up of the next alert member (R97). -/
theorem LineEngine.priorityWork_eq_some_iff {x : LineEngine} {w : Work} : x.priorityWork = some w ↔
    (∃ e, x.directed.head? = some e ∧ w = .directed e) ∨
      x.directed = [] ∧ ∃ i, w = .alert i ∧ i ∈ x.alertSet ∧
        ((x.alertCursor < i ∧ x.alertSet.find? (fun j => x.alertCursor < j) = some i) ∨
          (∀ j ∈ x.alertSet, j ≤ x.alertCursor) ∧ x.alertSet.head? = some i) := by
  cases hd : x.directed with
  | cons e rest => simp [LineEngine.priorityWork, hd, eq_comm]
  | nil =>
    simp only [LineEngine.priorityWork, hd, Option.map_eq_some_iff, alertNext_eq_some_iff]
    simp only [List.head?_nil, reduceCtorEq, false_and, exists_false, false_or, true_and, eq_comm (a := w), and_comm]

/-! ### One invocation of the arbiter -/

theorem exec_workSelection {s : State} (hlive : s.live = true) (l : Line) : exec (.workSelection l) s = .next
    (if (s.line l).free then (s.invokeArbiter l).finish else s) :=
  congrArg Host.Outcome.next (whenLive_of_live _ hlive)

section
variable {s : State} {l : Line} (hf : (s.line l).free = true)
include hf

/-- Outside a cycle a cycle start comes first, then priority work (R97, R99). -/
theorem invokeArbiter_outside (hc : (s.line l).condition = .waiting ∨ (s.line l).condition = .idleEmpty) :
    s.invokeArbiter l =
      if (s.line l).cycleDue then s.setLine l (s.line l).startCycle else s.chooseOutside l := by
  rcases hc with hc | hc <;> simp [State.invokeArbiter, hf, hc, State.modLine_eq_setLine]

variable (hc : (s.line l).condition = .inCycle)
include hc

/-- With no slot due the cursor moves to the list length and the boundary is taken (R73, R77). -/
theorem invokeArbiter_at_boundary (hw : s.walk l = (s.line l).listLength) : s.invokeArbiter l =
    (s.setLine l { s.line l with cursor := (s.line l).listLength }).boundary l := by
  simp [State.invokeArbiter, hf, hc, hw, State.modLine_eq_setLine]

/-- With a due slot the cursor moves to it and the choice of R98 is made. -/
theorem invokeArbiter_at_slot {k : Nat} (hk : k < (s.line l).listLength) (hw : s.walk l = k) : s.invokeArbiter l =
    (s.setLine l { s.line l with cursor := k }).chooseInCycle l := by
  simp [State.invokeArbiter, hf, hc, hw, Nat.not_le.mpr hk, State.modLine_eq_setLine]

end

section
variable {s : State} {l : Line} {x : LineEngine} {w : Work}

/-- Priority work goes first while the burst counter is below BURST (R98). -/
theorem chooseInCycle_priority (k : Nat) (hw : x.priorityWork = some w) (hb : x.burst < x.params.burst) :
    (s.setLine l { x with cursor := k }).chooseInCycle l =
      (s.setLine l { x with cursor := k, burst := x.burst + 1 }).requestUnit l w := by
  have hmoved : ({ x with cursor := k } : LineEngine).priorityWork = some w := hw
  simp only [State.chooseInCycle, State.line_setLine, hmoved, if_pos hb, State.modLine_eq_setLine,
    State.setLine_setLine]

/-- The slot goes when there is no priority work, or BURST units of it have gone (R98). -/
theorem chooseInCycle_slot (k : Nat) (h : x.priorityWork = none ∨ x.params.burst ≤ x.burst) :
    (s.setLine l { x with cursor := k }).chooseInCycle l =
      (s.setLine l { x with cursor := k + 1, burst := 0 }).requestUnit l (x.slotVisit k) := by
  simp only [State.chooseInCycle, State.line_setLine, State.modLine_eq_setLine, State.setLine_setLine]
  split
  · next w hw =>
    have hb : ¬ x.burst < x.params.burst := by
      rcases h with h | h
      · exact absurd (h.symm.trans hw) nofun
      · exact Nat.not_lt.mpr h
    rw [if_neg hb]
    rfl
  · rfl

/-- With MARK on the boundary asks for a mark with the visit count and the overrun flag, otherwise it is passed
(R77, R80). -/
theorem boundary_setLine : (s.setLine l x).boundary l =
    if x.params.mark then (s.setLine l x).requestUnit l (.mark x.visitCount
      (decide (x.params.interval ≠ 0 ∧ x.params.interval * (160 * (x.params.rate + 1)) < x.interval)))
    else (s.setLine l x).finishBoundary l := by
  have hoverrun : x.overrun =
      decide (x.params.interval ≠ 0 ∧ x.params.interval * (160 * (x.params.rate + 1)) < x.interval) :=
    (Bool.decide_and _ _).symm
  rw [← hoverrun, State.boundary, State.line_setLine]

end

theorem chooseOutside_priority {s : State} {l : Line} {w : Work} (hw : (s.line l).priorityWork = some w) :
    s.chooseOutside l = s.requestUnit l w := by
  rw [State.chooseOutside, hw]

theorem chooseOutside_none {s : State} {l : Line} (hw : (s.line l).priorityWork = none) : s.chooseOutside l = s := by
  rw [State.chooseOutside, hw]

end Sys2Proof.Machine
end

section
/-! PROOFS. The statements about poll lists and the cycle: coherence, the words of banks and submit buffers, LIST SWAP,
the rows of a line at rest, work selection and the turn of the cycle. -/

namespace Sys2Proof.Machine

/-! ### What every step keeps -/

/-- Settles O56: every row and every reference period keeps the coherence of each line and of the hold list. -/
theorem coherentKept : Obligations.CoherentKept :=
  fun _ _ hstep hs => coherent_step hstep hs

/-! ### The words of the poll lists -/

/-- The four bank regions of Table 9-2. -/
theorem regionOfNumber_bank :
    ∀ p ∈ ([(1, .a, .zero), (2, .a, .one), (3, .b, .zero), (4, .b, .one)] : List (BitVec 4 × Line × BankNumber)),
      regionOfNumber p.1 = some (.bank p.2.1 p.2.2) := by
  decide

/-- The two submit buffer regions of Table 9-2. -/
theorem regionOfNumber_buffer :
    ∀ p ∈ ([(5, .a), (6, .b)] : List (BitVec 4 × Line)), regionOfNumber p.1 = some (.buffer p.2) := by
  decide

/-- Settles O12: the bank stored is `Bank.write` of the one that stood. -/
theorem bankWriteKeepsStoredFields : Obligations.BankWriteKeepsStoredFields := by
  intro s w hlive p hp hregion hk hn hpending k
  refine ⟨((s.line p.2.1).bank p.2.2).write k w, ?_, Bank.word_write_same _ hk w, fun j _ hj =>
    Bank.word_write_ne _ hk hj w⟩
  rw [exec_tableDataWrite hlive, hregion, tableStore_bank (regionOfNumber_bank p hp) hk hn hpending,
    advanceTable_setLine]

/-- Settles O13: a bank region shows the length and the two words of each slot, a buffer region the buffer's words. -/
theorem tableWordsLayout : Obligations.TableWordsLayout := by
  intro s
  refine ⟨fun p hp => ?_, fun p hp k => ?_⟩
  · have hregion := regionOfNumber_bank p hp
    refine ⟨tableWord_bank hregion (by decide), fun k => ?_⟩
    have hk := k.isLt
    rw [tableWord_bank hregion (by omega), tableWord_bank hregion (by omega), Bank.word_odd, Bank.word_even,
      Bank.slot_eq_getElem]
    exact ⟨Slot.toNat_word_first _, Slot.toNat_word_second _⟩
  · have hbuffer := regionOfNumber_buffer p hp
    refine ⟨tableWord_buffer hbuffer k, fun w hlive hregion hindex => ?_⟩
    rw [exec_tableDataWrite hlive, hregion, hindex, tableStore_buffer hbuffer, advanceTable_setLine]

/-! ### LIST SWAP and the line at rest -/

/-- Settles O27: the shadow's first fault decides; a valid shadow is swapped at once or its swap made pending. -/
theorem listSwapDecided : Obligations.ListSwapDecided := by
  intro s hlive
  refine ⟨fun h => by rw [exec_listSwap hlive, cmdListSwap_of_no_line _ h], fun l hl => ?_⟩
  intro x other b bad
  have hline : s.window.lineParam = some l := lineOfCode_eq_some hl
  have hb : (s.line l).shadowBank = b := by rw [LineEngine.shadowBank, otherBank_eq]
  have hbad (k : Nat) : bad k ↔ (!(b.slot k).acceptable) = true := (Slot.not_acceptable_iff _).symm
  refine ⟨fun h => ?_, fun h k hk hk' hfirst => ?_, fun h hgood => ?_⟩
  · rw [exec_listSwap hlive, cmdListSwap_refused _ hline (hb ▸ Bank.swapRefusal_of_long h)]
  · have hrefusal : b.swapRefusal = some k :=
      (Bank.swapRefusal_of_fits h).trans (Bank.firstBadSlot_eq_some hk ((hbad k).1 hk')
        fun j hj => mt (hbad j).2 (hfirst j hj))
    rw [exec_listSwap hlive, cmdListSwap_refused _ hline (hb ▸ hrefusal)]
  · have hvalid : b.swapRefusal = none :=
      (Bank.swapRefusal_of_fits h).trans (Bank.firstBadSlot_eq_none fun k hk => mt (hbad k).2 (hgood k hk))
    have hexec := exec_listSwap hlive
    rw [cmdListSwap_of_valid _ hline (hb ▸ hvalid)] at hexec
    refine ⟨fun hp => by rw [hexec, if_pos hp], fun hp hrun => ?_, fun hp hrun => ?_⟩
    · have hlater : ¬ x.swapsAtOnce = true := by
        rw [LineEngine.swapsAtOnce_iff]
        rcases hrun with hrun | ⟨hrun, hlength⟩
        · simp [hrun]
        · simpa [hrun] using hlength
      rw [hexec, if_neg (Bool.eq_false_iff.mp hp), if_neg hlater]
    · intro v
      have hnow : x.swapsAtOnce = true := x.swapsAtOnce_iff.2 hrun
      have hv : (s.commanded 0x0020).setLine l x.swapBanks = v := by
        rw [LineEngine.swapBanks_of_not_pending hp, otherBank_eq]
        rfl
      have hcode : v.window.command = 0x0020 := by rw [State.window_setLine]
      rw [hexec, if_neg (Bool.eq_false_iff.mp hp), if_pos hnow, hv, reply_finish_eq_decided hcode]
      exact ⟨rfl, State.Selected.finish v, finish_of_none⟩

/-- Settles O30: each row acts under its condition, by one equation for the swap and one for the stop. -/
theorem restingLineEventsAct : Obligations.RestingLineEventsAct := by
  intro s l hlive x other
  have hother : otherBank x.active = other := otherBank_eq _
  rw [exec_pendingSwapTakesEffect hlive, exec_stoppingLineStopped hlive]
  refine ⟨fun hp hrun => ?_, fun h => ?_, fun hrun hc => ?_, fun h => ?_⟩
  · rw [if_pos (x.swapDue_iff.2 ⟨hp, hrun⟩), LineEngine.swapBanks, hother]
  · rw [if_neg]
    rw [LineEngine.swapDue_iff]
    rcases h with h | h | h <;> simp [x, h]
  · rw [if_pos ⟨hrun, Option.isNone_iff_eq_none.2 hc⟩, enterStopped_eq, hother]
  · rw [if_neg]
    rintro ⟨hrun, hc⟩
    rcases h with h | h
    · exact h hrun
    · rw [Option.isNone_iff_eq_none.1 hc] at h
      cases h

/-! ### The turn of the cycle -/

/-- Settles O49: the two rows by the condition each acts under, and the boundary as one update. -/
theorem cyclesTurn : Obligations.CyclesTurn := by
  intro s l hlive x least due free
  have hfree : x.free = true ↔ free := LineEngine.free_iff
  have hdue : x.cycleDue = true ↔ due := x.cycleDue_iff
  have hrunning := x.intervalRunning_iff
  refine ⟨fun hf hd => ?_, fun h => ?_, fun hrun hc => ?_, fun h => ?_, finishBoundary_eq s l⟩
  · rw [exec_cycleStart hlive, if_pos (by rw [hfree.2 hf, hdue.2 hd, Bool.and_self]), LineEngine.startCycle]
  · rw [exec_cycleStart hlive, if_neg]
    rwa [Bool.and_eq_true, hfree, hdue]
  · rw [exec_intervalElapsed hlive, if_pos (hrunning.2 ⟨hrun, hc⟩), Params.ct]
  · rw [exec_intervalElapsed hlive, if_neg]
    rw [hrunning]
    rcases h with h | h | h <;> simp [h]

/-! ### Work selection -/

/-- Settles O48: the walk finds the first due slot or the end of the list, and the arbiter's choice there, or outside a
cycle, is one equation for each of its branches. -/
theorem workSelected : Obligations.WorkSelected := by
  intro s l hlive x due free moved priority
  have hdue (k : Nat) : s.slotDue l k = true ↔ due k := slotDue_iff s l k
  have hfree : x.free = true ↔ free := LineEngine.free_iff
  have hpriority (w : Work) : x.priorityWork = some w ↔ priority w := LineEngine.priorityWork_eq_some_iff
  have hnone (h : ∀ w, ¬ priority w) : x.priorityWork = none :=
    Option.eq_none_iff_forall_ne_some.2 fun w hw => h w ((hpriority w).1 hw)
  have hexec (hf : free) : exec (.workSelection l) s = .next (s.invokeArbiter l).finish := by
    rw [exec_workSelection hlive, if_pos (hfree.2 hf)]
  refine ⟨fun hf => ?_, fun hf hc => ⟨fun k hk hlength hslot hfirst => ?_, fun hcursor hempty => ?_⟩,
    fun hf hcycle => ?_, fun hf hc hcycle => ?_⟩
  · rw [exec_workSelection hlive, if_neg (mt hfree.1 hf)]
  · have hwalk : s.walk l = k :=
      walk_of_due hk hlength ((hdue k).2 hslot) fun j hj hjk => mt (hdue j).1 (hfirst j hj hjk)
    rw [hexec hf, invokeArbiter_at_slot (hfree.2 hf) hc hlength hwalk]
    refine ⟨fun w hw hburst => ?_, fun h => ?_⟩
    · rw [chooseInCycle_priority k ((hpriority w).2 hw) hburst]
    · rw [chooseInCycle_slot k (h.imp_left hnone), LineEngine.slotVisit]
  · have hwalk : s.walk l = x.listLength :=
      walk_of_none_due hcursor fun k hk hlength => mt (hdue k).1 (hempty k hk hlength)
    intro y
    have hboundary := hexec hf
    rw [invokeArbiter_at_boundary (hfree.2 hf) hc hwalk, boundary_setLine] at hboundary
    exact ⟨fun hm => by rw [hboundary, if_pos hm], fun hm => by rw [hboundary, if_neg (Bool.eq_false_iff.1 hm)]⟩
  · have hc : x.condition = .waiting ∨ x.condition = .idleEmpty := hcycle.imp And.left And.left
    have hcycleDue : x.cycleDue = true :=
      x.cycleDue_iff.2 (hcycle.imp_right fun ⟨h, hlength⟩ => ⟨h, mt x.listLength_eq_zero_iff.2 hlength⟩)
    rw [hexec hf, invokeArbiter_outside (hfree.2 hf) hc, if_pos hcycleDue, LineEngine.startCycle]
  · rw [hexec hf, invokeArbiter_outside (hfree.2 hf) hc, if_neg (Bool.eq_false_iff.1 hcycle)]
    exact ⟨fun w hw => by rw [chooseOutside_priority ((hpriority w).2 hw)],
      fun h => by rw [chooseOutside_none (hnone h)]⟩

end Sys2Proof.Machine
end

section
/-! SUPPORT. The alert sets through the operations of the engines: what lets no station join a set leaves the sets
legal, and so do the disable of a station and the end of a unit (R92 to R94). -/

namespace Sys2Proof.Machine

/-! ### Where no station joins an alert set -/

/-- From s to t no station joined an alert set, and every entry kept its line and its state. -/
structure State.KeepsAlerts (s t : State) : Prop where
  alertSet : ∀ m, (t.line m).alertSet.Sublist (s.line m).alertSet
  entry : ∀ i, (t.entry i).line = (s.entry i).line ∧ (t.entry i).state = (s.entry i).state

theorem State.KeepsAlerts.legal {s t : State} (h : s.KeepsAlerts t) (hs : s.AlertsLegal) : t.AlertsLegal := by
  intro m
  obtain ⟨hascending, hmember⟩ := hs m
  refine ⟨hascending.sublist (h.alertSet m), fun i hi => ?_⟩
  rw [(h.entry i).1, (h.entry i).2]
  exact hmember i ((h.alertSet m).subset hi)

theorem State.KeepsAlerts.refl (s : State) : s.KeepsAlerts s :=
  ⟨fun _ => List.Sublist.refl _, fun _ => ⟨rfl, rfl⟩⟩

theorem State.KeepsAlerts.trans {s t u : State} (h : s.KeepsAlerts t) (k : t.KeepsAlerts u) : s.KeepsAlerts u :=
  ⟨fun m => (k.alertSet m).trans (h.alertSet m),
    fun i => ⟨(k.entry i).1.trans (h.entry i).1, (k.entry i).2.trans (h.entry i).2⟩⟩

theorem Entry.onlyServed.line_state {e f : Entry} (h : e.onlyServed f) : f.line = e.line ∧ f.state = e.state := by
  rw [h.1]
  exact ⟨rfl, rfl⟩

/-- Selection of work and serving take stations out of the alert sets and put none in (R96). -/
theorem State.Selected.keepsAlerts {s t : State} (h : s.Selected t) : s.KeepsAlerts t :=
  ⟨fun m => (h.lines m).alertSet, fun i => (h.entries i).line_state⟩

theorem State.KeepsAlerts.modLine (s : State) (l : Line) (f : LineEngine → LineEngine)
    (h : (f (s.line l)).alertSet = (s.line l).alertSet := by rfl) : s.KeepsAlerts (s.modLine l f) := by
  refine ⟨fun m => ?_, fun i => by rw [State.entry_modLine]; exact ⟨rfl, rfl⟩⟩
  rw [State.line_modLine_eq]
  split
  · next hm => rw [hm, h]
  · exact List.Sublist.refl _

/-- Changes outside the lines and the station table. -/
theorem State.KeepsAlerts.of_lines {s t : State} (hstations : t.stations = s.stations)
    (hline : ∀ m, t.line m = s.line m) : s.KeepsAlerts t :=
  ⟨fun m => by rw [hline m], fun i => by rw [State.entry, State.entry, hstations]; exact ⟨rfl, rfl⟩⟩

theorem State.KeepsAlerts.withQueue (s : State) (q : ReplyQueue) : s.KeepsAlerts { s with queue := q } :=
  .of_lines rfl (State.line_withQueue s q)

theorem State.KeepsAlerts.modWindow (s : State) (f : Window → Window) : s.KeepsAlerts (s.modWindow f) :=
  .of_lines rfl (State.line_modWindow s f)

theorem State.KeepsAlerts.serve (s : State) : s.KeepsAlerts s.serve :=
  (State.Selected.serve s).keepsAlerts

theorem State.KeepsAlerts.finish (s : State) : s.KeepsAlerts s.finish :=
  (State.Selected.finish s).keepsAlerts

theorem State.KeepsAlerts.modLine_finish (s : State) (l : Line) (f : LineEngine → LineEngine)
    (h : (f (s.line l)).alertSet = (s.line l).alertSet := by rfl) : s.KeepsAlerts (s.modLine l f).finish :=
  (State.KeepsAlerts.modLine s l f h).trans (State.KeepsAlerts.finish _)

theorem State.KeepsAlerts.enterStopped (s : State) (l : Line) : s.KeepsAlerts (s.enterStopped l) :=
  ((State.KeepsAlerts.modLine s l _).trans (State.Selected.applyPendingSwap _ l).keepsAlerts).trans
    (State.Selected.raise _ _).keepsAlerts

theorem State.KeepsAlerts.enterStopped_finish (s : State) (l : Line) : s.KeepsAlerts (s.enterStopped l).finish :=
  (State.KeepsAlerts.enterStopped s l).trans (State.KeepsAlerts.finish _)

theorem State.KeepsAlerts.discardPending (s : State) (l : Line) : s.KeepsAlerts (s.discardPending l) := by
  have hbase : s.KeepsAlerts (((s.leaveHoldList l).dropReservation l).modLine l LineEngine.clearChosen) :=
    ((State.KeepsAlerts.withQueue s _).trans (State.KeepsAlerts.modLine _ l _)).trans (State.KeepsAlerts.modLine _ l _)
  unfold State.discardPending
  dsimp only
  split
  · exact hbase.trans (State.KeepsAlerts.serve _)
  · exact hbase

theorem State.KeepsAlerts.whenLive {s : State} {f : State → State} (h : s.KeepsAlerts (f s)) :
    s.KeepsAlerts (s.whenLive f) := by
  unfold State.whenLive
  split
  · exact h
  · exact .refl s

/-! ### Changes of one entry -/

/-- An entry whose station may be a member of the alert set of its line (R92). -/
def Entry.MayAlert (e : Entry) : Prop :=
  e.state = .online ∨ e.state = .suspect

/-- The sets stay legal where an entry that may be a member keeps its line and stays one that may. -/
theorem alertsLegal_modEntry {s : State} (i : StationIndex) (f : Entry → Entry) (hs : s.AlertsLegal)
    (hf : (s.entry i).MayAlert → (f (s.entry i)).line = (s.entry i).line ∧ (f (s.entry i)).MayAlert) :
    (s.modEntry i f).AlertsLegal := by
  intro m
  rw [State.line_modEntry]
  refine ⟨(hs m).1, fun j hj => ?_⟩
  obtain ⟨hline, hstate⟩ := (hs m).2 j hj
  by_cases hji : j = i
  · subst hji
    rw [State.entry_modEntry, (hf hstate).1]
    exact ⟨hline, (hf hstate).2⟩
  · rw [State.entry_modEntry_ne _ _ hji]
    exact ⟨hline, hstate⟩

/-- The sets stay legal where the line and the state of an entry stand. -/
theorem alertsLegal_modMarks {s : State} (i : StationIndex) (f : Entry → Entry) (hs : s.AlertsLegal)
    (hline : (f (s.entry i)).line = (s.entry i).line := by rfl)
    (hstate : (f (s.entry i)).state = (s.entry i).state := by rfl) : (s.modEntry i f).AlertsLegal :=
  alertsLegal_modEntry i f hs fun hm => ⟨hline, by rw [Entry.MayAlert, hstate]; exact hm⟩

/-- An entry that is not working stands in no alert set. -/
theorem alertsLegal_modIdle {s : State} {i : StationIndex} (f : Entry → Entry) (hs : s.AlertsLegal)
    (hk : isWorking (s.entry i).state = false) : (s.modEntry i f).AlertsLegal := by
  refine alertsLegal_modEntry i f hs fun hm => ?_
  rcases hm with hm | hm <;> rw [hm] at hk <;> cases hk

/-- A station that is disabled leaves the alert set of its line (R50). -/
theorem alertsLegal_disableNow {s : State} (i : StationIndex) (hs : s.AlertsLegal) : (s.disableNow i).AlertsLegal := by
  intro m
  have hset : ((s.disableNow i).line m).alertSet =
      if m = (s.entry i).line then alertRemove i (s.line m).alertSet else (s.line m).alertSet := by
    rw [State.disableNow, State.leaveAlertSet, State.line_modLine_eq]
    split
    · next hm => rw [State.line_modEntry, hm]
    · rw [State.line_modEntry]
  rw [hset]
  obtain ⟨hascending, hmember⟩ := hs m
  have hother (j : StationIndex) (hj : j ∈ (s.line m).alertSet) (hji : j ≠ i) :
      ((s.disableNow i).entry j).line = m ∧ ((s.disableNow i).entry j).MayAlert := by
    rw [State.disableNow, State.entry_leaveAlertSet, State.entry_modEntry_ne _ _ hji]
    exact hmember j hj
  split
  · refine ⟨hascending.sublist (alertRemove_sublist i _), fun j hj => ?_⟩
    rw [mem_alertRemove] at hj
    exact hother j hj.1 hj.2
  · next hm =>
    refine ⟨hascending, fun j hj => hother j hj ?_⟩
    rintro rfl
    exact hm (hmember j hj).1.symm

/-! ### The end of a unit -/

theorem alertsAfter_ascending (i : StationIndex) (y : Entry) (e : UnitEnd) {xs : List StationIndex}
    (h : xs.Pairwise (· < ·)) : (alertsAfter i y e xs).Pairwise (· < ·) := by
  have hanswered (a : HeldAnswer) :
      (if a.alert && y.alertFollowUp then alertInsert i xs else xs).Pairwise (· < ·) := by
    split
    · exact alertInsert_ascending h
    · exact h
  cases e with
  | good a => exact hanswered a
  | deferred a => exact hanswered a
  | failed o =>
    simp only [alertsAfter]
    split
    · exact h.sublist (alertRemove_sublist i xs)
    · exact h
  | _ => exact h

theorem mem_alertsAfter_ne {i j : StationIndex} {y : Entry} {e : UnitEnd} {xs : List StationIndex} (hj : j ≠ i)
    (h : j ∈ alertsAfter i y e xs) : j ∈ xs := by
  cases e with
  | good a => exact (mem_alertsAfter_answered.1 h).resolve_right fun hi => hj hi.1
  | deferred a => exact (mem_alertsAfter_answered.1 h).resolve_right fun hi => hj hi.1
  | failed o => exact (mem_alertsAfter_failed.1 h).1
  | _ => exact h

/-- The station of a unit that stands in the alert set after the visit outcome may: an answer makes it ONLINE, and a
failure that makes it OFFLINE takes it out (R57, R58). -/
theorem visitOutcome_mayAlert {i : StationIndex} {y : Entry} {e : UnitEnd} {xs : List StationIndex}
    (hy : i ∈ xs → y.MayAlert) (h : i ∈ alertsAfter i y e xs) : (visitOutcome y e).1.MayAlert := by
  cases e with
  | good a => exact Or.inl rfl
  | deferred a => exact Or.inl rfl
  | failed o =>
    obtain ⟨hi, hstays⟩ := mem_alertsAfter_failed.1 h
    rcases hy hi with hk | hk
    · have hth : y.consecutive + 1 ≠ y.failThreshold := by simpa [hk] using hstays
      simp [visitOutcome, hk, hth, Entry.MayAlert]
    · have hth : y.consecutive + 1 ≠ y.failThreshold := by simpa [hk] using hstays
      simp [visitOutcome, hk, hth, Entry.MayAlert]
  | _ => exact hy h

theorem unitAlerts_ascending {s : State} {l : Line} (c : UnitContext) (e : UnitEnd) (hs : s.AlertsLegal) :
    (s.unitAlerts l c e).Pairwise (· < ·) := by
  unfold State.unitAlerts
  split
  · exact (hs l).1
  · dsimp only
    split
    · exact (alertsAfter_ascending _ _ e (hs l).1).sublist (alertRemove_sublist _ _)
    · exact alertsAfter_ascending _ _ e (hs l).1

theorem mem_unitAlerts_ne {s : State} {l : Line} {c : UnitContext} {e : UnitEnd} {j : StationIndex}
    (hj : workStation c.work ≠ some j) (h : j ∈ s.unitAlerts l c e) : j ∈ (s.line l).alertSet := by
  cases hw : workStation c.work with
  | none => rwa [unitAlerts_of_none e hw] at h
  | some i => exact mem_alertsAfter_ne (fun hji => hj (by rw [hw, hji])) ((mem_unitAlerts hw).1 h).2

/-- A unit that completes leaves the alert sets legal: its own station is judged by its outcome, every other one stands
(R38, R57, R58, R94). -/
theorem alertsLegal_completeUnit {s : State} (l : Line) (e : UnitEnd) (hs : s.Coherent) (hu : s.UnitsOwnStations)
    (ha : s.AlertsLegal) : (s.completeUnit l e).AlertsLegal := by
  cases hc : (s.line l).current with
  | none =>
    simp only [State.completeUnit, hc]
    exact ha
  | some c =>
    have hstation := unit_station hc hu
    have helsewhere := State.Elsewhere.completeUnit e hc fun i hi => (hstation i hi).1
    have hother {m : Line} {j : StationIndex} (hj : workStation c.work ≠ some j) (hmem : j ∈ (s.line m).alertSet) :
        ((s.completeUnit l e).entry j).line = m ∧ ((s.completeUnit l e).entry j).MayAlert := by
      obtain ⟨hline, hstate⟩ := (helsewhere.entry j hj).line_state
      rw [Entry.MayAlert, hline, hstate]
      exact (ha m).2 j hmem
    intro m
    by_cases hm : m = l
    · subst hm
      rw [line_completeUnit e hs hc hu]
      refine ⟨unitAlerts_ascending c e ha, fun j hj => ?_⟩
      by_cases hw : workStation c.work = some j
      · obtain ⟨hpending, hafter⟩ := (mem_unitAlerts hw).1 hj
        have hmarks := visitOutcome_marks (s.entry j) e
        have hstays : ¬ (visitOutcome (s.entry j) e).1.disablePending = true := by
          rw [hmarks.1, hpending rfl]
          exact Bool.false_ne_true
        rw [entry_completeUnit e hs hc hu hw, entry_handedOn e hw (hstation j hw).2, if_neg hstays]
        exact ⟨hmarks.2.trans (hstation j hw).1, visitOutcome_mayAlert (fun hi => ((ha m).2 j hi).2) hafter⟩
      · exact hother hw (mem_unitAlerts_ne hw hj)
    · have hset := (helsewhere.line m hm).alertSet
      refine ⟨(ha m).1.sublist hset, fun j hj => hother (fun hw => ?_) (hset.subset hj)⟩
      exact hm (((ha m).2 j (hset.subset hj)).1.symm.trans (hstation j hw).1)

end Sys2Proof.Machine
end

section
/-! SUPPORT. That the effect of each row of the opcode table, and so every step, keeps the alert sets legal. -/

namespace Sys2Proof.Machine

/-! ### Where the end of a unit may be judged -/

/-- The invariants that the end of a unit leaves the alert sets legal under. -/
structure State.Sound (s : State) : Prop where
  coherent : s.Coherent
  legal : s.EntriesLegal
  served : ∀ l, s.LineServed l
  alerts : s.AlertsLegal

theorem State.Sound.units {s : State} (hs : s.Sound) : s.UnitsOwnStations :=
  ((lineServed_iff hs.legal).1 hs.served).2

/-- A course keeps the station table and the service marks: what is left are coherence and the alert sets. -/
theorem State.Sound.next {s t : State} (hs : s.Sound) (h : s.Course True t) (hc : t.Coherent) (ha : t.AlertsLegal) :
    t.Sound where
  coherent := hc
  legal := (h.keeps_table hs.legal).1
  served := h.lineServed trivial hs.legal hs.served
  alerts := ha

theorem State.Sound.modWindow {s : State} (f : Window → Window) (hs : s.Sound) : (s.modWindow f).Sound :=
  hs.next (State.Course.modWindow s f) (coherent_modWindow f hs.coherent)
    ((State.KeepsAlerts.modWindow s f).legal hs.alerts)

theorem State.Sound.modLine {s : State} {l : Line} (f : LineEngine → LineEngine) (hs : s.Sound)
    (hc : (s.modLine l f).Coherent) (htarget : (f (s.line l)).target = (s.line l).target := by rfl)
    (halerts : (f (s.line l)).alertSet = (s.line l).alertSet := by rfl) : (s.modLine l f).Sound :=
  hs.next (State.Course.modLine l f htarget) hc ((State.KeepsAlerts.modLine s l f halerts).legal hs.alerts)

theorem State.Sound.withContext {s : State} {l : Line} {c : UnitContext} (d : UnitContext) (hs : s.Sound)
    (hc : (s.line l).current = some c) (hd : d.work = c.work) :
    (s.modLine l (fun x => { x with current := some d })).Sound :=
  hs.modLine _ (coherent_withContext d hs.coherent hc hd)
    (by rw [LineEngine.target_of_current rfl, LineEngine.target_of_current hc, hd])

theorem State.Sound.chargeAttempt {s : State} (w : Work) (hs : s.Sound) : (s.chargeAttempt w).Sound := by
  refine hs.next (State.Course.chargeAttempt s w) (coherent_chargeAttempt w hs.coherent) ?_
  unfold State.chargeAttempt
  split
  · exact hs.alerts
  · exact alertsLegal_modMarks _ _ hs.alerts

/-! ### The end of a unit and of an attempt -/

section
variable {s : State} (l : Line)

theorem State.Sound.alerts_completeUnit (e : UnitEnd) (hs : s.Sound) : (s.completeUnit l e).AlertsLegal :=
  alertsLegal_completeUnit l e hs.coherent hs.units hs.alerts

theorem State.Sound.alerts_endUnit (e : UnitEnd) (hs : s.Sound) : (s.endUnit l e).AlertsLegal := by
  have hcompleted := hs.alerts_completeUnit l e
  unfold State.endUnit State.afterCompletion
  split
  · exact (State.KeepsAlerts.enterStopped_finish _ l).legal hcompleted
  · exact (State.KeepsAlerts.finish _).legal hcompleted

theorem State.Sound.alerts_faultLine (cause : FaultCause) (hs : s.Sound) :
    (s.faultLine l cause).finish.AlertsLegal := by
  have hcompleted := hs.alerts_completeUnit l .lineFault
  exact ((State.KeepsAlerts.modLine _ l _).trans (((State.Selected.applyPendingSwap _ l).trans
    (State.Selected.raise _ _)).trans (State.Selected.finish _)).keepsAlerts).legal hcompleted

theorem State.Sound.alerts_cutShort (hs : s.Sound) : (s.cutShort l).AlertsLegal := by
  unfold State.cutShort
  split
  · exact (hs.modLine LineEngine.endLead (coherent_endLead l hs.coherent)).alerts_completeUnit l .aborted
  · split
    · exact (State.KeepsAlerts.discardPending s l).legal hs.alerts
    · exact hs.alerts

theorem State.Sound.alerts_attemptFails (o : FailingOutcome) (hs : s.Sound) : (s.attemptFails l o).AlertsLegal := by
  unfold State.attemptFails
  split
  · exact hs.alerts
  · next c hc =>
    have hcharged := (hs.withContext (c.fail o) hc rfl).chargeAttempt c.work
    dsimp only
    split
    · exact (State.KeepsAlerts.modLine _ l _).legal hcharged.alerts
    · exact hcharged.alerts_endUnit l _

theorem State.Sound.alerts_attemptJudged (v : Verdict) (hs : s.Sound) : (s.attemptJudged l v).AlertsLegal := by
  cases v with
  | good a =>
    show (s.attemptGood l a).AlertsLegal
    unfold State.attemptGood
    split
    · exact hs.alerts
    · next c hc => exact (hs.withContext (c.answered a) hc rfl).alerts_endUnit l _
  | deferred a =>
    show (s.attemptDeferred l a).AlertsLegal
    unfold State.attemptDeferred
    split
    · exact hs.alerts
    · next c hc =>
      have hanswered := hs.withContext (c.answered a) hc rfl
      dsimp only
      split
      · exact (State.KeepsAlerts.modLine _ l _).legal hanswered.alerts
      · exact hanswered.alerts_endUnit l _
  | failing o => exact hs.alerts_attemptFails l o

/-! ### Receiver and transmitter -/

theorem State.Sound.alerts_whenLive {f : State → State} (hs : s.Sound) (hf : (f s).AlertsLegal) :
    (s.whenLive f).AlertsLegal := by
  unfold State.whenLive
  split
  · exact hf
  · exact hs.alerts

theorem State.KeepsAlerts.startDetected (s : State) (l : Line) : s.KeepsAlerts (s.startDetected l) := by
  unfold State.startDetected
  split
  · exact .refl s
  · split
    · exact .modLine s l _ (by rw [LineEngine.disposeStart_eq])
    · exact .refl s

theorem State.KeepsAlerts.waitMarkEnd (s : State) (l : Line) : s.KeepsAlerts (s.waitMarkEnd l) := by
  unfold State.waitMarkEnd
  split
  · exact .refl s
  · split
    · exact .modLine s l _
    · exact .refl s

theorem State.Sound.alerts_nextAnswerCharacter (b : List Byte) (crc : Word) (v : Byte) (f : Framing) (hs : s.Sound) :
    (s.nextAnswerCharacter l b crc v f).AlertsLegal := by
  have hfails := hs.alerts_attemptFails l .corrupt
  have hcollect (crc' : Word) : (s.modLine l (fun x =>
      { x with phase := .receive (b ++ [v]) crc' (some 0) })).AlertsLegal :=
    (State.KeepsAlerts.modLine s l _).legal hs.alerts
  unfold State.nextAnswerCharacter
  dsimp only
  split
  · exact hfails
  split
  · exact hcollect _
  split
  · split
    · exact hfails
    · exact hcollect _
  split
  · exact hcollect _
  split
  · exact hcollect _
  split
  · exact hs.alerts
  · exact hs.alerts_attemptJudged l _

theorem State.Sound.alerts_disposeCharacter (v : Byte) (f : Framing) (hs : s.Sound) :
    (s.disposeCharacter l v f).AlertsLegal := by
  have hline (g : LineEngine → LineEngine) (hg : (g (s.line l)).alertSet = (s.line l).alertSet) :
      (s.modLine l g).AlertsLegal := (State.KeepsAlerts.modLine s l g hg).legal hs.alerts
  unfold State.disposeCharacter
  split
  · exact hs.alerts
  · exact hline _ rfl
  · split
    · exact hline _ rfl
    · exact hline _ rfl
  · exact hs.alerts
  · unfold State.firstAnswerCharacter
    split
    · exact hline _ rfl
    · exact hs.alerts_attemptFails l _
  · exact hs.alerts_nextAnswerCharacter l _ _ _ _

theorem State.Sound.alerts_character (v : Byte) (f : Framing) (hs : s.Sound) : (s.character l v f).AlertsLegal := by
  unfold State.character
  split
  · exact hs.alerts
  · split
    · exact (hs.modLine _ (coherent_receiver _ hs.coherent)).alerts_disposeCharacter l v f
    · exact hs.alerts

theorem State.KeepsAlerts.quietReached (s : State) (l : Line) : s.KeepsAlerts (s.quietReached l) := by
  refine .whenLive ?_
  split
  · refine .modLine s l _ ?_
    unfold LineEngine.enterSend
    split <;> rfl
  · exact .refl s

theorem State.Sound.alerts_noiseLimitExpiry (hs : s.Sound) : (s.noiseLimitExpiry l).AlertsLegal := by
  refine hs.alerts_whenLive ?_
  split
  · exact hs.alerts_faultLine l _
  · exact hs.alerts

/-- The transmission ends early, and with it the attempt, contended (R34, R35). -/
theorem State.Sound.alerts_contended (n : Nat) (hs : s.Sound) :
    ((s.setLine l { s.line l with shifter := none, contention := n }).afterContention l).AlertsLegal := by
  have hsilent : (s.modLine l (fun x => { x with shifter := none, contention := n })).Sound :=
    hs.modLine _ (coherent_silent n hs.coherent)
  rw [← State.modLine_eq_setLine s l (fun x => { x with shifter := none, contention := n })]
  unfold State.afterContention
  split
  · exact hsilent.alerts_faultLine l _
  · exact (State.KeepsAlerts.modLine _ l _).legal hsilent.alerts

theorem State.Sound.alerts_characterSent (hs : s.Sound) : (s.characterSent l).AlertsLegal := by
  have hline (x : LineEngine) (hx : x.alertSet = (s.line l).alertSet) : (s.setLine l x).AlertsLegal :=
    (State.KeepsAlerts.modLine s l (fun _ => x) hx).legal hs.alerts
  cases hp : (s.line l).phase with
  | send k echoed =>
    cases echoed with
    | true =>
      simp only [State.characterSent, hp]
      split
      · exact hline _ rfl
      · exact hline _ rfl
    | false =>
      rw [State.characterSent_unechoed hp]
      exact hs.alerts_contended l _
  | sendWaiting =>
    rw [State.characterSent_sendWaiting hp]
    exact hline _ rfl
  | idle wait =>
    by_cases hw : wait = .fallOfDe
    · rw [State.characterSent_fallOfDe (by rw [hp, hw])]
      exact hs.alerts_contended l (s.line l).contention
    · rw [State.characterSent_elsewhere (by simp [hp]) (by simp [hp]) (by simpa [hp] using hw)]
      exact hline _ rfl
  | _ =>
    rw [State.characterSent_elsewhere (by simp [hp]) (by simp [hp]) (by simp [hp])]
    exact hline _ rfl

theorem State.Sound.alerts_transmitCharacterEnd (hs : s.Sound) : (s.transmitCharacterEnd l).AlertsLegal := by
  refine hs.alerts_whenLive ?_
  split
  · exact hs.alerts_characterSent l
  · exact hs.alerts

/-! ### Timers and inner events -/

theorem State.Sound.alerts_responseTimeout (hs : s.Sound) : (s.responseTimeout l).AlertsLegal := by
  refine hs.alerts_whenLive ?_
  split
  · exact hs.alerts_attemptFails l _
  all_goals exact hs.alerts

theorem State.Sound.alerts_gapLimitExpiry (hs : s.Sound) : (s.gapLimitExpiry l).AlertsLegal := by
  refine hs.alerts_whenLive ?_
  split
  · exact hs.alerts_attemptFails l _
  all_goals exact hs.alerts

theorem State.KeepsAlerts.backoffEnd (s : State) (l : Line) : s.KeepsAlerts (s.backoffEnd l) := by
  refine .whenLive ?_
  split
  · exact .modLine s l _
  all_goals exact .refl s

theorem State.Sound.alerts_settleEnd (hs : s.Sound) : (s.settleEnd l).AlertsLegal := by
  refine hs.alerts_whenLive ?_
  split
  · exact hs.alerts_endUnit l _
  all_goals exact hs.alerts

theorem State.KeepsAlerts.intervalElapsed (s : State) (l : Line) : s.KeepsAlerts (s.intervalElapsed l) := by
  refine .whenLive ?_
  split
  · exact .modLine_finish s l _
  · exact .refl s

theorem State.KeepsAlerts.unitStart (s : State) (l : Line) : s.KeepsAlerts (s.unitStart l) := by
  refine .whenLive ?_
  split
  · exact (((State.Selected.startUnit s l).trans (State.Selected.serve _)).trans (State.Selected.finish _)).keepsAlerts
  · exact .refl s

theorem State.Sound.alerts_deferredDisable (i : StationIndex) (hs : s.Sound) : (s.deferredDisable i).AlertsLegal := by
  refine hs.alerts_whenLive ?_
  split
  · exact alertsLegal_disableNow i hs.alerts
  · exact hs.alerts

theorem State.KeepsAlerts.stoppingLineStopped (s : State) (l : Line) : s.KeepsAlerts (s.stoppingLineStopped l) := by
  refine .whenLive ?_
  split
  · exact .enterStopped s l
  · exact .refl s

theorem State.KeepsAlerts.holdListGrant (s : State) : s.KeepsAlerts s.holdListGrant :=
  .whenLive ((State.KeepsAlerts.serve s).trans (State.KeepsAlerts.finish _))

theorem State.KeepsAlerts.workSelection (s : State) (l : Line) : s.KeepsAlerts (s.workSelection l) := by
  refine .whenLive ?_
  split
  · exact ((State.Selected.invokeArbiter s l).trans (State.Selected.finish _)).keepsAlerts
  · exact .refl s

theorem State.KeepsAlerts.pendingSwapTakesEffect (s : State) (l : Line) :
    s.KeepsAlerts (s.pendingSwapTakesEffect l) := by
  refine .whenLive ?_
  split
  · exact .modLine s l _
  · exact .refl s

theorem State.KeepsAlerts.cycleStart (s : State) (l : Line) : s.KeepsAlerts (s.cycleStart l) := by
  refine .whenLive ?_
  split
  · exact .modLine_finish s l _
  · exact .refl s

/-! ### One reference period -/

theorem State.Sound.alerts_fire (e : TimedEvent) (hs : s.Sound) : (s.fire l e).AlertsLegal := by
  cases e with
  | characterSent => exact hs.alerts_transmitCharacterEnd l
  | quiet => exact (State.KeepsAlerts.quietReached s l).legal hs.alerts
  | noise => exact hs.alerts_noiseLimitExpiry l
  | response => exact hs.alerts_responseTimeout l
  | gap => exact hs.alerts_gapLimitExpiry l
  | backoff => exact (State.KeepsAlerts.backoffEnd s l).legal hs.alerts
  | settle => exact hs.alerts_settleEnd l
  | interval => exact (State.KeepsAlerts.intervalElapsed s l).legal hs.alerts

theorem State.Sound.fireNext (hs : s.Sound) : (s.fireNext l).Sound := by
  refine hs.next (State.Course.fireNext l fun _ => hs.coherent) (coherent_fireNext l hs.coherent) ?_
  unfold State.fireNext
  split
  · exact hs.alerts
  · exact hs.alerts_fire l _

theorem State.Sound.fireDue (hs : s.Sound) : (s.fireDue l).Sound :=
  (hs.fireNext l).fireNext l

theorem State.KeepsAlerts.recordsApart (s : State) (before middle : Nat) :
    s.KeepsAlerts (s.recordsApart before middle) := by
  unfold State.recordsApart
  split
  · split
    · exact .of_lines rfl fun m => by cases m <;> rfl
    · exact .refl s
  · exact .refl s

theorem State.Sound.alerts_fireInTurn (m : Line) (hs : s.Sound) : (s.fireInTurn l m).AlertsLegal :=
  (State.KeepsAlerts.recordsApart _ _ _).legal ((hs.fireDue l).fireDue m).alerts

theorem State.Sound.nextRace (hs : s.Sound) : s.nextRace.Sound :=
  hs.next (State.SameService.nextRace s).course (coherent_nextRace hs.coherent)
    ((State.Selected.nextRace s).keepsAlerts.legal hs.alerts)

theorem State.Sound.alerts_fireBoth (hs : s.Sound) : s.fireBoth.AlertsLegal := by
  unfold State.fireBoth
  split
  · split
    · exact hs.nextRace.alerts_fireInTurn _ _
    · exact hs.nextRace.alerts_fireInTurn _ _
  · exact ((hs.fireDue .a).fireDue .b).alerts

theorem State.Sound.tick (hs : s.Sound) : (s.modLine l LineEngine.tick).Sound :=
  hs.modLine _ (coherent_tickLine l hs.coherent)

theorem State.Sound.alerts_passTime (hs : s.Sound) : s.passTime.AlertsLegal := by
  unfold State.passTime
  split
  · exact hs.alerts
  · split
    · exact (((hs.modWindow _).tick .a).tick .b).alerts
    · exact ((hs.tick .a).tick .b).alerts_fireBoth

end

/-! ### The commands of stations -/

section
variable {s : State}

theorem alertsLegal_reply (r : Result) (n : Nat) (ha : s.AlertsLegal) : (s.reply r n).AlertsLegal :=
  (State.KeepsAlerts.modWindow s _).legal ha

theorem State.Sound.alerts_issue (code : Word) {d : State → State} (hs : s.Sound)
    (hd : ∀ t : State, t.Sound → (d t).AlertsLegal) : (s.issue code d).AlertsLegal := by
  have hcode := hs.modWindow fun w => { w with command := code }
  unfold State.issue
  split
  · exact hs.alerts
  · dsimp only
    split
    · exact alertsLegal_reply _ _ hcode.alerts
    · exact hd _ hcode

theorem alertsLegal_withStation {body : StationIndex → State} (ha : s.AlertsLegal)
    (hb : ∀ i, (body i).AlertsLegal) : (s.withStation body).AlertsLegal := by
  unfold State.withStation
  split
  · exact alertsLegal_reply _ _ ha
  · exact hb _

theorem alertsLegal_cmdStationConfigure (ha : s.AlertsLegal) : s.cmdStationConfigure.AlertsLegal := by
  refine alertsLegal_withStation ha fun i => ?_
  dsimp only
  split
  · exact alertsLegal_reply _ _ ha
  next hidle =>
  split
  · exact alertsLegal_reply _ _ ha
  split
  · exact alertsLegal_reply _ _ ha
  split
  · exact alertsLegal_reply _ _ ha
  exact alertsLegal_reply _ _ (alertsLegal_modIdle _ ha ((isIdle_iff _).1 (by simpa using hidle)))

theorem alertsLegal_cmdStationEnable (ha : s.AlertsLegal) : s.cmdStationEnable.AlertsLegal := by
  refine alertsLegal_withStation ha fun i => ?_
  split
  · next hk => exact alertsLegal_reply _ _ (alertsLegal_modIdle _ ha (by rw [hk]; rfl))
  · exact alertsLegal_reply _ _ ha

theorem alertsLegal_cmdStationDisable (ha : s.AlertsLegal) : s.cmdStationDisable.AlertsLegal := by
  refine alertsLegal_withStation ha fun i => ?_
  dsimp only
  split
  · split
    · exact alertsLegal_reply _ _ (alertsLegal_modMarks i _ ha)
    · exact alertsLegal_reply _ _ (alertsLegal_disableNow i ha)
  · split
    · exact alertsLegal_reply _ _ ha
    · exact alertsLegal_reply _ _ ha

theorem alertsLegal_cmdStationClear (ha : s.AlertsLegal) : s.cmdStationClear.AlertsLegal := by
  refine alertsLegal_withStation ha fun i => ?_
  split
  · next hk => exact alertsLegal_reply _ _ (alertsLegal_modIdle _ ha (by rw [hk]; rfl))
  · exact alertsLegal_reply _ _ ha

theorem alertsLegal_cmdStationZeroCounts (ha : s.AlertsLegal) : s.cmdStationZeroCounts.AlertsLegal := by
  refine alertsLegal_withStation ha fun i => ?_
  split
  · exact alertsLegal_reply _ _ ha
  · exact alertsLegal_reply _ _ (alertsLegal_modMarks i _ ha)

end

/-! ### The other commands -/

section
variable (s : State)

theorem State.KeepsAlerts.reply (r : Result) (n : Nat) : s.KeepsAlerts (s.reply r n) :=
  .modWindow s _

theorem State.KeepsAlerts.andReply {s t : State} (h : s.KeepsAlerts t) (r : Result) (n : Nat) :
    s.KeepsAlerts (t.reply r n) :=
  h.trans (.reply t r n)

theorem State.KeepsAlerts.cmdListSwap : s.KeepsAlerts s.cmdListSwap := by
  unfold State.cmdListSwap
  split
  · exact .reply s _ _
  next l _ =>
  dsimp only
  split
  · exact .reply s _ _
  split
  · exact .reply s _ _
  split
  · exact (State.KeepsAlerts.modLine_finish s l _).andReply _ _
  · exact (State.KeepsAlerts.modLine s l _).andReply _ _

theorem State.KeepsAlerts.cmdSubmit : s.KeepsAlerts s.cmdSubmit := by
  unfold State.cmdSubmit
  dsimp only
  split
  · exact .reply s _ _
  next l _ =>
  split
  · exact .reply s _ _
  split
  · exact .reply s _ _
  split
  · exact .reply s _ _
  split
  · exact .reply s _ _
  · exact (State.KeepsAlerts.modLine_finish s l _).andReply _ _

theorem State.KeepsAlerts.releaseHead : s.KeepsAlerts s.releaseHead.finish :=
  ((State.KeepsAlerts.withQueue s _).trans (.serve _)).trans (.finish _)

theorem State.KeepsAlerts.cmdQueueRelease : s.KeepsAlerts s.cmdQueueRelease := by
  unfold State.cmdQueueRelease
  split
  · exact .reply s _ _
  split
  · exact .reply s _ _
  · exact (State.KeepsAlerts.releaseHead s).andReply _ _

theorem State.KeepsAlerts.cmdQueueFlush : s.KeepsAlerts s.cmdQueueFlush := by
  unfold State.cmdQueueFlush
  split
  · exact .reply s _ _
  · exact (State.KeepsAlerts.withQueue s _).andReply _ _

theorem State.KeepsAlerts.cmdQueueSetThreshold : s.KeepsAlerts s.cmdQueueSetThreshold := by
  unfold State.cmdQueueSetThreshold
  dsimp only
  split
  · exact .reply s _ _
  · exact (State.KeepsAlerts.withQueue s _).andReply _ _

theorem State.KeepsAlerts.cmdDrainMode : s.KeepsAlerts s.cmdDrainMode := by
  unfold State.cmdDrainMode
  split
  · exact .reply s _ _
  split
  · exact .reply s _ _
  · exact (State.KeepsAlerts.withQueue s _).andReply _ _

theorem State.KeepsAlerts.drive (w : Word) : s.KeepsAlerts (s.drive w) :=
  .modWindow s _

/-- A word of the head record is taken, and the record released if it was its last (R118, R140). -/
theorem State.KeepsAlerts.takeWord (w : Word) : s.KeepsAlerts ((s.drive w).advanceCursor) ∧
    s.KeepsAlerts ((s.drive w).advanceCursor.releaseHead.finish) := by
  have htake : s.KeepsAlerts ((s.drive w).advanceCursor) := (State.KeepsAlerts.drive s w).trans (.withQueue _ _)
  exact ⟨htake, htake.trans (.releaseHead _)⟩

theorem State.KeepsAlerts.queueDataRead : s.KeepsAlerts s.queueDataRead := by
  unfold State.queueDataRead
  split
  · split
    · exact .drive s _
    · split
      · exact .drive s _
      · exact (State.KeepsAlerts.takeWord s _).1
    · split
      · exact .drive s _
      · dsimp only
        split
        · exact (State.KeepsAlerts.takeWord s _).2
        · exact (State.KeepsAlerts.takeWord s _).1
  · exact .drive s _

theorem State.KeepsAlerts.dackStrobe : s.KeepsAlerts s.dackStrobe := by
  unfold State.dackStrobe
  split
  · split
    · exact .drive s _
    · exact .drive s _
    · split
      · exact .drive s _
      · dsimp only
        split
        · exact (State.KeepsAlerts.takeWord s _).2
        · exact (State.KeepsAlerts.takeWord s _).1
  · exact .drive s _

theorem State.KeepsAlerts.withLine {s : State} {body : Line → State} (hb : ∀ l, s.KeepsAlerts (body l)) :
    s.KeepsAlerts (s.withLine body) := by
  unfold State.withLine
  split
  · exact .reply s _ _
  · exact hb _

theorem State.KeepsAlerts.cmdLineSet : s.KeepsAlerts s.cmdLineSet := by
  refine .withLine fun l => ?_
  split
  · exact .reply s _ _
  split
  · exact .reply s _ _
  split
  · exact (State.KeepsAlerts.modLine s l _).andReply _ _
  · exact .reply s _ _

theorem State.KeepsAlerts.cmdLineStart : s.KeepsAlerts s.cmdLineStart := by
  refine .withLine fun l => ?_
  split
  · refine (State.KeepsAlerts.modLine_finish s l _ ?_).andReply _ _
    unfold LineEngine.start
    dsimp only
    split <;> rfl
  · exact .reply s _ _

theorem State.KeepsAlerts.stopRunning (l : Line) : s.KeepsAlerts (s.stopRunning l) := by
  unfold State.stopRunning
  split
  · exact (State.KeepsAlerts.modLine s l _).andReply _ _
  split
  · exact ((State.KeepsAlerts.discardPending s l).trans (.enterStopped_finish _ l)).andReply _ _
  · exact (State.KeepsAlerts.enterStopped_finish s l).andReply _ _

theorem State.KeepsAlerts.cmdLineStop : s.KeepsAlerts s.cmdLineStop := by
  refine .withLine fun l => ?_
  split
  · exact .reply s _ _
  · exact .reply s _ _
  · exact .reply s _ _
  · exact .stopRunning s l

end

section
variable {s : State}

theorem alertsLegal_withLine {body : Line → State} (ha : s.AlertsLegal) (hb : ∀ l, (body l).AlertsLegal) :
    (s.withLine body).AlertsLegal := by
  unfold State.withLine
  split
  · exact alertsLegal_reply _ _ ha
  · exact hb _

theorem State.Sound.alerts_cmdLineHalt (hs : s.Sound) : s.cmdLineHalt.AlertsLegal := by
  refine alertsLegal_withLine hs.alerts fun l => ?_
  split
  · exact alertsLegal_reply _ _ hs.alerts
  · exact ((State.KeepsAlerts.enterStopped_finish _ l).andReply _ _).legal (hs.alerts_cutShort l)

/-- LINE RESET empties the alert set of the line and makes its stations UNKNOWN; the other line's stand (R132). -/
theorem alertsLegal_resetStations (l : Line) (ha : s.AlertsLegal) :
    ((s.modLine l LineEngine.resetCounters).resetStations l).AlertsLegal := by
  intro m
  rw [line_resetStations]
  by_cases hm : m = l
  · subst hm
    rw [State.line_modLine]
    exact ⟨List.Pairwise.nil, fun i hi => absurd hi List.not_mem_nil⟩
  · rw [State.line_modLine_ne _ _ hm]
    refine ⟨(ha m).1, fun i hi => ?_⟩
    obtain ⟨hline, hstate⟩ := (ha m).2 i hi
    have hout : ¬ ((s.entry i).line = l ∧ isWorking (s.entry i).state = true) := fun h => hm (hline.symm.trans h.1)
    rw [State.entry_resetStations, State.entry_modLine, Entry.resetOnLine, if_neg hout]
    exact ⟨hline, hstate⟩

theorem State.Sound.alerts_cmdLineReset (hs : s.Sound) : s.cmdLineReset.AlertsLegal :=
  alertsLegal_withLine hs.alerts fun l => ((State.KeepsAlerts.enterStopped_finish _ l).andReply _ _).legal
    (alertsLegal_resetStations l (hs.alerts_cutShort l))

theorem alertsLegal_resetEffects (s : State) : s.resetEffects.AlertsLegal := by
  intro m
  cases m <;> exact ⟨List.Pairwise.nil, fun i hi => absurd hi List.not_mem_nil⟩

theorem State.Sound.alerts_decideCommand (k : Command) (hs : s.Sound) : (s.decideCommand k).AlertsLegal := by
  cases k with
  | stationConfigure => exact alertsLegal_cmdStationConfigure hs.alerts
  | stationEnable => exact alertsLegal_cmdStationEnable hs.alerts
  | stationDisable => exact alertsLegal_cmdStationDisable hs.alerts
  | stationClear => exact alertsLegal_cmdStationClear hs.alerts
  | stationZeroCounts => exact alertsLegal_cmdStationZeroCounts hs.alerts
  | listSwap => exact (State.KeepsAlerts.cmdListSwap s).legal hs.alerts
  | submit => exact (State.KeepsAlerts.cmdSubmit s).legal hs.alerts
  | queueRelease => exact (State.KeepsAlerts.cmdQueueRelease s).legal hs.alerts
  | queueFlush => exact (State.KeepsAlerts.cmdQueueFlush s).legal hs.alerts
  | queueSetThreshold => exact (State.KeepsAlerts.cmdQueueSetThreshold s).legal hs.alerts
  | drainMode => exact (State.KeepsAlerts.cmdDrainMode s).legal hs.alerts
  | lineSet => exact (State.KeepsAlerts.cmdLineSet s).legal hs.alerts
  | lineStart => exact (State.KeepsAlerts.cmdLineStart s).legal hs.alerts
  | lineStop => exact (State.KeepsAlerts.cmdLineStop s).legal hs.alerts
  | lineHalt => exact hs.alerts_cmdLineHalt
  | lineReset => exact hs.alerts_cmdLineReset
  | partReset => exact alertsLegal_resetEffects s

theorem State.Sound.alerts_command (k : Command) (hs : s.Sound) :
    (s.issue (commandCode k) fun t => t.decideCommand k).AlertsLegal :=
  hs.alerts_issue _ fun _ ht => ht.alerts_decideCommand k

theorem State.Sound.alerts_writeCommand (code : Word) (hs : s.Sound) : (s.writeCommand code).AlertsLegal := by
  refine hs.alerts_issue _ fun t ht => ?_
  unfold State.decideWord
  split
  · exact ht.alerts_decideCommand _
  · exact alertsLegal_reply _ _ ht.alerts

end

/-! ### The host window -/

section
variable (s : State)

theorem State.KeepsAlerts.tableStore (r : BitVec 4) (k : Nat) (w : Word) : s.KeepsAlerts (s.tableStore r k w) := by
  unfold State.tableStore
  split
  · exact .refl s
  · split
    · exact .modWindow s _
    · exact .refl s
  · next l n _ =>
    split
    · split
      · exact .modLine s l _ (by cases n <;> rfl)
      · exact .modWindow s _
    · exact .refl s
  · next l _ => exact .modLine s l _

theorem State.KeepsAlerts.tableDataRead : s.KeepsAlerts s.tableDataRead := by
  unfold State.tableDataRead
  split
  · exact .drive s _
  · exact (State.KeepsAlerts.drive s _).trans (.modWindow _ _)

theorem State.KeepsAlerts.tableDataWrite (w : Word) : s.KeepsAlerts (s.tableDataWrite w) := by
  unfold State.tableDataWrite
  split
  · exact .refl s
  · refine State.KeepsAlerts.trans ?_ (.modWindow _ _)
    split
    · exact .tableStore s _ _ _
    · exact .refl s

theorem State.KeepsAlerts.partStatusRead : s.KeepsAlerts s.partStatusRead := by
  unfold State.partStatusRead
  split
  · exact .drive s _
  · exact (State.KeepsAlerts.drive s _).trans (.modWindow _ _)

theorem State.KeepsAlerts.withInterrupts (u : InterruptUnit) : s.KeepsAlerts { s with interrupts := u } :=
  .of_lines rfl fun m => by cases m <;> rfl

theorem State.KeepsAlerts.intEnableWrite (w : Word) : s.KeepsAlerts (s.intEnableWrite w) :=
  .whenLive (.withInterrupts s _)

theorem State.KeepsAlerts.intAckWrite (w : Word) : s.KeepsAlerts (s.intAckWrite w) := by
  refine .whenLive ?_
  split
  · exact .refl s
  · exact .refl s
  · exact .withInterrupts s _

theorem State.Sound.alerts_registerWrite {s : State} (a : BitVec 5) (w : Word) (hs : s.Sound) :
    (s.registerWrite a w).AlertsLegal := by
  have hwindow (f : Window → Window) : (s.modWindow f).AlertsLegal := (hs.modWindow f).alerts
  unfold State.registerWrite
  split
  · exact hs.alerts
  · split
    · exact hs.alerts_writeCommand w
    · exact hwindow _
    · exact hwindow _
    · exact hwindow _
    · exact hwindow _
    · exact hwindow _
    · exact (State.KeepsAlerts.tableDataWrite s w).legal hs.alerts
    · exact (State.KeepsAlerts.intEnableWrite s w).legal hs.alerts
    · exact (State.KeepsAlerts.intAckWrite s w).legal hs.alerts
    · exact hs.alerts

theorem State.KeepsAlerts.releaseReset : s.KeepsAlerts s.releaseReset := by
  unfold State.releaseReset
  split
  · exact .modWindow s _
  · exact .refl s

theorem State.KeepsAlerts.endInit : s.KeepsAlerts s.endInit := by
  unfold State.endInit
  split
  · exact .refl s
  · exact .modWindow s _

end

/-! ### Every row, and the step -/

theorem State.Sound.alerts_exec {s : State} (i : Instr) (hs : s.Sound) :
    ∃ t, Sys2Proof.Machine.exec i s = .next t ∧ t.AlertsLegal := by
  have kept {t : State} (h : s.KeepsAlerts t) : t.AlertsLegal := h.legal hs.alerts
  cases i with
  | hardwareResetAssert => exact ⟨_, rfl, (State.KeepsAlerts.modWindow _ _).legal (alertsLegal_resetEffects s)⟩
  | hardwareResetRelease => exact ⟨_, rfl, kept (.releaseReset s)⟩
  | initEnd => exact ⟨_, rfl, kept (.endInit s)⟩
  | stationConfigure => exact ⟨_, rfl, hs.alerts_command .stationConfigure⟩
  | stationEnable => exact ⟨_, rfl, hs.alerts_command .stationEnable⟩
  | stationDisable => exact ⟨_, rfl, hs.alerts_command .stationDisable⟩
  | stationClear => exact ⟨_, rfl, hs.alerts_command .stationClear⟩
  | stationZeroCounts => exact ⟨_, rfl, hs.alerts_command .stationZeroCounts⟩
  | listSwap => exact ⟨_, rfl, hs.alerts_command .listSwap⟩
  | submit => exact ⟨_, rfl, hs.alerts_command .submit⟩
  | queueRelease => exact ⟨_, rfl, hs.alerts_command .queueRelease⟩
  | queueFlush => exact ⟨_, rfl, hs.alerts_command .queueFlush⟩
  | queueSetThreshold => exact ⟨_, rfl, hs.alerts_command .queueSetThreshold⟩
  | drainMode => exact ⟨_, rfl, hs.alerts_command .drainMode⟩
  | lineSet => exact ⟨_, rfl, hs.alerts_command .lineSet⟩
  | lineStart => exact ⟨_, rfl, hs.alerts_command .lineStart⟩
  | lineStop => exact ⟨_, rfl, hs.alerts_command .lineStop⟩
  | lineHalt => exact ⟨_, rfl, hs.alerts_command .lineHalt⟩
  | lineReset => exact ⟨_, rfl, hs.alerts_command .lineReset⟩
  | partReset => exact ⟨_, rfl, hs.alerts_command .partReset⟩
  | unknownCommand code => exact ⟨_, rfl, hs.alerts_writeCommand code⟩
  | queueDataRead => exact ⟨_, rfl, kept (.queueDataRead s)⟩
  | tableDataRead => exact ⟨_, rfl, kept (.tableDataRead s)⟩
  | tableDataWrite w => exact ⟨_, rfl, kept (.tableDataWrite s w)⟩
  | partStatusRead => exact ⟨_, rfl, kept (.partStatusRead s)⟩
  | intEnableWrite w => exact ⟨_, rfl, kept (.intEnableWrite s w)⟩
  | intAckWrite w => exact ⟨_, rfl, kept (.intAckWrite s w)⟩
  | registerWrite a w => exact ⟨_, rfl, hs.alerts_registerWrite a w⟩
  | dackStrobe overlap => cases overlap <;> exact ⟨_, rfl, kept (.dackStrobe s)⟩
  | startDetected l => exact ⟨_, rfl, kept (.startDetected s l)⟩
  | character l v f => exact ⟨_, rfl, hs.alerts_character l v f⟩
  | waitMarkEnd l => exact ⟨_, rfl, kept (.waitMarkEnd s l)⟩
  | quietReached l => exact ⟨_, rfl, kept (.quietReached s l)⟩
  | noiseLimitExpiry l => exact ⟨_, rfl, hs.alerts_noiseLimitExpiry l⟩
  | transmitCharacterEnd l => exact ⟨_, rfl, hs.alerts_transmitCharacterEnd l⟩
  | responseTimeout l => exact ⟨_, rfl, hs.alerts_responseTimeout l⟩
  | gapLimitExpiry l => exact ⟨_, rfl, hs.alerts_gapLimitExpiry l⟩
  | backoffEnd l => exact ⟨_, rfl, kept (.backoffEnd s l)⟩
  | settleEnd l => exact ⟨_, rfl, hs.alerts_settleEnd l⟩
  | intervalElapsed l => exact ⟨_, rfl, kept (.intervalElapsed s l)⟩
  | unitStart l => exact ⟨_, rfl, kept (.unitStart s l)⟩
  | deferredDisable i => exact ⟨_, rfl, hs.alerts_deferredDisable i⟩
  | stoppingLineStopped l => exact ⟨_, rfl, kept (.stoppingLineStopped s l)⟩
  | holdListGrant => exact ⟨_, rfl, kept (.holdListGrant s)⟩
  | workSelection l => exact ⟨_, rfl, kept (.workSelection s l)⟩
  | pendingSwapTakesEffect l => exact ⟨_, rfl, kept (.pendingSwapTakesEffect s l)⟩
  | cycleStart l => exact ⟨_, rfl, kept (.cycleStart s l)⟩

theorem State.Sound.alerts_step {s t : State} (hs : s.Sound) (h : Sys2Proof.Machine.step s = .next t) :
    t.AlertsLegal := by
  unfold Sys2Proof.Machine.step at h
  split at h
  · obtain rfl := Host.Outcome.next.inj h
    exact hs.alerts_passTime
  · next i rest _ =>
    have hline : ∀ m, ({ s with pending := rest } : State).line m = s.line m := fun m => by cases m <;> rfl
    have hservice : s.SameService { s with pending := rest } := State.SameService.of_lines rfl hline
    have hkept : s.KeepsAlerts { s with pending := rest } := State.KeepsAlerts.of_lines rfl hline
    have htaken : ({ s with pending := rest } : State).Sound :=
      hs.next hservice.course (coherent_withPending rest hs.coherent) (hkept.legal hs.alerts)
    obtain ⟨u, hu, ha⟩ := htaken.alerts_exec i
    rw [hu] at h
    obtain rfl := Host.Outcome.next.inj h
    exact ha

end Sys2Proof.Machine
end

section
/-! PROOFS. The alert sets through every step. -/

namespace Sys2Proof.Machine

/-- Settles O59. What rests on the end of a unit is `alertsLegal_completeUnit`; selection and serving only take stations
out of the sets. -/
theorem alertSetsKept : Obligations.AlertSetsKept := by
  intro s t h hc hlegal howned hunits ha
  have hs : s.Sound := ⟨hc, hlegal, (lineServed_iff hlegal).2 ⟨howned, hunits⟩, ha⟩
  exact hs.alerts_step h

end Sys2Proof.Machine
end

section
/-! SUPPORT. SUBMIT in READY, branch by branch (Table 5-1), the fields it takes from the PARAM registers, and the bytes
of a submit buffer. -/

namespace Sys2Proof.Machine

/-! ### The fields of SUBMIT -/

/-- Where Table 11-12 places the fields of SUBMIT, as numbers. -/
theorem Window.submitFields_eq (w : Window) : w.submitFields =
    { lineCode := w.param0.toNat, kindCode := w.param1.toNat / 256, station := w.param1.toNat % 256,
      group := w.param2.toNat / 256, count := w.param2.toNat % 256, tag := w.param3.toNat } := by
  simp only [Window.submitFields, hiByte_toNat, loByte_toNat]

theorem requestKindOfCode_eq_some {n : Nat} {k : RequestKind}
    (h : n = match k with | .poll => 1 | .set => 2 | .bcast => 3) : requestKindOfCode n = some k := by
  subst h
  cases k <;> rfl

theorem requestKindOfCode_eq_none {n : Nat} (h : n < 1 ∨ 3 < n) : requestKindOfCode n = none := by
  unfold requestKindOfCode
  split
  · omega
  · omega
  · omega
  · rfl

theorem requestKindOfCode_of_range {n : Nat} (h1 : 1 ≤ n) (h3 : n ≤ 3) :
    ∃ k, requestKindOfCode n = some k ∧ ((n = 1 ∨ n = 2) ↔ k ≠ .bcast) := by
  obtain rfl | rfl | rfl : n = 1 ∨ n = 2 ∨ n = 3 := by omega
  · exact ⟨.poll, rfl, by decide⟩
  · exact ⟨.set, rfl, by decide⟩
  · exact ⟨.bcast, rfl, by decide⟩

section
variable {f : SubmitFields} {k : RequestKind}

theorem SubmitFields.badField_station (hk : k ≠ .bcast) (h : 63 < f.station) : f.badField k = some 2 :=
  if_pos ⟨hk, h⟩

variable (hstation : k ≠ .bcast → f.station ≤ 63)
include hstation

/-- Steps 4 to 6 of Table 5-1, once the station index has passed. -/
theorem SubmitFields.badField_of_station : f.badField k =
    if 15 < f.group then some 3 else if 40 < f.count then some 4 else if 255 < f.tag then some 5 else none :=
  if_neg fun h => Nat.not_lt.mpr (hstation h.1) h.2

theorem SubmitFields.stationIndex_val : (f.stationIndex k).val = if k = .bcast then 0 else f.station := by
  cases k with
  | bcast => rfl
  | poll => exact Nat.mod_eq_of_lt (Nat.lt_succ_of_le (hstation (by decide)))
  | set => exact Nat.mod_eq_of_lt (Nat.lt_succ_of_le (hstation (by decide)))

theorem SubmitFields.stationIndex_eq {i : StationIndex} (hk : k ≠ .bcast) (hi : i.val = f.station) :
    f.stationIndex k = i := by
  refine Fin.ext ?_
  rw [SubmitFields.stationIndex_val hstation, if_neg hk, hi]

end

/-! ### The entry of the station -/

section
variable {s : State} {l : Line} {k : RequestKind} {i : StationIndex}

theorem submitStateRefusal_unconfigured (hk : k ≠ .bcast) (h : (s.entry i).state = .unconfigured) :
    s.submitStateRefusal l k i = some (stationStateCode (s.entry i).state) := by
  rw [State.submitStateRefusal, if_neg hk, if_pos h]

theorem submitStateRefusal_other_line (hk : k ≠ .bcast) (h : (s.entry i).state ≠ .unconfigured)
    (hl : (s.entry i).line ≠ l) : s.submitStateRefusal l k i = some (stationStateCode (s.entry i).state + 0x80) := by
  rw [State.submitStateRefusal, if_neg hk, if_neg h, if_pos hl]

theorem submitStateRefusal_none (h : k ≠ .bcast → (s.entry i).state ≠ .unconfigured ∧ (s.entry i).line = l) :
    s.submitStateRefusal l k i = none := by
  unfold State.submitStateRefusal
  split
  · rfl
  · next hk => rw [if_neg (h hk).1, if_neg (not_not.2 (h hk).2)]

end

/-! ### The decision -/

theorem exec_submit {s : State} (hlive : s.live = true) : exec .submit s = .next (s.commanded 0x0021).cmdSubmit :=
  congrArg Host.Outcome.next (issue_of_live _ State.cmdSubmit hlive)

theorem line_commanded (s : State) (code : Word) (l : Line) : (s.commanded code).line l = s.line l := by
  cases l <;> rfl

section
variable {s : State} (code : Word)

theorem cmdSubmit_of_no_line (h : 1 < s.window.param0.toNat) :
    (s.commanded code).cmdSubmit = s.decided code .range 0 := by
  have hnone : lineOfCode (s.commanded code).window.submitFields.lineCode = none := (lineOfCode_none_iff _).2 h
  simp only [State.cmdSubmit, hnone, State.reply_commanded]

variable {l : Line} (hl : lineOfCode s.window.submitFields.lineCode = some l)
include hl

theorem cmdSubmit_of_no_kind (h : requestKindOfCode s.window.submitFields.kindCode = none) :
    (s.commanded code).cmdSubmit = s.decided code .range 1 := by
  have hline : lineOfCode (s.commanded code).window.submitFields.lineCode = some l := hl
  have hnone : requestKindOfCode (s.commanded code).window.submitFields.kindCode = none := h
  simp only [State.cmdSubmit, hline, hnone, State.reply_commanded]

variable {k : RequestKind} (hk : requestKindOfCode s.window.submitFields.kindCode = some k)
include hk

/-- SUBMIT of a known kind on a line: the fields, the entry of the station, the room in the queue (R85, R86). -/
theorem cmdSubmit_of_kind : (s.commanded code).cmdSubmit =
    match s.window.submitFields.badField k with
    | some n => s.decided code .range n
    | none =>
      match s.submitStateRefusal l k (s.window.submitFields.stationIndex k) with
      | some n => s.decided code .state n
      | none =>
        if 8 ≤ (s.line l).directed.length then s.decided code .full 8
        else (((s.commanded code).setLine l { s.line l with
          directed := (s.line l).directed ++ [s.newDirected l k s.window.submitFields] }).finish).reply .accepted
            ((s.line l).directed.length + 1) := by
  have hline : lineOfCode (s.commanded code).window.submitFields.lineCode = some l := hl
  have hkind : requestKindOfCode (s.commanded code).window.submitFields.kindCode = some k := hk
  simp only [State.cmdSubmit, hline, hkind, State.reply_commanded, State.modLine_eq_setLine, line_commanded,
    State.newDirected] <;> rfl

theorem cmdSubmit_badField {n : Nat} (h : s.window.submitFields.badField k = some n) :
    (s.commanded code).cmdSubmit = s.decided code .range n := by
  simp only [cmdSubmit_of_kind code hl hk, h]

variable (hfields : s.window.submitFields.badField k = none)
include hfields

theorem cmdSubmit_stateRefused {n : Nat}
    (h : s.submitStateRefusal l k (s.window.submitFields.stationIndex k) = some n) :
    (s.commanded code).cmdSubmit = s.decided code .state n := by
  simp only [cmdSubmit_of_kind code hl hk, hfields, h]

variable (hstate : s.submitStateRefusal l k (s.window.submitFields.stationIndex k) = none)
include hstate

theorem cmdSubmit_full (h : 8 ≤ (s.line l).directed.length) :
    (s.commanded code).cmdSubmit = s.decided code .full 8 := by
  simp only [cmdSubmit_of_kind code hl hk, hfields, hstate, if_pos h]

theorem cmdSubmit_accepted (h : (s.line l).directed.length < 8) : (s.commanded code).cmdSubmit =
    (((s.commanded code).setLine l { s.line l with
      directed := (s.line l).directed ++ [s.newDirected l k s.window.submitFields] }).finish).reply .accepted
        ((s.line l).directed.length + 1) := by
  simp only [cmdSubmit_of_kind code hl hk, hfields, hstate, if_neg (Nat.not_le.mpr h)]

end

/-! ### The payload -/

/-- Byte n of a submit buffer is a half of its word n / 2, the high half first (R84). -/
theorem getElem?_wordBytes : ∀ (ws : List Word) (n : Nat), (ws.flatMap fun w => [hiByte w, loByte w])[n]? =
    ws[n / 2]?.map fun w => if n % 2 = 0 then hiByte w else loByte w
  | [], n => by simp
  | w :: ws, 0 => by simp
  | w :: ws, 1 => by simp
  | w :: ws, n + 2 => by
    have hdiv : (n + 2) / 2 = n / 2 + 1 := by omega
    have hmod : (n + 2) % 2 = n % 2 := by omega
    rw [hdiv, hmod, List.flatMap_cons, List.getElem?_cons_succ, ← getElem?_wordBytes ws n]
    rfl

theorem submitPayload_of_ne_poll {k : RequestKind} (hk : k ≠ .poll) (n : Nat) (b : Vector Word 20) :
    submitPayload k n b = (bufferBytes b).take n := by
  cases k with
  | poll => exact absurd rfl hk
  | _ => rfl

theorem getElem?_submitPayload {k : RequestKind} {n j : Nat} (b : Vector Word 20) (hn : n ≤ 40)
    (hj : j < (submitPayload k n b).length) : ∃ w, b[j / 2]? = some w ∧
      (submitPayload k n b)[j]? = some (if j % 2 = 0 then w.extractLsb' 8 8 else w.extractLsb' 0 8) := by
  have hk : k ≠ .poll := by
    rintro rfl
    exact Nat.not_lt_zero j hj
  rw [submitPayload_length hk hn] at hj
  have hword : j / 2 < 20 := by omega
  refine ⟨b[j / 2], by simp [hword], ?_⟩
  rw [submitPayload_of_ne_poll hk, List.getElem?_take_of_lt hj, bufferBytes, getElem?_wordBytes]
  simp [hword, hiByte, loByte]

end Sys2Proof.Machine
end

section
/-! PROOFS. The statements about SUBMIT (Table 5-1). -/

namespace Sys2Proof.Machine

/-- Settles O28: the checks in the order of Table 5-1, one equation for each. -/
theorem submitRefused : Obligations.SubmitRefused := by
  intro s hlive kind station group count targets refused
  have hfields := s.window.submitFields_eq
  refine ⟨fun h => (exec_submit hlive).trans (congrArg _ (cmdSubmit_of_no_line _ h)), fun l hl => ?_⟩
  have hline : lineOfCode s.window.submitFields.lineCode = some l := lineOfCode_eq_some hl
  refine ⟨fun h => ?_, fun h1 h3 => ?_⟩
  · have hnone : requestKindOfCode s.window.submitFields.kindCode = none := by
      rw [hfields]
      exact requestKindOfCode_eq_none h
    exact (exec_submit hlive).trans (congrArg _ (cmdSubmit_of_no_kind _ hline hnone))
  obtain ⟨k, hk, htargets⟩ := requestKindOfCode_of_range h1 h3
  have hkind : requestKindOfCode s.window.submitFields.kindCode = some k := by
    rw [hfields]
    exact hk
  have hrange {n : Nat} (h : s.window.submitFields.badField k = some n) : refused .range n :=
    (exec_submit hlive).trans (congrArg _ (cmdSubmit_badField _ hline hkind h))
  refine ⟨fun ht h => hrange (SubmitFields.badField_station (htargets.1 ht) ?_), fun hs => ?_⟩
  · rw [hfields]
    exact h
  have hstation : k ≠ .bcast → s.window.submitFields.station ≤ 63 := fun hb => by
    rw [hfields]
    exact hs (htargets.2 hb)
  have hbad : s.window.submitFields.badField k = if 15 < group then some 3 else if 40 < count then some 4
      else if 255 < s.window.param3.toNat then some 5 else none := by
    rw [SubmitFields.badField_of_station hstation, hfields]
  have hindex {i : StationIndex} (ht : targets) (hi : i.val = station) :
      s.window.submitFields.stationIndex k = i :=
    SubmitFields.stationIndex_eq hstation (htargets.1 ht) (by rw [hfields]; exact hi)
  refine ⟨fun hg => hrange ?_, fun hg hc => hrange ?_, fun hg hc ht => hrange ?_, fun hg hc ht => ?_⟩
  · rw [hbad, if_pos hg]
  · rw [hbad, if_neg (Nat.not_lt.mpr hg), if_pos hc]
  · rw [hbad, if_neg (Nat.not_lt.mpr hg), if_neg (Nat.not_lt.mpr hc), if_pos ht]
  have hgood : s.window.submitFields.badField k = none := by
    rw [hbad, if_neg (Nat.not_lt.mpr hg), if_neg (Nat.not_lt.mpr hc), if_neg (Nat.not_lt.mpr ht)]
  have hrefusal {n : Nat} (h : s.submitStateRefusal l k (s.window.submitFields.stationIndex k) = some n) :
      refused .state n :=
    (exec_submit hlive).trans (congrArg _ (cmdSubmit_stateRefused _ hline hkind hgood h))
  refine ⟨fun i ht hi hu => hrefusal ?_, fun i ht hi hu hl => hrefusal ?_, fun hi hfull => ?_⟩
  · rw [hindex ht hi]
    exact submitStateRefusal_unconfigured (htargets.1 ht) hu
  · rw [hindex ht hi]
    exact submitStateRefusal_other_line (htargets.1 ht) hu hl
  · have hnone : s.submitStateRefusal l k (s.window.submitFields.stationIndex k) = none := by
      refine submitStateRefusal_none fun hb => hi _ (htargets.2 hb) ?_
      rw [SubmitFields.stationIndex_val hstation, if_neg hb, hfields]
    exact (exec_submit hlive).trans (congrArg _ (cmdSubmit_full _ hline hkind hgood hnone hfull))

/-- Settles O29: the entry that joins the queue is `State.newDirected`, its payload the head of the submit buffer. -/
theorem submitAccepted : Obligations.SubmitAccepted := by
  intro s l kind hlive hl hkind hs hg hc ht hi hroom
  have hfields := s.window.submitFields_eq
  have hline : lineOfCode s.window.submitFields.lineCode = some l := lineOfCode_eq_some hl
  have hk : requestKindOfCode s.window.submitFields.kindCode = some kind := by
    rw [hfields]
    exact requestKindOfCode_eq_some hkind
  have hstation : kind ≠ .bcast → s.window.submitFields.station ≤ 63 := by
    rw [hfields]
    exact hs
  have hval : (s.window.submitFields.stationIndex kind).val =
      if kind = .bcast then 0 else s.window.param1.toNat % 256 := by
    rw [SubmitFields.stationIndex_val hstation, hfields]
  have hgood : s.window.submitFields.badField kind = none := by
    rw [SubmitFields.badField_of_station hstation, hfields, if_neg (Nat.not_lt.mpr hg), if_neg (Nat.not_lt.mpr hc),
      if_neg (Nat.not_lt.mpr ht)]
  have hnone : s.submitStateRefusal l kind (s.window.submitFields.stationIndex kind) = none :=
    submitStateRefusal_none fun hb => hi _ hb (by rw [hval, if_neg hb])
  have hcount : s.window.submitFields.count = s.window.param2.toNat % 256 := by rw [hfields]
  refine ⟨s.newDirected l kind s.window.submitFields, rfl, hval, ?_, hcount, ?_, ?_, fun n hn => ?_, ?_⟩
  · rw [State.newDirected, hfields]
    exact toNat_ofNat_of_lt (Nat.lt_succ_of_le hg)
  · rw [State.newDirected, hfields]
    exact toNat_ofNat_of_lt (Nat.lt_succ_of_le ht)
  · rw [State.newDirected]
    split
    · next hp =>
      subst hp
      rfl
    · next hp => exact submitPayload_length hp (hcount ▸ hc)
  · exact getElem?_submitPayload _ (hcount ▸ hc) hn
  · intro v
    have hcode : v.window.command = 0x0021 := by rw [State.window_setLine]
    have hexec := exec_submit hlive
    rw [cmdSubmit_accepted _ hline hk hgood hnone hroom] at hexec
    refine ⟨?_, State.Selected.finish v, finish_of_none⟩
    rw [← reply_finish_eq_decided hcode]
    exact hexec

end Sys2Proof.Machine
end

section
/-! SUPPORT. That the arbiters and the serving of the hold list come to rest: a measure of what a line can still take up
at once, which every invocation of its arbiter and every grant to it brings down (R97, R100, R112, log entry 12). -/

namespace Sys2Proof.Machine

/-! ### When an arbiter is due -/

theorem alertNext_eq_none_iff {c : StationIndex} {xs : List StationIndex} : alertNext c xs = none ↔ xs = [] := by
  cases hfind : xs.find? (fun j => c < j) with
  | some k =>
    have hmem : k ∈ xs := List.mem_of_find?_eq_some hfind
    simp only [alertNext, hfind, reduceCtorEq, false_iff]
    exact List.ne_nil_of_mem hmem
  | none => simp only [alertNext, hfind, List.head?_eq_none_iff]

theorem LineEngine.priorityWork_isSome_iff (x : LineEngine) :
    x.priorityWork.isSome = true ↔ x.directed ≠ [] ∨ x.alertSet ≠ [] := by
  cases hd : x.directed with
  | cons e rest => simp [LineEngine.priorityWork, hd]
  | nil =>
    rw [LineEngine.priorityWork, hd, Option.isSome_map, ← Option.ne_none_iff_isSome, ne_eq, alertNext_eq_none_iff]
    simp

/-- An arbiter has something to do: a cycle to walk, a cycle to start, or priority work (R97). -/
theorem LineEngine.arbiterDue_iff (x : LineEngine) : x.arbiterDue = true ↔ x.free = true ∧
    (x.condition = .inCycle ∨
      (x.condition = .waiting ∨ x.condition = .idleEmpty) ∧ (x.cycleDue = true ∨ x.priorityWork.isSome = true)) := by
  cases h : x.condition <;> simp [LineEngine.arbiterDue, h]

theorem nextArbiter_eq_none_iff {s : State} : s.nextArbiter = none ↔ ∀ l, (s.line l).arbiterDue = false := by
  constructor
  · intro h l
    unfold State.nextArbiter at h
    split at h
    · cases h
    · cases h
    · cases h
    · next ha hb =>
      cases l with
      | a => exact ha
      | b => exact hb
  · intro h
    have ha : s.lineA.arbiterDue = false := h .a
    have hb : s.lineB.arbiterDue = false := h .b
    simp only [State.nextArbiter, ha, hb]

theorem nextArbiter_of_only {s : State} {l : Line} (hl : (s.line l).arbiterDue = true)
    (hother : ∀ m, m ≠ l → (s.line m).arbiterDue = false) :
    s.nextArbiter = some l ∧ (s.lineA.arbiterDue && s.lineB.arbiterDue) = false := by
  cases l with
  | a =>
    have ha : s.lineA.arbiterDue = true := hl
    have hb : s.lineB.arbiterDue = false := hother .b nofun
    simp [State.nextArbiter, ha, hb]
  | b =>
    have ha : s.lineA.arbiterDue = false := hother .a nofun
    have hb : s.lineB.arbiterDue = true := hl
    simp [State.nextArbiter, ha, hb]

theorem nextArbiter_of_both {s : State} (h : ∀ m, (s.line m).arbiterDue = true) :
    s.nextArbiter = some (if Config.raceFirst s.raceCount then .a else .b) ∧
      (s.lineA.arbiterDue && s.lineB.arbiterDue) = true := by
  have ha : s.lineA.arbiterDue = true := h .a
  have hb : s.lineB.arbiterDue = true := h .b
  simp [State.nextArbiter, ha, hb]

/-! ### What a line can still take up at once -/

/-- The boundaries and cycle starts a line can still pass at once, with one choice more. A cycle that starts now sets
the interval timer to 0, so the cycle after it is not due yet (R72, R80). -/
def LineEngine.cycleTurns (x : LineEngine) : Nat :=
  match x.condition with
  | .none => 0
  | .inCycle => if x.intervalReached then 4 else 2
  | .waiting => if x.cycleDue then 3 else 1
  | .idleEmpty => if x.cycleDue then 3 else 1

/-- A bound on the units a line can take up one after another, each of them completing at once: a directed unit that
ends FAULT STATION takes its entry from the queue, a mark ends a cycle. -/
def LineEngine.turnsLeft (x : LineEngine) : Nat :=
  x.directed.length + x.cycleTurns

theorem LineEngine.cycleTurns_le (x : LineEngine) : x.cycleTurns ≤ 4 := by
  unfold LineEngine.cycleTurns
  split
  · omega
  · split <;> omega
  · split <;> omega
  · split <;> omega

theorem LineEngine.turnsLeft_pos {x : LineEngine} (h : x.condition ≠ .none) : 1 ≤ x.turnsLeft := by
  have hcycle : 1 ≤ x.cycleTurns := by
    cases hc : x.condition with
    | none => exact absurd hc h
    | _ =>
      simp only [LineEngine.cycleTurns, hc]
      split <;> omega
  exact hcycle.trans (Nat.le_add_left _ _)

/-- From x to y the line stays as free as it was, with less left to take up. -/
structure LineEngine.Nearer (x y : LineEngine) : Prop where
  current : y.current = x.current
  chosen : y.chosen = x.chosen
  fewer : y.turnsLeft < x.turnsLeft

/-- A cycle that starts is followed by no other at once: its interval timer stands at 0 (R72, R80). -/
theorem LineEngine.Nearer.startCycle {x : LineEngine} (h : x.cycleDue = true) : x.Nearer x.startCycle := by
  refine ⟨rfl, rfl, Nat.add_lt_add_left ?_ _⟩
  have hstarted : x.startCycle.intervalReached = false := by
    rw [Bool.eq_false_iff, ne_eq, LineEngine.intervalReached_iff]
    have : 0 < max x.params.interval 1 * (160 * (x.params.rate + 1)) := by positivity
    exact Nat.not_le.mpr this
  have hnew : x.startCycle.cycleTurns = 2 := by
    show (if x.startCycle.intervalReached then 4 else 2) = 2
    rw [hstarted]
    rfl
  have hold : x.cycleTurns = 3 := by
    cases hc : x.condition with
    | none => simp [LineEngine.cycleDue, hc] at h
    | inCycle => simp [LineEngine.cycleDue, hc] at h
    | waiting => simp only [LineEngine.cycleTurns, hc, if_pos h]
    | idleEmpty => simp only [LineEngine.cycleTurns, hc, if_pos h]
  rw [hnew, hold]
  decide

/-- Behind the boundary no cycle is due on a line without a list, and on another one as the interval timer stands (R79,
R81). -/
theorem LineEngine.cycleTurns_afterBoundary (x : LineEngine) :
    ({ x with condition := if x.listLength = 0 then .idleEmpty else .waiting } : LineEngine).cycleTurns <
      if x.intervalReached then 4 else 2 := by
  by_cases hlength : x.listLength = 0
  · have hdue : ({ x with condition := .idleEmpty } : LineEngine).cycleDue = false :=
      decide_eq_false (not_not.2 hlength)
    simp only [if_pos hlength, LineEngine.cycleTurns, hdue]
    cases x.intervalReached <;> decide
  · have hdue : ({ x with condition := .waiting } : LineEngine).cycleDue = x.intervalReached := rfl
    simp only [if_neg hlength, LineEngine.cycleTurns, hdue]
    cases x.intervalReached <;> decide

/-- The boundary ends the cycle and leaves the interval timer as it stood. -/
theorem nearer_finishBoundary {s : State} {l : Line} (hc : (s.line l).condition = .inCycle) :
    (s.line l).Nearer ((s.finishBoundary l).line l) := by
  rw [line_finishBoundary, LineEngine.takeSwap_eq]
  refine ⟨rfl, rfl, Nat.add_lt_add_left ?_ _⟩
  have hold : (s.line l).cycleTurns = if (s.line l).intervalReached then 4 else 2 := by
    simp only [LineEngine.cycleTurns, hc]
  rw [hold]
  exact LineEngine.cycleTurns_afterBoundary _

/-! ### A unit taken up -/

/-- A unit an arbiter takes up as the line stands: a visit or a follow-up of a valid station, the head of the directed
queue, or the mark of a cycle that ends. -/
def State.apt (s : State) (l : Line) (w : Work) : Bool :=
  match w with
  | .visit _ i _ _ => s.stationValid l i
  | .alert i => s.stationValid l i
  | .directed e => decide ((s.line l).directed.head? = some e)
  | .mark _ _ => decide ((s.line l).condition = .inCycle)

theorem stationValid_congr {s t : State} {i : StationIndex} (l : Line)
    (h : (t.entry i).line = (s.entry i).line ∧ (t.entry i).state = (s.entry i).state) :
    t.stationValid l i = s.stationValid l i := by
  rw [State.stationValid, State.stationValid, h.1, h.2]

theorem apt_congr {s t : State} {l : Line} (w : Work)
    (hentry : ∀ i, (t.entry i).line = (s.entry i).line ∧ (t.entry i).state = (s.entry i).state)
    (hdirected : (t.line l).directed = (s.line l).directed) (hcondition : (t.line l).condition = (s.line l).condition) :
    t.apt l w = s.apt l w := by
  cases w with
  | visit k i g n => exact stationValid_congr l (hentry i)
  | alert i => exact stationValid_congr l (hentry i)
  | directed e => simp only [State.apt, hdirected]
  | mark v o => simp only [State.apt, hcondition]

section
variable {s : State} {l : Line}

theorem current_beginTargeted (w : Work) (i : StationIndex) :
    ((s.beginTargeted l w i).line l).current = some (newContext w (s.entry i)) := by
  rw [State.beginTargeted, State.line_modLine]
  cases w <;> rfl

theorem chosen_beginTargeted (w : Work) (i : StationIndex) :
    ((s.beginTargeted l w i).line l).chosen = (s.line l).chosen := by
  rw [State.beginTargeted, State.line_modLine, State.line_modEntry]
  cases w <;> rfl

theorem chosen_finishBoundary (s : State) (l : Line) : ((s.finishBoundary l).line l).chosen = (s.line l).chosen := by
  rw [line_finishBoundary]
  split <;> rfl

/-- The start of a unit leaves the pending unit of its line alone. -/
theorem chosen_startWork (s : State) (l : Line) (w : Work) : ((s.startWork l w).line l).chosen = (s.line l).chosen := by
  by_cases hv : ∃ i, workStation w = some i ∧ s.stationValid l i = true
  · obtain ⟨i, hw, hv⟩ := hv
    rw [State.startWork_of_valid hw hv, chosen_beginTargeted]
  cases w with
  | visit k i g n => rw [State.startWork_visit_invalid fun h => hv ⟨i, rfl, h⟩, State.line_setLine]
  | alert i => rw [State.startWork_alert_invalid fun h => hv ⟨i, rfl, h⟩, State.line_setLine]
  | directed e =>
    by_cases hk : e.kind = .bcast
    · rw [State.startWork_bcast hk, State.line_setLine]
    · rw [State.startWork_directed_invalid hk fun h => hv ⟨_, workStation_directed hk, h⟩, State.line_faultStation]
  | mark v o => rw [State.startWork_mark, chosen_finishBoundary, State.line_withQueue, State.line_setLine]

/-- An apt unit that starts stays in progress, or completes at once and leaves its line less to take up. -/
theorem startWork_progress {w : Work} (ha : s.apt l w = true) :
    ((s.startWork l w).line l).current.isSome = true ∨ (s.line l).Nearer ((s.startWork l w).line l) := by
  have hvalid {i : StationIndex} (hw : workStation w = some i) (hv : s.stationValid l i = true) :
      ((s.startWork l w).line l).current.isSome = true := by
    rw [State.startWork_of_valid hw hv, current_beginTargeted]
    rfl
  cases w with
  | visit k i g n => exact Or.inl (hvalid rfl ha)
  | alert i => exact Or.inl (hvalid rfl ha)
  | directed e =>
    by_cases hk : e.kind = .bcast
    · rw [State.startWork_bcast hk, State.line_setLine]
      exact Or.inl rfl
    by_cases hv : s.stationValid l e.station = true
    · exact Or.inl (hvalid (workStation_directed hk) hv)
    · rw [State.startWork_directed_invalid hk hv, State.line_faultStation]
      have hhead : (s.line l).directed.head? = some e := of_decide_eq_true ha
      obtain ⟨rest, hqueue⟩ := List.head?_eq_some_iff.1 hhead
      refine Or.inr ⟨rfl, rfl, Nat.add_lt_add_right ?_ _⟩
      rw [hqueue]
      exact Nat.lt_succ_self _
  | mark v o =>
    rw [State.startWork_mark]
    set t : State := { s.setLine l { s.line l with reservation := none } with
      queue := s.queue.push (.mark l v o (s.line l).cycleNumber) } with ht
    have hline : t.line l = { s.line l with reservation := none } := by
      rw [ht, State.line_withQueue, State.line_setLine]
    have hnearer : (t.line l).Nearer ((t.finishBoundary l).line l) :=
      nearer_finishBoundary (by rw [hline]; exact of_decide_eq_true ha)
    rw [hline] at hnearer
    exact Or.inr ⟨hnearer.current, hnearer.chosen, hnearer.fewer⟩

end

/-! ### One invocation of an arbiter -/

/-- What an arbiter that is due does to its line: a unit is in progress, or the line has less left to take up, or an apt
unit waits in the hold list. -/
def State.Advanced (l : Line) (s t : State) : Prop :=
  (t.line l).current.isSome = true ∨ (s.line l).Nearer (t.line l) ∨
    ∃ w, (t.line l).chosen = some w ∧ t.apt l w = true ∧ (t.line l).turnsLeft = (s.line l).turnsLeft

section
variable {s t : State} {l : Line}

/-- The cursor and the burst counter bear on nothing a line can take up at once. -/
theorem State.Advanced.of_counters {x : LineEngine} {k n : Nat}
    (h : State.Advanced l (s.setLine l { x with cursor := k, burst := n }) t) (hx : s.line l = x) :
    State.Advanced l s t := by
  subst hx
  simp only [State.Advanced, State.line_setLine] at h
  rcases h with h | h | h
  · exact Or.inl h
  · exact Or.inr (Or.inl ⟨h.current, h.chosen, h.fewer⟩)
  · exact Or.inr (Or.inr h)

/-- An apt unit requested by a line without a pending unit is granted or waits (R109, R111). -/
theorem advanced_requestUnit {w : Work} (hc : (s.line l).chosen = none) (ha : s.apt l w = true) :
    State.Advanced l s (s.requestUnit l w) := by
  unfold State.requestUnit
  dsimp only
  split
  · have hchosen : ((s.modLine l (fun x => { x with chosen := some w })).line l).chosen = some w := by
      rw [State.line_modLine]
    rw [State.grant_of_chosen _ hchosen, State.line_modLine]
    set u := (s.modLine l (fun x => { x with chosen := some w })).setLine l
      { s.line l with chosen := none, reservation := some (workRequest w) } with hu
    have hline : u.line l = { s.line l with chosen := none, reservation := some (workRequest w) } := by
      rw [hu, State.line_setLine]
    have hapt : u.apt l w = true := by
      refine (apt_congr (s := s) w (fun i => ?_) (by rw [hline]) (by rw [hline])).trans ha
      rw [hu, State.entry_setLine, State.entry_modLine]
      exact ⟨rfl, rfl⟩
    rcases startWork_progress hapt with h | h
    · exact Or.inl h
    · rw [hline] at h
      exact Or.inr (Or.inl ⟨h.current, h.chosen.trans hc.symm, h.fewer⟩)
  · have hline : (((s.modLine l (fun x => { x with chosen := some w })).joinHoldList l (workRequest w)).line l) =
        { s.line l with chosen := some w } := by
      rw [State.line_joinHoldList, State.line_modLine]
    refine Or.inr (Or.inr ⟨w, by rw [hline], ?_, by rw [hline]; rfl⟩)
    refine (apt_congr (s := s) w (fun i => ?_) (by rw [hline]) (by rw [hline])).trans ha
    rw [State.entry_joinHoldList, State.entry_modLine]
    exact ⟨rfl, rfl⟩

/-- Priority work is apt where the alert set is legal: its members work and are of the line (R92, R97). -/
theorem apt_priorityWork {w : Work} (hs : s.AlertsLegal) (hw : (s.line l).priorityWork = some w) :
    s.apt l w = true := by
  rcases LineEngine.priorityWork_eq_some_iff.1 hw with ⟨e, he, rfl⟩ | ⟨-, i, rfl, hi, -⟩
  · exact decide_eq_true he
  · obtain ⟨hline, hstate⟩ := (hs l).2 i hi
    refine stationValid_iff.2 ⟨?_, hline⟩
    rcases hstate with h | h <;> rw [h] <;> rfl

theorem slotDue_walkFrom (s : State) (l : Line) : ∀ n k, s.walkFrom l n k < k + n →
    s.slotDue l (s.walkFrom l n k) = true
  | 0, k, h => absurd h (Nat.lt_irrefl k)
  | n + 1, k, h => by
    rw [State.walkFrom] at h ⊢
    split at h
    · next hdue => rwa [if_pos hdue]
    · next hdue =>
      rw [if_neg hdue]
      exact slotDue_walkFrom s l n (k + 1) (by omega)

/-- The walk that stops before the list length stops at a slot that is due (R73). -/
theorem slotDue_walk (h : s.walk l < (s.line l).listLength) : s.slotDue l (s.walk l) = true :=
  slotDue_walkFrom s l _ _ (Nat.lt_of_lt_of_le h (by omega))

theorem invokeArbiter_inCycle (hf : (s.line l).free = true) (hc : (s.line l).condition = .inCycle) :
    s.invokeArbiter l =
      if (s.line l).listLength ≤ s.walk l then (s.setLine l { s.line l with cursor := s.walk l }).boundary l
      else (s.setLine l { s.line l with cursor := s.walk l }).chooseInCycle l := by
  simp [State.invokeArbiter, hf, hc, State.modLine_eq_setLine]

/-- A unit requested with the cursor or the burst counter moved on. -/
theorem advanced_requestUnit_counters {w : Work} (k n : Nat) (hc : (s.line l).chosen = none) (ha : s.apt l w = true) :
    State.Advanced l s ((s.setLine l { s.line l with cursor := k, burst := n }).requestUnit l w) := by
  refine State.Advanced.of_counters (advanced_requestUnit (by rw [State.line_setLine]; exact hc) ?_) rfl
  refine (apt_congr (s := s) w (fun i => ?_) (by rw [State.line_setLine]) (by rw [State.line_setLine])).trans ha
  rw [State.entry_setLine]
  exact ⟨rfl, rfl⟩

theorem advanced_boundary (hf : (s.line l).free = true) (hc : (s.line l).condition = .inCycle) (k : Nat) :
    State.Advanced l s ((s.setLine l { s.line l with cursor := k }).boundary l) := by
  obtain ⟨-, -, hchosen⟩ := LineEngine.free_iff.1 hf
  rw [boundary_setLine]
  split
  · exact advanced_requestUnit_counters k (s.line l).burst hchosen (decide_eq_true hc)
  · have hnearer := nearer_finishBoundary (s := s.setLine l { s.line l with cursor := k }) (l := l)
      (by rw [State.line_setLine]; exact hc)
    exact State.Advanced.of_counters (Or.inr (Or.inl hnearer)) rfl

theorem advanced_chooseInCycle (hs : s.AlertsLegal) (hf : (s.line l).free = true) {k : Nat}
    (hdue : s.slotDue l k = true) :
    State.Advanced l s ((s.setLine l { s.line l with cursor := k }).chooseInCycle l) := by
  obtain ⟨-, -, hchosen⟩ := LineEngine.free_iff.1 hf
  obtain ⟨-, hworking, hline, -⟩ := (slotDue_iff s l k).1 hdue
  have hslot (h : (s.line l).priorityWork = none ∨ (s.line l).params.burst ≤ (s.line l).burst) :
      State.Advanced l s ((s.setLine l { s.line l with cursor := k }).chooseInCycle l) := by
    rw [chooseInCycle_slot k h]
    exact advanced_requestUnit_counters _ _ hchosen (stationValid_iff.2 ⟨hworking, hline⟩)
  cases hw : (s.line l).priorityWork with
  | none => exact hslot (Or.inl hw)
  | some w =>
    by_cases hb : (s.line l).burst < (s.line l).params.burst
    · rw [chooseInCycle_priority k hw hb]
      exact advanced_requestUnit_counters _ _ hchosen (apt_priorityWork hs hw)
    · exact hslot (Or.inr (Nat.not_lt.mp hb))

/-- An arbiter that is due brings its line on (R97 to R99). -/
theorem advanced_invokeArbiter (hs : s.AlertsLegal) (hdue : (s.line l).arbiterDue = true) :
    State.Advanced l s (s.invokeArbiter l) := by
  obtain ⟨hf, hc | ⟨hc, hwork⟩⟩ := (LineEngine.arbiterDue_iff _).1 hdue
  · rw [invokeArbiter_inCycle hf hc]
    split
    · exact advanced_boundary hf hc _
    · next h => exact advanced_chooseInCycle hs hf (slotDue_walk (Nat.not_le.mp h))
  · rw [invokeArbiter_outside hf hc]
    split
    · next hcycle =>
      refine Or.inr (Or.inl ?_)
      rw [State.line_setLine]
      exact LineEngine.Nearer.startCycle hcycle
    · next hcycle =>
      obtain ⟨w, hw⟩ := Option.isSome_iff_exists.1 (hwork.resolve_left hcycle)
      rw [chooseOutside_priority hw]
      exact advanced_requestUnit (LineEngine.free_iff.1 hf).2.2 (apt_priorityWork hs hw)

theorem condition_of_due {x : LineEngine} (h : x.arbiterDue = true) : x.condition ≠ .none := by
  rintro hc
  simp [LineEngine.arbiterDue, hc] at h

end

/-! ### The arbiters come to rest -/

/-- What a line can take up now: nothing while it is not free. -/
def LineEngine.turnsDue (x : LineEngine) : Nat :=
  if x.free then x.turnsLeft else 0

/-- What both lines can take up now. -/
def State.turnsDue (s : State) : Nat :=
  (s.line .a).turnsDue + (s.line .b).turnsDue

theorem LineEngine.turnsDue_le (x : LineEngine) : x.turnsDue ≤ x.turnsLeft := by
  unfold LineEngine.turnsDue
  split <;> omega

theorem turnsDue_of_due {x : LineEngine} (h : x.arbiterDue = true) : x.turnsDue = x.turnsLeft ∧ 1 ≤ x.turnsLeft :=
  ⟨if_pos (arbiterDue_free h), LineEngine.turnsLeft_pos (condition_of_due h)⟩

theorem turnsDue_of_not_free {x : LineEngine} (h : x.free = false) : x.turnsDue = 0 := by
  simp [LineEngine.turnsDue, h]

theorem State.turnsDue_le {s : State} (hs : s.Coherent) : s.turnsDue ≤ 24 := by
  have hline (l : Line) : (s.line l).turnsDue ≤ 12 := by
    have hturns := (s.line l).turnsDue_le
    have hdirected : (s.line l).directed.length ≤ 8 := (hs.directed l).1
    have hcycle := (s.line l).cycleTurns_le
    rw [LineEngine.turnsLeft] at hturns
    omega
  exact Nat.add_le_add (hline .a) (hline .b)

theorem LineEngine.turnsDue_invokeArbiter {s : State} {l : Line} (hs : s.AlertsLegal)
    (hdue : (s.line l).arbiterDue = true) : ((s.invokeArbiter l).line l).turnsDue < (s.line l).turnsDue := by
  obtain ⟨hturns, hpos⟩ := turnsDue_of_due hdue
  have hrest (h : ((s.invokeArbiter l).line l).free = false) :
      ((s.invokeArbiter l).line l).turnsDue < (s.line l).turnsLeft := by
    rw [turnsDue_of_not_free h]
    exact hpos
  rw [hturns]
  rcases advanced_invokeArbiter hs hdue with h | h | ⟨w, hw, -⟩
  · refine hrest (Bool.eq_false_iff.2 fun hf => ?_)
    rw [(LineEngine.free_iff.1 hf).2.1] at h
    cases h
  · exact Nat.lt_of_le_of_lt (LineEngine.turnsDue_le _) h.fewer
  · exact hrest (free_of_chosen (by rw [hw]; rfl))

/-- Every invocation of an arbiter that is due leaves the two lines less to take up. -/
theorem State.turnsDue_invokeArbiter {s : State} {l : Line} (hs : s.AlertsLegal)
    (hdue : (s.line l).arbiterDue = true) : (s.invokeArbiter l).turnsDue < s.turnsDue := by
  have hown := LineEngine.turnsDue_invokeArbiter hs hdue
  have hother (m : Line) (hm : m ≠ l) : ((s.invokeArbiter l).line m).turnsDue = (s.line m).turnsDue := by
    rw [(State.OnlyLine.invokeArbiter s l).line m hm]
  cases l with
  | a => exact Nat.add_lt_add_of_lt_of_le hown (hother .b nofun).le
  | b => exact Nat.add_lt_add_of_le_of_lt (hother .a nofun).le hown

/-- The state in which the arbiter is invoked whose turn it is: a free order moves its counter on (log entry 6). -/
def State.raced (s : State) : State :=
  if s.lineA.arbiterDue && s.lineB.arbiterDue then s.nextRace else s

theorem State.raced_selected (s : State) : s.Selected s.raced := by
  unfold State.raced
  split
  · exact State.Selected.nextRace s
  · exact State.Selected.refl s

theorem State.line_raced (s : State) (l : Line) : s.raced.line l = s.line l := by
  unfold State.raced
  split
  · exact State.line_withRace s _ l
  · rfl

theorem settleArbiters_of_next {s : State} {l : Line} (n : Nat) (h : s.nextArbiter = some l) :
    State.settleArbiters (n + 1) s = State.settleArbiters n (s.raced.invokeArbiter l) := by
  simp only [State.settleArbiters, h]
  rfl

/-- The invocation next in turn keeps the alert sets legal and leaves less to take up. -/
theorem raced_invokeArbiter {s : State} {l : Line} (hs : s.AlertsLegal) (h : s.nextArbiter = some l) :
    (s.raced.invokeArbiter l).AlertsLegal ∧ (s.raced.invokeArbiter l).turnsDue < s.turnsDue := by
  have hraced : s.raced.AlertsLegal := s.raced_selected.keepsAlerts.legal hs
  have hsame : s.raced.turnsDue = s.turnsDue := by simp only [State.turnsDue, State.line_raced]
  refine ⟨(State.Selected.invokeArbiter _ l).keepsAlerts.legal hraced, ?_⟩
  rw [← hsame]
  refine State.turnsDue_invokeArbiter hraced ?_
  rw [State.line_raced]
  exact nextArbiter_due h

/-- As many invocations as the lines can take up units leave no arbiter due. -/
theorem settleArbiters_settled : ∀ (n : Nat) (s : State), s.AlertsLegal → s.turnsDue ≤ n →
    (State.settleArbiters n s).nextArbiter = none
  | 0, s, _, hn => by
    refine nextArbiter_eq_none_iff.2 fun l => Bool.eq_false_iff.2 fun hdue => ?_
    obtain ⟨hturns, hpos⟩ := turnsDue_of_due (x := s.line l) hdue
    have hle : (s.line l).turnsDue ≤ s.turnsDue := by
      cases l with
      | a => exact Nat.le_add_right _ _
      | b => exact Nat.le_add_left _ _
    omega
  | n + 1, s, hs, hn => by
    cases h : s.nextArbiter with
    | none => rwa [settleArbiters_of_none _ h]
    | some l =>
      obtain ⟨halerts, hfewer⟩ := raced_invokeArbiter hs h
      rw [settleArbiters_of_next n h]
      exact settleArbiters_settled n _ halerts (by omega)

theorem settleArbiters_add (k : Nat) : ∀ (n : Nat) (s : State),
    State.settleArbiters (n + k) s = State.settleArbiters k (State.settleArbiters n s)
  | 0, s => by rw [Nat.zero_add]; rfl
  | n + 1, s => by
    rw [Nat.add_right_comm]
    cases h : s.nextArbiter with
    | none => rw [settleArbiters_of_none _ h, settleArbiters_of_none _ h, settleArbiters_of_none _ h]
    | some l => rw [settleArbiters_of_next _ h, settleArbiters_of_next _ h, settleArbiters_add k n]

/-- After the arbiters' turn no arbiter has anything left to do (log entry 12). -/
theorem finish_settled {s : State} (hs : s.Coherent) (ha : s.AlertsLegal) : s.finish.nextArbiter = none :=
  settleArbiters_settled 256 s ha ((State.turnsDue_le hs).trans (by decide))

/-- The arbiters' turn is the invocation next in turn, and the turn after it: the bound does not end it. -/
theorem finish_of_next {s : State} {l : Line} (hs : s.Coherent) (ha : s.AlertsLegal) (h : s.nextArbiter = some l) :
    s.finish = (s.raced.invokeArbiter l).finish := by
  obtain ⟨halerts, hfewer⟩ := raced_invokeArbiter ha h
  have hbound := State.turnsDue_le hs
  have hrest : (State.settleArbiters 255 (s.raced.invokeArbiter l)).nextArbiter = none :=
    settleArbiters_settled 255 _ halerts (by omega)
  calc s.finish = State.settleArbiters 255 (s.raced.invokeArbiter l) := settleArbiters_of_next 255 h
    _ = State.settleArbiters 1 (State.settleArbiters 255 (s.raced.invokeArbiter l)) :=
      (settleArbiters_of_none 1 hrest).symm
    _ = (s.raced.invokeArbiter l).finish := (settleArbiters_add 1 255 _).symm

/-! ### The serving of the hold list comes to rest -/

/-- What a line can still be granted: nothing while a unit is in progress. A pending unit that its arbiter would not
take up as the line stands counts for more than all a line can take up. -/
def State.grantsLeft (s : State) (l : Line) : Nat :=
  match (s.line l).current with
  | some _ => 0
  | none =>
    match (s.line l).chosen with
    | none => (s.line l).turnsLeft
    | some w => if s.apt l w then (s.line l).turnsLeft else 13

section
variable {s t : State} {l : Line}

theorem grantsLeft_of_busy (h : (s.line l).current.isSome = true) : s.grantsLeft l = 0 := by
  obtain ⟨c, hc⟩ := Option.isSome_iff_exists.1 h
  simp only [State.grantsLeft, hc]

theorem grantsLeft_of_none (hc : (s.line l).current = none) (hw : (s.line l).chosen = none) :
    s.grantsLeft l = (s.line l).turnsLeft := by
  simp only [State.grantsLeft, hc, hw]

theorem grantsLeft_of_chosen {w : Work} (hc : (s.line l).current = none) (hw : (s.line l).chosen = some w) :
    s.grantsLeft l = if s.apt l w then (s.line l).turnsLeft else 13 := by
  simp only [State.grantsLeft, hc, hw]

theorem grantsLeft_le_of_chosen_none (hw : (s.line l).chosen = none) : s.grantsLeft l ≤ (s.line l).turnsLeft := by
  cases hc : (s.line l).current with
  | some c => exact (grantsLeft_of_busy (by rw [hc]; rfl)).trans_le (Nat.zero_le _)
  | none => exact (grantsLeft_of_none hc hw).le

theorem LineEngine.Good.turnsLeft_le {x : LineEngine} (h : x.Good) : x.turnsLeft ≤ 12 := by
  have hdirected : x.directed.length ≤ 8 := h.queue
  have hcycle := x.cycleTurns_le
  rw [LineEngine.turnsLeft]
  omega

theorem grantsLeft_le (h : (s.line l).Good) : s.grantsLeft l ≤ 13 := by
  have hturns := h.turnsLeft_le
  unfold State.grantsLeft
  split
  · omega
  · split
    · omega
    · split <;> omega

theorem grantsLeft_congr (hline : t.line l = s.line l)
    (hentry : ∀ i, (t.entry i).line = (s.entry i).line ∧ (t.entry i).state = (s.entry i).state) :
    t.grantsLeft l = s.grantsLeft l := by
  have hapt (w : Work) : t.apt l w = s.apt l w := apt_congr w hentry (by rw [hline]) (by rw [hline])
  simp only [State.grantsLeft, hline, hapt]

/-- The arbiter of a line gives it nothing more to be granted. -/
theorem grantsLeft_invokeArbiter_le (hs : s.AlertsLegal) (hdue : (s.line l).arbiterDue = true) :
    (s.invokeArbiter l).grantsLeft l ≤ s.grantsLeft l := by
  obtain ⟨-, hcurrent, hchosen⟩ := LineEngine.free_iff.1 (arbiterDue_free hdue)
  rw [grantsLeft_of_none hcurrent hchosen]
  rcases advanced_invokeArbiter hs hdue with h | h | ⟨w, hw, hapt, hturns⟩
  · rw [grantsLeft_of_busy h]
    exact Nat.zero_le _
  · rw [grantsLeft_of_none (h.current.trans hcurrent) (h.chosen.trans hchosen)]
    exact h.fewer.le
  · cases hc : ((s.invokeArbiter l).line l).current with
    | some c =>
      rw [grantsLeft_of_busy (by rw [hc]; rfl)]
      exact Nat.zero_le _
    | none => rw [grantsLeft_of_chosen hc hw, if_pos hapt, hturns]

theorem grantsLeft_settleLine_le : ∀ (n : Nat) (s : State), s.AlertsLegal →
    (State.settleLine l n s).grantsLeft l ≤ s.grantsLeft l
  | 0, _, _ => le_rfl
  | n + 1, s, hs => by
    unfold State.settleLine
    split
    · next hdue =>
      exact (grantsLeft_settleLine_le n _ ((State.Selected.invokeArbiter s l).keepsAlerts.legal hs)).trans
        (grantsLeft_invokeArbiter_le hs hdue)
    · exact le_rfl

theorem grantsLeft_afterGrant_le (hs : s.AlertsLegal) : (s.afterGrant l).grantsLeft l ≤ s.grantsLeft l := by
  have hrace : s.nextRace.grantsLeft l = s.grantsLeft l :=
    grantsLeft_congr (State.line_withRace s _ l) fun _ => ⟨rfl, rfl⟩
  unfold State.afterGrant
  split
  · dsimp only
    split
    · exact (grantsLeft_settleLine_le _ _ ((State.Selected.nextRace s).keepsAlerts.legal hs)).trans hrace.le
    · exact hrace.le
  · exact le_rfl

/-- A line that waits has a pending unit and is RUNNING without a unit in progress (R111, Table 7-1). -/
theorem waiting_line (hs : s.Coherent) {h : HoldEntry} (hh : h ∈ s.queue.holdList) :
    ∃ w, (s.line h.line).chosen = some w ∧ (s.line h.line).current = none ∧ (s.line h.line).condition ≠ .none := by
  have hchosen := (hs.hold.listed h.line).1 ⟨h.request, hh⟩
  obtain ⟨w, hw⟩ := Option.isSome_iff_exists.1 hchosen
  have hrunning := runState_of_chosen (good_of_coherent hs h.line) hchosen
  exact ⟨w, hw, (hs.lines h.line).oneUnit hchosen, fun hc => (hs.lines h.line).condition.1 hc hrunning⟩

theorem grantsLeft_pos (hs : s.Coherent) {h : HoldEntry} (hh : h ∈ s.queue.holdList) : 1 ≤ s.grantsLeft h.line := by
  obtain ⟨w, hw, hcurrent, hcondition⟩ := waiting_line hs hh
  rw [grantsLeft_of_chosen hcurrent hw]
  split
  · exact LineEngine.turnsLeft_pos hcondition
  · decide

/-- The part after the head of the hold list was granted and its line had its turn (R112, R171). -/
def State.served (s : State) (h : HoldEntry) (rest : List HoldEntry) : State :=
  (State.grant { s with queue := { s.queue with holdList := rest } } h.line h.request).afterGrant h.line

variable {h : HoldEntry} {rest : List HoldEntry}

theorem selected_grantHead (s : State) (h : HoldEntry) (rest : List HoldEntry) :
    s.Selected (State.grant { s with queue := { s.queue with holdList := rest } } h.line h.request) :=
  (State.Selected.withQueue s { s.queue with holdList := rest } rfl rfl List.prefix_rfl fun _ => rfl).trans
    (State.Selected.grant _ _ _)

theorem selected_served (s : State) (h : HoldEntry) (rest : List HoldEntry) : s.Selected (s.served h rest) :=
  (selected_grantHead s h rest).trans (State.Selected.afterGrant _ _)

theorem onlyLine_served (hl : s.queue.holdList = h :: rest) : State.OnlyLine h.line s (s.served h rest) := by
  have htake : State.OnlyLine h.line s { s with queue := { s.queue with holdList := rest } } :=
    ⟨fun m _ => State.line_withQueue s _ m, fun m hm => by simp [State.heldOf, hl, Ne.symm hm], fun _ _ => rfl⟩
  exact (htake.trans (State.OnlyLine.grant _ _ _)).trans (State.OnlyLine.afterGrant _ _)

theorem coherent_served (hs : s.Coherent) (hl : s.queue.holdList = h :: rest) : (s.served h rest).Coherent := by
  refine (coherent_iff _).2 fun m => ?_
  have hm := (coherent_iff s).1 hs m
  by_cases hmh : m = h.line
  · subst hmh
    exact lineCoherent_afterGrant (lineCoherent_grant hl hm)
  · exact hm.other (onlyLine_served hl) hmh

/-- A grant leaves its line less to be granted: a unit in progress, an entry or a cycle fewer, or no pending unit that
its arbiter would not have taken up. -/
theorem grantsLeft_grant (hs : s.Coherent) (hl : s.queue.holdList = h :: rest) :
    (State.grant { s with queue := { s.queue with holdList := rest } } h.line h.request).grantsLeft h.line <
      s.grantsLeft h.line := by
  have hmem : h ∈ s.queue.holdList := by
    rw [hl]
    exact List.mem_cons_self
  have hpos := grantsLeft_pos hs hmem
  obtain ⟨w, hw, hcurrent, -⟩ := waiting_line hs hmem
  have hgood := (lineCoherent_grant hl ((coherent_iff s).1 hs h.line)).good
  rw [State.grant_of_chosen h.request (by rw [State.line_withQueue]; exact hw), State.line_withQueue] at hgood ⊢
  rw [grantsLeft_of_chosen hcurrent hw] at hpos ⊢
  set u := State.setLine { s with queue := { s.queue with holdList := rest } } h.line
    { s.line h.line with chosen := none, reservation := some h.request } with hu
  have hline : u.line h.line = { s.line h.line with chosen := none, reservation := some h.request } := by
    rw [hu, State.line_setLine]
  have hchosen : ((u.startWork h.line w).line h.line).chosen = none := by
    rw [chosen_startWork, hline]
  have hapt : u.apt h.line w = s.apt h.line w :=
    apt_congr (s := s) w (fun i => by rw [hu, State.entry_setLine, State.entry_withQueue]; exact ⟨rfl, rfl⟩)
      (by rw [hline]) (by rw [hline])
  by_cases ha : s.apt h.line w = true
  · rw [if_pos ha] at hpos ⊢
    rcases startWork_progress (hapt.trans ha) with hbusy | hnearer
    · rw [grantsLeft_of_busy hbusy]
      exact hpos
    · rw [hline] at hnearer
      exact (grantsLeft_le_of_chosen_none hchosen).trans_lt hnearer.fewer
  · rw [if_neg ha]
    exact Nat.lt_succ_of_le ((grantsLeft_le_of_chosen_none hchosen).trans hgood.turnsLeft_le)

/-- Every turn of the serving leaves the two lines less to be granted. -/
theorem grantsLeft_served (hs : s.Coherent) (ha : s.AlertsLegal) (hl : s.queue.holdList = h :: rest) :
    (s.served h rest).grantsLeft .a + (s.served h rest).grantsLeft .b < s.grantsLeft .a + s.grantsLeft .b := by
  have hgranted := selected_grantHead s h rest
  have hown : (s.served h rest).grantsLeft h.line < s.grantsLeft h.line :=
    (grantsLeft_afterGrant_le (hgranted.keepsAlerts.legal ha)).trans_lt (grantsLeft_grant hs hl)
  have hother (m : Line) (hm : m ≠ h.line) : (s.served h rest).grantsLeft m = s.grantsLeft m :=
    grantsLeft_congr ((onlyLine_served hl).line m hm) (selected_served s h rest).keepsAlerts.entry
  cases hline : h.line with
  | a =>
    rw [hline] at hown hother
    exact Nat.add_lt_add_of_lt_of_le hown (hother .b nofun).le
  | b =>
    rw [hline] at hown hother
    exact Nat.add_lt_add_of_le_of_lt (hother .a nofun).le hown

end

/-- As many turns as the lines can be granted units leave the hold list served. -/
theorem holdListServed_serveHoldList : ∀ (n : Nat) (s : State), s.Coherent → s.AlertsLegal →
    s.grantsLeft .a + s.grantsLeft .b ≤ n → (State.serveHoldList n s).HoldListServed
  | 0, s, hs, _, hn => by
    refine HoldListServed_of_empty (List.eq_nil_iff_forall_not_mem.2 fun h hh => ?_)
    have hpos := grantsLeft_pos hs hh
    cases hline : h.line <;> rw [hline] at hpos <;> omega
  | n + 1, s, hs, ha, hn => by
    cases hl : s.queue.holdList with
    | nil =>
      rw [serveHoldList_of_empty _ hl]
      exact HoldListServed_of_empty hl
    | cons h rest =>
      by_cases hf : s.wordsUsed + s.wordsReserved + h.request ≤ 1024
      · rw [serveHoldList_of_fit n hl hf]
        exact holdListServed_serveHoldList n (s.served h rest) (coherent_served hs hl)
          ((selected_served s h rest).keepsAlerts.legal ha)
          (Nat.le_of_lt_succ ((grantsLeft_served hs ha hl).trans_le hn))
      · rw [serveHoldList_of_unfit _ hl (Nat.not_le.mp hf)]
        intro k hk
        rw [hl] at hk
        obtain rfl : h = k := Option.some.inj hk
        exact Nat.not_le.mp hf

/-- After serving, nobody waits for words that are free (R112). -/
theorem serve_served {s : State} (hs : s.Coherent) (ha : s.AlertsLegal) : s.serve.HoldListServed :=
  holdListServed_serveHoldList 256 s hs ha ((Nat.add_le_add (grantsLeft_le (good_of_coherent hs .a))
    (grantsLeft_le (good_of_coherent hs .b))).trans (by decide))

end Sys2Proof.Machine
end

section
/-! PROOFS. The arbiters and the serving of the hold list come to rest. -/

namespace Sys2Proof.Machine

/-- Settles O52: by the measures `State.turnsDue` of the arbiters' turn and `State.grantsLeft` of the serving. -/
theorem selectionSettles : Obligations.SelectionSettles := by
  intro s hs _ ha due
  have hdue (l : Line) : due l ↔ (s.line l).arbiterDue = true := by
    simp only [due, LineEngine.arbiterDue_iff, LineEngine.free_iff, LineEngine.cycleDue_iff,
      LineEngine.priorityWork_isSome_iff]
    cases (s.line l).condition <;> simp [and_assoc]
  have hselection (t : State) (l : Line) (hlive : t.live = true) (hf : (t.line l).free = true) :
      exec (.workSelection l) t = .next (t.invokeArbiter l).finish := by
    rw [exec_workSelection hlive, if_pos hf]
  refine ⟨fun h => ?_, fun hlive l hl hother => ?_, fun hlive l hboth hrace => ?_, finish_settled hs ha,
    serve_served hs ha⟩
  · exact finish_of_none (nextArbiter_eq_none_iff.2 fun l => Bool.eq_false_iff.2 (mt (hdue l).2 (h l)))
  · have hl' := (hdue l).1 hl
    obtain ⟨hnext, hone⟩ := nextArbiter_of_only hl' fun m hm => Bool.eq_false_iff.2 (mt (hdue m).2 (hother m hm))
    rw [hselection s l hlive (arbiterDue_free hl'), finish_of_next hs ha hnext, State.raced, hone]
    rfl
  · have hall (m : Line) := (hdue m).1 (hboth m)
    obtain ⟨hnext, htwo⟩ := nextArbiter_of_both hall
    have hl : (if Config.raceFirst s.raceCount = true then Line.a else .b) = l := by
      cases l with
      | a => exact if_pos (hrace.2 rfl)
      | b => exact if_neg fun h => nomatch hrace.1 h
    rw [hl] at hnext
    rw [finish_of_next hs ha hnext, State.raced, htwo]
    refine hselection s.nextRace l hlive ?_
    rw [State.nextRace, State.line_withRace]
    exact arbiterDue_free (hall l)

end Sys2Proof.Machine
end

section
/-! SUPPORT. The words of the store: what a record takes from the reservation of the line that writes it, that a unit
asks for all the words it can write, and that no operation of the engines takes more words than the store has. -/

namespace Sys2Proof.Machine

/-! ### Words used and words reserved -/

/-- The words of the store that are used or reserved (R109). -/
def State.wordsTaken (s : State) : Nat :=
  s.wordsUsed + s.wordsReserved

theorem wordsReserved_eq (s : State) (l : Line) :
    s.wordsReserved = (s.line l).reservedWords + (s.line (otherLine l)).reservedWords := by
  cases l
  · rfl
  · exact Nat.add_comm _ _

theorem State.SameStore.wordsUsed {s t : State} (h : s.SameStore t) : t.wordsUsed = s.wordsUsed := by
  rw [State.wordsUsed, h.queue, State.wordsUsed]

theorem State.SameStore.wordsTaken {s t : State} (h : s.SameStore t) : t.wordsTaken = s.wordsTaken := by
  rw [State.wordsTaken, h.wordsUsed, h.reserved, State.wordsTaken]

/-- The words a line reserves after a change of its engine. -/
theorem wordsReserved_modLine (s : State) (l : Line) (f : LineEngine → LineEngine) :
    (s.modLine l f).wordsReserved = (f (s.line l)).reservedWords + (s.line (otherLine l)).reservedWords := by
  rw [wordsReserved_eq _ l, State.line_modLine, State.line_modLine_ne _ _ (otherLine_ne l)]

theorem wordsTaken_modLine_le {s : State} {l : Line} {f : LineEngine → LineEngine}
    (h : (f (s.line l)).reservedWords ≤ (s.line l).reservedWords) : (s.modLine l f).wordsTaken ≤ s.wordsTaken := by
  have hused : (s.modLine l f).wordsUsed = s.wordsUsed := by rw [State.wordsUsed, State.queue_modLine, State.wordsUsed]
  rw [State.wordsTaken, State.wordsTaken, hused, wordsReserved_modLine, wordsReserved_eq s l]
  omega

theorem wordsTaken_dropReservation_le (s : State) (l : Line) : (s.dropReservation l).wordsTaken ≤ s.wordsTaken :=
  wordsTaken_modLine_le (Nat.zero_le _)

/-! ### A record written -/

theorem wordsUsed_writeRecord (s : State) (l : Line) (r : Record) :
    (s.writeRecord l r).wordsUsed = s.wordsUsed + r.size := by
  rw [State.wordsUsed, records_writeRecord, wordsOf_append, State.wordsUsed]
  simp [wordsOf]

/-- A record with room in the reservation moves its words from reserved to used, and their sum stands (R106). -/
theorem wordsTaken_writeRecord {s : State} {l : Line} {r : Record} {n : Nat} (hn : (s.line l).reservation = some n)
    (hr : r.size ≤ n) : (s.writeRecord l r).wordsTaken = s.wordsTaken := by
  have hother : (s.writeRecord l r).line (otherLine l) = s.line (otherLine l) :=
    (State.OnlyLine.writeRecord s l r).line _ (otherLine_ne l)
  have hown : ((s.writeRecord l r).line l).reservedWords = n - r.size := by
    rw [line_writeRecord_self, reservedWords_map, LineEngine.reservedWords, hn, Option.getD_some]
  have hheld : (s.line l).reservedWords = n := by rw [LineEngine.reservedWords, hn, Option.getD_some]
  rw [State.wordsTaken, State.wordsTaken, wordsUsed_writeRecord, wordsReserved_eq _ l, wordsReserved_eq s l, hother, hown,
    hheld]
  omega

/-! ### Changes that leave the store alone -/

theorem State.SameStore.modEntry (s : State) (i : StationIndex) (f : Entry → Entry) : s.SameStore (s.modEntry i f) :=
  ⟨rfl, rfl⟩

theorem State.SameStore.modWindow (s : State) (f : Window → Window) : s.SameStore (s.modWindow f) :=
  ⟨rfl, rfl⟩

theorem State.SameStore.raise (s : State) (c : Cause) : s.SameStore (s.raise c) :=
  ⟨rfl, rfl⟩

theorem State.SameStore.disableNow (s : State) (i : StationIndex) : s.SameStore (s.disableNow i) := by
  unfold State.disableNow State.leaveAlertSet
  exact (State.SameStore.modEntry s i _).trans (State.SameStore.modLine _ _ _ rfl)

theorem State.SameStore.applyPendingSwap (s : State) (l : Line) : s.SameStore (s.applyPendingSwap l) :=
  State.SameStore.modLine s l _ (reservation_takeSwap _)

theorem State.SameStore.beginTargeted (s : State) (l : Line) (w : Work) (i : StationIndex) :
    s.SameStore (s.beginTargeted l w i) := by
  unfold State.beginTargeted
  refine (State.SameStore.modEntry s i _).trans (State.SameStore.modLine _ l _ ?_)
  cases w <;> rfl

/-! ### What may be done to a store -/

/-- From s to t the store has not been filled beyond its words (R109). -/
def State.KeepsStore (s t : State) : Prop :=
  s.StoreBounded → t.StoreBounded

theorem State.KeepsStore.refl (s : State) : s.KeepsStore s :=
  id

theorem State.KeepsStore.trans {s t u : State} (h : s.KeepsStore t) (k : t.KeepsStore u) : s.KeepsStore u :=
  fun hs => k (h hs)

theorem State.KeepsStore.of_le {s t : State} (h : t.wordsTaken ≤ s.wordsTaken) : s.KeepsStore t :=
  fun hs => h.trans hs

theorem State.SameStore.keepsStore {s t : State} (h : s.SameStore t) : s.KeepsStore t :=
  .of_le h.wordsTaken.le

theorem State.KeepsStore.modLine (s : State) (l : Line) (f : LineEngine → LineEngine)
    (h : (f (s.line l)).reservation = (s.line l).reservation := by rfl) : s.KeepsStore (s.modLine l f) :=
  (State.SameStore.modLine s l f h).keepsStore

theorem State.KeepsStore.modEntry (s : State) (i : StationIndex) (f : Entry → Entry) : s.KeepsStore (s.modEntry i f) :=
  (State.SameStore.modEntry s i f).keepsStore

theorem State.KeepsStore.modWindow (s : State) (f : Window → Window) : s.KeepsStore (s.modWindow f) :=
  (State.SameStore.modWindow s f).keepsStore

theorem State.KeepsStore.nextRace (s : State) : s.KeepsStore s.nextRace :=
  (State.SameStore.nextRace s).keepsStore

theorem State.KeepsStore.dropReservation (s : State) (l : Line) : s.KeepsStore (s.dropReservation l) :=
  .of_le (wordsTaken_dropReservation_le s l)

/-- The queue may change in anything while its records take no more words. -/
theorem State.KeepsStore.withQueue (s : State) (q : ReplyQueue)
    (h : wordsOf q.records ≤ wordsOf s.queue.records := by exact Nat.le_refl _) : s.KeepsStore { s with queue := q } :=
  .of_le (Nat.add_le_add_right h _)

/-! ### A unit that starts -/

/-- Every unit asks for a record at least (Table 6-3). -/
theorem three_le_workRequest (w : Work) : 3 ≤ workRequest w := by
  cases w with
  | visit k i g n => simp only [workRequest]; omega
  | alert i => exact (by decide : 3 ≤ 6 + (Config.maxPayload + 1) / 2)
  | directed e =>
    simp only [workRequest]
    split <;> omega
  | mark v o => exact Nat.le_refl 3

section
variable {s : State} {l : Line} {w : Work} (hr : (s.line l).reservation = some (workRequest w))
include hr

/-- A record of three words, then the return of what is left of the reservation. -/
theorem wordsTaken_shortRecord {r : Record} (h3 : r.size = 3) : (s.writeRecord l r).wordsTaken = s.wordsTaken :=
  wordsTaken_writeRecord hr (h3.trans_le (three_le_workRequest w))

/-- A unit that starts on its reservation takes no word beyond it (R19, R110). -/
theorem wordsTaken_startWork_le : (s.startWork l w).wordsTaken ≤ s.wordsTaken := by
  by_cases hv : ∃ i, workStation w = some i ∧ s.stationValid l i = true
  · obtain ⟨i, hw, hv⟩ := hv
    rw [State.startWork_of_valid hw hv]
    exact (State.SameStore.beginTargeted s l w i).wordsTaken.le
  cases w with
  | visit k i g n =>
    rw [State.startWork_visit_invalid fun h => hv ⟨i, rfl, h⟩]
    exact wordsTaken_dropReservation_le s l
  | alert i =>
    rw [State.startWork_alert_invalid fun h => hv ⟨i, rfl, h⟩]
    exact wordsTaken_dropReservation_le s l
  | directed e =>
    by_cases hk : e.kind = .bcast
    · rw [State.startWork_bcast hk]
      exact (State.SameStore.modLine s l
        (fun x => { x with current := some (newContext (.directed e) Entry.reset), phase := .guard 0 0 }) rfl).wordsTaken.le
    · rw [State.startWork_directed_invalid hk fun h => hv ⟨_, workStation_directed hk, h⟩]
      refine (wordsTaken_dropReservation_le _ l).trans ?_
      rw [(State.SameStore.modLine _ l _ rfl).wordsTaken]
      exact (wordsTaken_shortRecord hr rfl).le
  | mark v o =>
    refine (State.SameStore.finishBoundary _ l).wordsTaken.le.trans ?_
    exact (wordsTaken_dropReservation_le _ l).trans (wordsTaken_shortRecord hr rfl).le

end

/-- A grant of words that are free, to a line whose pending unit asks for them, leaves the store within its words. -/
theorem storeBounded_grant {s : State} {l : Line} {n : Nat} (hfit : s.wordsUsed + s.wordsReserved + n ≤ 1024)
    (hn : ∀ w, (s.line l).chosen = some w → n = workRequest w) : (s.grant l n).StoreBounded := by
  have hgranted : (s.modLine l (fun x => { x with reservation := some n })).StoreBounded := by
    rw [wordsReserved_eq s l] at hfit
    rw [State.StoreBounded, wordsReserved_modLine, State.wordsUsed, State.queue_modLine]
    rw [State.wordsUsed] at hfit
    simp only [LineEngine.reservedWords, Option.getD_some, Config.storeWords] at hfit ⊢
    omega
  unfold State.grant State.startUnit
  rw [State.line_modLine]
  dsimp only
  split
  · exact hgranted
  · next w hw =>
    refine State.KeepsStore.trans (State.KeepsStore.modLine _ l LineEngine.clearChosen) (.of_le ?_) hgranted
    refine wordsTaken_startWork_le ?_
    rw [State.line_modLine, State.line_modLine, hn w hw]
    rfl

/-! ### The arbiters -/

/-- A unit taken up is granted words that are free, or waits for them (R109, R111). -/
theorem State.KeepsStore.requestUnit (s : State) (l : Line) (w : Work) : s.KeepsStore (s.requestUnit l w) := by
  have hchosen := State.SameStore.modLine s l (fun x => { x with chosen := some w }) rfl
  unfold State.requestUnit
  dsimp only
  split
  · next hg =>
    intro _
    simp only [State.grantable, Bool.and_eq_true, decide_eq_true_eq] at hg
    refine storeBounded_grant ?_ fun v hv => ?_
    · rw [hchosen.wordsUsed, hchosen.reserved]
      exact hg.2
    · rw [State.line_modLine] at hv
      rw [Option.some.inj hv]
  · exact hchosen.keepsStore

theorem State.KeepsStore.invokeArbiter (s : State) (l : Line) : s.KeepsStore (s.invokeArbiter l) := by
  obtain ⟨u, hu, he | he | ⟨w, he⟩⟩ := invokeArbiter_cases s l
  · rw [he]
    exact hu.keepsStore
  · rw [he]
    exact (hu.trans (State.SameStore.finishBoundary u l)).keepsStore
  · rw [he]
    exact hu.keepsStore.trans (State.KeepsStore.requestUnit u l w)

theorem State.KeepsStore.settleLine (l : Line) : ∀ (n : Nat) (s : State), s.KeepsStore (State.settleLine l n s)
  | 0, s => .refl s
  | n + 1, s => by
    unfold State.settleLine
    split
    · exact (State.KeepsStore.invokeArbiter s l).trans (State.KeepsStore.settleLine l n _)
    · exact .refl s

theorem State.KeepsStore.settleArbiters : ∀ (n : Nat) (s : State), s.KeepsStore (State.settleArbiters n s)
  | 0, s => .refl s
  | n + 1, s => by
    unfold State.settleArbiters
    split
    · exact .refl s
    · refine State.KeepsStore.trans ?_ (State.KeepsStore.settleArbiters n _)
      refine State.KeepsStore.trans ?_ (State.KeepsStore.invokeArbiter _ _)
      split
      · exact .nextRace s
      · exact .refl s

theorem State.KeepsStore.finish (s : State) : s.KeepsStore s.finish :=
  State.KeepsStore.settleArbiters _ s

theorem State.KeepsStore.afterGrant (s : State) (l : Line) : s.KeepsStore (s.afterGrant l) := by
  unfold State.afterGrant
  split
  · dsimp only
    split
    · exact (State.KeepsStore.nextRace s).trans (State.KeepsStore.settleLine l _ _)
    · exact .nextRace s
  · exact .refl s

/-! ### The hold list -/

/-- A waiting line of which the hold list is coherent asks for the words of its pending unit (R111). -/
theorem request_of_held {s : State} {h : HoldEntry} {w : Work} (hg : s.LineCoherent h.line)
    (hh : h ∈ s.queue.holdList) (hw : (s.line h.line).chosen = some w) : h.request = workRequest w := by
  have hmem : h ∈ s.heldOf h.line := mem_heldOf.2 ⟨hh, rfl⟩
  rw [hg.held, hw] at hmem
  rw [List.mem_singleton.1 hmem]

/-- Serving grants words that are free, and no others (R112). -/
theorem State.KeepsStore.serveHoldList : ∀ (n : Nat) (s : State), (∀ h ∈ s.queue.holdList, s.LineCoherent h.line) →
    s.KeepsStore (State.serveHoldList n s)
  | 0, s, _ => .refl s
  | n + 1, s, hh => by
    unfold State.serveHoldList
    split
    · exact .refl s
    · next h rest hl =>
      split
      · next hfit =>
        have hmem : h ∈ s.queue.holdList := by
          rw [hl]
          exact List.mem_cons_self
        have hgrant : s.KeepsStore
            (State.grant { s with queue := { s.queue with holdList := rest } } h.line h.request) := by
          refine fun _ => storeBounded_grant hfit fun w hw => ?_
          rw [State.line_withQueue] at hw
          exact request_of_held (hh h hmem) hmem hw
        exact (hgrant.trans (State.KeepsStore.afterGrant _ h.line)).trans
          (State.KeepsStore.serveHoldList n _ (lineCoherent_turn hl hh))
      · exact .refl s

theorem State.KeepsStore.serve {s : State} (hh : ∀ h ∈ s.queue.holdList, s.LineCoherent h.line) :
    s.KeepsStore s.serve :=
  State.KeepsStore.serveHoldList _ s hh

theorem State.KeepsStore.serve_of_coherent {s : State} (hs : s.Coherent) : s.KeepsStore s.serve :=
  State.KeepsStore.serve fun h _ => (coherent_iff s).1 hs h.line

end Sys2Proof.Machine
end

section
/-! SUPPORT. The end of a unit in the store: its records stand within the words it asked for (Table 6-3), so that its
completion frees words and takes none. -/

namespace Sys2Proof.Machine

/-! ### The records of a unit -/

/-- An end of a unit whose answer, if it writes one, is within the limit of the POLL it answers (R29 step 5). -/
def UnitEnd.Fits (e : UnitEnd) (w : Work) : Prop :=
  ∀ a, e = .good a → workKind w = .poll → a.payload.length ≤ workLimit w

theorem UnitEnd.fits_of_ne_good {e : UnitEnd} (w : Work) (h : ∀ a, e ≠ .good a) : e.Fits w :=
  fun a ha => absurd ha (h a)

/-- The words of the STATE record a unit of this work may write (R61). -/
def stateWords (w : Work) : Nat :=
  if (workStation w).isSome then 3 else 0

/-- A unit with a station asks for an own record and a STATE record at least (Table 6-3). -/
theorem three_add_stateWords_le (w : Work) : 3 + stateWords w ≤ workRequest w := by
  cases w with
  | visit k i g n => simp only [stateWords, workStation, Option.isSome_some, workRequest, if_true]; omega
  | alert i => exact (by decide : 6 ≤ 6 + (Config.maxPayload + 1) / 2)
  | directed e =>
    cases hk : e.kind with
    | poll => simp only [stateWords, workStation, workRequest, hk, Option.isSome_some, if_true]; omega
    | set => simp only [stateWords, workStation, workRequest, hk, Option.isSome_some, if_true]; omega
    | bcast => simp only [stateWords, workStation, workRequest, hk, Option.isSome_none]; decide
  | mark v o => exact Nat.le_refl 3

theorem wordsOf_faultRecord_le (l : Line) (cycle : Word) (w : Work) (cause : RecordCause) :
    wordsOf (faultRecord l cycle w cause).toList ≤ 3 := by
  cases w with
  | directed e => exact Nat.le_refl 3
  | _ => exact Nat.zero_le 3

theorem dataWords_add_three_le {k n : Nat} (h : k ≤ n) : 3 + (k + 1) / 2 + 3 ≤ 6 + (n + 1) / 2 := by
  omega

/-- The own record of a unit and its STATE record stand within the words the unit asked for (R108). -/
theorem wordsOf_ownRecord_le {w : Work} {e : UnitEnd} (l : Line) (cycle : Word) (h : e.Fits w) :
    wordsOf (ownRecord l cycle w e).toList + stateWords w ≤ workRequest w := by
  have hshort {r : Option Record} (hr : wordsOf r.toList ≤ 3) : wordsOf r.toList + stateWords w ≤ workRequest w :=
    (Nat.add_le_add_right hr _).trans (three_add_stateWords_le w)
  cases e with
  | good a =>
    cases w with
    | visit k i g n => exact dataWords_add_three_le (h a rfl rfl)
    | alert i => exact dataWords_add_three_le (h a rfl rfl)
    | directed d =>
      have hlimit := h a rfl
      cases hk : d.kind with
      | poll =>
        simp only [workKind, workLimit, hk, true_implies] at hlimit
        simp only [ownRecord, stateWords, workStation, workRequest, hk]
        exact dataWords_add_three_le hlimit
      | set => exact hshort (by simp only [ownRecord, hk]; exact Nat.le_refl 3)
      | bcast => exact hshort (by simp only [ownRecord, hk]; exact Nat.zero_le 3)
    | mark v o => exact Nat.zero_le 3
  | deferred a => exact hshort (wordsOf_faultRecord_le l cycle w _)
  | failed o => exact hshort (wordsOf_faultRecord_le l cycle w _)
  | settled =>
    refine hshort ?_
    cases w with
    | directed d => exact Nat.le_refl 3
    | _ => exact Nat.zero_le 3
  | aborted => exact hshort (wordsOf_faultRecord_le l cycle w _)
  | lineFault => exact hshort (wordsOf_faultRecord_le l cycle w _)

theorem wordsOf_changeRecord_le (l : Line) (cycle : Word) (w : Work) (i : StationIndex) (y : Entry) (e : UnitEnd) :
    wordsOf (changeRecord l cycle w i y e).toList ≤ 3 := by
  unfold changeRecord
  cases (visitOutcome y e).2 with
  | none => exact Nat.zero_le 3
  | some cause => exact Nat.le_refl 3

/-! ### The completion -/

theorem wordsTaken_writeRecord? {s : State} {l : Line} {r : Option Record} {n : Nat}
    (hn : (s.line l).reservation = some n) (hr : wordsOf r.toList ≤ n) :
    (s.writeRecord? l r).wordsTaken = s.wordsTaken := by
  cases r with
  | none => rfl
  | some r => exact wordsTaken_writeRecord hn (by simpa [wordsOf] using hr)

/-- The STATE record of a visit outcome comes from the reservation (R61). -/
theorem wordsTaken_applyOutcome {s : State} {l : Line} {w : Work} {n : Nat} (e : UnitEnd)
    (hn : (s.line l).reservation = some n) (h : stateWords w ≤ n) :
    (s.applyOutcome l w e).wordsTaken = s.wordsTaken := by
  cases hw : workStation w with
  | none => rw [applyOutcome_of_none s l e hw]
  | some i =>
    cases hk : isWorking (s.entry i).state with
    | false => rw [applyOutcome_of_idle l e hw hk]
    | true =>
      rw [applyOutcome_eq e hw hk, State.withOutcome, (State.SameStore.modLine _ l _ rfl).wordsTaken,
        wordsTaken_writeRecord? (by rw [State.line_setEntry]; exact hn)]
      · rfl
      · refine (wordsOf_changeRecord_le _ _ _ _ _ _).trans ?_
        simpa only [stateWords, hw, Option.isSome_some, if_true] using h

theorem State.SameStore.leaveService (s : State) (w : Work) : s.SameStore (s.leaveService w) := by
  unfold State.leaveService
  split
  · exact .refl s
  · dsimp only
    split
    · exact (State.SameStore.modEntry s _ _).trans (State.SameStore.disableNow _ _)
    · exact State.SameStore.modEntry s _ _

theorem State.SameStore.leaveDirected (s : State) (l : Line) (w : Work) : s.SameStore (s.leaveDirected l w) := by
  unfold State.leaveDirected
  split
  · exact State.SameStore.modLine s l _ rfl
  · exact .refl s

section
variable {s : State} {l : Line} {c : UnitContext} {e : UnitEnd}

/-- What a unit hands on it writes from its reservation (R106, R107). -/
theorem wordsTaken_handedOn (hs : s.Coherent) (hc : (s.line l).current = some c) (he : e.Fits c.work) :
    (s.handedOn l c e).wordsTaken = s.wordsTaken := by
  have hheld : (s.line l).reservation = some (workRequest c.work) := by rw [(hs.lines l).reserved, hc]; rfl
  have hroom := wordsOf_ownRecord_le l (s.line l).cycleNumber he
  unfold State.handedOn
  rw [(State.SameStore.leaveDirected _ l _).wordsTaken, (State.SameStore.leaveService _ _).wordsTaken,
    wordsTaken_applyOutcome (n := workRequest c.work - wordsOf (ownRecord l (s.line l).cycleNumber c.work e).toList),
    wordsTaken_writeRecord? hheld]
  · omega
  · rw [line_writeRecord?_self, hheld]
    rfl
  · omega

/-- The unused part of the reservation goes back, and serves the lines that wait (R110, R112). -/
theorem State.KeepsStore.returnReservation (hh : ∀ h ∈ s.queue.holdList, (s.dropReservation l).LineCoherent h.line) :
    s.KeepsStore (s.returnReservation l) := by
  have hdrop := State.KeepsStore.dropReservation s l
  unfold State.returnReservation
  split
  · refine hdrop.trans (State.KeepsStore.serve fun h hk => ?_)
    rw [State.queue_dropReservation] at hk
    exact hh h hk
  · exact hdrop

theorem State.KeepsStore.completeUnit (hs : s.Coherent) (he : ∀ c, (s.line l).current = some c → e.Fits c.work) :
    s.KeepsStore (s.completeUnit l e) := by
  cases hc : (s.line l).current with
  | none =>
    simp only [State.completeUnit, hc]
    exact .refl s
  | some c =>
    rw [completeUnit_eq e hc]
    refine State.KeepsStore.trans (.of_le (wordsTaken_handedOn hs hc (he c hc)).le) ?_
    refine State.KeepsStore.trans (State.KeepsStore.returnReservation fun h hh => ?_) (State.KeepsStore.modLine _ l _)
    have hne := no_entry_handedOn e hs hc h hh
    exact (lineCoherent_handedOn_other c e hne ((coherent_iff s).1 hs h.line)).other (State.OnlyLine.modLine _ l _) hne

/-- An end that writes no answer asks nothing of the unit. -/
theorem State.KeepsStore.completeUnit_of_ne_good (hs : s.Coherent) (he : ∀ a, e ≠ .good a) :
    s.KeepsStore (s.completeUnit l e) :=
  State.KeepsStore.completeUnit hs fun c _ => UnitEnd.fits_of_ne_good c.work he

end

/-! ### The answers -/

/-- An answer judged GOOD is within the limit of the POLL it answers (R29 step 5, Table 2-4). -/
theorem fits_of_validate {w : Work} {address ctrl addr group : Byte} {payload : List Byte} {a : HeldAnswer}
    (h : validate w address ctrl addr group payload = .good a) : (UnitEnd.good a).Fits w := by
  rintro b hb hpoll
  obtain rfl : a = b := UnitEnd.good.inj hb
  unfold validate at h
  split at h
  · cases h
  next kind _ =>
  split at h
  · cases h
  split at h
  · cases h
  split at h
  · cases h
  next hallowed =>
  cases kind with
  | reply =>
    dsimp only at h
    split at h
    · next hlimit =>
      rw [← Verdict.good.inj h]
      exact hlimit
    · cases h
  | confirm =>
    rw [hpoll] at hallowed
    exact absurd rfl hallowed
  | busy => cases h

theorem fits_of_judgeAnswer {c : UnitContext} {buffer : List Byte} {crc : Word} {low : Byte} {a : HeldAnswer}
    (h : judgeAnswer c buffer crc low = .good a) : (UnitEnd.good a).Fits c.work := by
  unfold judgeAnswer at h
  dsimp only at h
  split at h
  · exact fits_of_validate h
  · cases h

end Sys2Proof.Machine
end

section
/-! SUPPORT. Every effect of a row of the table and of one reference period keeps the store within its words, the part
being Coherent before it (R109). -/

namespace Sys2Proof.Machine

section
variable {s : State} {l : Line}

/-! ### The end of a unit and of a line's run -/

theorem State.KeepsStore.endUnit {e : UnitEnd} (hs : s.Coherent)
    (he : ∀ c, (s.line l).current = some c → e.Fits c.work) : s.KeepsStore (s.endUnit l e) := by
  unfold State.endUnit State.afterCompletion
  refine State.KeepsStore.trans ?_ (State.KeepsStore.finish _)
  split
  · exact (State.KeepsStore.completeUnit hs he).trans (State.SameStore.enterStopped _ l).keepsStore
  · exact State.KeepsStore.completeUnit hs he

theorem State.KeepsStore.endUnit_of_ne_good {e : UnitEnd} (hs : s.Coherent) (he : ∀ a, e ≠ .good a) :
    s.KeepsStore (s.endUnit l e) :=
  State.KeepsStore.endUnit hs fun c _ => UnitEnd.fits_of_ne_good c.work he

theorem State.KeepsStore.faultLine (cause : FaultCause) (hs : s.Coherent) : s.KeepsStore (s.faultLine l cause) := by
  have hend : s.KeepsStore (s.completeUnit l .lineFault) :=
    State.KeepsStore.completeUnit_of_ne_good hs fun _ => nofun
  exact hend.trans (((State.SameStore.modLine _ l _ rfl).trans (State.SameStore.applyPendingSwap _ l)).trans
    (State.SameStore.raise _ _)).keepsStore

/-- A discarded unit leaves the hold list, which is served when its head has left (R113). -/
theorem State.KeepsStore.discardPending (hs : s.Coherent) : s.KeepsStore (s.discardPending l) := by
  have hleave : s.KeepsStore (s.leaveHoldList l) := State.KeepsStore.withQueue s _
  have hbase : s.KeepsStore (((s.leaveHoldList l).dropReservation l).modLine l LineEngine.clearChosen) :=
    (hleave.trans (State.KeepsStore.dropReservation _ l)).trans (State.KeepsStore.modLine _ l LineEngine.clearChosen)
  unfold State.discardPending
  dsimp only
  split
  · refine hbase.trans (State.KeepsStore.serve fun h hh => ?_)
    rw [State.queue_modLine, State.queue_dropReservation] at hh
    exact ((coherent_iff s).1 hs h.line).other (onlyLine_discardBase s l) (no_entry_leaveHoldList s l h hh)
  · exact hbase

theorem State.KeepsStore.cutShort (hs : s.Coherent) : s.KeepsStore (s.cutShort l) := by
  unfold State.cutShort
  split
  · exact (State.KeepsStore.modLine s l LineEngine.endLead).trans
      (State.KeepsStore.completeUnit_of_ne_good (coherent_endLead l hs) fun _ => nofun)
  · split
    · exact State.KeepsStore.discardPending hs
    · exact .refl s

theorem State.KeepsStore.enterStopped_finish (s : State) (l : Line) : s.KeepsStore (s.enterStopped l).finish :=
  (State.SameStore.enterStopped s l).keepsStore.trans (State.KeepsStore.finish _)

theorem State.KeepsStore.modLine_finish (s : State) (l : Line) (f : LineEngine → LineEngine)
    (h : (f (s.line l)).reservation = (s.line l).reservation := by rfl) : s.KeepsStore (s.modLine l f).finish :=
  (State.KeepsStore.modLine s l f h).trans (State.KeepsStore.finish _)

/-! ### Attempts -/

theorem State.SameStore.chargeAttempt (s : State) (w : Work) : s.SameStore (s.chargeAttempt w) := by
  unfold State.chargeAttempt
  split
  · exact .refl s
  · exact State.SameStore.modEntry s _ _

theorem State.KeepsStore.attemptFails (o : FailingOutcome) (hs : s.Coherent) : s.KeepsStore (s.attemptFails l o) := by
  unfold State.attemptFails
  split
  · exact .refl s
  · next d hd =>
    dsimp only
    have hcharged : s.KeepsStore
        ((s.modLine l (fun x => { x with current := some (d.fail o) })).chargeAttempt d.work) :=
      (State.KeepsStore.modLine s l _).trans (State.SameStore.chargeAttempt _ d.work).keepsStore
    split
    · exact hcharged.trans (State.KeepsStore.modLine _ l _)
    · exact hcharged.trans (State.KeepsStore.endUnit_of_ne_good
        (coherent_chargeAttempt d.work (coherent_withContext (d.fail o) hs hd rfl)) fun _ => nofun)

theorem State.KeepsStore.attemptGood {a : HeldAnswer} (hs : s.Coherent)
    (ha : ∀ c, (s.line l).current = some c → (UnitEnd.good a).Fits c.work) : s.KeepsStore (s.attemptGood l a) := by
  unfold State.attemptGood
  split
  · exact .refl s
  · next d hd =>
    refine State.KeepsStore.trans (State.KeepsStore.modLine s l _)
      (State.KeepsStore.endUnit (coherent_withContext (d.answered a) hs hd rfl) fun c hc => ?_)
    rw [State.line_modLine] at hc
    rw [← Option.some.inj hc]
    exact ha d hd

theorem State.KeepsStore.attemptDeferred (a : HeldAnswer) (hs : s.Coherent) :
    s.KeepsStore (s.attemptDeferred l a) := by
  unfold State.attemptDeferred
  split
  · exact .refl s
  · next d hd =>
    dsimp only
    have hanswered := State.KeepsStore.modLine s l (fun x => { x with current := some (d.answered a) })
    split
    · exact hanswered.trans (State.KeepsStore.modLine _ l _)
    · exact hanswered.trans (State.KeepsStore.endUnit_of_ne_good
        (coherent_withContext (d.answered a) hs hd rfl) fun _ => nofun)

theorem State.KeepsStore.attemptJudged {v : Verdict} (hs : s.Coherent)
    (hv : ∀ a c, v = .good a → (s.line l).current = some c → (UnitEnd.good a).Fits c.work) :
    s.KeepsStore (s.attemptJudged l v) := by
  cases v with
  | good a => exact State.KeepsStore.attemptGood hs fun c => hv a c rfl
  | deferred a => exact State.KeepsStore.attemptDeferred a hs
  | failing o => exact State.KeepsStore.attemptFails o hs

/-! ### Receiver and transmitter -/

theorem State.KeepsStore.whenLive {f : State → State} (h : s.KeepsStore (f s)) : s.KeepsStore (s.whenLive f) := by
  unfold State.whenLive
  split
  · exact h
  · exact .refl s

theorem State.KeepsStore.startDetected (s : State) (l : Line) : s.KeepsStore (s.startDetected l) := by
  unfold State.startDetected
  split
  · exact .refl s
  · split
    · refine State.KeepsStore.modLine s l _ ?_
      rw [LineEngine.disposeStart_eq]
    · exact .refl s

theorem State.KeepsStore.waitMarkEnd (s : State) (l : Line) : s.KeepsStore (s.waitMarkEnd l) := by
  unfold State.waitMarkEnd
  split
  · exact .refl s
  · split
    · exact State.KeepsStore.modLine s l _
    · exact .refl s

theorem State.KeepsStore.nextAnswerCharacter (buffer : List Byte) (crc : Word) (v : Byte) (f : Framing)
    (hs : s.Coherent) : s.KeepsStore (s.nextAnswerCharacter l buffer crc v f) := by
  have hfails : s.KeepsStore (s.attemptFails l .corrupt) := State.KeepsStore.attemptFails .corrupt hs
  have hcollect (crc' : Word) :
      s.KeepsStore (s.modLine l (fun x => { x with phase := .receive (buffer ++ [v]) crc' (some 0) })) :=
    State.KeepsStore.modLine s l _
  unfold State.nextAnswerCharacter
  dsimp only
  split
  · exact hfails
  split
  · exact hcollect _
  split
  · split
    · exact hfails
    · exact hcollect _
  split
  · exact hcollect _
  split
  · exact hcollect _
  split
  · exact .refl s
  · next c hc =>
    refine State.KeepsStore.attemptJudged hs fun a d ha hd => ?_
    obtain rfl : c = d := Option.some.inj (hc.symm.trans hd)
    exact fits_of_judgeAnswer ha

theorem State.KeepsStore.disposeCharacter (v : Byte) (f : Framing) (hs : s.Coherent) :
    s.KeepsStore (s.disposeCharacter l v f) := by
  unfold State.disposeCharacter
  split
  · exact .refl s
  · exact State.KeepsStore.modLine s l _
  · split
    · exact State.KeepsStore.modLine s l _
    · exact State.KeepsStore.modLine s l _
  · exact .refl s
  · unfold State.firstAnswerCharacter
    split
    · exact State.KeepsStore.modLine s l _
    · exact State.KeepsStore.attemptFails .corrupt hs
  · exact State.KeepsStore.nextAnswerCharacter _ _ v f hs

theorem State.KeepsStore.character (v : Byte) (f : Framing) (hs : s.Coherent) : s.KeepsStore (s.character l v f) := by
  unfold State.character
  split
  · exact .refl s
  · split
    · exact (State.KeepsStore.modLine s l _).trans (State.KeepsStore.disposeCharacter v f (coherent_receiver _ hs))
    · exact .refl s

theorem State.KeepsStore.quietReached (s : State) (l : Line) : s.KeepsStore (s.quietReached l) := by
  refine State.KeepsStore.whenLive ?_
  split
  · refine State.KeepsStore.modLine s l _ ?_
    unfold LineEngine.enterSend
    split <;> rfl
  · exact .refl s

theorem State.KeepsStore.noiseLimitExpiry (hs : s.Coherent) : s.KeepsStore (s.noiseLimitExpiry l) := by
  refine State.KeepsStore.whenLive ?_
  split
  · exact (State.KeepsStore.faultLine .noise hs).trans (State.KeepsStore.finish _)
  · exact .refl s

/-- The transmission ends early, and with it the attempt, contended (R34, R35). -/
theorem State.KeepsStore.contended (n : Nat) (hs : s.Coherent) :
    s.KeepsStore ((s.setLine l { s.line l with shifter := none, contention := n }).afterContention l) := by
  refine State.KeepsStore.trans (State.KeepsStore.modLine s l (fun y => { y with shifter := none, contention := n })) ?_
  have hsilent : (s.modLine l (fun y => { y with shifter := none, contention := n })).Coherent := coherent_silent n hs
  unfold State.afterContention
  split
  · exact (State.KeepsStore.faultLine .contention hsilent).trans (State.KeepsStore.finish _)
  · exact State.KeepsStore.modLine _ l _

theorem State.KeepsStore.characterSent (hs : s.Coherent) : s.KeepsStore (s.characterSent l) := by
  have hsilent := State.KeepsStore.modLine s l (fun y => { y with shifter := none })
  cases hp : (s.line l).phase with
  | send k echoed =>
    cases echoed with
    | true =>
      simp only [State.characterSent, hp]
      split
      · exact State.KeepsStore.modLine s l _
      · exact State.KeepsStore.modLine s l _
    | false =>
      rw [State.characterSent_unechoed hp]
      exact State.KeepsStore.contended _ hs
  | sendWaiting =>
    rw [State.characterSent_sendWaiting hp]
    exact State.KeepsStore.modLine s l LineEngine.beginTransmission
  | idle wait =>
    by_cases hw : wait = .fallOfDe
    · rw [State.characterSent_fallOfDe (by rw [hp, hw])]
      exact State.KeepsStore.contended (s.line l).contention hs
    · rw [State.characterSent_elsewhere (by simp [hp]) (by simp [hp]) (by simpa [hp] using hw)]
      exact hsilent
  | _ =>
    rw [State.characterSent_elsewhere (by simp [hp]) (by simp [hp]) (by simp [hp])]
    exact hsilent

theorem State.KeepsStore.transmitCharacterEnd (hs : s.Coherent) : s.KeepsStore (s.transmitCharacterEnd l) := by
  refine State.KeepsStore.whenLive ?_
  split
  · exact State.KeepsStore.characterSent hs
  · exact .refl s

/-! ### Timers and inner events -/

theorem State.KeepsStore.responseTimeout (hs : s.Coherent) : s.KeepsStore (s.responseTimeout l) := by
  refine State.KeepsStore.whenLive ?_
  split
  · exact State.KeepsStore.attemptFails .timeout hs
  all_goals exact .refl s

theorem State.KeepsStore.gapLimitExpiry (hs : s.Coherent) : s.KeepsStore (s.gapLimitExpiry l) := by
  refine State.KeepsStore.whenLive ?_
  split
  · exact State.KeepsStore.attemptFails .corrupt hs
  all_goals exact .refl s

theorem State.KeepsStore.backoffEnd (s : State) (l : Line) : s.KeepsStore (s.backoffEnd l) := by
  refine State.KeepsStore.whenLive ?_
  split
  · exact State.KeepsStore.modLine s l _
  all_goals exact .refl s

theorem State.KeepsStore.settleEnd (hs : s.Coherent) : s.KeepsStore (s.settleEnd l) := by
  refine State.KeepsStore.whenLive ?_
  split
  · exact State.KeepsStore.endUnit_of_ne_good hs fun _ => nofun
  all_goals exact .refl s

theorem State.KeepsStore.intervalElapsed (s : State) (l : Line) : s.KeepsStore (s.intervalElapsed l) := by
  refine State.KeepsStore.whenLive ?_
  split
  · exact State.KeepsStore.modLine_finish s l _
  · exact .refl s

/-- In a Coherent state no granted unit waits to start. -/
theorem State.KeepsStore.unitStart (hs : s.Coherent) : s.KeepsStore (s.unitStart l) := by
  refine State.KeepsStore.whenLive ?_
  rw [not_granted l hs]
  exact .refl s

theorem State.KeepsStore.deferredDisable (s : State) (i : StationIndex) : s.KeepsStore (s.deferredDisable i) := by
  refine State.KeepsStore.whenLive ?_
  split
  · exact (State.SameStore.disableNow s i).keepsStore
  · exact .refl s

theorem State.KeepsStore.stoppingLineStopped (s : State) (l : Line) : s.KeepsStore (s.stoppingLineStopped l) := by
  refine State.KeepsStore.whenLive ?_
  split
  · exact (State.SameStore.enterStopped s l).keepsStore
  · exact .refl s

theorem State.KeepsStore.holdListGrant (hs : s.Coherent) : s.KeepsStore s.holdListGrant :=
  State.KeepsStore.whenLive ((State.KeepsStore.serve_of_coherent hs).trans (State.KeepsStore.finish _))

theorem State.KeepsStore.workSelection (s : State) (l : Line) : s.KeepsStore (s.workSelection l) := by
  refine State.KeepsStore.whenLive ?_
  split
  · exact (State.KeepsStore.invokeArbiter s l).trans (State.KeepsStore.finish _)
  · exact .refl s

theorem State.KeepsStore.pendingSwapTakesEffect (s : State) (l : Line) :
    s.KeepsStore (s.pendingSwapTakesEffect l) := by
  refine State.KeepsStore.whenLive ?_
  split
  · exact State.KeepsStore.modLine s l _
  · exact .refl s

theorem State.KeepsStore.cycleStart (s : State) (l : Line) : s.KeepsStore (s.cycleStart l) := by
  refine State.KeepsStore.whenLive ?_
  split
  · exact State.KeepsStore.modLine_finish s l _
  · exact .refl s

/-! ### One reference period -/

theorem State.KeepsStore.fire (e : TimedEvent) (hs : s.Coherent) : s.KeepsStore (s.fire l e) := by
  cases e with
  | characterSent => exact State.KeepsStore.transmitCharacterEnd hs
  | quiet => exact State.KeepsStore.quietReached s l
  | noise => exact State.KeepsStore.noiseLimitExpiry hs
  | response => exact State.KeepsStore.responseTimeout hs
  | gap => exact State.KeepsStore.gapLimitExpiry hs
  | backoff => exact State.KeepsStore.backoffEnd s l
  | settle => exact State.KeepsStore.settleEnd hs
  | interval => exact State.KeepsStore.intervalElapsed s l

theorem State.KeepsStore.fireNext (hs : s.Coherent) : s.KeepsStore (s.fireNext l) := by
  unfold State.fireNext
  split
  · exact .refl s
  · exact State.KeepsStore.fire _ hs

theorem State.KeepsStore.fireDue (hs : s.Coherent) : s.KeepsStore (s.fireDue l) :=
  (State.KeepsStore.fireNext hs).trans (State.KeepsStore.fireNext (coherent_fireNext l hs))

theorem State.KeepsStore.fireTwo (m : Line) (hs : s.Coherent) : s.KeepsStore ((s.fireDue l).fireDue m) :=
  (State.KeepsStore.fireDue hs).trans (State.KeepsStore.fireDue (coherent_fireDue l hs))

theorem wordsOf_perm {xs ys : List Record} (h : xs.Perm ys) : wordsOf xs = wordsOf ys :=
  (h.map Record.size).sum_eq

/-- The order of the records of a period bears on no word of the store (log entry 24). -/
theorem State.KeepsStore.recordsApart (s : State) {before middle : Nat} (h : before ≤ middle) :
    s.KeepsStore (s.recordsApart before middle) := by
  obtain ⟨n, records, cursor, he, hperm, -⟩ := s.recordsApart_spec h
  rw [he]
  exact .of_le (Nat.add_le_add_right (wordsOf_perm hperm).le _)

theorem State.KeepsStore.fireInTurn (m : Line) (hs : s.Coherent) : s.KeepsStore (s.fireInTurn l m) :=
  (State.KeepsStore.fireTwo m hs).trans
    (State.KeepsStore.recordsApart _ (State.Evolves.fireDue s l).records.length_le)

theorem State.KeepsStore.fireBoth (hs : s.Coherent) : s.KeepsStore s.fireBoth := by
  have hrace := coherent_nextRace hs
  unfold State.fireBoth
  split
  · split
    · exact (State.KeepsStore.nextRace s).trans (State.KeepsStore.fireInTurn .b hrace)
    · exact (State.KeepsStore.nextRace s).trans (State.KeepsStore.fireInTurn .a hrace)
  · exact State.KeepsStore.fireTwo .b hs

theorem State.KeepsStore.tickLines (s : State) :
    s.KeepsStore ((s.modLine .a LineEngine.tick).modLine .b LineEngine.tick) :=
  (State.KeepsStore.modLine s .a _).trans (State.KeepsStore.modLine _ .b _)

theorem State.KeepsStore.passTime (hs : s.Coherent) : s.KeepsStore s.passTime := by
  unfold State.passTime
  split
  · exact .refl s
  · split
    · exact (State.KeepsStore.modWindow s _).trans (State.KeepsStore.tickLines _)
    · exact (State.KeepsStore.tickLines s).trans
        (State.KeepsStore.fireBoth (coherent_tickLine _ (coherent_tickLine _ hs)))

/-! ### The command slot and the commands of stations -/

/-- A command that did `t` and answers. -/
theorem State.KeepsStore.andReply {t : State} (h : s.KeepsStore t) (r : Result) (n : Nat) :
    s.KeepsStore (t.reply r n) :=
  h.trans (State.KeepsStore.modWindow t _)

theorem State.KeepsStore.reply (s : State) (r : Result) (n : Nat) : s.KeepsStore (s.reply r n) :=
  (State.KeepsStore.refl s).andReply r n

theorem State.KeepsStore.issue (code : Word) {d : State → State} (hs : s.Coherent)
    (hd : ∀ t : State, t.Coherent → t.KeepsStore (d t)) : s.KeepsStore (s.issue code d) := by
  have hcode := State.KeepsStore.modWindow s (fun w => { w with command := code })
  unfold State.issue
  split
  · exact .refl s
  · dsimp only
    split
    · exact hcode.andReply _ _
    · exact hcode.trans (hd _ (coherent_modWindow _ hs))

theorem State.KeepsStore.withStation {body : StationIndex → State} (hb : ∀ i, s.KeepsStore (body i)) :
    s.KeepsStore (s.withStation body) := by
  unfold State.withStation
  split
  · exact State.KeepsStore.reply s _ _
  · exact hb _

theorem State.KeepsStore.cmdStationConfigure (s : State) : s.KeepsStore s.cmdStationConfigure := by
  refine State.KeepsStore.withStation fun i => ?_
  dsimp only
  split
  · exact State.KeepsStore.reply s _ _
  split
  · exact State.KeepsStore.reply s _ _
  split
  · exact State.KeepsStore.reply s _ _
  split
  · exact State.KeepsStore.reply s _ _
  · exact (State.KeepsStore.modEntry s i _).andReply _ _

theorem State.KeepsStore.cmdStationEnable (s : State) : s.KeepsStore s.cmdStationEnable := by
  refine State.KeepsStore.withStation fun i => ?_
  split
  · exact (State.KeepsStore.modEntry s i _).andReply _ _
  · exact State.KeepsStore.reply s _ _

theorem State.KeepsStore.cmdStationDisable (s : State) : s.KeepsStore s.cmdStationDisable := by
  refine State.KeepsStore.withStation fun i => ?_
  dsimp only
  split
  · split
    · exact (State.KeepsStore.modEntry s i _).andReply _ _
    · exact (State.SameStore.disableNow s i).keepsStore.andReply _ _
  · split
    · exact State.KeepsStore.reply s _ _
    · exact State.KeepsStore.reply s _ _

theorem State.KeepsStore.cmdStationClear (s : State) : s.KeepsStore s.cmdStationClear := by
  refine State.KeepsStore.withStation fun i => ?_
  split
  · exact (State.KeepsStore.modEntry s i _).andReply _ _
  · exact State.KeepsStore.reply s _ _

theorem State.KeepsStore.cmdStationZeroCounts (s : State) : s.KeepsStore s.cmdStationZeroCounts := by
  refine State.KeepsStore.withStation fun i => ?_
  split
  · exact State.KeepsStore.reply s _ _
  · exact (State.KeepsStore.modEntry s i _).andReply _ _

/-! ### The commands of lists and of the queue -/

theorem State.KeepsStore.cmdListSwap (s : State) : s.KeepsStore s.cmdListSwap := by
  unfold State.cmdListSwap
  split
  · exact State.KeepsStore.reply s _ _
  next l _ =>
  dsimp only
  split
  · exact State.KeepsStore.reply s _ _
  split
  · exact State.KeepsStore.reply s _ _
  split
  · exact (State.KeepsStore.modLine_finish s l _).andReply _ _
  · exact (State.KeepsStore.modLine s l _).andReply _ _

theorem State.KeepsStore.cmdSubmit (s : State) : s.KeepsStore s.cmdSubmit := by
  unfold State.cmdSubmit
  dsimp only
  split
  · exact State.KeepsStore.reply s _ _
  next l _ =>
  split
  · exact State.KeepsStore.reply s _ _
  split
  · exact State.KeepsStore.reply s _ _
  split
  · exact State.KeepsStore.reply s _ _
  split
  · exact State.KeepsStore.reply s _ _
  · exact (State.KeepsStore.modLine_finish s l _).andReply _ _

/-- The records that stay when the head leaves take no more words than with it. -/
theorem wordsOf_tail_le (xs : List Record) : wordsOf xs.tail ≤ wordsOf xs := by
  cases xs with
  | nil => exact Nat.le_refl _
  | cons r rest =>
    simp only [wordsOf, List.tail_cons, List.map_cons, List.sum_cons]
    omega

theorem State.KeepsStore.releaseHead (hs : s.Coherent) : s.KeepsStore s.releaseHead.finish := by
  have hdrop : s.KeepsStore s.dropHead := State.KeepsStore.withQueue s _ (wordsOf_tail_le s.queue.records)
  have hcoherent : s.dropHead.Coherent := coherent_withQueue _ hs rfl
  exact (hdrop.trans (State.KeepsStore.serve_of_coherent hcoherent)).trans (State.KeepsStore.finish _)

theorem State.KeepsStore.cmdQueueRelease (hs : s.Coherent) : s.KeepsStore s.cmdQueueRelease := by
  unfold State.cmdQueueRelease
  split
  · exact State.KeepsStore.reply s _ _
  split
  · exact State.KeepsStore.reply s _ _
  · exact (State.KeepsStore.releaseHead hs).andReply _ _

theorem State.KeepsStore.cmdQueueFlush (s : State) : s.KeepsStore s.cmdQueueFlush := by
  have hempty : s.KeepsStore { s with queue := { s.queue with records := [], cursor := 0 } } :=
    State.KeepsStore.withQueue s _ (Nat.zero_le _)
  unfold State.cmdQueueFlush
  split
  · exact State.KeepsStore.reply s _ _
  · exact hempty.andReply _ _

theorem State.KeepsStore.cmdQueueSetThreshold (s : State) : s.KeepsStore s.cmdQueueSetThreshold := by
  unfold State.cmdQueueSetThreshold
  dsimp only
  split
  · exact State.KeepsStore.reply s _ _
  · exact (State.KeepsStore.withQueue s _).andReply _ _

theorem State.KeepsStore.cmdDrainMode (s : State) : s.KeepsStore s.cmdDrainMode := by
  unfold State.cmdDrainMode
  split
  · exact State.KeepsStore.reply s _ _
  split
  · exact State.KeepsStore.reply s _ _
  · exact (State.KeepsStore.withQueue s _).andReply _ _

theorem State.KeepsStore.drive (s : State) (w : Word) : s.KeepsStore (s.drive w) :=
  State.KeepsStore.modWindow s _

theorem State.KeepsStore.takeWord (s : State) (w : Word) : s.KeepsStore ((s.drive w).advanceCursor) :=
  (State.KeepsStore.drive s w).trans (State.KeepsStore.withQueue _ _)

/-- A word of the head record is taken, and the record released if it was its last (R118, R140). -/
theorem State.KeepsStore.takeLastWord (w : Word) (hs : s.Coherent) :
    s.KeepsStore ((s.drive w).advanceCursor.releaseHead.finish) :=
  (State.KeepsStore.takeWord s w).trans (State.KeepsStore.releaseHead (coherent_takeWord w hs))

theorem State.KeepsStore.queueDataRead (hs : s.Coherent) : s.KeepsStore s.queueDataRead := by
  unfold State.queueDataRead
  split
  · split
    · exact State.KeepsStore.drive s _
    · split
      · exact State.KeepsStore.drive s _
      · exact State.KeepsStore.takeWord s _
    · split
      · exact State.KeepsStore.drive s _
      · dsimp only
        split
        · exact State.KeepsStore.takeLastWord _ hs
        · exact State.KeepsStore.takeWord s _
  · exact State.KeepsStore.drive s _

theorem State.KeepsStore.dackStrobe (hs : s.Coherent) : s.KeepsStore s.dackStrobe := by
  unfold State.dackStrobe
  split
  · split
    · exact State.KeepsStore.drive s _
    · exact State.KeepsStore.drive s _
    · split
      · exact State.KeepsStore.drive s _
      · dsimp only
        split
        · exact State.KeepsStore.takeLastWord _ hs
        · exact State.KeepsStore.takeWord s _
  · exact State.KeepsStore.drive s _

/-! ### The commands of lines -/

theorem State.KeepsStore.withLine {body : Line → State} (hb : ∀ l, s.KeepsStore (body l)) :
    s.KeepsStore (s.withLine body) := by
  unfold State.withLine
  split
  · exact State.KeepsStore.reply s _ _
  · exact hb _

theorem State.KeepsStore.cmdLineSet (s : State) : s.KeepsStore s.cmdLineSet := by
  refine State.KeepsStore.withLine fun l => ?_
  split
  · exact State.KeepsStore.reply s _ _
  split
  · exact State.KeepsStore.reply s _ _
  split
  · exact (State.KeepsStore.modLine s l _).andReply _ _
  · exact State.KeepsStore.reply s _ _

theorem LineEngine.reservation_start (x : LineEngine) : x.start.reservation = x.reservation := by
  unfold LineEngine.start
  dsimp only
  split <;> rfl

theorem State.KeepsStore.cmdLineStart (s : State) : s.KeepsStore s.cmdLineStart := by
  refine State.KeepsStore.withLine fun l => ?_
  split
  · exact (State.KeepsStore.modLine_finish s l _ (LineEngine.reservation_start _)).andReply _ _
  · exact State.KeepsStore.reply s _ _

theorem State.KeepsStore.stopRunning (hs : s.Coherent) : s.KeepsStore (s.stopRunning l) := by
  unfold State.stopRunning
  split
  · exact (State.KeepsStore.modLine s l _).andReply _ _
  split
  · exact ((State.KeepsStore.discardPending hs).trans (State.KeepsStore.enterStopped_finish _ l)).andReply _ _
  · exact (State.KeepsStore.enterStopped_finish s l).andReply _ _

theorem State.KeepsStore.cmdLineStop (hs : s.Coherent) : s.KeepsStore s.cmdLineStop := by
  refine State.KeepsStore.withLine fun l => ?_
  split
  · exact State.KeepsStore.reply s _ _
  · exact State.KeepsStore.reply s _ _
  · exact State.KeepsStore.reply s _ _
  · exact State.KeepsStore.stopRunning hs

theorem State.KeepsStore.cmdLineHalt (hs : s.Coherent) : s.KeepsStore s.cmdLineHalt := by
  refine State.KeepsStore.withLine fun l => ?_
  split
  · exact State.KeepsStore.reply s _ _
  · exact ((State.KeepsStore.cutShort hs).trans (State.KeepsStore.enterStopped_finish _ l)).andReply _ _

theorem State.SameStore.resetStations (s : State) (l : Line) : s.SameStore (s.resetStations l) :=
  ⟨rfl, rfl⟩

theorem State.KeepsStore.cmdLineReset (hs : s.Coherent) : s.KeepsStore s.cmdLineReset := by
  refine State.KeepsStore.withLine fun l => ?_
  exact ((((State.KeepsStore.cutShort hs).trans (State.KeepsStore.modLine _ l LineEngine.resetCounters)).trans
    (State.SameStore.resetStations _ l).keepsStore).trans (State.KeepsStore.enterStopped_finish _ l)).andReply _ _

/-- After reset no word is used or reserved (Table 9-5). -/
theorem State.KeepsStore.resetEffects (s : State) : s.KeepsStore s.resetEffects :=
  fun _ => Nat.zero_le _

theorem State.KeepsStore.decideCommand (k : Command) (hs : s.Coherent) : s.KeepsStore (s.decideCommand k) := by
  cases k with
  | stationConfigure => exact State.KeepsStore.cmdStationConfigure s
  | stationEnable => exact State.KeepsStore.cmdStationEnable s
  | stationDisable => exact State.KeepsStore.cmdStationDisable s
  | stationClear => exact State.KeepsStore.cmdStationClear s
  | stationZeroCounts => exact State.KeepsStore.cmdStationZeroCounts s
  | listSwap => exact State.KeepsStore.cmdListSwap s
  | submit => exact State.KeepsStore.cmdSubmit s
  | queueRelease => exact State.KeepsStore.cmdQueueRelease hs
  | queueFlush => exact State.KeepsStore.cmdQueueFlush s
  | queueSetThreshold => exact State.KeepsStore.cmdQueueSetThreshold s
  | drainMode => exact State.KeepsStore.cmdDrainMode s
  | lineSet => exact State.KeepsStore.cmdLineSet s
  | lineStart => exact State.KeepsStore.cmdLineStart s
  | lineStop => exact State.KeepsStore.cmdLineStop hs
  | lineHalt => exact State.KeepsStore.cmdLineHalt hs
  | lineReset => exact State.KeepsStore.cmdLineReset hs
  | partReset => exact State.KeepsStore.resetEffects s

theorem State.KeepsStore.command (k : Command) (hs : s.Coherent) :
    s.KeepsStore (s.issue (commandCode k) fun t => t.decideCommand k) :=
  State.KeepsStore.issue _ hs fun _ ht => State.KeepsStore.decideCommand k ht

theorem State.KeepsStore.writeCommand (code : Word) (hs : s.Coherent) : s.KeepsStore (s.writeCommand code) := by
  refine State.KeepsStore.issue _ hs fun t ht => ?_
  unfold State.decideWord
  split
  · exact State.KeepsStore.decideCommand _ ht
  · exact State.KeepsStore.reply t _ _

/-! ### The host window -/

theorem State.KeepsStore.tableStore (s : State) (r : BitVec 4) (k : Nat) (w : Word) :
    s.KeepsStore (s.tableStore r k w) := by
  unfold State.tableStore
  split
  · exact .refl s
  · split
    · exact State.KeepsStore.modWindow s _
    · exact .refl s
  · next l n _ =>
    split
    · split
      · exact State.KeepsStore.modLine s l _ (by cases n <;> rfl)
      · exact State.KeepsStore.modWindow s _
    · exact .refl s
  · next l _ => exact State.KeepsStore.modLine s l _

theorem State.KeepsStore.tableDataRead (s : State) : s.KeepsStore s.tableDataRead := by
  unfold State.tableDataRead
  split
  · exact State.KeepsStore.drive s _
  · exact (State.KeepsStore.drive s _).trans (State.KeepsStore.modWindow _ _)

theorem State.KeepsStore.tableDataWrite (s : State) (w : Word) : s.KeepsStore (s.tableDataWrite w) := by
  unfold State.tableDataWrite
  split
  · exact .refl s
  · refine State.KeepsStore.trans ?_ (State.KeepsStore.modWindow _ _)
    split
    · exact State.KeepsStore.tableStore s _ _ w
    · exact .refl s

theorem State.KeepsStore.partStatusRead (s : State) : s.KeepsStore s.partStatusRead := by
  unfold State.partStatusRead
  split
  · exact State.KeepsStore.drive s _
  · exact (State.KeepsStore.drive s _).trans (State.KeepsStore.modWindow _ _)

theorem State.KeepsStore.withInterrupts (s : State) (u : InterruptUnit) : s.KeepsStore { s with interrupts := u } :=
  State.SameStore.keepsStore ⟨rfl, rfl⟩

theorem State.KeepsStore.intEnableWrite (s : State) (w : Word) : s.KeepsStore (s.intEnableWrite w) :=
  State.KeepsStore.whenLive (State.KeepsStore.withInterrupts s _)

theorem State.KeepsStore.intAckWrite (s : State) (w : Word) : s.KeepsStore (s.intAckWrite w) := by
  refine State.KeepsStore.whenLive ?_
  split
  · exact .refl s
  · exact .refl s
  · exact State.KeepsStore.withInterrupts s _

theorem State.KeepsStore.registerWrite (a : BitVec 5) (w : Word) (hs : s.Coherent) :
    s.KeepsStore (s.registerWrite a w) := by
  unfold State.registerWrite
  split
  · exact .refl s
  · split
    · exact State.KeepsStore.writeCommand w hs
    · exact State.KeepsStore.modWindow s _
    · exact State.KeepsStore.modWindow s _
    · exact State.KeepsStore.modWindow s _
    · exact State.KeepsStore.modWindow s _
    · exact State.KeepsStore.modWindow s _
    · exact State.KeepsStore.tableDataWrite s w
    · exact State.KeepsStore.intEnableWrite s w
    · exact State.KeepsStore.intAckWrite s w
    · exact .refl s

theorem State.KeepsStore.releaseReset (s : State) : s.KeepsStore s.releaseReset := by
  unfold State.releaseReset
  split
  · exact State.KeepsStore.modWindow s _
  · exact .refl s

theorem State.KeepsStore.endInit (s : State) : s.KeepsStore s.endInit := by
  unfold State.endInit
  split
  · exact .refl s
  · exact State.KeepsStore.modWindow s _

/-! ### Every row, and the step -/

/-- Each row of the opcode table answers a state whose store is no fuller than its words. -/
theorem State.KeepsStore.exec (i : Instr) (hs : s.Coherent) :
    ∃ t, Sys2Proof.Machine.exec i s = .next t ∧ s.KeepsStore t := by
  cases i with
  | hardwareResetAssert => exact ⟨_, rfl, (State.KeepsStore.resetEffects s).trans (State.KeepsStore.modWindow _ _)⟩
  | hardwareResetRelease => exact ⟨_, rfl, State.KeepsStore.releaseReset s⟩
  | initEnd => exact ⟨_, rfl, State.KeepsStore.endInit s⟩
  | stationConfigure => exact ⟨_, rfl, State.KeepsStore.command .stationConfigure hs⟩
  | stationEnable => exact ⟨_, rfl, State.KeepsStore.command .stationEnable hs⟩
  | stationDisable => exact ⟨_, rfl, State.KeepsStore.command .stationDisable hs⟩
  | stationClear => exact ⟨_, rfl, State.KeepsStore.command .stationClear hs⟩
  | stationZeroCounts => exact ⟨_, rfl, State.KeepsStore.command .stationZeroCounts hs⟩
  | listSwap => exact ⟨_, rfl, State.KeepsStore.command .listSwap hs⟩
  | submit => exact ⟨_, rfl, State.KeepsStore.command .submit hs⟩
  | queueRelease => exact ⟨_, rfl, State.KeepsStore.command .queueRelease hs⟩
  | queueFlush => exact ⟨_, rfl, State.KeepsStore.command .queueFlush hs⟩
  | queueSetThreshold => exact ⟨_, rfl, State.KeepsStore.command .queueSetThreshold hs⟩
  | drainMode => exact ⟨_, rfl, State.KeepsStore.command .drainMode hs⟩
  | lineSet => exact ⟨_, rfl, State.KeepsStore.command .lineSet hs⟩
  | lineStart => exact ⟨_, rfl, State.KeepsStore.command .lineStart hs⟩
  | lineStop => exact ⟨_, rfl, State.KeepsStore.command .lineStop hs⟩
  | lineHalt => exact ⟨_, rfl, State.KeepsStore.command .lineHalt hs⟩
  | lineReset => exact ⟨_, rfl, State.KeepsStore.command .lineReset hs⟩
  | partReset => exact ⟨_, rfl, State.KeepsStore.command .partReset hs⟩
  | unknownCommand code => exact ⟨_, rfl, State.KeepsStore.writeCommand code hs⟩
  | queueDataRead => exact ⟨_, rfl, State.KeepsStore.queueDataRead hs⟩
  | tableDataRead => exact ⟨_, rfl, State.KeepsStore.tableDataRead s⟩
  | tableDataWrite w => exact ⟨_, rfl, State.KeepsStore.tableDataWrite s w⟩
  | partStatusRead => exact ⟨_, rfl, State.KeepsStore.partStatusRead s⟩
  | intEnableWrite w => exact ⟨_, rfl, State.KeepsStore.intEnableWrite s w⟩
  | intAckWrite w => exact ⟨_, rfl, State.KeepsStore.intAckWrite s w⟩
  | registerWrite a w => exact ⟨_, rfl, State.KeepsStore.registerWrite a w hs⟩
  | dackStrobe overlap => cases overlap <;> exact ⟨_, rfl, State.KeepsStore.dackStrobe hs⟩
  | startDetected l => exact ⟨_, rfl, State.KeepsStore.startDetected s l⟩
  | character l v f => exact ⟨_, rfl, State.KeepsStore.character v f hs⟩
  | waitMarkEnd l => exact ⟨_, rfl, State.KeepsStore.waitMarkEnd s l⟩
  | quietReached l => exact ⟨_, rfl, State.KeepsStore.quietReached s l⟩
  | noiseLimitExpiry l => exact ⟨_, rfl, State.KeepsStore.noiseLimitExpiry hs⟩
  | transmitCharacterEnd l => exact ⟨_, rfl, State.KeepsStore.transmitCharacterEnd hs⟩
  | responseTimeout l => exact ⟨_, rfl, State.KeepsStore.responseTimeout hs⟩
  | gapLimitExpiry l => exact ⟨_, rfl, State.KeepsStore.gapLimitExpiry hs⟩
  | backoffEnd l => exact ⟨_, rfl, State.KeepsStore.backoffEnd s l⟩
  | settleEnd l => exact ⟨_, rfl, State.KeepsStore.settleEnd hs⟩
  | intervalElapsed l => exact ⟨_, rfl, State.KeepsStore.intervalElapsed s l⟩
  | unitStart l => exact ⟨_, rfl, State.KeepsStore.unitStart hs⟩
  | deferredDisable i => exact ⟨_, rfl, State.KeepsStore.deferredDisable s i⟩
  | stoppingLineStopped l => exact ⟨_, rfl, State.KeepsStore.stoppingLineStopped s l⟩
  | holdListGrant => exact ⟨_, rfl, State.KeepsStore.holdListGrant hs⟩
  | workSelection l => exact ⟨_, rfl, State.KeepsStore.workSelection s l⟩
  | pendingSwapTakesEffect l => exact ⟨_, rfl, State.KeepsStore.pendingSwapTakesEffect s l⟩
  | cycleStart l => exact ⟨_, rfl, State.KeepsStore.cycleStart s l⟩

/-- A step keeps the store within its words (R109). -/
theorem State.KeepsStore.step {t : State} (hs : s.Coherent) (h : Sys2Proof.Machine.step s = .next t) :
    s.KeepsStore t := by
  unfold Sys2Proof.Machine.step at h
  split at h
  · obtain rfl := Host.Outcome.next.inj h
    exact State.KeepsStore.passTime hs
  · next i rest _ =>
    have hcoherent : State.Coherent { s with pending := rest } :=
      coherent_of_same hs (fun m => by cases m <;> rfl) rfl
    obtain ⟨u, hu, hkeeps⟩ := State.KeepsStore.exec i hcoherent
    rw [hu] at h
    obtain rfl := Host.Outcome.next.inj h
    exact hkeeps

end

end Sys2Proof.Machine
end

section
/-! SUPPORT. The queue commands, the words the host and the DMA take, and a record written: one equation for each branch
of a decision. -/

namespace Sys2Proof.Machine

/-! ### A record written -/

theorem foldl_raise_interrupts (cs : List Cause) (s : State) :
    (cs.foldl State.raise s).interrupts = cs.foldl InterruptUnit.raise s.interrupts := by
  induction cs generalizing s with
  | nil => rfl
  | cons c cs ih => rw [List.foldl_cons, ih, List.foldl_cons]; rfl

/-- A record raises its causes and no others (R106 step 5). -/
theorem interrupts_writeRecord (s : State) (l : Line) (r : Record) :
    (s.writeRecord l r).interrupts = (recordCauses r).foldl InterruptUnit.raise s.interrupts := by
  simp only [State.writeRecord, foldl_raise_interrupts, State.interrupts_modLine]

theorem latched_writeRecord_of_cause {s : State} {l : Line} {r : Record} {c : Cause} (h : recordCauses r = [c]) :
    (s.writeRecord l r).interrupts.latched = s.interrupts.latched ||| causeBit c := by
  rw [interrupts_writeRecord, h]
  rfl

theorem latched_writeRecord_of_none {s : State} {l : Line} {r : Record} (h : recordCauses r = []) :
    (s.writeRecord l r).interrupts.latched = s.interrupts.latched ||| 0 := by
  rw [interrupts_writeRecord, h]
  exact BitVec.or_zero.symm

theorem cursor_push (q : ReplyQueue) (r : Record) : (q.push r).cursor = if q.records = [] then 0 else q.cursor := by
  simp [ReplyQueue.push]

/-! ### A reservation requested -/

section
variable {s : State} {l : Line} {w : Work}

theorem grantable_iff {n : Nat} :
    s.grantable n = true ↔ s.queue.holdList = [] ∧ s.wordsUsed + s.wordsReserved + n ≤ 1024 := by
  simp only [State.grantable, Bool.and_eq_true, List.isEmpty_iff, decide_eq_true_eq]
  rfl

/-- Words that are free are granted, and the unit starts (R109). -/
theorem requestUnit_of_grantable (h : s.grantable (workRequest w) = true) : s.requestUnit l w =
    (s.setLine l { s.line l with chosen := none, reservation := some (workRequest w) }).startWork l w := by
  simp only [State.requestUnit, if_pos h]
  rw [State.grant_of_chosen (w := w) _ (by rw [State.line_modLine])]
  simp only [State.modLine_eq_setLine, State.line_setLine, State.setLine_setLine]

/-- A request that is not granted waits (R111). -/
theorem requestUnit_of_not_grantable (h : ¬ s.grantable (workRequest w) = true) : s.requestUnit l w =
    { s.setLine l { s.line l with chosen := some w } with
      queue := { s.queue with holdList := s.queue.holdList ++ [⟨l, workRequest w⟩] }
      interrupts := { s.interrupts with latched := s.interrupts.latched ||| causeBit .queueHeld } } := by
  simp only [State.requestUnit, if_neg h]
  cases l <;> rfl

end

/-! ### The queue commands -/

theorem selected_serve_finish (s : State) : s.Selected s.serve.finish :=
  (State.Selected.serve s).trans (State.Selected.finish _)

section
variable {s : State} (hlive : s.live = true)
include hlive

theorem exec_queueRelease : exec .queueRelease s = .next (s.commanded 0x0030).cmdQueueRelease :=
  congrArg Host.Outcome.next (issue_of_live _ State.cmdQueueRelease hlive)

theorem exec_queueFlush : exec .queueFlush s = .next (s.commanded 0x0031).cmdQueueFlush :=
  congrArg Host.Outcome.next (issue_of_live _ State.cmdQueueFlush hlive)

theorem exec_queueSetThreshold : exec .queueSetThreshold s = .next (s.commanded 0x0032).cmdQueueSetThreshold :=
  congrArg Host.Outcome.next (issue_of_live _ State.cmdQueueSetThreshold hlive)

theorem exec_drainMode : exec .drainMode s = .next (s.commanded 0x0033).cmdDrainMode :=
  congrArg Host.Outcome.next (issue_of_live _ State.cmdDrainMode hlive)

end

section
variable (s : State)

theorem cmdQueueSetThreshold_eq : (s.commanded 0x0032).cmdQueueSetThreshold =
    if s.window.param0.toNat = 0 ∨ 255 < s.window.param0.toNat then s.decided 0x0032 .range 0
    else { s with queue := { s.queue with threshold := s.window.param0.toNat } }.decided 0x0032 .accepted 0 := rfl

theorem cmdDrainMode_of_none (h : drainModeOfCode s.window.param0.toNat = none) :
    (s.commanded 0x0033).cmdDrainMode = s.decided 0x0033 .range 0 := by
  have h' : drainModeOfCode (s.commanded 0x0033).window.param0.toNat = none := h
  simp only [State.cmdDrainMode, h', State.reply_commanded]

theorem cmdDrainMode_of_some {m : DrainMode} (h : drainModeOfCode s.window.param0.toNat = some m) :
    (s.commanded 0x0033).cmdDrainMode =
      if m = .dma ∧ s.queue.drainMode ≠ .dma ∧ s.queue.cursor ≠ 0 then s.decided 0x0033 .mode s.queue.cursor
      else { s with queue := { s.queue with drainMode := m } }.decided 0x0033 .accepted
        (if m = s.queue.drainMode then 1 else 0) := by
  have h' : drainModeOfCode (s.commanded 0x0033).window.param0.toNat = some m := h
  simp only [State.cmdDrainMode, h']
  rfl

theorem drainModeOfCode_none : ∀ {n : Nat}, 2 < n → drainModeOfCode n = none
  | _ + 3, _ => rfl

theorem drainModeOfCode_of_mem {p : Nat × DrainMode}
    (h : p ∈ ([(0, .pioManual), (1, .pioAuto), (2, .dma)] : List (Nat × DrainMode))) :
    drainModeOfCode p.1 = some p.2 := by
  simp only [List.mem_cons, List.not_mem_nil, or_false] at h
  rcases h with rfl | rfl | rfl <;> rfl

theorem State.dreq_iff : s.dreq = true ↔ s.queue.drainMode = .dma ∧ s.queue.records ≠ [] := by
  simp [State.dreq]

theorem cmdQueueFlush_eq : (s.commanded 0x0031).cmdQueueFlush =
    if s.linesConcerned ≠ 0 then s.decided 0x0031 .state s.linesConcerned
    else { s with queue := { s.queue with records := [], cursor := 0 } }.decided 0x0031 .accepted
      (min s.queue.records.length 255) := rfl

/-! ### The head record released -/

theorem cmdQueueRelease_of_dma (h : s.queue.drainMode = .dma) :
    (s.commanded 0x0030).cmdQueueRelease = s.decided 0x0030 .mode 0 :=
  if_pos h

theorem cmdQueueRelease_of_empty (hm : s.queue.drainMode ≠ .dma) (h : s.queue.records = []) :
    (s.commanded 0x0030).cmdQueueRelease = s.decided 0x0030 .empty 0 := by
  have hempty : (s.commanded 0x0030).queue.records.isEmpty = true := by rw [List.isEmpty_iff]; exact h
  have hmode : (s.commanded 0x0030).queue.drainMode ≠ .dma := hm
  rw [State.cmdQueueRelease, if_neg hmode, if_pos hempty, State.reply_commanded]

/-- What follows the head record's leaving never touches the window (R117). -/
theorem cmdQueueRelease_of_head (hm : s.queue.drainMode ≠ .dma) (h : s.queue.records ≠ []) :
    (s.commanded 0x0030).cmdQueueRelease = (s.commanded 0x0030).dropHead.serve.finish.decided 0x0030 .accepted
      (s.commanded 0x0030).dropHead.serve.finish.queue.records.length := by
  have hhead : ¬ (s.commanded 0x0030).queue.records.isEmpty = true := by rw [List.isEmpty_iff]; exact h
  have hmode : (s.commanded 0x0030).queue.drainMode ≠ .dma := hm
  rw [State.cmdQueueRelease, if_neg hmode, if_neg hhead]
  refine reply_eq_decided _ _ ?_
  exact congrArg Window.command (selected_serve_finish (s.commanded 0x0030).dropHead).window

/-! ### Words taken from the head record -/

theorem exec_queueDataRead : exec .queueDataRead s = .next s.queueDataRead := rfl

/-- The host strobe that overlaps a DACK strobe is ignored (R141). -/
theorem exec_dackStrobe (o : Overlap) : exec (.dackStrobe o) s = .next s.dackStrobe := by
  cases o <;> rfl

/-- The last word of the head record has been taken when the cursor has come to its size. -/
theorem readOut_iff {s : State} {r : Record} {rest : List Record} (hr : s.queue.records = r :: rest) (w : Word) :
    (s.drive w).advanceCursor.readOut = true ↔ s.queue.cursor + 1 = r.size := by
  have hsize : (s.drive w).advanceCursor.headSize = r.size := by
    have hr' : (s.drive w).advanceCursor.queue.records = r :: rest := hr
    rw [State.headSize, hr']
  rw [State.readOut, hsize, decide_eq_true_iff]
  rfl

theorem queueDataRead_silent {s : State} (h : s.queue.drainMode = .dma ∨ s.cursorWord = none) :
    s.queueDataRead = s.drive 0 := by
  unfold State.queueDataRead
  split
  · rcases h with h | h
    · simp only [h]
    · simp only [h]
      split <;> rfl
  · rfl

theorem dackStrobe_silent {s : State} (h : s.queue.drainMode ≠ .dma ∨ s.cursorWord = none) :
    s.dackStrobe = s.drive 0 := by
  unfold State.dackStrobe
  split
  · split
    · rfl
    · rfl
    · next hm =>
      rw [h.resolve_left fun hne => hne hm]
  · rfl

section
variable {s : State} {w : Word} (hlive : s.live = true) (hw : s.cursorWord = some w)
include hlive hw

theorem queueDataRead_manual (hm : s.queue.drainMode = .pioManual) : s.queueDataRead = (s.drive w).advanceCursor := by
  simp only [State.queueDataRead, hlive, if_true, hm, hw]

theorem queueDataRead_auto (hm : s.queue.drainMode = .pioAuto) : s.queueDataRead =
    if (s.drive w).advanceCursor.readOut = true then (s.drive w).advanceCursor.dropHead.serve.finish
    else (s.drive w).advanceCursor := by
  simp only [State.queueDataRead, hlive, if_true, hm, hw]
  rfl

theorem dackStrobe_dma (hm : s.queue.drainMode = .dma) : s.dackStrobe =
    if (s.drive w).advanceCursor.readOut = true then (s.drive w).advanceCursor.dropHead.serve.finish
    else (s.drive w).advanceCursor := by
  simp only [State.dackStrobe, hlive, if_true, hm, hw]
  rfl

end

end

end Sys2Proof.Machine
end

section
/-! SUPPORT. The words of records and of the registers, field by field (Tables 11-3, 11-4 and 11-7). -/

namespace Sys2Proof.Machine

/-! ### Fields side by side in a word -/

theorem fields_8_8 (a b : BitVec 8) :
    ((a ++ b : Word).extractLsb' 8 8) = a ∧ ((a ++ b : Word).extractLsb' 0 8) = b := by
  refine ⟨?_, ?_⟩
  · rw [BitVec.extractLsb'_append_eq_of_le (by decide), BitVec.extractLsb'_eq_self]
  · rw [BitVec.extractLsb'_append_eq_of_add_le (by decide), BitVec.extractLsb'_eq_self]

theorem fields_4_12 (a : BitVec 4) (b : BitVec 12) :
    ((a ++ b : Word).extractLsb' 12 4) = a ∧ ((a ++ b : Word).extractLsb' 0 12) = b := by
  refine ⟨?_, ?_⟩
  · rw [BitVec.extractLsb'_append_eq_of_le (by decide), BitVec.extractLsb'_eq_self]
  · rw [BitVec.extractLsb'_append_eq_of_add_le (by decide), BitVec.extractLsb'_eq_self]

/-! ### Header word 0 of a record -/

/-- Where the fields of header word 0 stand (Table 11-3). -/
theorem headerWord0_fields (kind : BitVec 3) (line : Line) (origin : Origin) (group : Group) (station : StationIndex) :
    let w := headerWord0 kind line origin group station
    w.extractLsb' 13 3 = kind ∧ (w.getLsbD 12 = true ↔ line = .b) ∧ w.extractLsb' 10 2 = originCode origin ∧
      w.extractLsb' 6 4 = group ∧ (w.extractLsb' 0 6).toNat = station.val := by
  intro w
  refine ⟨?_, ?_, ?_, ?_, ?_⟩
  · simp only [w, headerWord0, BitVec.extractLsb'_append_eq_of_le, Nat.reduceLeDiff, Nat.reduceSub,
      BitVec.extractLsb'_eq_self]
  · rw [← getLsbD_lineBit]
    simp only [w, headerWord0, BitVec.getLsbD_append]
    rfl
  · simp only [w, headerWord0]
    rw [BitVec.extractLsb'_append_eq_of_le (by decide), BitVec.extractLsb'_append_eq_of_le (by decide),
      BitVec.extractLsb'_append_eq_of_add_le (by decide), BitVec.extractLsb'_eq_self]
  · simp only [w, headerWord0]
    rw [BitVec.extractLsb'_append_eq_of_le (by decide), BitVec.extractLsb'_append_eq_of_add_le (by decide),
      BitVec.extractLsb'_eq_self]
  · simp only [w, headerWord0]
    rw [BitVec.extractLsb'_append_eq_of_add_le (by decide), BitVec.extractLsb'_eq_self]
    rfl

/-- A header word with a kind is at least 2000H. -/
theorem headerWord0_ge {w : Word} (h : w.extractLsb' 13 3 ≠ 0) : 0x2000 ≤ w.toNat := by
  by_contra hlt
  refine h (BitVec.eq_of_toNat_eq ?_)
  rw [BitVec.extractLsb'_toNat, Nat.shiftRight_eq_div_pow, Nat.div_eq_of_lt (Nat.not_le.1 hlt)]
  rfl

/-! ### Header word 1 of a record -/

/-- Where the fields of header word 1 stand in DATA and CONFIRM (Table 11-4). -/
theorem fields_8_1_1_6 (t : Byte) (f g : BitVec 1) (n : BitVec 6) :
    let w : Word := t ++ f ++ g ++ n
    w.extractLsb' 8 8 = t ∧ w.getLsbD 7 = f.getLsbD 0 ∧ w.getLsbD 6 = g.getLsbD 0 ∧ w.extractLsb' 0 6 = n := by
  intro w
  refine ⟨?_, ?_, ?_, ?_⟩
  · simp only [w, BitVec.extractLsb'_append_eq_of_le, Nat.reduceLeDiff, Nat.reduceSub, BitVec.extractLsb'_eq_self]
  · simp only [w, BitVec.getLsbD_append]; rfl
  · simp only [w, BitVec.getLsbD_append]; rfl
  · rw [BitVec.extractLsb'_append_eq_of_add_le (by decide), BitVec.extractLsb'_eq_self]

/-- Where the fields of header word 1 stand in FAULT (Table 11-4). -/
theorem fields_8_4_4 (t : Byte) (z c : BitVec 4) :
    let w : Word := t ++ z ++ c
    w.extractLsb' 8 8 = t ∧ w.extractLsb' 4 4 = z ∧ w.extractLsb' 0 4 = c := by
  intro w
  refine ⟨?_, ?_, ?_⟩
  · simp only [w, BitVec.extractLsb'_append_eq_of_le, Nat.reduceLeDiff, Nat.reduceSub, BitVec.extractLsb'_eq_self]
  · rw [BitVec.extractLsb'_append_eq_of_le (by decide), BitVec.extractLsb'_append_eq_of_add_le (by decide),
      BitVec.extractLsb'_eq_self]
  · rw [BitVec.extractLsb'_append_eq_of_add_le (by decide), BitVec.extractLsb'_eq_self]

/-- Where the fields of header word 1 stand in STATE (Table 11-4). -/
theorem fields_4_4_4_4 (a b z c : BitVec 4) :
    let w : Word := a ++ b ++ z ++ c
    w.extractLsb' 12 4 = a ∧ w.extractLsb' 8 4 = b ∧ w.extractLsb' 4 4 = z ∧ w.extractLsb' 0 4 = c := by
  intro w
  refine ⟨?_, ?_, ?_, ?_⟩
  · simp only [w, BitVec.extractLsb'_append_eq_of_le, Nat.reduceLeDiff, Nat.reduceSub, BitVec.extractLsb'_eq_self]
  · rw [BitVec.extractLsb'_append_eq_of_le (by decide), BitVec.extractLsb'_append_eq_of_le (by decide),
      BitVec.extractLsb'_append_eq_of_add_le (by decide), BitVec.extractLsb'_eq_self]
  · rw [BitVec.extractLsb'_append_eq_of_le (by decide), BitVec.extractLsb'_append_eq_of_add_le (by decide),
      BitVec.extractLsb'_eq_self]
  · rw [BitVec.extractLsb'_append_eq_of_add_le (by decide), BitVec.extractLsb'_eq_self]

/-- Where the fields of header word 1 stand in MARK (Table 11-4). -/
theorem fields_8_1_7 (z : Byte) (f : BitVec 1) (n : BitVec 7) :
    let w : Word := z ++ f ++ n
    w.extractLsb' 8 8 = z ∧ w.getLsbD 7 = f.getLsbD 0 ∧ w.extractLsb' 0 7 = n := by
  intro w
  refine ⟨?_, ?_, ?_⟩
  · simp only [w, BitVec.extractLsb'_append_eq_of_le, Nat.reduceLeDiff, Nat.reduceSub, BitVec.extractLsb'_eq_self]
  · simp only [w, BitVec.getLsbD_append]; rfl
  · rw [BitVec.extractLsb'_append_eq_of_add_le (by decide), BitVec.extractLsb'_eq_self]

theorem recordCauseCode_lt (c : RecordCause) : recordCauseCode c < 2 ^ 4 := by
  cases c <;> decide

/-! ### The payload of a record -/

/-- Payload byte k stands in word k / 2, an even one in the high half; 00H stands behind an odd last one (R104). -/
theorem getElem?_payloadWords : ∀ (xs : List Byte) (k : Nat), 2 * k < xs.length →
    (payloadWords xs)[k]? = some (xs.getD (2 * k) 0 ++ xs.getD (2 * k + 1) 0)
  | [], _, h => absurd h (Nat.not_lt_zero _)
  | [_], 0, _ => rfl
  | [_], k + 1, h => absurd h (by simp only [List.length_singleton]; omega)
  | _ :: _ :: _, 0, _ => rfl
  | x :: y :: rest, k + 1, h => by
    have hk : 2 * k < rest.length := by
      simp only [List.length_cons] at h
      omega
    exact getElem?_payloadWords rest k hk

/-! ### The registers -/

/-- With the reset input not asserted a read returns the word of the register (R156). -/
theorem readRegister_of_running {s : State} (h : s.window.resetInput = false) (a : BitVec 5) :
    s.readRegister a = s.readyRegister a.toNat :=
  if_neg (by rw [h]; exact Bool.false_ne_true)

/-- QUEUE DATA shows the word at the cursor in READY and a PIO mode alone (R116, R143, R157). -/
theorem readyRegister_queueData (s : State) : s.readyRegister 0x0A =
    if s.live = true ∧ s.queue.drainMode ≠ .dma then s.cursorWord.getD 0 else 0 := by
  simp only [State.readyRegister, Bool.and_eq_true, decide_eq_true_eq]

theorem cursorWord_eq_none {s : State} (h : s.queue.records = []) : s.cursorWord = none := by
  rw [State.cursorWord, h]

theorem cursorWord_getD {s : State} {r : Record} {rest : List Record} (h : s.queue.records = r :: rest) :
    s.cursorWord.getD 0 = r.words.getD s.queue.cursor 0 := by
  rw [State.cursorWord, h, List.getD_eq_getElem?_getD]

/-- No record is smaller than three words, so there are no more records than words. -/
theorem length_le_wordsOf (xs : List Record) : xs.length ≤ wordsOf xs := by
  induction xs with
  | nil => exact Nat.le_refl 0
  | cons r rest ih =>
    have hr := record_size_pos r
    simp only [wordsOf, List.map_cons, List.sum_cons, List.length_cons] at ih ⊢
    omega

/-- Within the bound of the store its counts fit a register (R109). -/
theorem counts_lt_of_bounded {s : State} (h : s.StoreBounded) :
    s.recordCount < 2 ^ 16 ∧ s.wordsUsed < 2 ^ 16 ∧ s.wordsReserved < 2 ^ 16 := by
  have hcount : s.recordCount ≤ s.wordsUsed := length_le_wordsOf s.queue.records
  have hbound : s.wordsUsed + s.wordsReserved ≤ 1024 := h
  omega

theorem headSizeAndCursor_of_empty {s : State} (h : s.queue.records = []) (hc : s.CursorLegal) :
    s.headSizeAndCursor = 0 := by
  have hsize : s.headSize = 0 := by rw [State.headSize, h]
  have hcursor : s.queue.cursor = 0 := Nat.le_zero.1 (hsize ▸ hc)
  rw [State.headSizeAndCursor, hsize, hcursor]
  rfl

/-- HEAD SIZE and CURSOR fit their bytes while the head record is no longer than the longest (R122). -/
theorem headSizeAndCursor_fields {s : State} {r : Record} {rest : List Record} (h : s.queue.records = r :: rest)
    (hr : r.size ≤ 23) (hc : s.CursorLegal) : (s.headSizeAndCursor.extractLsb' 8 8).toNat = r.size ∧
      (s.headSizeAndCursor.extractLsb' 0 8).toNat = s.queue.cursor := by
  have hsize : s.headSize = r.size := by rw [State.headSize, h]
  have hcursor : s.queue.cursor ≤ r.size := hsize ▸ hc
  obtain ⟨hhigh, hlow⟩ := fields_8_8 (BitVec.ofNat 8 s.headSize) (BitVec.ofNat 8 s.queue.cursor)
  rw [State.headSizeAndCursor, hhigh, hlow, hsize, toNat_ofNat_of_lt (by omega), toNat_ofNat_of_lt (by omega)]
  exact ⟨rfl, rfl⟩

/-- Where the fields of DRAIN MODE and THRESHOLD stand (Table 11-7). -/
theorem fields_6_2_8 (z : BitVec 6) (m : BitVec 2) (n : Byte) :
    let w : Word := z ++ m ++ n
    w.extractLsb' 10 6 = z ∧ w.extractLsb' 8 2 = m ∧ w.extractLsb' 0 8 = n := by
  intro w
  refine ⟨?_, ?_, ?_⟩
  · simp only [w, BitVec.extractLsb'_append_eq_of_le, Nat.reduceLeDiff, Nat.reduceSub, BitVec.extractLsb'_eq_self]
  · rw [BitVec.extractLsb'_append_eq_of_le (by decide), BitVec.extractLsb'_append_eq_of_add_le (by decide),
      BitVec.extractLsb'_eq_self]
  · rw [BitVec.extractLsb'_append_eq_of_add_le (by decide), BitVec.extractLsb'_eq_self]

/-- INT PENDING shows each cause at its own bit (Table 11-7). -/
theorem getLsbD_pendingRegister (s : State) (c : Cause) :
    ((0 : BitVec 4) ++ s.pendingCauses : Word).getLsbD (causeCode c - 1) = s.isPending c := by
  have hlt : causeCode c - 1 < 12 := by
    cases c with
    | queueHeld => decide
    | queueThreshold => decide
    | lineFault l => cases l <;> decide
    | stationState l => cases l <;> decide
    | directedDone l => cases l <;> decide
    | lineStopped l => cases l <;> decide
    | cycleEnd l => cases l <;> decide
  rw [BitVec.getLsbD_append, if_pos hlt, State.isPending]

/-! ### The line status registers -/

/-- Where the fields of line status word 0 stand (Table 11-7). -/
theorem fields_lineStatus0 (r k : BitVec 2) (h v : BitVec 1) (p : BitVec 3) (f : BitVec 2) (a w : BitVec 1)
    (z : BitVec 3) :
    let x : Word := r ++ k ++ h ++ v ++ p ++ f ++ a ++ w ++ z
    x.extractLsb' 14 2 = r ∧ x.extractLsb' 12 2 = k ∧ x.getLsbD 11 = h.getLsbD 0 ∧ x.getLsbD 10 = v.getLsbD 0 ∧
      x.extractLsb' 7 3 = p ∧ x.extractLsb' 5 2 = f ∧ x.getLsbD 4 = a.getLsbD 0 ∧ x.getLsbD 3 = w.getLsbD 0 ∧
      x.extractLsb' 0 3 = z := by
  intro x
  refine ⟨?_, ?_, ?_, ?_, ?_, ?_, ?_, ?_, ?_⟩
  · simp only [x, BitVec.extractLsb'_append_eq_of_le, Nat.reduceLeDiff, Nat.reduceSub, BitVec.extractLsb'_eq_self]
  · repeat rw [BitVec.extractLsb'_append_eq_of_le (by decide)]
    rw [BitVec.extractLsb'_append_eq_of_add_le (by decide), BitVec.extractLsb'_eq_self]
  · simp only [x, BitVec.getLsbD_append]; rfl
  · simp only [x, BitVec.getLsbD_append]; rfl
  · repeat rw [BitVec.extractLsb'_append_eq_of_le (by decide)]
    rw [BitVec.extractLsb'_append_eq_of_add_le (by decide), BitVec.extractLsb'_eq_self]
  · repeat rw [BitVec.extractLsb'_append_eq_of_le (by decide)]
    rw [BitVec.extractLsb'_append_eq_of_add_le (by decide), BitVec.extractLsb'_eq_self]
  · simp only [x, BitVec.getLsbD_append]; rfl
  · simp only [x, BitVec.getLsbD_append]; rfl
  · rw [BitVec.extractLsb'_append_eq_of_add_le (by decide), BitVec.extractLsb'_eq_self]

/-- Where the fields of line status word 2 stand (Table 11-7). -/
theorem fields_4_5_7 (d : BitVec 4) (z : BitVec 5) (c : BitVec 7) :
    let w : Word := d ++ z ++ c
    w.extractLsb' 12 4 = d ∧ w.extractLsb' 7 5 = z ∧ w.extractLsb' 0 7 = c := by
  intro w
  refine ⟨?_, ?_, ?_⟩
  · simp only [w, BitVec.extractLsb'_append_eq_of_le, Nat.reduceLeDiff, Nat.reduceSub, BitVec.extractLsb'_eq_self]
  · rw [BitVec.extractLsb'_append_eq_of_le (by decide), BitVec.extractLsb'_append_eq_of_add_le (by decide),
      BitVec.extractLsb'_eq_self]
  · rw [BitVec.extractLsb'_append_eq_of_add_le (by decide), BitVec.extractLsb'_eq_self]

theorem State.isHeld_iff {s : State} {l : Line} : s.isHeld l = true ↔ ∃ h ∈ s.queue.holdList, h.line = l := by
  simp [State.isHeld]

end Sys2Proof.Machine
end

section
/-! PROOFS. The statements about the reply queue: its store, its commands, its records and their words, and the registers
that show it. -/

namespace Sys2Proof.Machine

/-! ### The store -/

/-- Settles O57: words are taken by grants of words that are free alone, and a unit writes within the words it was
granted. -/
theorem storeNeverOverfull : Obligations.StoreNeverOverfull :=
  fun _ _ hstep hs hb => State.KeepsStore.step hs hstep hb

/-- Settles O26: the words move by `wordsTaken_writeRecord`, and the causes are those of `recordCauses`. -/
theorem recordWriteMovesWords : Obligations.RecordWriteMovesWords := by
  intro s l r n hn hr hl
  subst hl
  refine ⟨records_writeRecord s _ r, wordsUsed_writeRecord s _ r, wordsTaken_writeRecord hn hr, ?_, ?_,
    (State.Selected.writeRecord s _ r).enables, State.window_writeRecord s _ r, State.stations_writeRecord s _ r, ?_⟩
  · rw [State.queue_writeRecord, cursor_push]
  · cases r with
    | data m origin i g ref alert payload cycle =>
      cases origin with
      | directed => exact latched_writeRecord_of_cause rfl
      | _ => exact latched_writeRecord_of_none rfl
    | mark m v o cycle => exact latched_writeRecord_of_none rfl
    | _ => exact latched_writeRecord_of_cause rfl
  · rw [State.queue_writeRecord]
    refine ⟨rfl, rfl, rfl, (State.OnlyLine.writeRecord s _ r).line, ?_⟩
    rw [line_writeRecord_self, hn]
    rfl

/-- Settles O47: a request is granted by `State.grantable`, in words as the statement has it. -/
theorem reservationRequested : Obligations.ReservationRequested := by
  refine ⟨fun _ _ _ _ => rfl, fun _ => rfl, fun _ _ => rfl, fun e => by cases hk : e.kind <;> simp only [workRequest, hk],
    fun s l w => ⟨fun _ hfits => requestUnit_of_grantable (grantable_iff.2 hfits), fun h =>
      requestUnit_of_not_grantable fun hg => h ?_⟩⟩
  have hsame := State.SameStore.modLine s l (fun x => { x with chosen := some w }) rfl
  rw [State.modLine_eq_setLine] at hsame
  rw [hsame.reserved]
  exact grantable_iff.1 hg

/-! ### The commands -/

/-- Settles O21: the two settings by the value in PARAM 0. -/
theorem queueSettingsDecided : Obligations.QueueSettingsDecided := by
  intro s hlive n
  rw [exec_queueSetThreshold hlive, exec_drainMode hlive, cmdQueueSetThreshold_eq]
  refine ⟨fun h1 h2 => ?_, fun h => ?_, fun h => ?_, fun p hp hn => ?_⟩
  · rw [if_neg (by omega)]
  · rw [if_pos h]
  · rw [cmdDrainMode_of_none s (drainModeOfCode_none h)]
  · have hcode : drainModeOfCode s.window.param0.toNat = some p.2 := (congrArg _ hn).trans (drainModeOfCode_of_mem hp)
    rw [cmdDrainMode_of_some s hcode]
    refine ⟨fun h1 h2 h3 => ?_, fun h => ⟨_, rfl, ?_, ?_⟩⟩
    · rw [if_pos ⟨h1, h2, h3⟩]
    · exact if_neg fun ⟨h1, h2, h3⟩ => (h h1).elim h2 h3
    · rw [if_neg fun ⟨h1, h2, h3⟩ => (h h1).elim h2 h3]
      exact State.dreq_iff _

/-- Settles O22: the number of lines concerned decides. -/
theorem flushDecided : Obligations.FlushDecided := by
  intro s hlive concerned
  have hcount : s.linesConcerned = (if concerned .a = true then 1 else 0) + (if concerned .b = true then 1 else 0) := rfl
  rw [exec_queueFlush hlive, cmdQueueFlush_eq, hcount]
  refine ⟨fun h => ?_, fun ha hb => ?_⟩
  · cases ha : concerned .a <;> cases hb : concerned .b <;> simp [ha, hb] at h ⊢
  · simp [ha, hb]

/-- Settles O23: in each branch of the decision; where the head leaves, the rest is `State.Selected`. -/
theorem releaseDecided : Obligations.ReleaseDecided := by
  intro s hlive
  rw [exec_queueRelease hlive]
  refine ⟨fun h => ?_, fun hm h => ?_, fun hm h => ⟨?_, selected_serve_finish _⟩, fun hm h hhold harb => ?_⟩
  · rw [cmdQueueRelease_of_dma s h]
  · rw [cmdQueueRelease_of_empty s hm h]
  · exact congrArg Host.Outcome.next (cmdQueueRelease_of_head s hm h)
  · have hserve : (s.commanded 0x0030).dropHead.serve = (s.commanded 0x0030).dropHead := serve_of_empty hhold
    have hfinish : (s.commanded 0x0030).dropHead.finish = (s.commanded 0x0030).dropHead := finish_of_none harb
    have hcount : (s.commanded 0x0030).dropHead.queue.records.length = s.queue.records.length - 1 := List.length_tail
    rw [cmdQueueRelease_of_head s hm h, hserve, hfinish, hcount]
    rfl

/-- Settles O24: without a word at the cursor, and in the mode of the other side, the strobe is silent; a word taken is
the last of the head record when the cursor has come to its size. -/
theorem queueWordsServed : Obligations.QueueWordsServed := by
  intro s o hlive silent
  rw [exec_queueDataRead, exec_dackStrobe]
  refine ⟨fun h => ?_, fun h => ?_, fun r rest h hr => ?_⟩
  · rw [queueDataRead_silent (h.imp_right cursorWord_of_ge)]
    rfl
  · rw [dackStrobe_silent (h.imp_right cursorWord_of_ge)]
    rfl
  have hw := cursorWord_of_lt hr h
  have hout := readOut_iff hr r.words[s.queue.cursor]
  intro driven advanced released
  have hreleased : (s.drive r.words[s.queue.cursor]).advanceCursor.dropHead = released := by
    have htail : s.queue.records.tail = rest := by rw [hr, List.tail_cons]
    subst htail
    rfl
  refine ⟨fun hm => ?_, fun hm hlast => ?_, fun hm hmore => ?_, fun hm hlast => ?_, selected_serve_finish _⟩
  · rcases hm with hm | ⟨hm, hmore⟩
    · rw [queueDataRead_manual hlive hw hm]
      rfl
    · rw [queueDataRead_auto hlive hw hm, if_neg (mt hout.1 hmore.ne)]
      rfl
  · rw [queueDataRead_auto hlive hw hm, if_pos (hout.2 hlast), hreleased]
  · rw [dackStrobe_dma hlive hw hm, if_neg (mt hout.1 hmore.ne)]
    rfl
  · rw [dackStrobe_dma hlive hw hm, if_pos (hout.2 hlast), hreleased]

/-! ### The words of records and registers -/

/-- Settles O25: the header words are their fields side by side, the payload words by `getElem?_payloadWords`. -/
theorem recordWordsMatchSize : Obligations.RecordWordsMatchSize := by
  unfold Obligations.RecordWordsMatchSize
  intro header causeIs code r
  have hheader (k : BitVec 3) (l : Line) (o : Origin) (g : Group) (i : StationIndex) :
      header (headerWord0 k l o g i) k.toNat l o g i := by
    obtain ⟨hkind, hline, horigin, hgroup, hstation⟩ := headerWord0_fields k l o g i
    refine ⟨by rw [hkind], hline, ?_, hgroup, hstation⟩
    rw [horigin]
    cases o <;> rfl
  have hge {k : BitVec 3} (l : Line) (o : Origin) (g : Group) (i : StationIndex) (hk : k ≠ 0) :
      0x2000 ≤ (headerWord0 k l o g i).toNat :=
    headerWord0_ge (by rw [(headerWord0_fields k l o g i).1]; exact hk)
  have hcause {w : Word} {c : RecordCause} (h : w.extractLsb' 0 4 = BitVec.ofNat 4 (recordCauseCode c)) :
      causeIs w c := by
    show (w.extractLsb' 0 4).toNat = _
    rw [h, toNat_ofNat_of_lt (recordCauseCode_lt c)]
    cases c <;> rfl
  have hcode {x : StationState} : (BitVec.ofNat 4 (stationStateCode x)).toNat = code x := by
    cases x <;> rfl
  refine ⟨record_words_length r, ?_⟩
  cases r with
  | data l o i g ref alert payload cycle =>
    obtain ⟨href, halert, hzero, hcount⟩ :=
      fields_8_1_1_6 ref (flagBit alert) 0 (BitVec.ofNat 6 payload.length)
    refine ⟨⟨_, rfl, hge l o g i (by decide)⟩, rfl, _, _, _, rfl, hheader 1 l o g i, href, ?_, hzero, fun h => ?_,
      getElem?_payloadWords payload⟩
    · rw [halert, getLsbD_flagBit]
    · rw [hcount, toNat_ofNat_of_lt (by omega)]
  | confirm l i g tag alert broadcast cycle =>
    obtain ⟨htag, halert, hbroadcast, hzero⟩ := fields_8_1_1_6 tag (flagBit alert) (flagBit broadcast) 0
    refine ⟨⟨_, rfl, hge l _ g i (by decide)⟩, rfl, _, _, rfl, hheader 2 l _ g i, htag, ?_, ?_, hzero⟩
    · rw [halert, getLsbD_flagBit]
    · rw [hbroadcast, getLsbD_flagBit]
  | fault l i g tag cause cycle =>
    obtain ⟨htag, hzero, hc⟩ := fields_8_4_4 tag 0 (BitVec.ofNat 4 (recordCauseCode cause))
    exact ⟨⟨_, rfl, hge l _ g i (by decide)⟩, rfl, _, _, rfl, hheader 3 l _ g i, htag, hzero, hcause hc⟩
  | state l o i old new cause cycle =>
    obtain ⟨hold, hnew, hzero, hc⟩ := fields_4_4_4_4 (BitVec.ofNat 4 (stationStateCode old))
      (BitVec.ofNat 4 (stationStateCode new)) 0 (BitVec.ofNat 4 (recordCauseCode cause))
    refine ⟨⟨_, rfl, hge l o 0 i (by decide)⟩, rfl, _, _, rfl, hheader 4 l o 0 i, ?_, ?_, hzero, hcause hc⟩
    · rw [hold, hcode]
    · rw [hnew, hcode]
  | mark l visits overrun cycle =>
    obtain ⟨hzero, hoverrun, hvisits⟩ := fields_8_1_7 0 (flagBit overrun) (BitVec.ofNat 7 visits)
    refine ⟨⟨_, rfl, hge l _ 0 0 (by decide)⟩, rfl, _, _, rfl, hheader 5 l _ 0 0, hzero, ?_, fun h => ?_⟩
    · rw [hoverrun, getLsbD_flagBit]
    · rw [hvisits, toNat_ofNat_of_lt (by omega)]

/-- Settles O60: each register is its fields side by side, and a field within its bounds is read back as it stands. -/
theorem registerViews : Obligations.RegisterViews := by
  intro s hreset reg
  have hreg (a : Nat) : reg a = s.readyRegister (BitVec.ofNat 5 a).toNat := readRegister_of_running hreset _
  have hlive : s.live = true ↔ s.window.readiness = .ready := by simp [live_iff, hreset]
  have htable : reg 0x09 = if s.live = true then s.tableWord s.window.tableRegion s.window.tableIndex.toNat else 0 :=
    hreg 0x09
  have hdata : reg 0x0A = if s.live = true ∧ s.queue.drainMode ≠ .dma then s.cursorWord.getD 0 else 0 :=
    (hreg 0x0A).trans (readyRegister_queueData s)
  have haddress : reg 0x08 = s.window.tableRegion ++ s.window.tableIndex := hreg 0x08
  have hhead : reg 0x0E = s.headSizeAndCursor := hreg 0x0E
  have hdrain : reg 0x0F =
      (0 : BitVec 6) ++ BitVec.ofNat 2 (drainModeCode s.queue.drainMode) ++ BitVec.ofNat 8 s.queue.threshold := hreg 0x0F
  have hpending : reg 0x10 = (0 : BitVec 4) ++ s.pendingCauses := hreg 0x10
  obtain ⟨hzero, hmode, hthreshold⟩ := fields_6_2_8 0 (BitVec.ofNat 2 (drainModeCode s.queue.drainMode))
    (BitVec.ofNat 8 s.queue.threshold)
  refine ⟨⟨hreg 0x01, hreg 0x02, hreg 0x03, hreg 0x04, hreg 0x05⟩, ?_, hreg 0x07, ?_, ?_, fun h => ?_, fun h hm =>
    ⟨fun hr => ?_, fun r rest hr => ?_⟩, fun h => ⟨?_, ?_⟩, fun h => ?_, fun h => ⟨?_, ?_, ?_⟩, fun hr hc => ?_,
    fun r rest hr hsize hc => ?_, ?_, ?_, fun h => ?_, ?_, fun c => ?_, ?_, fun l => ?_⟩
  · rw [hreg 0x06]
    cases hres : s.window.result <;> simp [State.readyRegister, hres, resultCode]
  · rw [haddress, (fields_4_12 _ _).1]
  · rw [haddress, (fields_4_12 _ _).2]
  · rw [htable, if_pos (hlive.2 h)]
  · rw [hdata, if_pos ⟨hlive.2 h, hm⟩, cursorWord_eq_none hr]
    rfl
  · rw [hdata, if_pos ⟨hlive.2 h, hm⟩, cursorWord_getD hr]
  · rw [htable, if_neg (mt hlive.1 h)]
  · rw [hdata, if_neg fun hd => h (hlive.1 hd.1)]
  · rw [hdata, if_neg fun hd => hd.2 h]
  · exact (congrArg _ (hreg 0x0B)).trans (toNat_ofNat_of_lt (counts_lt_of_bounded h).1)
  · exact (congrArg _ (hreg 0x0C)).trans (toNat_ofNat_of_lt (counts_lt_of_bounded h).2.1)
  · exact (congrArg _ (hreg 0x0D)).trans (toNat_ofNat_of_lt (counts_lt_of_bounded h).2.2)
  · rw [hhead, headSizeAndCursor_of_empty hr hc]
  · rw [hhead]
    exact headSizeAndCursor_fields hr hsize hc
  · rw [hdrain, hzero]
  · rw [hdrain, hmode]
    cases s.queue.drainMode <;> rfl
  · rw [hdrain, hthreshold, toNat_ofNat_of_lt (by omega)]
  · rw [hpending, (fields_4_12 _ _).1]
  · rw [hpending]
    exact getLsbD_pendingRegister s c
  · intro a ha
    simp only [List.mem_cons, List.not_mem_nil, or_false] at ha
    rcases ha with rfl | rfl | rfl | rfl | rfl <;> exact hreg _
  · intro x base w0 w2
    have hw0 : w0 = s.lineStatus0 l := by cases l <;> exact hreg _
    have hw1 : reg (base + 1) = x.cycleNumber := by cases l <;> exact hreg _
    have hw2 : w2 = s.lineStatus2 l := by cases l <;> exact hreg _
    have hw3 : reg (base + 3) = s.lineStatus3 l := by cases l <;> exact hreg _
    obtain ⟨hrun, hcondition, hheld, hreserved, hphase, hfault, hactive, hswap, hlow⟩ := fields_lineStatus0
      (BitVec.ofNat 2 (runStateCode x.runState)) (BitVec.ofNat 2 (conditionCode x.condition)) (flagBit (s.isHeld l))
      (flagBit x.reservation.isSome) (BitVec.ofNat 3 (phaseCode x.phase)) (BitVec.ofNat 2 (faultCauseCode x.faultCause))
      (flagBit (x.active == .one)) (flagBit x.swapPending) 0
    obtain ⟨hdirected, hmiddle, hcursor⟩ := fields_4_5_7 (BitVec.ofNat 4 x.directed.length) 0 (BitVec.ofNat 7 x.cursor)
    rw [hw0, hw1, hw2, hw3]
    refine ⟨?_, ?_, ?_, ?_, ?_, ?_, ?_, ?_, hlow, rfl, fun h => ?_, hmiddle, fun h => ?_, fun h => ?_⟩
    · exact (congrArg _ hrun).trans (by cases x.runState <;> rfl)
    · exact (congrArg _ hcondition).trans (by cases x.condition <;> rfl)
    · rw [← State.isHeld_iff, ← getLsbD_flagBit (s.isHeld l)]
      exact iff_of_eq (congrArg (· = true) hheld)
    · exact hreserved.trans (getLsbD_flagBit _)
    · exact (congrArg _ hphase).trans (by cases x.phase <;> rfl)
    · exact (congrArg _ hfault).trans (by cases x.faultCause <;> rfl)
    · have hbit : (s.lineStatus0 l).getLsbD 4 = (x.active == .one) := hactive.trans (getLsbD_flagBit _)
      rw [hbit, beq_iff_eq]
    · exact hswap.trans (getLsbD_flagBit _)
    · exact (congrArg _ hdirected).trans (toNat_ofNat_of_lt (by omega))
    · exact (congrArg _ hcursor).trans (toNat_ofNat_of_lt (by omega))
    · have hcount : (s.line l).alertSet.length ≤ 64 := h
      exact toNat_ofNat_of_lt (Nat.lt_of_le_of_lt hcount (by decide))

end Sys2Proof.Machine
end

section
/-! SUPPORT. What no event of the engines does to the read cursor and to the latched causes: a cursor at 0 stays there,
and QUEUE THRESHOLD, a level, is never latched (R115, R162). With `State.Evolves` this keeps the bounds of the part. -/

namespace Sys2Proof.Machine

/-! ### Cursor and causes left as they are -/

/-- From s to t a read cursor at 0 stands there, and QUEUE THRESHOLD is not latched if it was not. -/
structure State.Calm (s t : State) : Prop where
  cursor : s.queue.cursor = 0 → t.queue.cursor = 0
  latch : s.NoThresholdLatch → t.NoThresholdLatch

/-- What leaves the cursor and the interrupt unit alone. -/
theorem State.Calm.of_same {s t : State} (hc : t.queue.cursor = s.queue.cursor)
    (hi : t.interrupts = s.interrupts) : s.Calm t :=
  ⟨fun h => hc.trans h, fun h => by rw [State.NoThresholdLatch, hi]; exact h⟩

theorem State.Calm.refl (s : State) : s.Calm s :=
  .of_same rfl rfl

theorem State.Calm.trans {s t u : State} (h : s.Calm t) (k : t.Calm u) : s.Calm u :=
  ⟨fun hc => k.cursor (h.cursor hc), fun hl => k.latch (h.latch hl)⟩

theorem State.Calm.modLine (s : State) (l : Line) (f : LineEngine → LineEngine) : s.Calm (s.modLine l f) :=
  .of_same (by rw [State.queue_modLine]) (State.interrupts_modLine s l f)

theorem State.Calm.modEntry (s : State) (i : StationIndex) (f : Entry → Entry) : s.Calm (s.modEntry i f) :=
  .of_same rfl rfl

theorem State.Calm.nextRace (s : State) : s.Calm s.nextRace :=
  .of_same rfl rfl

theorem State.Calm.withHoldList (s : State) (xs : List HoldEntry) :
    s.Calm { s with queue := { s.queue with holdList := xs } } :=
  .of_same rfl rfl

theorem State.Calm.raise (s : State) {c : Cause} (hc : c ≠ .queueThreshold) : s.Calm (s.raise c) := by
  have hbit : causeBit c &&& causeBit .queueThreshold = 0 := by
    cases c with
    | queueThreshold => exact absurd rfl hc
    | queueHeld => decide
    | lineFault l => cases l <;> decide
    | stationState l => cases l <;> decide
    | directedDone l => cases l <;> decide
    | lineStopped l => cases l <;> decide
    | cycleEnd l => cases l <;> decide
  refine ⟨id, fun h => ?_⟩
  show (s.interrupts.latched ||| causeBit c) &&& causeBit .queueThreshold = 0
  rw [BitVec.and_or_distrib_right, h, hbit]
  rfl

theorem State.Calm.foldl_raise : ∀ (cs : List Cause) (s : State), .queueThreshold ∉ cs →
    s.Calm (cs.foldl State.raise s)
  | [], s, _ => .refl s
  | c :: cs, s, h =>
    (State.Calm.raise s fun hc => h (hc ▸ List.mem_cons_self)).trans
      (State.Calm.foldl_raise cs _ fun hm => h (List.mem_cons_of_mem c hm))

/-- No record raises QUEUE THRESHOLD (R106 step 5). -/
theorem queueThreshold_not_mem_recordCauses (r : Record) : .queueThreshold ∉ recordCauses r := by
  cases r with
  | data l o _ _ _ _ _ _ => cases o <;> simp [recordCauses]
  | _ => simp [recordCauses]

theorem State.Calm.writeRecord (s : State) (l : Line) (r : Record) : s.Calm (s.writeRecord l r) := by
  refine State.Calm.trans ?_ (State.Calm.foldl_raise _ _ (queueThreshold_not_mem_recordCauses r))
  refine (State.Calm.modLine s l _).trans ⟨fun h => ?_, id⟩
  show (ReplyQueue.push _ r).cursor = 0
  rw [cursor_push, h]
  exact ite_self 0

theorem State.Calm.writeRecord? (s : State) (l : Line) (r : Option Record) : s.Calm (s.writeRecord? l r) := by
  cases r with
  | none => exact .refl s
  | some r => exact State.Calm.writeRecord s l r

/-! ### Units that start -/

theorem State.Calm.finishBoundary (s : State) (l : Line) : s.Calm (s.finishBoundary l) := by
  unfold State.finishBoundary State.applyPendingSwap
  exact ((State.Calm.raise s (c := .cycleEnd l) nofun).trans (State.Calm.modLine _ l _)).trans
    (State.Calm.modLine _ l _)

theorem State.Calm.beginTargeted (s : State) (l : Line) (w : Work) (i : StationIndex) :
    s.Calm (s.beginTargeted l w i) := by
  unfold State.beginTargeted
  exact (State.Calm.modEntry s i _).trans (State.Calm.modLine _ l _)

theorem State.Calm.faultStation (s : State) (l : Line) (e : DirectedEntry) : s.Calm (s.faultStation l e) := by
  unfold State.faultStation State.dropReservation
  exact ((State.Calm.writeRecord s l _).trans (State.Calm.modLine _ l _)).trans (State.Calm.modLine _ l _)

theorem State.Calm.startWork (s : State) (l : Line) (w : Work) : s.Calm (s.startWork l w) := by
  have htargeted (i : StationIndex) {t : State} (ht : s.Calm t) :
      s.Calm (if s.stationValid l i then s.beginTargeted l w i else t) := by
    split
    · exact State.Calm.beginTargeted s l w i
    · exact ht
  cases w with
  | visit k i g n => exact htargeted i (State.Calm.modLine s l _)
  | alert i => exact htargeted i (State.Calm.modLine s l _)
  | directed e =>
    simp only [State.startWork]
    split
    · exact htargeted e.station (State.Calm.faultStation s l e)
    · exact htargeted e.station (State.Calm.faultStation s l e)
    · exact State.Calm.modLine s l _
  | mark v o =>
    exact ((State.Calm.writeRecord s l _).trans (State.Calm.modLine _ l _)).trans (State.Calm.finishBoundary _ l)

theorem State.Calm.startUnit (s : State) (l : Line) : s.Calm (s.startUnit l) := by
  unfold State.startUnit
  split
  · exact .refl s
  · exact (State.Calm.modLine s l _).trans (State.Calm.startWork _ l _)

theorem State.Calm.grant (s : State) (l : Line) (n : Nat) : s.Calm (s.grant l n) :=
  (State.Calm.modLine s l _).trans (State.Calm.startUnit _ l)

theorem State.Calm.joinHoldList (s : State) (l : Line) (n : Nat) : s.Calm (s.joinHoldList l n) :=
  (State.Calm.withHoldList s _).trans (State.Calm.raise _ nofun)

theorem State.Calm.requestUnit (s : State) (l : Line) (w : Work) : s.Calm (s.requestUnit l w) := by
  unfold State.requestUnit
  dsimp only
  split
  · exact (State.Calm.modLine s l _).trans (State.Calm.grant _ l _)
  · exact (State.Calm.modLine s l _).trans (State.Calm.joinHoldList _ l _)

/-! ### The arbiters and the hold list -/

theorem State.Calm.boundary (s : State) (l : Line) : s.Calm (s.boundary l) := by
  unfold State.boundary
  dsimp only
  split
  · exact State.Calm.requestUnit s l _
  · exact State.Calm.finishBoundary s l

theorem State.Calm.chooseInCycle (s : State) (l : Line) : s.Calm (s.chooseInCycle l) := by
  have hcounted (f : LineEngine → LineEngine) (w : Work) : s.Calm ((s.modLine l f).requestUnit l w) :=
    (State.Calm.modLine s l f).trans (State.Calm.requestUnit _ l w)
  unfold State.chooseInCycle
  dsimp only
  split
  · split
    · exact hcounted _ _
    · exact hcounted _ _
  · exact hcounted _ _

theorem State.Calm.chooseOutside (s : State) (l : Line) : s.Calm (s.chooseOutside l) := by
  unfold State.chooseOutside
  split
  · exact State.Calm.requestUnit s l _
  · exact .refl s

theorem State.Calm.invokeArbiter (s : State) (l : Line) : s.Calm (s.invokeArbiter l) := by
  have houtside : s.Calm (if (s.line l).cycleDue then s.modLine l LineEngine.startCycle else s.chooseOutside l) := by
    split
    · exact State.Calm.modLine s l _
    · exact State.Calm.chooseOutside s l
  unfold State.invokeArbiter
  dsimp only
  split
  · exact .refl s
  split
  · exact .refl s
  · split
    · exact (State.Calm.modLine s l _).trans (State.Calm.boundary _ l)
    · exact (State.Calm.modLine s l _).trans (State.Calm.chooseInCycle _ l)
  · exact houtside
  · exact houtside

theorem State.Calm.settleLine (l : Line) : ∀ (n : Nat) (s : State), s.Calm (State.settleLine l n s)
  | 0, s => .refl s
  | n + 1, s => by
    unfold State.settleLine
    split
    · exact (State.Calm.invokeArbiter s l).trans (State.Calm.settleLine l n _)
    · exact .refl s

theorem State.Calm.settleArbiters : ∀ (n : Nat) (s : State), s.Calm (State.settleArbiters n s)
  | 0, s => .refl s
  | n + 1, s => by
    unfold State.settleArbiters
    split
    · exact .refl s
    · refine State.Calm.trans ?_ (State.Calm.settleArbiters n _)
      refine State.Calm.trans ?_ (State.Calm.invokeArbiter _ _)
      split
      · exact State.Calm.nextRace s
      · exact .refl s

theorem State.Calm.finish (s : State) : s.Calm s.finish :=
  State.Calm.settleArbiters _ s

theorem State.Calm.afterGrant (s : State) (l : Line) : s.Calm (s.afterGrant l) := by
  unfold State.afterGrant
  dsimp only
  split
  · split
    · exact (State.Calm.nextRace s).trans (State.Calm.settleLine l _ _)
    · exact State.Calm.nextRace s
  · exact .refl s

theorem State.Calm.serveHoldList : ∀ (n : Nat) (s : State), s.Calm (State.serveHoldList n s)
  | 0, s => .refl s
  | n + 1, s => by
    unfold State.serveHoldList
    split
    · exact .refl s
    · next h rest _ =>
      split
      · exact (((State.Calm.withHoldList s rest).trans (State.Calm.grant _ h.line h.request)).trans
          (State.Calm.afterGrant _ h.line)).trans (State.Calm.serveHoldList n _)
      · exact .refl s

theorem State.Calm.serve (s : State) : s.Calm s.serve :=
  State.Calm.serveHoldList _ s

/-! ### The end of a unit and of a line's run -/

theorem State.Calm.disableNow (s : State) (i : StationIndex) : s.Calm (s.disableNow i) := by
  unfold State.disableNow State.leaveAlertSet
  exact (State.Calm.modEntry s i _).trans (State.Calm.modLine _ _ _)

theorem State.Calm.outcomeAnswered (s : State) (l : Line) (w : Work) (i : StationIndex) (cause : RecordCause)
    (a : HeldAnswer) : s.Calm (s.outcomeAnswered l w i cause a) := by
  have hrecorded : s.Calm (if (s.entry i).state = .online then s.modEntry i Entry.answer
      else (s.modEntry i Entry.answer).recordChange l w i (s.entry i).state .online cause) := by
    split
    · exact State.Calm.modEntry s i _
    · exact (State.Calm.modEntry s i _).trans (State.Calm.writeRecord _ l _)
  unfold State.outcomeAnswered
  dsimp only
  split
  · exact .refl s
  split
  · exact hrecorded.trans (State.Calm.modLine _ l _)
  · exact hrecorded

theorem State.Calm.outcomeFailed (s : State) (l : Line) (w : Work) (i : StationIndex) (o : FailingOutcome) :
    s.Calm (s.outcomeFailed l w i o) := by
  unfold State.outcomeFailed
  dsimp only
  split
  · exact .refl s
  split
  · exact ((State.Calm.modEntry s i _).trans (State.Calm.writeRecord _ l _)).trans (State.Calm.modLine _ l _)
  split
  · exact (State.Calm.modEntry s i _).trans (State.Calm.writeRecord _ l _)
  · exact State.Calm.modEntry s i _

theorem State.Calm.applyOutcome (s : State) (l : Line) (w : Work) (e : UnitEnd) : s.Calm (s.applyOutcome l w e) := by
  unfold State.applyOutcome
  split
  · exact .refl s
  · cases e with
    | good a => exact State.Calm.outcomeAnswered s l w _ _ a
    | deferred a => exact State.Calm.outcomeAnswered s l w _ _ a
    | failed o => exact State.Calm.outcomeFailed s l w _ o
    | settled => exact .refl s
    | aborted => exact .refl s
    | lineFault => exact .refl s

theorem State.Calm.leaveService (s : State) (w : Work) : s.Calm (s.leaveService w) := by
  unfold State.leaveService
  split
  · exact .refl s
  · dsimp only
    split
    · exact (State.Calm.modEntry s _ _).trans (State.Calm.disableNow _ _)
    · exact State.Calm.modEntry s _ _

theorem State.Calm.leaveDirected (s : State) (l : Line) (w : Work) : s.Calm (s.leaveDirected l w) := by
  unfold State.leaveDirected
  split
  · exact State.Calm.modLine s l _
  · exact .refl s

theorem State.Calm.returnReservation (s : State) (l : Line) : s.Calm (s.returnReservation l) := by
  unfold State.returnReservation
  split
  · exact (State.Calm.modLine s l _).trans (State.Calm.serve _)
  · exact State.Calm.modLine s l _

theorem State.Calm.completeUnit (s : State) (l : Line) (e : UnitEnd) : s.Calm (s.completeUnit l e) := by
  unfold State.completeUnit
  split
  · exact .refl s
  · exact (((((State.Calm.writeRecord? s l _).trans (State.Calm.applyOutcome _ l _ e)).trans
      (State.Calm.leaveService _ _)).trans (State.Calm.leaveDirected _ l _)).trans
      (State.Calm.returnReservation _ l)).trans (State.Calm.modLine _ l _)

theorem State.Calm.enterStopped (s : State) (l : Line) : s.Calm (s.enterStopped l) :=
  ((State.Calm.modLine s l _).trans (State.Calm.modLine _ l _)).trans (State.Calm.raise _ nofun)

theorem State.Calm.discardPending (s : State) (l : Line) : s.Calm (s.discardPending l) := by
  have hleft : s.Calm (((s.leaveHoldList l).dropReservation l).modLine l LineEngine.clearChosen) :=
    ((State.Calm.withHoldList s _).trans (State.Calm.modLine _ l _)).trans (State.Calm.modLine _ l _)
  unfold State.discardPending
  dsimp only
  split
  · exact hleft.trans (State.Calm.serve _)
  · exact hleft

theorem State.Calm.cutShort (s : State) (l : Line) : s.Calm (s.cutShort l) := by
  unfold State.cutShort
  split
  · exact (State.Calm.modLine s l _).trans (State.Calm.completeUnit _ l _)
  split
  · exact State.Calm.discardPending s l
  · exact .refl s

theorem State.Calm.faultLine (s : State) (l : Line) (cause : FaultCause) : s.Calm (s.faultLine l cause) :=
  (((State.Calm.completeUnit s l _).trans (State.Calm.modLine _ l _)).trans (State.Calm.modLine _ l _)).trans
    (State.Calm.raise _ nofun)

theorem State.Calm.faultLine_finish (s : State) (l : Line) (cause : FaultCause) :
    s.Calm (s.faultLine l cause).finish :=
  (State.Calm.faultLine s l cause).trans (State.Calm.finish _)

theorem State.Calm.endUnit (s : State) (l : Line) (e : UnitEnd) : s.Calm (s.endUnit l e) := by
  refine State.Calm.trans ?_ (State.Calm.finish _)
  refine (State.Calm.completeUnit s l e).trans ?_
  unfold State.afterCompletion
  split
  · exact State.Calm.enterStopped _ l
  · exact .refl _

/-! ### Attempts -/

theorem State.Calm.chargeAttempt (s : State) (w : Work) : s.Calm (s.chargeAttempt w) := by
  unfold State.chargeAttempt
  split
  · exact .refl s
  · exact State.Calm.modEntry s _ _

theorem State.Calm.attemptFails (s : State) (l : Line) (o : FailingOutcome) : s.Calm (s.attemptFails l o) := by
  unfold State.attemptFails
  split
  · exact .refl s
  · dsimp only
    split
    · exact ((State.Calm.modLine s l _).trans (State.Calm.chargeAttempt _ _)).trans (State.Calm.modLine _ l _)
    · exact ((State.Calm.modLine s l _).trans (State.Calm.chargeAttempt _ _)).trans (State.Calm.endUnit _ l _)

theorem State.Calm.attemptGood (s : State) (l : Line) (a : HeldAnswer) : s.Calm (s.attemptGood l a) := by
  unfold State.attemptGood
  split
  · exact .refl s
  · exact (State.Calm.modLine s l _).trans (State.Calm.endUnit _ l _)

theorem State.Calm.attemptDeferred (s : State) (l : Line) (a : HeldAnswer) : s.Calm (s.attemptDeferred l a) := by
  unfold State.attemptDeferred
  split
  · exact .refl s
  · dsimp only
    split
    · exact (State.Calm.modLine s l _).trans (State.Calm.modLine _ l _)
    · exact (State.Calm.modLine s l _).trans (State.Calm.endUnit _ l _)

theorem State.Calm.attemptJudged (s : State) (l : Line) (v : Verdict) : s.Calm (s.attemptJudged l v) := by
  cases v with
  | good a => exact State.Calm.attemptGood s l a
  | deferred a => exact State.Calm.attemptDeferred s l a
  | failing o => exact State.Calm.attemptFails s l o

/-! ### Receiver and transmitter -/

theorem State.Calm.whenLive {s : State} {f : State → State} (h : s.Calm (f s)) : s.Calm (s.whenLive f) := by
  unfold State.whenLive
  split
  · exact h
  · exact .refl s

theorem State.Calm.startDetected (s : State) (l : Line) : s.Calm (s.startDetected l) := by
  unfold State.startDetected
  split
  · exact .refl s
  split
  · exact State.Calm.modLine s l _
  · exact .refl s

theorem State.Calm.waitMarkEnd (s : State) (l : Line) : s.Calm (s.waitMarkEnd l) := by
  unfold State.waitMarkEnd
  split
  · exact .refl s
  split
  · exact State.Calm.modLine s l _
  · exact .refl s

theorem State.Calm.nextAnswerCharacter (s : State) (l : Line) (buffer : List Byte) (crc : Word) (v : Byte)
    (f : Framing) : s.Calm (s.nextAnswerCharacter l buffer crc v f) := by
  have hcollect (crc' : Word) :
      s.Calm (s.modLine l (fun x => { x with phase := .receive (buffer ++ [v]) crc' (some 0) })) :=
    State.Calm.modLine s l _
  unfold State.nextAnswerCharacter
  dsimp only
  split
  · exact State.Calm.attemptFails s l _
  split
  · exact hcollect _
  split
  · split
    · exact State.Calm.attemptFails s l _
    · exact hcollect _
  split
  · exact hcollect _
  split
  · exact hcollect _
  split
  · exact .refl s
  · exact State.Calm.attemptJudged s l _

theorem State.Calm.disposeCharacter (s : State) (l : Line) (v : Byte) (f : Framing) :
    s.Calm (s.disposeCharacter l v f) := by
  unfold State.disposeCharacter
  split
  · exact .refl s
  · exact State.Calm.modLine s l _
  · split
    · exact State.Calm.modLine s l _
    · exact State.Calm.modLine s l _
  · exact .refl s
  · unfold State.firstAnswerCharacter
    split
    · exact State.Calm.modLine s l _
    · exact State.Calm.attemptFails s l _
  · exact State.Calm.nextAnswerCharacter s l _ _ v f

theorem State.Calm.character (s : State) (l : Line) (v : Byte) (f : Framing) : s.Calm (s.character l v f) := by
  unfold State.character
  split
  · exact .refl s
  split
  · exact (State.Calm.modLine s l _).trans (State.Calm.disposeCharacter _ l v f)
  · exact .refl s

theorem State.Calm.quietReached (s : State) (l : Line) : s.Calm (s.quietReached l) := by
  refine State.Calm.whenLive ?_
  split
  · exact State.Calm.modLine s l _
  · exact .refl s

theorem State.Calm.noiseLimitExpiry (s : State) (l : Line) : s.Calm (s.noiseLimitExpiry l) := by
  refine State.Calm.whenLive ?_
  split
  · exact State.Calm.faultLine_finish s l _
  · exact .refl s

theorem State.Calm.afterContention (s : State) (l : Line) : s.Calm (s.afterContention l) := by
  unfold State.afterContention
  split
  · exact State.Calm.faultLine_finish s l _
  · exact State.Calm.modLine s l _

theorem State.Calm.characterSent (s : State) (l : Line) : s.Calm (s.characterSent l) := by
  have hsilent := State.Calm.modLine s l (fun y => { y with shifter := none })
  unfold State.characterSent
  dsimp only
  split
  · split
    · exact State.Calm.modLine s l _
    · exact State.Calm.modLine s l _
  · exact (hsilent.trans (State.Calm.modLine _ l _)).trans (State.Calm.afterContention _ l)
  · exact State.Calm.modLine s l _
  · exact hsilent.trans (State.Calm.afterContention _ l)
  all_goals exact hsilent

theorem State.Calm.transmitCharacterEnd (s : State) (l : Line) : s.Calm (s.transmitCharacterEnd l) := by
  refine State.Calm.whenLive ?_
  split
  · exact State.Calm.characterSent s l
  · exact .refl s

/-! ### Timers and inner events -/

theorem State.Calm.responseTimeout (s : State) (l : Line) : s.Calm (s.responseTimeout l) := by
  refine State.Calm.whenLive ?_
  split
  · exact State.Calm.attemptFails s l _
  all_goals exact .refl s

theorem State.Calm.gapLimitExpiry (s : State) (l : Line) : s.Calm (s.gapLimitExpiry l) := by
  refine State.Calm.whenLive ?_
  split
  · exact State.Calm.attemptFails s l _
  all_goals exact .refl s

theorem State.Calm.backoffEnd (s : State) (l : Line) : s.Calm (s.backoffEnd l) := by
  refine State.Calm.whenLive ?_
  split
  · exact State.Calm.modLine s l _
  all_goals exact .refl s

theorem State.Calm.settleEnd (s : State) (l : Line) : s.Calm (s.settleEnd l) := by
  refine State.Calm.whenLive ?_
  split
  · exact State.Calm.endUnit s l _
  all_goals exact .refl s

theorem State.Calm.modLine_finish (s : State) (l : Line) (f : LineEngine → LineEngine) :
    s.Calm (s.modLine l f).finish :=
  (State.Calm.modLine s l f).trans (State.Calm.finish _)

theorem State.Calm.intervalElapsed (s : State) (l : Line) : s.Calm (s.intervalElapsed l) := by
  refine State.Calm.whenLive ?_
  split
  · exact State.Calm.modLine_finish s l _
  · exact .refl s

theorem State.Calm.unitStart (s : State) (l : Line) : s.Calm (s.unitStart l) := by
  refine State.Calm.whenLive ?_
  split
  · exact ((State.Calm.startUnit s l).trans (State.Calm.serve _)).trans (State.Calm.finish _)
  · exact .refl s

theorem State.Calm.deferredDisable (s : State) (i : StationIndex) : s.Calm (s.deferredDisable i) := by
  refine State.Calm.whenLive ?_
  split
  · exact State.Calm.disableNow s i
  · exact .refl s

theorem State.Calm.stoppingLineStopped (s : State) (l : Line) : s.Calm (s.stoppingLineStopped l) := by
  refine State.Calm.whenLive ?_
  split
  · exact State.Calm.enterStopped s l
  · exact .refl s

theorem State.Calm.holdListGrant (s : State) : s.Calm s.holdListGrant :=
  State.Calm.whenLive ((State.Calm.serve s).trans (State.Calm.finish _))

theorem State.Calm.workSelection (s : State) (l : Line) : s.Calm (s.workSelection l) := by
  refine State.Calm.whenLive ?_
  split
  · exact (State.Calm.invokeArbiter s l).trans (State.Calm.finish _)
  · exact .refl s

theorem State.Calm.pendingSwapTakesEffect (s : State) (l : Line) : s.Calm (s.pendingSwapTakesEffect l) := by
  refine State.Calm.whenLive ?_
  split
  · exact State.Calm.modLine s l _
  · exact .refl s

theorem State.Calm.cycleStart (s : State) (l : Line) : s.Calm (s.cycleStart l) := by
  refine State.Calm.whenLive ?_
  split
  · exact State.Calm.modLine_finish s l _
  · exact .refl s

/-! ### One reference period -/

theorem State.Calm.fire (s : State) (l : Line) (e : TimedEvent) : s.Calm (s.fire l e) := by
  cases e with
  | characterSent => exact State.Calm.transmitCharacterEnd s l
  | quiet => exact State.Calm.quietReached s l
  | noise => exact State.Calm.noiseLimitExpiry s l
  | response => exact State.Calm.responseTimeout s l
  | gap => exact State.Calm.gapLimitExpiry s l
  | backoff => exact State.Calm.backoffEnd s l
  | settle => exact State.Calm.settleEnd s l
  | interval => exact State.Calm.intervalElapsed s l

theorem State.Calm.fireNext (s : State) (l : Line) : s.Calm (s.fireNext l) := by
  unfold State.fireNext
  split
  · exact .refl s
  · exact State.Calm.fire s l _

theorem State.Calm.fireDue (s : State) (l : Line) : s.Calm (s.fireDue l) :=
  (State.Calm.fireNext s l).trans (State.Calm.fireNext _ l)

/-- The order of a period's records bears on neither the cursor nor the causes (log entry 24). -/
theorem State.Calm.recordsApart (s : State) {before middle : Nat} (h : before ≤ middle) :
    s.Calm (s.recordsApart before middle) := by
  obtain ⟨n, records, cursor, he, -, -, hcursor⟩ := s.recordsApart_spec h
  rw [he]
  refine ⟨fun hzero => ?_, id⟩
  obtain hsame | ⟨-, hreset⟩ := hcursor
  · exact hsame.trans hzero
  · exact hreset

theorem State.Calm.fireInTurn (s : State) (first second : Line) : s.Calm (s.fireInTurn first second) :=
  ((State.Calm.fireDue s first).trans (State.Calm.fireDue _ second)).trans
    (State.Calm.recordsApart _ (State.Evolves.fireDue s first).records.length_le)

theorem State.Calm.fireBoth (s : State) : s.Calm s.fireBoth := by
  unfold State.fireBoth
  split
  · split
    · exact (State.Calm.nextRace s).trans (State.Calm.fireInTurn _ .a .b)
    · exact (State.Calm.nextRace s).trans (State.Calm.fireInTurn _ .b .a)
  · exact (State.Calm.fireDue s .a).trans (State.Calm.fireDue _ .b)

end Sys2Proof.Machine
end

section
/-! SUPPORT. That every row of the opcode table and every step keeps the bounds of the part: the parameters in their
ranges, the read cursor within the head record, QUEUE THRESHOLD unlatched (R126, R115, R162). -/

namespace Sys2Proof.Machine

/-! ### Bounds kept -/

/-- From s to t the bounds of the part are kept, each on its own. -/
structure State.KeepsBounds (s t : State) : Prop where
  params : s.ParamsInRange → t.ParamsInRange
  cursor : s.CursorLegal → t.CursorLegal
  latch : s.NoThresholdLatch → t.NoThresholdLatch

theorem State.KeepsBounds.refl (s : State) : s.KeepsBounds s :=
  ⟨id, id, id⟩

theorem State.KeepsBounds.trans {s t u : State} (h : s.KeepsBounds t) (k : t.KeepsBounds u) : s.KeepsBounds u :=
  ⟨fun hp => k.params (h.params hp), fun hc => k.cursor (h.cursor hc), fun hl => k.latch (h.latch hl)⟩

/-- An event of the engines writes behind the head record, and on an empty queue the cursor is 0 and stays there. -/
theorem State.Evolves.keepsBounds {s t : State} (h : s.Evolves t) (k : s.Calm t) : s.KeepsBounds t where
  params hp l := by
    rw [(h.lines l).params]
    exact hp l
  cursor hc := by
    obtain ⟨added, hadded⟩ := h.records
    unfold State.CursorLegal State.headSize at hc ⊢
    cases hr : s.queue.records with
    | nil =>
      rw [hr] at hc
      rw [k.cursor (Nat.le_zero.1 hc)]
      exact Nat.zero_le _
    | cons r rest =>
      rw [hr] at hc hadded
      rw [← hadded, h.cursor (by rw [hr]; exact List.cons_ne_nil r rest)]
      exact hc
  latch := k.latch

/-- A state with the queue and the interrupt unit of s, whose lines' parameters stand or are set within range. -/
theorem State.KeepsBounds.of_same {s t : State} (hq : t.queue = s.queue) (hi : t.interrupts = s.interrupts)
    (hp : ∀ l, (s.line l).params.InRange → (t.line l).params.InRange) : s.KeepsBounds t where
  params h l := hp l (h l)
  cursor h := by
    unfold State.CursorLegal State.headSize
    rw [hq]
    exact h
  latch h := by
    rw [State.NoThresholdLatch, hi]
    exact h

theorem State.KeepsBounds.modLine (s : State) (l : Line) (f : LineEngine → LineEngine)
    (hf : (s.line l).params.InRange → (f (s.line l)).params.InRange := by exact id) :
    s.KeepsBounds (s.modLine l f) := by
  refine .of_same (State.queue_modLine s l f) (State.interrupts_modLine s l f) fun m hm => ?_
  rw [State.line_modLine_eq]
  split
  · next h =>
    subst h
    exact hf hm
  · exact hm

theorem State.KeepsBounds.modEntry (s : State) (i : StationIndex) (f : Entry → Entry) :
    s.KeepsBounds (s.modEntry i f) :=
  .of_same rfl rfl fun m hm => by rw [State.line_modEntry]; exact hm

theorem State.KeepsBounds.modWindow (s : State) (f : Window → Window) : s.KeepsBounds (s.modWindow f) :=
  .of_same rfl rfl fun m hm => by rw [State.line_modWindow]; exact hm

theorem State.KeepsBounds.finish (s : State) : s.KeepsBounds s.finish :=
  (State.Evolves.finish s).keepsBounds (State.Calm.finish s)

theorem State.KeepsBounds.modLine_finish (s : State) (l : Line) (f : LineEngine → LineEngine)
    (hf : (s.line l).params.InRange → (f (s.line l)).params.InRange := by exact id) :
    s.KeepsBounds (s.modLine l f).finish :=
  (State.KeepsBounds.modLine s l f hf).trans (.finish _)

/-- The read cursor set within the head record. -/
theorem State.KeepsBounds.withQueue (s : State) (q : ReplyQueue)
    (hq : s.CursorLegal → State.CursorLegal { s with queue := q }) : s.KeepsBounds { s with queue := q } where
  params h l := by
    rw [State.line_withQueue]
    exact h l
  cursor := hq
  latch h := h

/-! ### The command slot and the commands of stations -/

theorem State.KeepsBounds.andReply {s t : State} (h : s.KeepsBounds t) (r : Result) (n : Nat) :
    s.KeepsBounds (t.reply r n) :=
  h.trans (State.KeepsBounds.modWindow t _)

theorem State.KeepsBounds.reply (s : State) (r : Result) (n : Nat) : s.KeepsBounds (s.reply r n) :=
  (State.KeepsBounds.refl s).andReply r n

theorem State.KeepsBounds.issue (s : State) (code : Word) {d : State → State} (hd : ∀ t : State, t.KeepsBounds (d t)) :
    s.KeepsBounds (s.issue code d) := by
  have hcode := State.KeepsBounds.modWindow s (fun w => { w with command := code })
  unfold State.issue
  split
  · exact .refl s
  · dsimp only
    split
    · exact hcode.andReply _ _
    · exact hcode.trans (hd _)

theorem State.KeepsBounds.withStation {s : State} {body : StationIndex → State} (hb : ∀ i, s.KeepsBounds (body i)) :
    s.KeepsBounds (s.withStation body) := by
  unfold State.withStation
  split
  · exact State.KeepsBounds.reply s _ _
  · exact hb _

theorem State.KeepsBounds.cmdStationConfigure (s : State) : s.KeepsBounds s.cmdStationConfigure := by
  refine State.KeepsBounds.withStation fun i => ?_
  dsimp only
  split
  · exact State.KeepsBounds.reply s _ _
  split
  · exact State.KeepsBounds.reply s _ _
  split
  · exact State.KeepsBounds.reply s _ _
  split
  · exact State.KeepsBounds.reply s _ _
  · exact (State.KeepsBounds.modEntry s i _).andReply _ _

theorem State.KeepsBounds.cmdStationEnable (s : State) : s.KeepsBounds s.cmdStationEnable := by
  refine State.KeepsBounds.withStation fun i => ?_
  split
  · exact (State.KeepsBounds.modEntry s i _).andReply _ _
  · exact State.KeepsBounds.reply s _ _

theorem State.KeepsBounds.disableNow (s : State) (i : StationIndex) : s.KeepsBounds (s.disableNow i) :=
  (State.Evolves.disableNow s i).keepsBounds (State.Calm.disableNow s i)

theorem State.KeepsBounds.cmdStationDisable (s : State) : s.KeepsBounds s.cmdStationDisable := by
  refine State.KeepsBounds.withStation fun i => ?_
  dsimp only
  split
  · split
    · exact (State.KeepsBounds.modEntry s i _).andReply _ _
    · exact (State.KeepsBounds.disableNow s i).andReply _ _
  · split
    · exact State.KeepsBounds.reply s _ _
    · exact State.KeepsBounds.reply s _ _

theorem State.KeepsBounds.cmdStationClear (s : State) : s.KeepsBounds s.cmdStationClear := by
  refine State.KeepsBounds.withStation fun i => ?_
  split
  · exact (State.KeepsBounds.modEntry s i _).andReply _ _
  · exact State.KeepsBounds.reply s _ _

theorem State.KeepsBounds.cmdStationZeroCounts (s : State) : s.KeepsBounds s.cmdStationZeroCounts := by
  refine State.KeepsBounds.withStation fun i => ?_
  split
  · exact State.KeepsBounds.reply s _ _
  · exact (State.KeepsBounds.modEntry s i _).andReply _ _

/-! ### The commands of lists -/

theorem State.KeepsBounds.cmdListSwap (s : State) : s.KeepsBounds s.cmdListSwap := by
  unfold State.cmdListSwap
  split
  · exact State.KeepsBounds.reply s _ _
  next l _ =>
  dsimp only
  split
  · exact State.KeepsBounds.reply s _ _
  split
  · exact State.KeepsBounds.reply s _ _
  split
  · exact (State.KeepsBounds.modLine_finish s l _).andReply _ _
  · exact (State.KeepsBounds.modLine s l _).andReply _ _

theorem State.KeepsBounds.cmdSubmit (s : State) : s.KeepsBounds s.cmdSubmit := by
  unfold State.cmdSubmit
  dsimp only
  split
  · exact State.KeepsBounds.reply s _ _
  next l _ =>
  split
  · exact State.KeepsBounds.reply s _ _
  split
  · exact State.KeepsBounds.reply s _ _
  split
  · exact State.KeepsBounds.reply s _ _
  split
  · exact State.KeepsBounds.reply s _ _
  · exact (State.KeepsBounds.modLine_finish s l _).andReply _ _

/-! ### The reply queue -/

/-- The head record leaves, the cursor is 0, and the hold list is served (R117). -/
theorem State.KeepsBounds.releaseHead_finish (s : State) : s.KeepsBounds s.releaseHead.finish := by
  have hdrop : s.KeepsBounds s.dropHead := .withQueue s _ fun _ => Nat.zero_le _
  exact (hdrop.trans ((State.Evolves.serve _).keepsBounds (State.Calm.serve _))).trans (.finish _)

theorem State.KeepsBounds.cmdQueueRelease (s : State) : s.KeepsBounds s.cmdQueueRelease := by
  unfold State.cmdQueueRelease
  split
  · exact State.KeepsBounds.reply s _ _
  split
  · exact State.KeepsBounds.reply s _ _
  · exact (State.KeepsBounds.releaseHead_finish s).andReply _ _

theorem State.KeepsBounds.cmdQueueFlush (s : State) : s.KeepsBounds s.cmdQueueFlush := by
  unfold State.cmdQueueFlush
  split
  · exact State.KeepsBounds.reply s _ _
  · exact (State.KeepsBounds.withQueue s _ fun _ => Nat.zero_le _).andReply _ _

theorem State.KeepsBounds.cmdQueueSetThreshold (s : State) : s.KeepsBounds s.cmdQueueSetThreshold := by
  unfold State.cmdQueueSetThreshold
  dsimp only
  split
  · exact State.KeepsBounds.reply s _ _
  · exact (State.KeepsBounds.withQueue s _ (by exact id)).andReply _ _

theorem State.KeepsBounds.cmdDrainMode (s : State) : s.KeepsBounds s.cmdDrainMode := by
  unfold State.cmdDrainMode
  split
  · exact State.KeepsBounds.reply s _ _
  split
  · exact State.KeepsBounds.reply s _ _
  · exact (State.KeepsBounds.withQueue s _ (by exact id)).andReply _ _

theorem State.KeepsBounds.drive (s : State) (w : Word) : s.KeepsBounds (s.drive w) :=
  State.KeepsBounds.modWindow s _

/-- Where a word of the head record stands at the cursor, the cursor may rise by 1 (R116). -/
theorem cursor_lt_headSize {s : State} {w : Word} (h : s.cursorWord = some w) : s.queue.cursor < s.headSize := by
  unfold State.cursorWord at h
  unfold State.headSize
  cases hr : s.queue.records with
  | nil => simp [hr] at h
  | cons r rest =>
    simp only [hr] at h ⊢
    rw [← record_words_length]
    exact (List.getElem?_eq_some_iff.1 h).1

theorem State.KeepsBounds.takeWord {s : State} {w : Word} (h : s.cursorWord = some w) :
    s.KeepsBounds ((s.drive w).advanceCursor) :=
  (State.KeepsBounds.drive s w).trans (.withQueue _ _ fun _ => cursor_lt_headSize h)

/-- A word of the head record is taken, and the record released if it was its last (R118, R140). -/
theorem State.KeepsBounds.takeLastWord {s : State} {w : Word} (h : s.cursorWord = some w) :
    s.KeepsBounds (if (s.drive w).advanceCursor.readOut then (s.drive w).advanceCursor.releaseHead.finish
      else (s.drive w).advanceCursor) := by
  split
  · exact (State.KeepsBounds.takeWord h).trans (.releaseHead_finish _)
  · exact State.KeepsBounds.takeWord h

theorem State.KeepsBounds.queueDataRead (s : State) : s.KeepsBounds s.queueDataRead := by
  unfold State.queueDataRead
  split
  · split
    · exact State.KeepsBounds.drive s _
    · split
      · exact State.KeepsBounds.drive s _
      · next h => exact State.KeepsBounds.takeWord h
    · split
      · exact State.KeepsBounds.drive s _
      · next h => exact State.KeepsBounds.takeLastWord h
  · exact State.KeepsBounds.drive s _

theorem State.KeepsBounds.dackStrobe (s : State) : s.KeepsBounds s.dackStrobe := by
  unfold State.dackStrobe
  split
  · split
    · exact State.KeepsBounds.drive s _
    · exact State.KeepsBounds.drive s _
    · split
      · exact State.KeepsBounds.drive s _
      · next h => exact State.KeepsBounds.takeLastWord h
  · exact State.KeepsBounds.drive s _

/-! ### The commands of lines -/

theorem State.KeepsBounds.withLine {s : State} {body : Line → State} (hb : ∀ l, s.KeepsBounds (body l)) :
    s.KeepsBounds (s.withLine body) := by
  unfold State.withLine
  split
  · exact State.KeepsBounds.reply s _ _
  · exact hb _

/-- LINE SET admits no value outside the range of its parameter (R127 step 4, Table 7-2). -/
theorem Params.InRange.setParameter {ps : Params} (h : ps.InRange) {p : Parameter} {v : Nat}
    (hv : parameterInRange p v = true) : (ps.setParameter p v).InRange := by
  obtain ⟨hrate, hresponse, hsettle, hinterval, hprobe, hburst⟩ := h
  cases p with
  | rate => exact ⟨of_decide_eq_true hv, hresponse, hsettle, hinterval, hprobe, hburst⟩
  | response => exact ⟨hrate, of_decide_eq_true hv, hsettle, hinterval, hprobe, hburst⟩
  | settle => exact ⟨hrate, hresponse, of_decide_eq_true hv, hinterval, hprobe, hburst⟩
  | interval => exact ⟨hrate, hresponse, hsettle, of_decide_eq_true hv, hprobe, hburst⟩
  | probe => exact ⟨hrate, hresponse, hsettle, hinterval, of_decide_eq_true hv, hburst⟩
  | burst => exact ⟨hrate, hresponse, hsettle, hinterval, hprobe, of_decide_eq_true hv⟩
  | mark => exact ⟨hrate, hresponse, hsettle, hinterval, hprobe, hburst⟩

theorem State.KeepsBounds.cmdLineSet (s : State) : s.KeepsBounds s.cmdLineSet := by
  refine State.KeepsBounds.withLine fun l => ?_
  split
  · exact State.KeepsBounds.reply s _ _
  split
  · exact State.KeepsBounds.reply s _ _
  split
  · next hv => exact (State.KeepsBounds.modLine s l _ fun h => h.setParameter hv).andReply _ _
  · exact State.KeepsBounds.reply s _ _

theorem LineEngine.params_start (x : LineEngine) : x.start.params = x.params := by
  unfold LineEngine.start
  dsimp only
  split <;> rfl

theorem State.KeepsBounds.cmdLineStart (s : State) : s.KeepsBounds s.cmdLineStart := by
  refine State.KeepsBounds.withLine fun l => ?_
  split
  · refine (State.KeepsBounds.modLine_finish s l LineEngine.start fun h => ?_).andReply _ _
    rw [LineEngine.params_start]
    exact h
  · exact State.KeepsBounds.reply s _ _

theorem State.KeepsBounds.enterStopped_finish (s : State) (l : Line) : s.KeepsBounds (s.enterStopped l).finish :=
  ((State.Evolves.enterStopped s l).keepsBounds (State.Calm.enterStopped s l)).trans (.finish _)

theorem State.KeepsBounds.cutShort (s : State) (l : Line) : s.KeepsBounds (s.cutShort l) :=
  (State.Evolves.cutShort s l).keepsBounds (State.Calm.cutShort s l)

theorem State.KeepsBounds.stopRunning (s : State) (l : Line) : s.KeepsBounds (s.stopRunning l) := by
  unfold State.stopRunning
  split
  · exact (State.KeepsBounds.modLine s l _).andReply _ _
  split
  · have hdiscard := (State.Evolves.discardPending s l).keepsBounds (State.Calm.discardPending s l)
    exact (hdiscard.trans (.enterStopped_finish _ l)).andReply _ _
  · exact (State.KeepsBounds.enterStopped_finish s l).andReply _ _

theorem State.KeepsBounds.cmdLineStop (s : State) : s.KeepsBounds s.cmdLineStop := by
  refine State.KeepsBounds.withLine fun l => ?_
  split
  · exact State.KeepsBounds.reply s _ _
  · exact State.KeepsBounds.reply s _ _
  · exact State.KeepsBounds.reply s _ _
  · exact State.KeepsBounds.stopRunning s l

theorem State.KeepsBounds.cmdLineHalt (s : State) : s.KeepsBounds s.cmdLineHalt := by
  refine State.KeepsBounds.withLine fun l => ?_
  split
  · exact State.KeepsBounds.reply s _ _
  · exact ((State.KeepsBounds.cutShort s l).trans (.enterStopped_finish _ l)).andReply _ _

theorem State.KeepsBounds.resetStations (s : State) (l : Line) : s.KeepsBounds (s.resetStations l) :=
  .of_same rfl rfl fun m hm => by rw [line_resetStations]; exact hm

theorem State.KeepsBounds.cmdLineReset (s : State) : s.KeepsBounds s.cmdLineReset := by
  refine State.KeepsBounds.withLine fun l => ?_
  exact ((((State.KeepsBounds.cutShort s l).trans (.modLine _ l LineEngine.resetCounters)).trans
    (.resetStations _ l)).trans (.enterStopped_finish _ l)).andReply _ _

/-- The reset values stand within the bounds (Table 9-5). -/
theorem State.KeepsBounds.resetEffects (s : State) : s.KeepsBounds s.resetEffects where
  params _ l := by
    have hreset : Params.reset.InRange := by unfold Params.InRange; decide
    cases l <;> exact hreset
  cursor _ := Nat.zero_le _
  latch _ := BitVec.zero_and

theorem State.KeepsBounds.decideCommand (s : State) (k : Command) : s.KeepsBounds (s.decideCommand k) := by
  cases k with
  | stationConfigure => exact State.KeepsBounds.cmdStationConfigure s
  | stationEnable => exact State.KeepsBounds.cmdStationEnable s
  | stationDisable => exact State.KeepsBounds.cmdStationDisable s
  | stationClear => exact State.KeepsBounds.cmdStationClear s
  | stationZeroCounts => exact State.KeepsBounds.cmdStationZeroCounts s
  | listSwap => exact State.KeepsBounds.cmdListSwap s
  | submit => exact State.KeepsBounds.cmdSubmit s
  | queueRelease => exact State.KeepsBounds.cmdQueueRelease s
  | queueFlush => exact State.KeepsBounds.cmdQueueFlush s
  | queueSetThreshold => exact State.KeepsBounds.cmdQueueSetThreshold s
  | drainMode => exact State.KeepsBounds.cmdDrainMode s
  | lineSet => exact State.KeepsBounds.cmdLineSet s
  | lineStart => exact State.KeepsBounds.cmdLineStart s
  | lineStop => exact State.KeepsBounds.cmdLineStop s
  | lineHalt => exact State.KeepsBounds.cmdLineHalt s
  | lineReset => exact State.KeepsBounds.cmdLineReset s
  | partReset => exact State.KeepsBounds.resetEffects s

theorem State.KeepsBounds.command (s : State) (k : Command) :
    s.KeepsBounds (s.issue (commandCode k) fun t => t.decideCommand k) :=
  State.KeepsBounds.issue s _ fun t => State.KeepsBounds.decideCommand t k

theorem State.KeepsBounds.writeCommand (s : State) (code : Word) : s.KeepsBounds (s.writeCommand code) := by
  refine State.KeepsBounds.issue s _ fun t => ?_
  unfold State.decideWord
  split
  · exact State.KeepsBounds.decideCommand t _
  · exact State.KeepsBounds.reply t _ _

/-! ### The host window -/

theorem State.KeepsBounds.tableStore (s : State) (r : BitVec 4) (k : Nat) (w : Word) :
    s.KeepsBounds (s.tableStore r k w) := by
  unfold State.tableStore
  split
  · exact .refl s
  · split
    · exact State.KeepsBounds.modWindow s _
    · exact .refl s
  · next l n _ =>
    split
    · split
      · exact State.KeepsBounds.modLine s l _ (by cases n <;> exact id)
      · exact State.KeepsBounds.modWindow s _
    · exact .refl s
  · next l _ => exact State.KeepsBounds.modLine s l _

theorem State.KeepsBounds.tableDataRead (s : State) : s.KeepsBounds s.tableDataRead := by
  unfold State.tableDataRead
  split
  · exact State.KeepsBounds.drive s _
  · exact (State.KeepsBounds.drive s _).trans (.modWindow _ _)

theorem State.KeepsBounds.tableDataWrite (s : State) (w : Word) : s.KeepsBounds (s.tableDataWrite w) := by
  unfold State.tableDataWrite
  split
  · exact .refl s
  · refine State.KeepsBounds.trans ?_ (.modWindow _ _)
    split
    · exact State.KeepsBounds.tableStore s _ _ w
    · exact .refl s

theorem State.KeepsBounds.partStatusRead (s : State) : s.KeepsBounds s.partStatusRead := by
  unfold State.partStatusRead
  split
  · exact State.KeepsBounds.drive s _
  · exact (State.KeepsBounds.drive s _).trans (.modWindow _ _)

theorem State.KeepsBounds.whenLive {s : State} {f : State → State} (h : s.KeepsBounds (f s)) :
    s.KeepsBounds (s.whenLive f) := by
  unfold State.whenLive
  split
  · exact h
  · exact .refl s

/-- The interrupt unit replaced by one that latches no more. -/
theorem State.KeepsBounds.withInterrupts (s : State) (u : InterruptUnit)
    (h : s.interrupts.latched &&& causeBit .queueThreshold = 0 → u.latched &&& causeBit .queueThreshold = 0) :
    s.KeepsBounds { s with interrupts := u } where
  params hp l := by
    cases l
    · exact hp .a
    · exact hp .b
  cursor := id
  latch := h

theorem State.KeepsBounds.intEnableWrite (s : State) (w : Word) : s.KeepsBounds (s.intEnableWrite w) :=
  State.KeepsBounds.whenLive (.withInterrupts s _ id)

theorem State.KeepsBounds.intAckWrite (s : State) (w : Word) : s.KeepsBounds (s.intAckWrite w) := by
  refine State.KeepsBounds.whenLive ?_
  split
  · exact .refl s
  · exact .refl s
  · refine .withInterrupts s _ fun h => ?_
    show s.interrupts.latched &&& _ &&& _ = 0
    rw [BitVec.and_assoc, BitVec.and_comm (~~~_), ← BitVec.and_assoc, h]
    exact BitVec.zero_and

theorem State.KeepsBounds.registerWrite (s : State) (a : BitVec 5) (w : Word) :
    s.KeepsBounds (s.registerWrite a w) := by
  unfold State.registerWrite
  split
  · exact .refl s
  · split
    · exact State.KeepsBounds.writeCommand s w
    · exact State.KeepsBounds.modWindow s _
    · exact State.KeepsBounds.modWindow s _
    · exact State.KeepsBounds.modWindow s _
    · exact State.KeepsBounds.modWindow s _
    · exact State.KeepsBounds.modWindow s _
    · exact State.KeepsBounds.tableDataWrite s w
    · exact State.KeepsBounds.intEnableWrite s w
    · exact State.KeepsBounds.intAckWrite s w
    · exact .refl s

theorem State.KeepsBounds.releaseReset (s : State) : s.KeepsBounds s.releaseReset := by
  unfold State.releaseReset
  split
  · exact State.KeepsBounds.modWindow s _
  · exact .refl s

theorem State.KeepsBounds.endInit (s : State) : s.KeepsBounds s.endInit := by
  unfold State.endInit
  split
  · exact .refl s
  · exact State.KeepsBounds.modWindow s _

/-! ### Every row, and the step -/

theorem State.KeepsBounds.passTime (s : State) : s.KeepsBounds s.passTime := by
  have htick (t : State) : t.KeepsBounds ((t.modLine .a LineEngine.tick).modLine .b LineEngine.tick) :=
    (State.KeepsBounds.modLine t .a _).trans (.modLine _ .b _)
  unfold State.passTime
  split
  · exact .refl s
  split
  · exact (State.KeepsBounds.modWindow s _).trans (htick _)
  · exact (htick s).trans ((State.Evolves.fireBoth _).keepsBounds (State.Calm.fireBoth _))

/-- Each row of the opcode table answers a state within the bounds: the commands and the accesses of the host one by
one, the events of the engines by `State.Evolves.keepsBounds`. -/
theorem State.KeepsBounds.exec (s : State) (i : Instr) :
    ∃ t, Sys2Proof.Machine.exec i s = .next t ∧ s.KeepsBounds t := by
  cases i with
  | hardwareResetAssert => exact ⟨_, rfl, (State.KeepsBounds.resetEffects s).trans (.modWindow _ _)⟩
  | hardwareResetRelease => exact ⟨_, rfl, .releaseReset s⟩
  | initEnd => exact ⟨_, rfl, .endInit s⟩
  | stationConfigure => exact ⟨_, rfl, .command s .stationConfigure⟩
  | stationEnable => exact ⟨_, rfl, .command s .stationEnable⟩
  | stationDisable => exact ⟨_, rfl, .command s .stationDisable⟩
  | stationClear => exact ⟨_, rfl, .command s .stationClear⟩
  | stationZeroCounts => exact ⟨_, rfl, .command s .stationZeroCounts⟩
  | listSwap => exact ⟨_, rfl, .command s .listSwap⟩
  | submit => exact ⟨_, rfl, .command s .submit⟩
  | queueRelease => exact ⟨_, rfl, .command s .queueRelease⟩
  | queueFlush => exact ⟨_, rfl, .command s .queueFlush⟩
  | queueSetThreshold => exact ⟨_, rfl, .command s .queueSetThreshold⟩
  | drainMode => exact ⟨_, rfl, .command s .drainMode⟩
  | lineSet => exact ⟨_, rfl, .command s .lineSet⟩
  | lineStart => exact ⟨_, rfl, .command s .lineStart⟩
  | lineStop => exact ⟨_, rfl, .command s .lineStop⟩
  | lineHalt => exact ⟨_, rfl, .command s .lineHalt⟩
  | lineReset => exact ⟨_, rfl, .command s .lineReset⟩
  | partReset => exact ⟨_, rfl, .command s .partReset⟩
  | unknownCommand code => exact ⟨_, rfl, .writeCommand s code⟩
  | queueDataRead => exact ⟨_, rfl, .queueDataRead s⟩
  | tableDataRead => exact ⟨_, rfl, .tableDataRead s⟩
  | tableDataWrite w => exact ⟨_, rfl, .tableDataWrite s w⟩
  | partStatusRead => exact ⟨_, rfl, .partStatusRead s⟩
  | intEnableWrite w => exact ⟨_, rfl, .intEnableWrite s w⟩
  | intAckWrite w => exact ⟨_, rfl, .intAckWrite s w⟩
  | registerWrite a w => exact ⟨_, rfl, .registerWrite s a w⟩
  | dackStrobe overlap => cases overlap <;> exact ⟨_, rfl, .dackStrobe s⟩
  | startDetected l => exact ⟨_, rfl, (State.Evolves.startDetected s l).keepsBounds (.startDetected s l)⟩
  | character l v f => exact ⟨_, rfl, (State.Evolves.character s l v f).keepsBounds (.character s l v f)⟩
  | waitMarkEnd l => exact ⟨_, rfl, (State.Evolves.waitMarkEnd s l).keepsBounds (.waitMarkEnd s l)⟩
  | quietReached l => exact ⟨_, rfl, (State.Evolves.quietReached s l).keepsBounds (.quietReached s l)⟩
  | noiseLimitExpiry l => exact ⟨_, rfl, (State.Evolves.noiseLimitExpiry s l).keepsBounds (.noiseLimitExpiry s l)⟩
  | transmitCharacterEnd l =>
    exact ⟨_, rfl, (State.Evolves.transmitCharacterEnd s l).keepsBounds (.transmitCharacterEnd s l)⟩
  | responseTimeout l => exact ⟨_, rfl, (State.Evolves.responseTimeout s l).keepsBounds (.responseTimeout s l)⟩
  | gapLimitExpiry l => exact ⟨_, rfl, (State.Evolves.gapLimitExpiry s l).keepsBounds (.gapLimitExpiry s l)⟩
  | backoffEnd l => exact ⟨_, rfl, (State.Evolves.backoffEnd s l).keepsBounds (.backoffEnd s l)⟩
  | settleEnd l => exact ⟨_, rfl, (State.Evolves.settleEnd s l).keepsBounds (.settleEnd s l)⟩
  | intervalElapsed l => exact ⟨_, rfl, (State.Evolves.intervalElapsed s l).keepsBounds (.intervalElapsed s l)⟩
  | unitStart l => exact ⟨_, rfl, (State.Evolves.unitStart s l).keepsBounds (.unitStart s l)⟩
  | deferredDisable i => exact ⟨_, rfl, (State.Evolves.deferredDisable s i).keepsBounds (.deferredDisable s i)⟩
  | stoppingLineStopped l =>
    exact ⟨_, rfl, (State.Evolves.stoppingLineStopped s l).keepsBounds (.stoppingLineStopped s l)⟩
  | holdListGrant => exact ⟨_, rfl, (State.Evolves.holdListGrant s).keepsBounds (.holdListGrant s)⟩
  | workSelection l => exact ⟨_, rfl, (State.Evolves.workSelection s l).keepsBounds (.workSelection s l)⟩
  | pendingSwapTakesEffect l =>
    exact ⟨_, rfl, (State.Evolves.pendingSwapTakesEffect s l).keepsBounds (.pendingSwapTakesEffect s l)⟩
  | cycleStart l => exact ⟨_, rfl, (State.Evolves.cycleStart s l).keepsBounds (.cycleStart s l)⟩

theorem State.KeepsBounds.step {s t : State} (h : Sys2Proof.Machine.step s = .next t) : s.KeepsBounds t := by
  unfold Sys2Proof.Machine.step at h
  split at h
  · obtain rfl := Host.Outcome.next.inj h
    exact State.KeepsBounds.passTime s
  · next i rest _ =>
    have htaken : s.KeepsBounds { s with pending := rest } :=
      .of_same rfl rfl fun m hm => by cases m <;> exact hm
    obtain ⟨u, hu, hkeeps⟩ := State.KeepsBounds.exec { s with pending := rest } i
    rw [hu] at h
    obtain rfl := Host.Outcome.next.inj h
    exact htaken.trans hkeeps

end Sys2Proof.Machine
end

section
/-! PROOFS. The bounds of the part through every step. -/

namespace Sys2Proof.Machine

/-- Settles O54: `State.KeepsBounds.step`, each bound kept on its own. -/
theorem boundsKept : Obligations.BoundsKept := by
  intro s t h
  have hkept := State.KeepsBounds.step h
  exact ⟨hkept.params, hkept.cursor, hkept.latch⟩

end Sys2Proof.Machine
end

section
/-! SUPPORT. The line commands in READY (chapter 7): one equation for each branch of LINE SET, LINE START, LINE STOP,
LINE HALT and LINE RESET. -/

namespace Sys2Proof.Machine

/-! ### The decision of a line command -/

section
variable {s : State} (hlive : s.live = true)
include hlive

theorem exec_lineSet : exec .lineSet s = .next (s.commanded 0x0040).cmdLineSet :=
  congrArg Host.Outcome.next (issue_of_live _ State.cmdLineSet hlive)

theorem exec_lineStart : exec .lineStart s = .next (s.commanded 0x0041).cmdLineStart :=
  congrArg Host.Outcome.next (issue_of_live _ State.cmdLineStart hlive)

theorem exec_lineStop : exec .lineStop s = .next (s.commanded 0x0042).cmdLineStop :=
  congrArg Host.Outcome.next (issue_of_live _ State.cmdLineStop hlive)

theorem exec_lineHalt : exec .lineHalt s = .next (s.commanded 0x0043).cmdLineHalt :=
  congrArg Host.Outcome.next (issue_of_live _ State.cmdLineHalt hlive)

theorem exec_lineReset : exec .lineReset s = .next (s.commanded 0x0044).cmdLineReset :=
  congrArg Host.Outcome.next (issue_of_live _ State.cmdLineReset hlive)

end

/-- A line code above 1 names no line (R127 to R132). -/
theorem State.withLine_commanded_of_high {s : State} (code : Word) (body : Line → State)
    (h : 1 < s.window.param0.toNat) : (s.commanded code).withLine body = s.decided code .range 0xFE := by
  have hnone : (s.commanded code).window.lineParam = none := (lineOfCode_none_iff _).2 h
  simp only [State.withLine, hnone, State.reply_commanded]

theorem State.withLine_commanded {s : State} {l : Line} (code : Word) (body : Line → State)
    (h : s.window.param0.toNat = match l with | .a => 0 | .b => 1) : (s.commanded code).withLine body = body l := by
  have hline : (s.commanded code).window.lineParam = some l := lineOfCode_eq_some h
  simp only [State.withLine, hline]

theorem State.refuseRunState_commanded (s : State) (code : Word) (l : Line) :
    (s.commanded code).refuseRunState l = s.decided code .state (runStateCode (s.line l).runState) := by
  rw [State.refuseRunState, line_commanded, State.reply_commanded]

theorem LineEngine.not_atRest_iff {x : LineEngine} :
    ¬ x.atRest = true ↔ x.runState = .running ∨ x.runState = .stopping := by
  rw [atRest_iff]
  cases x.runState <;> decide

/-! ### LINE SET -/

/-- A parameter code outside 1 to 7 names no parameter (Table 11-12 note a). -/
theorem parameterOfCode_eq_none {code : Nat} (h : code < 1 ∨ 7 < code) : parameterOfCode code = none := by
  rcases h with h | h
  · obtain rfl := Nat.lt_one_iff.1 h
    rfl
  · obtain ⟨n, rfl⟩ := Nat.exists_eq_add_of_le' (Nat.succ_le_of_lt h)
    rfl

/-- Each parameter's code names it. -/
theorem parameterOfCode_parameterCode (p : Parameter) : parameterOfCode (parameterCode p) = some p := by
  cases p <;> rfl

section
variable {s : State} {l : Line} (code : Word) (hl : s.window.param0.toNat = match l with | .a => 0 | .b => 1)
include hl

theorem cmdLineSet_of_no_parameter (h : parameterOfCode s.window.param1.toNat = none) :
    (s.commanded code).cmdLineSet = s.decided code .range 0xFD := by
  have hnone : parameterOfCode (s.commanded code).window.param1.toNat = none := h
  rw [State.cmdLineSet, State.withLine_commanded _ _ hl]
  simp only [hnone, State.reply_commanded]

/-- LINE SET of a parameter the table names (R127). -/
theorem cmdLineSet_of_parameter {p : Parameter} (h : parameterOfCode s.window.param1.toNat = some p) :
    (s.commanded code).cmdLineSet =
      if (s.line l).atRest = true then
        if parameterInRange p s.window.param2.toNat = true then
          (s.setLine l ((s.line l).setParameter p s.window.param2.toNat)).decided code .accepted 0
        else s.decided code .range (parameterCode p)
      else s.decided code .state (runStateCode (s.line l).runState) := by
  have hsome : parameterOfCode (s.commanded code).window.param1.toNat = some p := h
  rw [State.cmdLineSet, State.withLine_commanded _ _ hl]
  simp only [hsome, line_commanded, State.refuseRunState_commanded, State.modLine_eq_setLine, State.reply_commanded]
  by_cases hrest : (s.line l).atRest = true
  · simp only [hrest, Bool.not_true, Bool.false_eq_true, if_true, if_false]
    cases l <;> rfl
  · simp only [hrest, Bool.not_false, if_true, Bool.false_eq_true, if_false]

end

/-- The rows of Table 7-2: parameter code, lowest and highest value, and the parameters with the value set. -/
def parameterRows (ps : Params) (v : Nat) : List (Nat × Nat × Nat × Params) :=
  [(1, 0, 4095, { ps with rate := v }), (2, 2, 255, { ps with response := v }), (3, 2, 255, { ps with settle := v }),
    (4, 0, 65535, { ps with interval := v }), (5, 1, 64, { ps with probe := v }), (6, 1, 8, { ps with burst := v }),
    (7, 0, 1, { ps with mark := v == 1 })]

/-- Each row of Table 7-2 is that of one parameter. -/
theorem exists_parameter_of_row {ps : Params} {v : Nat} {q : Nat × Nat × Nat × Params} (h : q ∈ parameterRows ps v) :
    ∃ p, q.1 = parameterCode p ∧ (parameterInRange p v = true ↔ q.2.1 ≤ v ∧ v ≤ q.2.2.1) ∧
      ps.setParameter p v = q.2.2.2 := by
  simp only [parameterRows, List.mem_cons, List.not_mem_nil, or_false] at h
  rcases h with rfl | rfl | rfl | rfl | rfl | rfl | rfl
  · exact ⟨.rate, rfl, by simp [parameterInRange], rfl⟩
  · exact ⟨.response, rfl, by simp [parameterInRange], rfl⟩
  · exact ⟨.settle, rfl, by simp [parameterInRange], rfl⟩
  · exact ⟨.interval, rfl, by simp [parameterInRange], rfl⟩
  · exact ⟨.probe, rfl, by simp [parameterInRange], rfl⟩
  · exact ⟨.burst, rfl, by simp [parameterInRange], rfl⟩
  · exact ⟨.mark, rfl, by simp [parameterInRange], rfl⟩

theorem parameterCode_eq_one_iff (p : Parameter) : parameterCode p = 1 ↔ p = .rate := by
  cases p <;> decide

/-- A code within 1 to 7 is that of a parameter. -/
theorem exists_parameterCode_eq {code : Nat} (h1 : 1 ≤ code) (h7 : code ≤ 7) : ∃ p, code = parameterCode p := by
  interval_cases code
  exacts [⟨.rate, rfl⟩, ⟨.response, rfl⟩, ⟨.settle, rfl⟩, ⟨.interval, rfl⟩, ⟨.probe, rfl⟩, ⟨.burst, rfl⟩, ⟨.mark, rfl⟩]

/-! ### LINE START -/

section
variable {s : State} {l : Line} (code : Word) (hl : s.window.param0.toNat = match l with | .a => 0 | .b => 1)
include hl

theorem cmdLineStart_of_not_atRest (h : ¬ (s.line l).atRest = true) :
    (s.commanded code).cmdLineStart = s.decided code .state (runStateCode (s.line l).runState) := by
  rw [State.cmdLineStart, State.withLine_commanded _ _ hl, line_commanded, if_neg h, State.refuseRunState_commanded]

/-- LINE START of a line at rest (R128). -/
theorem cmdLineStart_of_atRest (h : (s.line l).atRest = true) :
    (s.commanded code).cmdLineStart =
      (((s.commanded code).setLine l (s.line l).start).finish).decided code .accepted
        (if (s.line l).listLength = 0 then 1 else 0) := by
  rw [State.cmdLineStart, State.withLine_commanded _ _ hl, line_commanded, if_pos h, State.modLine_eq_setLine,
    line_commanded]
  exact reply_finish_eq_decided (by rw [State.window_setLine]; rfl) _ _

end

theorem LineEngine.start_of_empty {x : LineEngine} (h : x.listLength = 0) : x.start =
    { x with runState := .running, faultCause := .none, contention := 0, condition := .idleEmpty } := by
  simp only [LineEngine.start, h, if_true]

theorem LineEngine.start_of_listed {x : LineEngine} (h : x.listLength ≠ 0) : x.start =
    { x with runState := .running, faultCause := .none, contention := 0, cycleNumber := x.cycleNumber + 1,
             cursor := 0, interval := 0, burst := 0, visitCount := 0, condition := .inCycle } := by
  simp only [LineEngine.start, h, if_false, LineEngine.startCycle]

end Sys2Proof.Machine
end

section
/-! PROOFS. LINE SET and LINE START in READY. -/

namespace Sys2Proof.Machine

/-- Settles O31: the parameter code names a parameter (`exists_parameterCode_eq`), whose row of Table 7-2 decides. -/
theorem lineSetDecided : Obligations.LineSetDecided := by
  intro s hlive
  refine ⟨fun h => by rw [exec_lineSet hlive, State.cmdLineSet, State.withLine_commanded_of_high _ _ h], fun l hl => ?_⟩
  intro x code v
  refine ⟨fun h => by rw [exec_lineSet hlive, cmdLineSet_of_no_parameter _ hl (parameterOfCode_eq_none h)],
    fun h1 h7 => ⟨fun hbusy => ?_, fun hrest q hq hcode => ?_⟩⟩
  · obtain ⟨p, hp⟩ := exists_parameterCode_eq h1 h7
    have hsome : parameterOfCode code = some p := hp ▸ parameterOfCode_parameterCode p
    rw [exec_lineSet hlive, cmdLineSet_of_parameter _ hl hsome, if_neg (LineEngine.not_atRest_iff.2 hbusy)]
  · obtain ⟨p, hp, hrange, hset⟩ := exists_parameter_of_row (ps := x.params) (v := v) hq
    have hsome : parameterOfCode code = some p := hcode.trans hp ▸ parameterOfCode_parameterCode p
    have hexec := exec_lineSet hlive
    rw [cmdLineSet_of_parameter _ hl hsome, if_pos (atRest_iff.2 hrest)] at hexec
    refine ⟨fun hout => ?_, fun hlow hhigh => ?_⟩
    · rw [hexec, if_neg (by rw [hrange]; omega), ← hp, ← hcode]
    · have hrate : (code = 1) = (p = .rate) :=
        propext (by rw [hcode, hp]; exact parameterCode_eq_one_iff p)
      rw [hexec, if_pos (hrange.2 ⟨hlow, hhigh⟩), LineEngine.setParameter, hset]
      simp only [hrate]
      rfl

/-- Settles O32: LINE START of a line at rest is `LineEngine.start` and a turn of the arbiters. -/
theorem lineStartDecided : Obligations.LineStartDecided := by
  intro s hlive
  refine ⟨fun h => by rw [exec_lineStart hlive, State.cmdLineStart, State.withLine_commanded_of_high _ _ h],
    fun l hl => ?_⟩
  intro x y v
  refine ⟨fun hbusy => ?_, fun hrest => ?_⟩
  · rw [exec_lineStart hlive, cmdLineStart_of_not_atRest _ hl (LineEngine.not_atRest_iff.2 hbusy)]
  · have hexec := exec_lineStart hlive
    rw [cmdLineStart_of_atRest _ hl (atRest_iff.2 hrest)] at hexec
    refine ⟨fun hlisted => ?_, fun hempty => ?_⟩
    · have hlength : ¬ x.listLength = 0 := mt x.listLength_eq_zero_iff.1 hlisted
      rw [if_neg hlength, LineEngine.start_of_listed hlength] at hexec
      exact ⟨hexec, State.Selected.finish _⟩
    · have hlength : x.listLength = 0 := x.listLength_eq_zero_iff.2 hempty
      rw [if_pos hlength, LineEngine.start_of_empty hlength] at hexec
      exact ⟨hexec, State.Selected.finish _⟩

end Sys2Proof.Machine
end

section
/-! SUPPORT. What stands after the work of a line has been cut short, by LINE HALT, LINE RESET, LINE STOP or a line
fault (R113, R129 to R133): the line, the records, the entries, the causes and the hold list. -/

namespace Sys2Proof.Machine

/-! ### What a unit cut short leaves -/

/-- The records a line writes when its work is cut short: FAULT of a directed unit in progress, and nothing else (R59,
R90). -/
def LineEngine.cutRecords (x : LineEngine) (l : Line) (k : RecordCause) : List Record :=
  match x.current with
  | none => []
  | some c => (faultRecord l x.cycleNumber c.work k).toList

/-- The entry of the station of a unit cut short: out of service, a deferred disable taken (R51, R59). -/
def Entry.released (y : Entry) : Entry :=
  if y.disablePending = true then
    { y with state := .disabled, consecutive := 0, inService := false, disablePending := false }
  else { y with inService := false }

/-- The alert set of a line whose work is cut short: a deferred disable takes its station out (R50). -/
def State.cutAlerts (s : State) (l : Line) : List StationIndex :=
  match (s.line l).target with
  | none => (s.line l).alertSet
  | some i =>
    if (s.entry i).disablePending = true then (s.line l).alertSet.filter (fun j => j ≠ i) else (s.line l).alertSet

/-- Cutting the work of a line short gives words or the head of the hold list back (R110, R113). -/
def State.CutFrees (s : State) (l : Line) (k : RecordCause) : Prop :=
  wordsOf ((s.line l).cutRecords l k) < (s.line l).reservation.getD 0 ∨
    ∃ h, s.queue.holdList.head? = some h ∧ h.line = l

/-- The line with its work cut short and the shifter as the cut leaves it. -/
def State.cutLine (s : State) (l : Line) (k : RecordCause) (sh : Option Shifter) : LineEngine :=
  { s.line l with
    alertSet := s.cutAlerts l,
    directed := if (s.line l).cutRecords l k = [] then (s.line l).directed else (s.line l).directed.tail,
    reservation := none, current := none, chosen := none, phase := .idle .none, shifter := sh }

/-- From s to t the work of line l was cut short, with the cause k in the FAULT record of a directed unit. -/
structure State.Cut (l : Line) (k : RecordCause) (sh : Option Shifter) (s t : State) : Prop where
  line : t.line l = s.cutLine l k sh
  wrote : State.WroteThen l ((s.line l).cutRecords l k) s t
  elsewhere : State.Elsewhere l (s.line l).target s t
  entry : ∀ i, (s.line l).target = some i → t.entry i = (s.entry i).released
  stands : ∀ i, (s.line l).target ≠ some i → (s.entry i).line = l → t.entry i = s.entry i
  done : (s.line l).cutRecords l k ≠ [] → t.Latched (.directedDone l)
  served : s.CutFrees l k → t.HoldListServed
  outside : ∀ h ∈ t.queue.holdList, h.line ≠ l

/-- A cut looks at the entries, the queue and the lines alone, and at no shifter of its line. -/
theorem State.Cut.of_same {l : Line} {k : RecordCause} {sh sh' : Option Shifter} {s s' t : State}
    (hline : s'.line l = { s.line l with shifter := sh' }) (hother : ∀ m, m ≠ l → s'.line m = s.line m)
    (hentry : ∀ i, s'.entry i = s.entry i) (hqueue : s'.queue = s.queue) (h : State.Cut l k sh s' t) :
    State.Cut l k sh s t := by
  obtain ⟨hl, hwrote, helsewhere, hreleased, hstands, hdone, hserved, houtside⟩ := h
  simp only [hline, hentry, State.WroteThen, State.cutLine, State.cutAlerts, State.CutFrees, hqueue]
    at hl hwrote hreleased hstands hdone hserved ⊢
  exact ⟨hl, hwrote, ⟨fun m hm => hother m hm ▸ helsewhere.line m hm,
    fun i hi => hentry i ▸ helsewhere.entry i (hline ▸ hi)⟩, hreleased, hstands, hdone, hserved, houtside⟩

theorem LineEngine.cutRecords_of_idle {x : LineEngine} (l : Line) (k : RecordCause) (h : x.current = none) :
    x.cutRecords l k = [] := by
  simp only [LineEngine.cutRecords, h]

theorem LineEngine.cutRecords_of_current {x : LineEngine} {c : UnitContext} (l : Line) (k : RecordCause)
    (h : x.current = some c) : x.cutRecords l k = (faultRecord l x.cycleNumber c.work k).toList := by
  simp only [LineEngine.cutRecords, h]

theorem State.cutAlerts_of_no_target {s : State} {l : Line} (h : (s.line l).target = none) :
    s.cutAlerts l = (s.line l).alertSet := by
  simp only [State.cutAlerts, h]

theorem State.cutAlerts_of_target {s : State} {l : Line} {i : StationIndex} (h : (s.line l).target = some i) :
    s.cutAlerts l =
      if (s.entry i).disablePending = true then (s.line l).alertSet.filter (fun j => j ≠ i)
      else (s.line l).alertSet := by
  simp only [State.cutAlerts, h]

theorem faultRecord_directed (l : Line) (cycle : Word) (d : DirectedEntry) (k : RecordCause) :
    faultRecord l cycle (.directed d) k = some (.fault l d.station d.group d.tag k cycle) := rfl

theorem directedAfter_eq (l : Line) (cycle : Word) (w : Work) (k : RecordCause) (xs : List DirectedEntry) :
    directedAfter w xs = if (faultRecord l cycle w k).toList = [] then xs else xs.tail := by
  cases w <;> rfl

/-! ### A unit abandoned -/

/-- The ends that abandon a unit, each with the cause it puts into a FAULT record (R59, R131, R133). -/
inductive UnitEnd.Abandons : UnitEnd → RecordCause → Prop where
  | aborted : UnitEnd.Abandons .aborted .aborted
  | lineFault : UnitEnd.Abandons .lineFault .line

section
variable {e : UnitEnd} {k : RecordCause} (he : e.Abandons k)
include he

theorem ownRecord_of_abandons (l : Line) (cycle : Word) (w : Work) :
    ownRecord l cycle w e = faultRecord l cycle w k := by
  cases he <;> rfl

theorem visitOutcome_of_abandons (y : Entry) : visitOutcome y e = ({ y with inService := false }, none) := by
  cases he <;> rfl

theorem alertsAfter_of_abandons (i : StationIndex) (y : Entry) (xs : List StationIndex) :
    alertsAfter i y e xs = xs := by
  cases he <;> rfl

variable {s : State} {l : Line} {c : UnitContext} (hc : (s.line l).current = some c)
include hc

theorem unitRecords_of_abandons : s.unitRecords l c e = (s.line l).cutRecords l k := by
  rw [State.unitRecords, ownRecord_of_abandons he, LineEngine.cutRecords_of_current l k hc]
  cases workStation c.work with
  | none => exact List.append_nil _
  | some i =>
    simp only [changeRecord, visitOutcome_of_abandons he]
    exact List.append_nil _

theorem unitAlerts_of_abandons : s.unitAlerts l c e = s.cutAlerts l := by
  cases hi : workStation c.work with
  | none =>
    rw [unitAlerts_of_none e hi, State.cutAlerts_of_no_target ((LineEngine.target_of_current hc).trans hi)]
  | some i =>
    rw [State.cutAlerts_of_target ((LineEngine.target_of_current hc).trans hi)]
    simp only [State.unitAlerts, hi, alertsAfter_of_abandons he, alertRemove]

omit hc in
/-- The hand-over of a unit that is abandoned touches no entry but that of its station (R59). -/
theorem entry_handedOn_of_abandons {i : StationIndex} (hi : workStation c.work ≠ some i) :
    (s.handedOn l c e).entry i = s.entry i := by
  have hstands (t : State) : t.applyOutcome l c.work e = t := by
    unfold State.applyOutcome
    cases he <;> cases workStation c.work <;> rfl
  rw [State.handedOn, hstands, entry_leaveDirected, entry_leaveService_ne _ _ hi, entry_writeRecord?]

/-- A directed unit that is abandoned leaves DIRECTED DONE pending (R90, Table 5-3). -/
theorem latched_of_abandons (hne : (s.line l).cutRecords l k ≠ []) :
    (s.completeUnit l e).Latched (.directedDone l) := by
  rw [LineEngine.cutRecords_of_current l k hc] at hne
  cases hw : c.work with
  | directed d =>
    have hown : ownRecord l (s.line l).cycleNumber c.work e =
        some (.fault l d.station d.group d.tag k (s.line l).cycleNumber) := by
      rw [ownRecord_of_abandons he, hw, faultRecord_directed]
    exact (evolves_completeUnit_handedOn e hc).keeps_latched (latched_ownRecord hown (List.mem_singleton.2 rfl))
  | _ => exact absurd (by rw [hw]; rfl) hne

variable (hs : s.Coherent) (hu : s.UnitsOwnStations)
include hs hu

theorem line_completeUnit_of_abandons : (s.completeUnit l e).line l = s.cutLine l k (s.line l).shifter := by
  have hchosen : (s.line l).chosen = none :=
    ((coherent_iff s).1 hs l).good.chosen_none (by rw [hc]; rfl)
  rw [line_completeUnit e hs hc hu, unitAlerts_of_abandons he hc, directedAfter_eq l (s.line l).cycleNumber c.work k,
    ← LineEngine.cutRecords_of_current l k hc, State.cutLine, ← hchosen]

theorem entry_completeUnit_of_abandons {i : StationIndex} (hi : workStation c.work = some i) :
    (s.completeUnit l e).entry i = (s.entry i).released := by
  rw [entry_completeUnit e hs hc hu hi, entry_handedOn e hi (unit_station hc hu i hi).2, visitOutcome_of_abandons he]
  rfl

/-- A unit in progress that is abandoned (R38, R59). -/
theorem State.Cut.completeUnit : State.Cut l k (s.line l).shifter s (s.completeUnit l e) := by
  have hg := (coherent_iff s).1 hs l
  have hno : ∀ h ∈ s.queue.holdList, h.line ≠ l := LineCoherent_no_entry hg (hg.good.chosen_none (by rw [hc]; rfl))
  have htarget : (s.line l).target = workStation c.work := LineEngine.target_of_current hc
  have hrecords := unitRecords_of_abandons he hc
  obtain ⟨-, -, hheld, hkept⟩ := completeUnit_lines e hs hc
  refine ⟨line_completeUnit_of_abandons he hc hs hu, hrecords ▸ wroteThen_completeUnit e hs hc hu,
    ?_, fun i hi => ?_, fun i hi hl => ?_, latched_of_abandons he hc, fun hfrees => ?_,
    fun h hh hl => ?_⟩
  · rw [htarget]
    exact State.Elsewhere.completeUnit e hc fun i hi => (unit_station hc hu i hi).1
  · exact entry_completeUnit_of_abandons he hc hs hu (htarget.symm.trans hi)
  · have hhanded := entry_handedOn_of_abandons (s := s) (l := l) he (htarget ▸ hi)
    rw [hkept i (by rw [hhanded, hl]), hhanded]
  · rcases hfrees with hwords | ⟨h, hhead, hl⟩
    · exact holdListServed_completeUnit e hs hc hu (hrecords ▸ hwords)
    · exact absurd hl (hno h (List.mem_of_head? hhead))
  · have hmem := mem_heldOf.2 ⟨hh, hl⟩
    rw [hheld] at hmem
    exact List.not_mem_nil hmem

end

/-! ### A pending unit discarded, and nothing to cut -/

/-- Without the entry of one line, the hold list has the entry of the other line at most. -/
theorem length_leaveHoldList {s : State} (l : Line) (hs : s.Coherent) :
    (s.leaveHoldList l).queue.holdList.length ≤ 1 := by
  have hother : (s.leaveHoldList l).queue.holdList = s.heldOf (otherLine l) := by
    show s.queue.holdList.filter _ = s.queue.holdList.filter _
    congr 1
    funext h
    cases h.line <;> cases l <;> rfl
  rw [hother, ((coherent_iff s).1 hs _).held]
  cases (s.line (otherLine l)).chosen with
  | none => exact Nat.zero_le _
  | some w => exact Nat.le_refl _

theorem discardPending_wrote (s : State) (l : Line) : State.WroteThen l [] s (s.discardPending l) := by
  have hbase : State.WroteThen l [] s
      (((s.leaveHoldList l).dropReservation l).modLine l LineEngine.clearChosen) :=
    State.WroteThen.same (by rw [State.queue_modLine, State.queue_dropReservation]; rfl)
  unfold State.discardPending
  dsimp only
  split
  · refine hbase.trans (serve_wrote ?_)
    rw [State.queue_modLine, State.queue_dropReservation]
    exact no_entry_leaveHoldList s l
  · exact hbase

theorem discardPending_stands (s : State) {l : Line} {i : StationIndex} (hi : (s.entry i).line = l) :
    (s.discardPending l).entry i = s.entry i := by
  have hbase : (((s.leaveHoldList l).dropReservation l).modLine l LineEngine.clearChosen).entry i = s.entry i := by
    rw [State.entry_modLine, State.dropReservation, State.entry_modLine]
    rfl
  have hno : ∀ h ∈ (((s.leaveHoldList l).dropReservation l).modLine l LineEngine.clearChosen).queue.holdList,
      h.line ≠ l := by
    rw [State.queue_modLine, State.queue_dropReservation]
    exact no_entry_leaveHoldList s l
  unfold State.discardPending
  dsimp only
  split
  · rw [(serve_untouched hno).2.1 i (by rw [hbase, hi]), hbase]
  · exact hbase

/-- The discard of the head of the hold list serves it (R113). -/
theorem discardPending_served {s : State} {l : Line} (hs : s.Coherent)
    (h : ∃ e, s.queue.holdList.head? = some e ∧ e.line = l) :
    (s.discardPending l).HoldListServed := by
  obtain ⟨e, hhead, hl⟩ := h
  have hheads : s.headsHoldList l = true := by
    unfold State.headsHoldList
    cases hq : s.queue.holdList with
    | nil =>
      rw [hq] at hhead
      cases hhead
    | cons g rest =>
      rw [hq] at hhead
      obtain rfl := Option.some.inj hhead
      exact decide_eq_true hl
  rw [State.discardPending, if_pos hheads]
  refine holdListServed_serve ?_
  rw [State.queue_modLine, State.queue_dropReservation]
  exact length_leaveHoldList l hs

section
variable {s : State} {l : Line} (hs : s.Coherent) (hc : (s.line l).current = none)
include hs hc

/-- What cutting short leaves of a line without a unit in progress. -/
theorem cutLine_of_idle (k : RecordCause) : s.cutLine l k (s.line l).shifter =
    { s.line l with reservation := none, chosen := none } := by
  have hphase : (s.line l).phase = .idle .none := (good_of_coherent hs l).engine.phase hc
  rw [State.cutLine, LineEngine.cutRecords_of_idle l k hc, if_pos rfl,
    State.cutAlerts_of_no_target (LineEngine.target_of_idle hc), ← hphase, ← hc]

/-- Without a unit in progress no words are held, so the hold list is served for the head alone (R113). -/
theorem head_of_cutFrees {k : RecordCause} (h : s.CutFrees l k) :
    ∃ e, s.queue.holdList.head? = some e ∧ e.line = l := by
  rcases h with h | h
  · rw [(good_of_coherent hs l).reservation_none hc] at h
    exact absurd h (Nat.not_lt_zero _)
  · exact h

/-- A pending unit discarded (R113). -/
theorem State.Cut.discardPending (k : RecordCause) (hp : (s.line l).chosen.isSome = true) :
    State.Cut l k (s.line l).shifter s (s.discardPending l) := by
  have hrun := runState_of_chosen (good_of_coherent hs l) hp
  obtain ⟨hcoherent, hline⟩ := discardPending_coherent hs hc hrun
  have htarget := LineEngine.target_of_idle hc
  have hrecords := LineEngine.cutRecords_of_idle l k hc
  refine ⟨hline.trans (cutLine_of_idle hs hc k).symm, hrecords ▸ discardPending_wrote s l,
    State.Elsewhere.discardPending l _ s, fun i hi => ?_, fun i _ hi => discardPending_stands s hi, fun hne => ?_,
    fun hfrees => discardPending_served hs (head_of_cutFrees hs hc hfrees), ?_⟩
  · rw [htarget] at hi
    cases hi
  · exact absurd hrecords hne
  · exact LineCoherent_no_entry ((coherent_iff _).1 hcoherent l) (by rw [hline])

/-- A line without work is left as it stands. -/
theorem State.Cut.nothing (k : RecordCause) (hp : (s.line l).chosen = none) : State.Cut l k (s.line l).shifter s s := by
  have hno := LineCoherent_no_entry ((coherent_iff s).1 hs l) hp
  have hreservation := (good_of_coherent hs l).reservation_none hc
  have htarget := LineEngine.target_of_idle hc
  have hrecords := LineEngine.cutRecords_of_idle l k hc
  refine ⟨?_, hrecords ▸ State.WroteThen.refl l s, State.Elsewhere.refl l _ s, fun i hi => ?_,
    fun _ _ _ => rfl, fun hne => absurd hrecords hne, fun hfrees => ?_, hno⟩
  · rw [cutLine_of_idle hs hc, ← hreservation, ← hp]
  · rw [htarget] at hi
    cases hi
  · obtain ⟨e, hhead, hl⟩ := head_of_cutFrees hs hc hfrees
    exact absurd hl (hno e (List.mem_of_head? hhead))

end

end Sys2Proof.Machine
end

section
/-! SUPPORT. A line fault after its unit is abandoned (R133). -/

namespace Sys2Proof.Machine

/-- A pending swap that is taken exchanges the banks, and only that does (R68). -/
theorem swapped_active_eq_iff (pending : Bool) (b : BankNumber) :
    (if pending = true then otherBank b else b) = b ↔ pending = false := by
  cases pending <;> cases b <;> decide

/-- Released is the entry with a deferred disable taken. -/
theorem Entry.released_eq (y : Entry) : y.released = if y.disablePending = true then
    { y with state := .disabled, consecutive := 0, inService := false, disablePending := false }
    else { y with inService := false } := rfl

/-- No deferred disable, no change of the alert set. -/
theorem State.cutAlerts_of_not_pending {s : State} {l : Line}
    (h : ∀ i, (s.line l).target = some i → (s.entry i).disablePending = false) :
    s.cutAlerts l = (s.line l).alertSet := by
  cases hi : (s.line l).target with
  | none => exact State.cutAlerts_of_no_target hi
  | some i => rw [State.cutAlerts_of_target hi, if_neg (by rw [h i hi]; exact Bool.false_ne_true)]

/-- The line enters FAULTED, its unit being over (R133 steps 2 to 4). -/
def State.enterFaulted (s : State) (l : Line) (cause : FaultCause) : State :=
  ((s.modLine l (fun x => { x with faultCause := cause, runState := .faulted, condition := .none })).applyPendingSwap
    l).raise (.lineFault l)

theorem faultLine_eq (s : State) (l : Line) (cause : FaultCause) :
    s.faultLine l cause = (s.completeUnit l .lineFault).enterFaulted l cause := rfl

section
variable (s : State) (l : Line) (cause : FaultCause)

theorem line_enterFaulted : (s.enterFaulted l cause).line l =
    { s.line l with
      faultCause := cause, runState := .faulted, condition := .none,
      active := if (s.line l).swapPending = true then otherBank (s.line l).active else (s.line l).active,
      swapPending := false } := by
  rw [State.enterFaulted, State.applyPendingSwap, State.line_raise, State.line_modLine, State.line_modLine,
    LineEngine.takeSwap_eq]

theorem queue_enterFaulted : (s.enterFaulted l cause).queue = s.queue := by
  simp [State.enterFaulted]

theorem entry_enterFaulted (i : StationIndex) : (s.enterFaulted l cause).entry i = s.entry i := by
  simp [State.enterFaulted]

theorem latched_enterFaulted : (s.enterFaulted l cause).Latched (.lineFault l) :=
  latched_raise _ _

theorem State.SameStore.enterFaulted : s.SameStore (s.enterFaulted l cause) :=
  (State.SameStore.modLine s l _ rfl).trans
    ((State.SameStore.applyPendingSwap _ l).trans (State.SameStore.raise _ _))

theorem State.Evolves.enterFaulted : s.Evolves (s.enterFaulted l cause) := by
  refine State.Evolves.trans ?_ (State.Evolves.raise _ _)
  refine State.Evolves.trans ?_ (State.Evolves.applyPendingSwap _ l)
  exact State.Evolves.modLine_keep s l _ fun _ => ⟨rfl, rfl, rfl, rfl, rfl, rfl⟩

theorem State.Elsewhere.enterFaulted (target : Option StationIndex) :
    State.Elsewhere l target s (s.enterFaulted l cause) :=
  ((State.Elsewhere.modLine l target s _).trans ((State.Selected.applyPendingSwap _ l).elsewhere l target)).trans
    ((State.Selected.raise _ _).elsewhere l target)

end

end Sys2Proof.Machine
end

section
/-! PROOFS. The line fault. -/

namespace Sys2Proof.Machine

/-- Settles O43: the unit is cut short (`State.Cut.completeUnit`), and the entry into FAULTED, which follows it, touches
nothing but the line. -/
theorem lineFaultActs : Obligations.LineFaultActs := by
  intro s l c cause hs hu hc _ x t
  have hcut := State.Cut.completeUnit .lineFault hc hs hu
  have htarget : x.target = workStation c.work := LineEngine.target_of_current hc
  have ht : t = (s.completeUnit l .lineFault).enterFaulted l cause := faultLine_eq s l cause
  have hline := line_enterFaulted (s.completeUnit l .lineFault) l cause
  rw [← ht, hcut.line] at hline
  have hvt : (s.completeUnit l .lineFault).Evolves t := State.Evolves.enterFaulted _ l cause
  have hentry (i : StationIndex) : t.entry i = (s.completeUnit l .lineFault).entry i := entry_enterFaulted _ l cause i
  have hwrote : State.WroteThen l (x.cutRecords l .line) s t :=
    hcut.wrote.trans (State.WroteThen.same (congrArg ReplyQueue.records (queue_enterFaulted _ l cause)))
  have helsewhere : State.Elsewhere l x.target s t :=
    hcut.elsewhere.trans (State.Elsewhere.enterFaulted _ l cause _)
  have hserved (h : wordsOf (x.cutRecords l .line) < x.reservation.getD 0) : t.HoldListServed :=
    HoldListServed_of_same (hcut.served (Or.inl h)) (State.SameStore.enterFaulted _ l cause)
  have hrecords : x.cutRecords l .line = (faultRecord l x.cycleNumber c.work .line).toList :=
    LineEngine.cutRecords_of_current l .line hc
  refine ⟨State.Evolves.faultLine s l cause, by rw [hline], by rw [hline], by rw [hline], by rw [hline]; rfl,
    by rw [hline]; rfl, by rw [hline]; rfl, by rw [hline], ?_, by rw [hline]; rfl, by rw [hline]; rfl,
    by rw [hline]; rfl, isPending_of_latched (latched_enterFaulted _ l cause), fun d hd => ?_, fun hnot => ?_,
    fun hnone => ?_, helsewhere.line, fun i hi => ?_, fun i hi => ?_⟩
  · rw [hline]
    exact swapped_active_eq_iff x.swapPending x.active
  · rw [hd, faultRecord_directed, Option.toList_some] at hrecords
    have hne : x.cutRecords l .line ≠ [] := hrecords ▸ List.cons_ne_nil _ _
    refine ⟨hrecords ▸ hwrote, isPending_of_latched (hvt.keeps_latched (hcut.done hne)), ?_, fun h => hserved ?_⟩
    · rw [hline]
      exact if_neg hne
    · rw [hrecords]
      exact h
  · have hnil : x.cutRecords l .line = [] := by
      cases hw : c.work with
      | directed d => exact absurd hw (hnot d)
      | _ => rw [hrecords, hw]; rfl
    refine ⟨hnil ▸ hwrote, ?_, fun h => hserved ?_⟩
    · rw [hline]
      exact if_pos hnil
    · rw [hnil]
      exact h
  · rw [hline]
    exact State.cutAlerts_of_not_pending fun i hi => hnone i (htarget.symm.trans hi)
  · exact helsewhere.entry i (htarget.symm ▸ hi)
  · rw [hentry, hcut.entry i (htarget.trans hi), Entry.released_eq]

end Sys2Proof.Machine
end

section
/-! SUPPORT. The work of a line cut short by LINE HALT, LINE RESET or LINE STOP, and the line that then comes to rest
while the arbiters take their turn (R129 to R132, R136). -/

namespace Sys2Proof.Machine

/-! ### The work cut short -/

/-- The shifter of a line whose work is cut short: a character goes on, one in the bit time of DE lead leaves (R131, log
entry 23). -/
def LineEngine.cutShifter (x : LineEngine) : Option Shifter :=
  if x.current.isSome = true then x.endLead.shifter else x.shifter

/-- The shifter as the statements spell it out. -/
theorem LineEngine.cutShifter_eq (x : LineEngine) : x.cutShifter =
    match x.shifter with
    | none => none
    | some r => if x.current.isSome = true ∧ r.lead = true ∧ r.elapsed < r.bitPeriods then none else some r := by
  cases hr : x.shifter with
  | none => simp [LineEngine.cutShifter, LineEngine.endLead, hr]
  | some r =>
    have hlead : r.inLead = true ↔ r.lead = true ∧ r.elapsed < r.bitPeriods := by simp [Shifter.inLead]
    simp only [LineEngine.cutShifter, LineEngine.endLead, hr, ← hlead]
    by_cases hc : x.current.isSome = true
    · by_cases hin : r.inLead = true <;> simp [hc, hin]
    · simp [hc]

/-- The records of a cut by the host as the statements spell them out. -/
theorem LineEngine.cutRecords_aborted (x : LineEngine) (l : Line) : x.cutRecords l .aborted =
    match x.current with
    | none => []
    | some c =>
      match c.work with
      | .directed e => [.fault l e.station e.group e.tag .aborted x.cycleNumber]
      | .visit _ _ _ _ => []
      | .alert _ => []
      | .mark _ _ => [] := by
  rw [LineEngine.cutRecords]
  cases x.current with
  | none => rfl
  | some c =>
    obtain ⟨w⟩ := c
    cases w <;> rfl

theorem LineEngine.cutShifter_of_idle {x : LineEngine} (h : x.current = none) : x.cutShifter = x.shifter :=
  if_neg (by rw [h]; exact Bool.false_ne_true)

/-- A line without a unit in progress has its pending unit discarded, if it has one (R131 step 2). -/
theorem State.Cut.cutShort_of_idle {s : State} {l : Line} (hs : s.Coherent) (hc : (s.line l).current = none) :
    State.Cut l .aborted (s.line l).shifter s (s.cutShort l) := by
  rw [State.cutShort, if_neg (by rw [hc]; exact Bool.false_ne_true)]
  split
  · next hp => exact State.Cut.discardPending hs hc _ hp
  · next hp => exact State.Cut.nothing hs hc _ (Option.not_isSome_iff_eq_none.1 hp)

theorem unitsOwnStations_endLead {s : State} (l : Line) (hu : s.UnitsOwnStations) :
    (s.modLine l LineEngine.endLead).UnitsOwnStations := by
  intro m c i hc
  have hcurrent : ((s.modLine l LineEngine.endLead).line m).current = (s.line m).current := by
    by_cases hm : m = l
    · rw [hm, current_endLead]
    · rw [State.line_modLine_ne s _ hm]
  rw [State.entry_modLine]
  exact hu m c i (hcurrent.symm.trans hc)

/-- Whatever the line was doing, `cutShort` cuts it short (R131 steps 1 and 2, R132 step 1). -/
theorem State.Cut.cutShort {s : State} (l : Line) (hs : s.Coherent) (hu : s.UnitsOwnStations) :
    State.Cut l .aborted (s.line l).cutShifter s (s.cutShort l) := by
  cases hc : (s.line l).current with
  | some c =>
    have hsome : (s.line l).current.isSome = true := by rw [hc]; rfl
    have hlead : ((s.modLine l LineEngine.endLead).line l).shifter = (s.line l).cutShifter := by
      rw [State.line_modLine, LineEngine.cutShifter, if_pos hsome]
    rw [State.cutShort, if_pos hsome, ← hlead]
    have hcut := State.Cut.completeUnit .aborted ((current_endLead s l).trans hc) (coherent_endLead l hs)
      (unitsOwnStations_endLead l hu)
    exact hcut.of_same (State.line_modLine s l _) (fun m hm => State.line_modLine_ne s _ hm)
      (State.entry_modLine s l _) (State.queue_modLine s l _)
  | none =>
    rw [LineEngine.cutShifter_of_idle hc]
    exact State.Cut.cutShort_of_idle hs hc

/-! ### The line at rest -/

/-- The line enters STOPPED and the arbiters take their turn (R136). -/
def State.comeToRest (v : State) (l : Line) : State :=
  (v.enterStopped l).finish

section
variable (v : State) (l : Line)

theorem line_comeToRest : (v.comeToRest l).line l = { v.line l with
    runState := .stopped, condition := .none,
    active := if (v.line l).swapPending = true then otherBank (v.line l).active else (v.line l).active,
    swapPending := false } := by
  rw [State.comeToRest, (finish_enterStopped v l).1, enterStopped_eq, State.line_setLine]

theorem entry_comeToRest {i : StationIndex} (hi : (v.entry i).line = l) : (v.comeToRest l).entry i = v.entry i :=
  (finish_enterStopped v l).2 i hi

theorem free_enterStopped : ((v.enterStopped l).line l).free = false := by
  simp [LineEngine.free, (line_enterStopped_fields v l).1]

theorem comeToRest_wrote : State.WroteThen l [] v (v.comeToRest l) :=
  (enterStopped_wrote v l l).trans (finish_wrote (free_enterStopped v l))

theorem latched_comeToRest : (v.comeToRest l).Latched (.lineStopped l) :=
  (State.Evolves.finish _).keeps_latched (latched_enterStopped v l)

theorem State.Evolves.comeToRest : v.Evolves (v.comeToRest l) :=
  (State.Evolves.enterStopped v l).trans (State.Evolves.finish _)

theorem State.Elsewhere.comeToRest (target : Option StationIndex) : State.Elsewhere l target v (v.comeToRest l) :=
  (State.Elsewhere.enterStopped l target v).trans ((State.Selected.finish _).elsewhere l target)

theorem holdListServed_comeToRest (h : v.HoldListServed) : (v.comeToRest l).HoldListServed :=
  holdListServed_finish (HoldListServed_of_same h (State.SameStore.enterStopped v l))

theorem isHeld_comeToRest (h : ∀ e ∈ v.queue.holdList, e.line ≠ l) : (v.comeToRest l).isHeld l = false := by
  obtain ⟨-, -, hno⟩ := finish_untouched (free_enterStopped v l)
  rw [queue_enterStopped] at hno
  refine Bool.eq_false_iff.2 fun hheld => ?_
  obtain ⟨e, he, hl⟩ := State.isHeld_iff.1 hheld
  exact hno h e he hl

/-- Coming to rest changes the command slot no more than what went before it. -/
theorem reply_comeToRest {code : Word} (h : v.window.command = code) (r : Result) (n : Nat) :
    (v.comeToRest l).reply r n = (v.comeToRest l).decided code r n :=
  reply_eq_decided r n (by rw [(State.Evolves.comeToRest v l).window, h])

end

/-! ### The line at rest with its work cut short -/

/-- The records of the line that comes to rest are those of the cut. -/
theorem State.Cut.wrote_comeToRest {l : Line} {k : RecordCause} {sh : Option Shifter} {s v : State}
    (h : State.Cut l k sh s v) : State.WroteThen l ((s.line l).cutRecords l k) s (v.comeToRest l) :=
  h.wrote.trans (comeToRest_wrote v l)

theorem State.Cut.elsewhere_comeToRest {l : Line} {k : RecordCause} {sh : Option Shifter} {s v : State}
    (h : State.Cut l k sh s v) : State.Elsewhere l (s.line l).target s (v.comeToRest l) :=
  h.elsewhere.trans (State.Elsewhere.comeToRest v l _)

/-- The line at rest, field by field. -/
theorem State.Cut.line_of_comeToRest {l : Line} {k : RecordCause} {sh : Option Shifter} {s v : State}
    (h : State.Cut l k sh s v) : (v.comeToRest l).line l = { s.cutLine l k sh with
      runState := .stopped, condition := .none,
      active := if (s.line l).swapPending = true then otherBank (s.line l).active else (s.line l).active,
      swapPending := false } := by
  rw [line_comeToRest, h.line]
  rfl

theorem Entry.released_line (y : Entry) : y.released.line = y.line := by
  unfold Entry.released
  split <;> rfl

/-- The station of the unit that was cut short stands as the cut released it. -/
theorem State.Cut.entry_of_comeToRest {l : Line} {k : RecordCause} {sh : Option Shifter} {s v : State}
    (h : State.Cut l k sh s v) {i : StationIndex} (ht : (s.line l).target = some i) (hi : (s.entry i).line = l) :
    (v.comeToRest l).entry i = (s.entry i).released := by
  rw [entry_comeToRest v l (by rw [h.entry i ht, Entry.released_line, hi]), h.entry i ht]

/-- The station a line's unit targets is one of its own. -/
theorem line_of_target {s : State} {l : Line} {i : StationIndex} (hu : s.UnitsOwnStations)
    (ht : (s.line l).target = some i) : (s.entry i).line = l := by
  obtain ⟨c, hc, hi⟩ := Option.bind_eq_some_iff.1 ht
  exact (hu l c i hc hi).1

/-! ### The commands -/

theorem coherent_commanded {s : State} (code : Word) (hs : s.Coherent) : (s.commanded code).Coherent :=
  coherent_of_same hs (line_commanded s code) rfl

theorem unitsOwnStations_commanded {s : State} (code : Word) (hu : s.UnitsOwnStations) :
    (s.commanded code).UnitsOwnStations := by
  intro m c i hc
  rw [line_commanded] at hc
  exact hu m c i hc

/-- The code in COMMAND changes nothing a cut looks at. -/
theorem State.Cut.of_commanded {l : Line} {k : RecordCause} {sh : Option Shifter} {s t : State} {code : Word}
    (h : State.Cut l k sh (s.commanded code) t) : State.Cut l k sh s t :=
  h.of_same (line_commanded s code l) (fun m _ => line_commanded s code m) (fun _ => rfl) rfl

section
variable {s : State} {l : Line} (code : Word) (hl : s.window.param0.toNat = match l with | .a => 0 | .b => 1)
include hl

theorem cmdLineStop_refused (h : (s.line l).runState = .stopped ∨ (s.line l).runState = .faulted) :
    (s.commanded code).cmdLineStop = s.decided code .state (runStateCode (s.line l).runState) := by
  rw [State.cmdLineStop, State.withLine_commanded _ _ hl, line_commanded]
  rcases h with h | h <;> simp only [h, State.refuseRunState_commanded]

theorem cmdLineStop_of_stopping (h : (s.line l).runState = .stopping) :
    (s.commanded code).cmdLineStop = s.decided code .accepted 2 := by
  rw [State.cmdLineStop, State.withLine_commanded _ _ hl, line_commanded]
  simp only [h, State.reply_commanded]

theorem cmdLineStop_of_current (h : (s.line l).runState = .running) (hc : (s.line l).current.isSome = true) :
    (s.commanded code).cmdLineStop =
      (s.setLine l { s.line l with runState := .stopping, condition := .none }).decided code .accepted 1 := by
  rw [State.cmdLineStop, State.withLine_commanded _ _ hl, line_commanded]
  simp only [h, State.stopRunning, line_commanded, if_pos hc, State.modLine_eq_setLine]
  cases l <;> rfl

/-- LINE STOP of a RUNNING line without a unit cuts its pending unit short (R129). -/
theorem cmdLineStop_of_no_current (h : (s.line l).runState = .running) (hc : (s.line l).current = none) :
    (s.commanded code).cmdLineStop =
      (((s.commanded code).cutShort l).comeToRest l).decided code .accepted 0 := by
  have hnot : ¬ ((s.commanded code).line l).current.isSome = true := by
    rw [line_commanded, hc]
    exact Bool.false_ne_true
  have hcode := congrArg Window.command (State.Evolves.cutShort (s.commanded code) l).window
  rw [← reply_comeToRest _ l (code := code) hcode, State.cmdLineStop, State.withLine_commanded _ _ hl, line_commanded]
  simp only [h, State.stopRunning, if_neg hnot, State.cutShort, State.comeToRest]
  split <;> rfl

theorem cmdLineHalt_of_atRest (h : (s.line l).atRest = true) :
    (s.commanded code).cmdLineHalt = s.decided code .accepted 2 := by
  rw [State.cmdLineHalt, State.withLine_commanded _ _ hl, line_commanded, if_pos h, State.reply_commanded]

/-- LINE HALT of a RUNNING or STOPPING line (R131). -/
theorem cmdLineHalt_of_not_atRest (h : ¬ (s.line l).atRest = true) : (s.commanded code).cmdLineHalt =
    (((s.commanded code).cutShort l).comeToRest l).decided code .accepted 0 := by
  rw [State.cmdLineHalt, State.withLine_commanded _ _ hl, line_commanded, if_neg h]
  exact reply_comeToRest _ _ (congrArg Window.command (State.Evolves.cutShort (s.commanded code) l).window) _ _

end

end Sys2Proof.Machine
end

section
/-! PROOFS. LINE STOP and LINE HALT in READY. -/

namespace Sys2Proof.Machine

/-- Settles O33: LINE STOP of a line without a unit in progress cuts its pending unit short (`State.Cut`). -/
theorem lineStopDecided : Obligations.LineStopDecided := by
  intro s hlive
  refine ⟨fun h => by rw [exec_lineStop hlive, State.cmdLineStop, State.withLine_commanded_of_high _ _ h],
    fun l hl => ?_⟩
  intro x
  refine ⟨fun h => by rw [exec_lineStop hlive, cmdLineStop_refused _ hl h],
    fun h => by rw [exec_lineStop hlive, cmdLineStop_of_stopping _ hl h],
    fun h hc => by rw [exec_lineStop hlive, cmdLineStop_of_current _ hl h hc], fun h hc hs => ?_⟩
  have hexec := exec_lineStop hlive
  rw [cmdLineStop_of_no_current _ hl h hc] at hexec
  have hidle : ((s.commanded 0x0042).line l).current = none := by rw [line_commanded, hc]
  have hcommanded := State.Cut.cutShort_of_idle (coherent_commanded 0x0042 hs) hidle
  rw [line_commanded] at hcommanded
  have hcut := hcommanded.of_commanded
  have htarget : (s.line l).target = none := LineEngine.target_of_idle hc
  have hrecords : (s.line l).cutRecords l .aborted = [] := LineEngine.cutRecords_of_idle l _ hc
  have helsewhere := hcut.elsewhere_comeToRest
  refine ⟨_, hexec, (State.Evolves.cutShort _ l).trans (State.Evolves.comeToRest _ l), ?_,
    isHeld_comeToRest _ l hcut.outside, isPending_of_latched (latched_comeToRest _ l), ?_, fun hhead => ?_,
    helsewhere.line, fun i => helsewhere.entry i ?_⟩
  · rw [hcut.line_of_comeToRest, cutLine_of_idle hs hc]
  · rw [← hrecords]
    exact hcut.wrote_comeToRest
  · exact holdListServed_comeToRest _ l (hcut.served (Or.inr hhead))
  · rw [htarget]
    exact nofun

/-- Settles O34: LINE HALT of a line not at rest is the cut of its work (`State.Cut.cutShort`) and its coming to
rest. -/
theorem lineHaltDecided : Obligations.LineHaltDecided := by
  intro s hlive hs hu
  refine ⟨fun h => by rw [exec_lineHalt hlive, State.cmdLineHalt, State.withLine_commanded_of_high _ _ h],
    fun l hl => ?_⟩
  intro x target own carried frees
  refine ⟨fun h => by rw [exec_lineHalt hlive, cmdLineHalt_of_atRest _ hl (atRest_iff.2 h)], fun h => ?_⟩
  have hexec := exec_lineHalt hlive
  rw [cmdLineHalt_of_not_atRest _ hl (LineEngine.not_atRest_iff.2 h)] at hexec
  have hcommanded := State.Cut.cutShort l (coherent_commanded 0x0043 hs) (unitsOwnStations_commanded 0x0043 hu)
  rw [line_commanded] at hcommanded
  have hcut := hcommanded.of_commanded
  have hown : (s.line l).cutRecords l .aborted = own := x.cutRecords_aborted l
  have hcarried : x.cutShifter = carried := x.cutShifter_eq
  have helsewhere := hcut.elsewhere_comeToRest
  have hline := hcut.line_of_comeToRest
  rw [hcarried] at hline
  have hdone := State.Cut.done hcut
  have hserved := State.Cut.served hcut
  have hwrote := hcut.wrote_comeToRest
  rw [State.CutFrees] at hserved
  rw [hown] at hdone hserved hwrote
  refine ⟨_, hexec, (State.Evolves.cutShort _ l).trans (State.Evolves.comeToRest _ l), by rw [hline], by rw [hline],
    by rw [hline]; rfl, by rw [hline]; rfl, by rw [hline]; rfl, by rw [hline]; rfl,
    isHeld_comeToRest _ l hcut.outside, by rw [hline], isPending_of_latched (latched_comeToRest _ l), ?_,
    by rw [hline]; rfl, by rw [hline]; rfl, by rw [hline]; rfl, by rw [hline]; rfl, by rw [hline]; rfl,
    by rw [hline]; rfl, hwrote, helsewhere.line, helsewhere.entry,
    fun hne => isPending_of_latched ((State.Evolves.comeToRest _ l).keeps_latched (hdone hne)),
    fun hfrees => holdListServed_comeToRest _ l (hserved hfrees), ?_, fun hnone => ?_, fun i hi => ⟨?_, ?_⟩⟩
  · rw [hline]
    exact swapped_active_eq_iff x.swapPending x.active
  · rw [hline, State.cutLine, hown]
  · rw [hline]
    exact State.cutAlerts_of_no_target hnone
  · rw [hline]
    exact State.cutAlerts_of_target hi
  · rw [hcut.entry_of_comeToRest hi (line_of_target hu hi), Entry.released_eq]

end Sys2Proof.Machine
end

section
/-! SUPPORT. LINE RESET after the work of its line is cut short: the line and its stations cleared (R132 steps 2 to
5). -/

namespace Sys2Proof.Machine

/-- Steps 2 to 5 of LINE RESET: the queue, the alert set and the counters of the line, and its stations (R132). -/
def State.clearLine (v : State) (l : Line) : State :=
  (v.modLine l LineEngine.resetCounters).resetStations l

theorem Entry.resetOnLine_of_line {y : Entry} {l : Line} (h : y.line = l) : y.resetOnLine l =
    if isWorking y.state = true then { y with state := .unknown, consecutive := 0 } else y := by
  simp only [Entry.resetOnLine, h, true_and]

theorem Entry.resetOnLine_of_other {y : Entry} {l : Line} (h : y.line ≠ l) : y.resetOnLine l = y :=
  if_neg fun hl => h hl.1

theorem Entry.SameConfiguration.resetOnLine (y : Entry) (l : Line) : y.SameConfiguration (y.resetOnLine l) := by
  unfold Entry.resetOnLine
  split <;> exact ⟨rfl, rfl, rfl, rfl, rfl⟩

section
variable (v : State) (l : Line)

theorem line_clearLine : (v.clearLine l).line l = (v.line l).resetCounters := by
  rw [State.clearLine, line_resetStations, State.line_modLine]

theorem line_clearLine_ne {m : Line} (h : m ≠ l) : (v.clearLine l).line m = v.line m := by
  rw [State.clearLine, line_resetStations, State.line_modLine_ne _ _ h]

theorem entry_clearLine (i : StationIndex) : (v.clearLine l).entry i = (v.entry i).resetOnLine l := by
  rw [State.clearLine, State.entry_resetStations, State.entry_modLine]

theorem queue_clearLine : (v.clearLine l).queue = v.queue :=
  State.queue_modLine v l _

theorem State.SameStore.clearLine : v.SameStore (v.clearLine l) :=
  (State.SameStore.modLine v l _ rfl).trans (State.SameStore.resetStations _ l)

theorem State.Evolves.resetStations : v.Evolves (v.resetStations l) := by
  refine ⟨rfl, rfl, rfl, BitVec.and_self, rfl, rfl, List.prefix_rfl, fun _ => rfl, fun m => ?_, fun i => ?_⟩
  · rw [line_resetStations]
    exact LineEngine.Evolves.refl _
  · rw [State.entry_resetStations]
    exact Entry.SameConfiguration.resetOnLine _ l

/-- The clearing of a line keeps what its events keep: configurations, parameters, lists, and what the host sees. -/
theorem State.Evolves.clearLine : v.Evolves (v.clearLine l) := by
  refine State.Evolves.trans ?_ (State.Evolves.resetStations _ l)
  exact State.Evolves.modLine v l _ fun x => ⟨rfl, rfl, rfl, rfl, id, List.nil_suffix⟩

theorem State.Evolves.clearLine_comeToRest : v.Evolves ((v.clearLine l).comeToRest l) :=
  (State.Evolves.clearLine v l).trans (State.Evolves.comeToRest _ l)

end

section
variable {s v : State} {l : Line} {k : RecordCause} {sh : Option Shifter} (h : State.Cut l k sh s v)
include h

/-- The line after LINE RESET, field by field. -/
theorem State.Cut.line_clearLine_comeToRest : ((v.clearLine l).comeToRest l).line l =
    { (s.cutLine l k sh).resetCounters with
      runState := .stopped, condition := .none,
      active := if (s.line l).swapPending = true then otherBank (s.line l).active else (s.line l).active,
      swapPending := false } := by
  rw [line_comeToRest, line_clearLine, h.line]
  rfl

theorem State.Cut.wrote_clearLine_comeToRest :
    State.WroteThen l ((s.line l).cutRecords l k) s ((v.clearLine l).comeToRest l) :=
  (h.wrote.trans (State.WroteThen.same (congrArg ReplyQueue.records (queue_clearLine v l)))).trans
    (comeToRest_wrote _ l)

theorem State.Cut.served_clearLine_comeToRest (hfrees : s.CutFrees l k) :
    ((v.clearLine l).comeToRest l).HoldListServed :=
  holdListServed_comeToRest _ l (HoldListServed_of_same (h.served hfrees) (State.SameStore.clearLine v l))

theorem State.Cut.isHeld_clearLine_comeToRest : ((v.clearLine l).comeToRest l).isHeld l = false :=
  isHeld_comeToRest _ l (by rw [queue_clearLine]; exact h.outside)

/-- The other line, served while this one is reset. -/
theorem State.Cut.other_clearLine_comeToRest {m : Line} (hm : m ≠ l) :
    (s.line m).Selected (((v.clearLine l).comeToRest l).line m) := by
  have hrest := (State.Elsewhere.comeToRest (v.clearLine l) l none).line m hm
  rw [line_clearLine_ne v l hm] at hrest
  exact (h.elsewhere.line m hm).trans hrest

/-- An entry of the line, released if its unit was cut short, is then cleared (R62, R132 step 4). -/
theorem State.Cut.entry_clearLine_comeToRest {i : StationIndex} (hi : (s.entry i).line = l) :
    ((v.clearLine l).comeToRest l).entry i =
      (if (s.line l).target = some i then (s.entry i).released else s.entry i).resetOnLine l := by
  have hcut : v.entry i = if (s.line l).target = some i then (s.entry i).released else s.entry i := by
    split
    · next ht => exact h.entry i ht
    · next ht => exact h.stands i ht hi
  have hline : (v.entry i).line = l := by
    rw [hcut]
    split
    · rw [Entry.released_line, hi]
    · exact hi
  have hcleared : (v.clearLine l).entry i = (v.entry i).resetOnLine l := entry_clearLine v l i
  rw [entry_comeToRest _ l (by rw [hcleared, (Entry.SameConfiguration.resetOnLine _ l).1, hline]), hcleared, hcut]

/-- An entry of the other line is only served. -/
theorem State.Cut.entry_other_clearLine_comeToRest {i : StationIndex} (ht : (s.line l).target ≠ some i)
    (hi : (s.entry i).line ≠ l) : (s.entry i).onlyServed (((v.clearLine l).comeToRest l).entry i) := by
  have hcut := h.elsewhere.entry i ht
  have hline : (v.entry i).line ≠ l := by
    rw [hcut.line_state.1]
    exact hi
  have hrest := (State.Elsewhere.comeToRest (v.clearLine l) l none).entry i nofun
  rw [entry_clearLine, Entry.resetOnLine_of_other hline] at hrest
  exact Entry.onlyServed_trans hcut hrest

/-- The directed entries that the cut leaves are removed unserved (R132 step 2). -/
theorem State.Cut.directed_length : (v.line l).directed.length =
    (s.line l).directed.length - (if (s.line l).cutRecords l k = [] then 0 else 1) := by
  rw [h.line]
  by_cases hnil : (s.line l).cutRecords l k = []
  · simp only [State.cutLine, if_pos hnil, Nat.sub_zero]
  · simp only [State.cutLine, if_neg hnil, List.length_tail]

end

/-- LINE RESET (R132). -/
theorem cmdLineReset_eq {s : State} {l : Line} (code : Word)
    (hl : s.window.param0.toNat = match l with | .a => 0 | .b => 1) : (s.commanded code).cmdLineReset =
      ((((s.commanded code).cutShort l).clearLine l).comeToRest l).decided code .accepted
        (((s.commanded code).cutShort l).line l).directed.length := by
  have hcode := congrArg Window.command
    ((State.Evolves.cutShort (s.commanded code) l).trans (State.Evolves.clearLine _ l)).window
  rw [← reply_comeToRest _ l (code := code) hcode, State.cmdLineReset, State.withLine_commanded _ _ hl]
  rfl

end Sys2Proof.Machine
end

section
/-! PROOFS. LINE RESET in READY. -/

namespace Sys2Proof.Machine

/-- Settles O35: LINE RESET is the cut of the line's work, the clearing of the line and its coming to rest; the cut and
the rest are those of LINE HALT. -/
theorem lineResetDecided : Obligations.LineResetDecided := by
  intro s hlive hs hu
  refine ⟨fun h => by rw [exec_lineReset hlive, State.cmdLineReset, State.withLine_commanded_of_high _ _ h],
    fun l hl => ?_⟩
  intro x target own carried frees
  have hcommanded := State.Cut.cutShort l (coherent_commanded 0x0044 hs) (unitsOwnStations_commanded 0x0044 hu)
  rw [line_commanded] at hcommanded
  have hcut := hcommanded.of_commanded
  have hown : (s.line l).cutRecords l .aborted = own := x.cutRecords_aborted l
  have hcarried : x.cutShifter = carried := x.cutShifter_eq
  have hexec := exec_lineReset hlive
  rw [cmdLineReset_eq _ hl, hcut.directed_length, hown] at hexec
  have hline := hcut.line_clearLine_comeToRest
  have hdone := State.Cut.done hcut
  have hserved := hcut.served_clearLine_comeToRest
  have hwrote := hcut.wrote_clearLine_comeToRest
  rw [State.CutFrees] at hserved
  rw [hown] at hdone hserved hwrote
  have hafter := State.Evolves.clearLine_comeToRest ((s.commanded 0x0044).cutShort l) l
  have hevolves := (State.Evolves.cutShort (s.commanded 0x0044) l).trans hafter
  refine ⟨_, hexec, ?_, fun hne => isPending_of_latched (hafter.keeps_latched (hdone hne)), hserved, fun i hi => ?_,
    fun i hi => hcut.entry_other_clearLine_comeToRest (fun ht => hi (line_of_target hu ht)) hi,
    fun m hm => hcut.other_clearLine_comeToRest hm, hevolves.latched, hevolves.cursor,
    isPending_of_latched (latched_comeToRest _ l), hevolves.records, hwrote, hevolves.window, hevolves.drainMode,
    hevolves.threshold, hevolves.enables⟩
  · rw [hline]
    exact ⟨rfl, rfl, rfl, rfl, rfl, rfl, hcut.isHeld_clearLine_comeToRest, rfl, rfl, rfl, rfl, rfl, rfl, rfl, rfl, rfl,
      swapped_active_eq_iff x.swapPending x.active, rfl, rfl, rfl, rfl, hcarried, rfl⟩
  · intro e
    have he : (if (s.line l).target = some i then (s.entry i).released else s.entry i) = e := rfl
    have heline : e.line = l := by
      rw [← he]
      split
      · rw [Entry.released_line, hi]
      · exact hi
    rw [hcut.entry_clearLine_comeToRest hi, he, Entry.resetOnLine_of_line heline]

end Sys2Proof.Machine
end

section
/-! SUPPORT. The host window: what a COMMAND write answers outside READY, which rows have no effect while the part is
not READY, and where the table port refuses a word or reaches none (chapter 9). -/

namespace Sys2Proof.Machine

/-! ### Commands outside READY -/

/-- While the reset input is asserted a write of COMMAND has no effect (R156). -/
theorem issue_of_reset {s : State} (code : Word) (decision : State → State) (h : s.window.resetInput = true) :
    s.issue code decision = s :=
  if_pos h

/-- During INIT a command is refused NOTREADY (R157). -/
theorem issue_of_init {s : State} {n : Nat} (code : Word) (decision : State → State)
    (hreset : s.window.resetInput = false) (hinit : s.window.readiness = .init n) :
    s.issue code decision = s.decided code .notReady 0 := by
  simp [State.issue, hreset, hinit, State.modWindow, State.reply, State.decided]

/-- A command row is the write of its code to COMMAND (R153, Table 11-11). -/
theorem exec_commandRow (s : State) : ∀ p ∈ commandRows, ∃ d, exec p.1 s = .next (s.issue p.2 d) := by
  simp only [commandRows, List.forall_mem_cons]
  exact ⟨⟨_, rfl⟩, ⟨_, rfl⟩, ⟨_, rfl⟩, ⟨_, rfl⟩, ⟨_, rfl⟩, ⟨_, rfl⟩, ⟨_, rfl⟩, ⟨_, rfl⟩, ⟨_, rfl⟩, ⟨_, rfl⟩, ⟨_, rfl⟩,
    ⟨_, rfl⟩, ⟨_, rfl⟩, ⟨_, rfl⟩, ⟨_, rfl⟩, ⟨_, rfl⟩, ⟨_, rfl⟩, fun _ h => absurd h List.not_mem_nil⟩

theorem exec_unknownCommand (code : Word) (s : State) :
    exec (.unknownCommand code) s = .next (s.issue code fun t => t.decideWord code) := rfl

/-- A word that names no command is answered UNKNOWN (R154). -/
theorem decideWord_of_no_command {code : Word} (s : State) (h : commandOfCode code = none) :
    s.decideWord code = s.reply .unknown code.toNat := by
  rw [State.decideWord, h]

/-! ### Rows that act in READY alone -/

theorem live_of_reset {s : State} (h : s.window.resetInput = true) : s.live = false := by
  simp [State.live, h]

theorem live_of_running {s : State} (h : s.window.resetInput = false) :
    s.live = decide (s.window.readiness = .ready) := by
  simp [State.live, h]

/-- The rows of timers, transmitter and inner events act in READY alone (R156, R166). -/
theorem exec_engineRow (s : State) (l : Line) : ∀ c ∈ engineRows l, ∃ f, exec c s = .next (s.whenLive f) := by
  simp only [engineRows, List.forall_mem_cons]
  exact ⟨⟨_, rfl⟩, ⟨_, rfl⟩, ⟨_, rfl⟩, ⟨_, rfl⟩, ⟨_, rfl⟩, ⟨_, rfl⟩, ⟨_, rfl⟩, ⟨_, rfl⟩, ⟨_, rfl⟩, ⟨_, rfl⟩, ⟨_, rfl⟩,
    ⟨_, rfl⟩, ⟨_, rfl⟩, ⟨_, rfl⟩, fun _ h => absurd h List.not_mem_nil⟩

theorem queueDataRead_of_not_live {s : State} (h : s.live = false) : s.queueDataRead = s.drive 0 := by
  rw [State.queueDataRead, if_neg (Bool.eq_false_iff.mp h)]

theorem dackStrobe_of_not_live {s : State} (h : s.live = false) : s.dackStrobe = s.drive 0 := by
  rw [State.dackStrobe, if_neg (Bool.eq_false_iff.mp h)]

/-! ### Register writes -/

/-- A write of a read-only or unused address is ignored (R147). -/
theorem registerWrite_of_ignored (s : State) {a : BitVec 5} (w : Word)
    (h : a ∉ [(0x01 : BitVec 5), 0x02, 0x03, 0x04, 0x05, 0x08, 0x09, 0x11, 0x13]) : s.registerWrite a w = s := by
  have hne : ∀ b : BitVec 5, b ∉ [(0x01 : BitVec 5), 0x02, 0x03, 0x04, 0x05, 0x08, 0x09, 0x11, 0x13] →
      b.toNat ∉ [0x01, 0x02, 0x03, 0x04, 0x05, 0x08, 0x09, 0x11, 0x13] := by decide
  have hother := hne a h
  unfold State.registerWrite
  split
  · rfl
  · split
    case h_10 => rfl
    all_goals next haddress => exact absurd haddress fun he => hother (by rw [he]; decide)

/-! ### PART STATUS -/

theorem Window.inInit_eq (w : Window) : w.inInit = !decide (w.readiness = .ready) := by
  unfold Window.inInit
  cases w.readiness with
  | init n => simp
  | ready => rfl

/-- The part code, and the two flags in bits 1 and 0 (Table 11-7). -/
theorem partStatus_bits : ∀ refused busy : Bool, (0x1208 : BitVec 14) ++ flagBit refused ++ flagBit busy =
    (0x4820 : Word) + (if refused = true then 2 else 0) + (if busy = true then 1 else 0) := by
  decide

/-! ### The table port -/

/-- A table write leaves all of the window but the table-refused flag. -/
theorem tableStore_window (s : State) (r : BitVec 4) (k : Nat) (w : Word) :
    (s.tableStore r k w).window.tableIndex = s.window.tableIndex ∧
      (s.tableStore r k w).window.tableRegion = s.window.tableRegion := by
  unfold State.tableStore
  split
  · exact ⟨rfl, rfl⟩
  · split <;> exact ⟨rfl, rfl⟩
  · split
    · split
      · rw [State.window_modLine]
        exact ⟨rfl, rfl⟩
      · exact ⟨rfl, rfl⟩
    · exact ⟨rfl, rfl⟩
  · rw [State.window_modLine]
    exact ⟨rfl, rfl⟩

/-- A write of a bank that is active, or frozen by a pending swap, is refused (R65, R152). -/
theorem tableStore_bank_refused {s : State} {r : BitVec 4} {l : Line} {n : BankNumber} {k : Nat}
    (hr : regionOfNumber r = some (.bank l n)) (hk : k < 193)
    (h : n = (s.line l).active ∨ (s.line l).swapPending = true) (w : Word) : s.tableStore r k w = s.refuseTable := by
  have hsize : k < bankRegionWords := hk
  have hfrozen : ¬ (s.line l).bankWritable n = true := by
    rcases h with h | h <;> simp [LineEngine.bankWritable, h]
  simp only [State.tableStore, hr, if_pos hsize, if_neg hfrozen]

/-- The words of a region (Table 9-2). -/
def Region.size : Region → Nat
  | .stations => 256
  | .bank _ _ => 193
  | .buffer _ => 20

/-- A location that Table 9-2 gives to no store lies at or beyond the size of the region its number names, if any. -/
theorem size_le_of_beyond {r : BitVec 4} {k : Nat} (h : r = 0 ∧ 256 ≤ k ∨ (1 ≤ r.toNat ∧ r.toNat ≤ 4) ∧ 193 ≤ k ∨
    (5 ≤ r.toNat ∧ r.toNat ≤ 6) ∧ 20 ≤ k ∨ 7 ≤ r.toNat) {g : Region} (hg : regionOfNumber r = some g) :
    g.size ≤ k := by
  have hzero : r = 0 ↔ r.toNat = 0 := BitVec.toNat_inj.symm
  rw [hzero] at h
  unfold regionOfNumber at hg
  split at hg <;> cases hg <;> simp only [Region.size] <;> omega

/-- A location at or beyond the size of its region reads 0000H, and a write there is ignored (R151). -/
theorem table_beyond (s : State) {r : BitVec 4} {k : Nat} (h : ∀ g, regionOfNumber r = some g → g.size ≤ k) (w : Word) :
    s.tableWord r k = 0 ∧ s.tableStore r k w = s := by
  unfold State.tableWord State.tableStore
  cases hr : regionOfNumber r with
  | none => exact ⟨rfl, rfl⟩
  | some g =>
    have hk : g.size ≤ k := h g hr
    cases g with
    | stations => exact ⟨if_neg (Nat.not_lt.mpr hk), if_neg (Nat.not_lt.mpr hk)⟩
    | bank l n => exact ⟨if_neg (Nat.not_lt.mpr hk), if_neg (Nat.not_lt.mpr hk)⟩
    | buffer l =>
      have hout : 20 ≤ k := hk
      have hsame : (s.line l).submitBuffer.setIfInBounds k w = (s.line l).submitBuffer :=
        Vector.setIfInBounds_eq_of_size_le hout
      refine ⟨?_, ?_⟩
      · simp [hout]
      · show s.setLine l { s.line l with submitBuffer := (s.line l).submitBuffer.setIfInBounds k w } = s
        rw [hsame]
        exact State.setLine_line s l

end Sys2Proof.Machine
end

section
/-! PROOFS. The statements about the host window: the resets, the command slot, register writes and reads, the table
port, and the invariants at reset. -/

namespace Sys2Proof.Machine

/-- Settles O1: `step` looks at the front of the queue. -/
theorem stepTakesFront : Obligations.StepTakesFront :=
  fun _ _ _ => rfl

/-- Settles O4: each row by the reset input, and PART RESET as the decision of its command. -/
theorem resetRowsAct : Obligations.ResetRowsAct := by
  intro s
  refine ⟨rfl, fun h => congrArg Host.Outcome.next (if_pos h), fun h => congrArg Host.Outcome.next ?_,
    fun h => congrArg Host.Outcome.next ?_, fun h => congrArg Host.Outcome.next (if_pos h),
    fun hlive => congrArg Host.Outcome.next (issue_of_live _ State.cmdPartReset hlive)⟩
  · exact if_neg (Bool.eq_false_iff.mp h)
  · exact if_neg (Bool.eq_false_iff.mp h)

/-- Settles O6: every command row is an `issue`, decided by the readiness before its own decision is taken. -/
theorem commandSlotRefusals : Obligations.CommandSlotRefusals := by
  intro s
  refine ⟨fun n hreset hinit => ⟨fun p hp => ?_, fun code => ?_⟩, fun code hlive hwf => ?_⟩
  · obtain ⟨d, hd⟩ := exec_commandRow s p hp
    rw [hd, issue_of_init _ _ hreset hinit]
  · rw [exec_unknownCommand, issue_of_init _ _ hreset hinit]
  · have hnone : commandOfCode code = none := Option.isNone_iff_eq_none.1 hwf
    rw [exec_unknownCommand, issue_of_live _ _ hlive, decideWord_of_no_command _ hnone]
    rfl

/-- Settles O7: what the reset input holds back is the condition of each row of the window and of the receivers; the
rows of the engines ask for READY. -/
theorem nothingActsInReset : Obligations.NothingActsInReset := by
  intro s
  refine ⟨fun hreset => ?_, fun hlive => ?_⟩
  · have hheld {a b : State} : Host.Outcome.next (if s.window.resetInput = true then a else b) =
        (.next a : Host.Outcome State Fault Refusal) := congrArg Host.Outcome.next (if_pos hreset)
    refine ⟨fun p hp => ?_, fun code => ?_, fun w => ⟨hheld, fun a => hheld⟩, fun l => ⟨hheld, hheld, fun v f => hheld⟩,
      hheld, hheld, fun a => if_pos hreset⟩
    · obtain ⟨d, hd⟩ := exec_commandRow s p hp
      rw [hd, issue_of_reset _ _ hreset]
    · rw [exec_unknownCommand, issue_of_reset _ _ hreset]
  · have hidle (f : State → State) : Host.Outcome.next (s.whenLive f) =
        (.next s : Host.Outcome State Fault Refusal) := congrArg Host.Outcome.next (whenLive_of_not_live f hlive)
    refine ⟨fun l c hc => ?_, fun i => hidle _, fun w => ⟨hidle _, hidle _⟩, ?_, fun o => ?_⟩
    · obtain ⟨f, hf⟩ := exec_engineRow s l c hc
      rw [hf, hidle]
    · rw [exec_queueDataRead, queueDataRead_of_not_live hlive]
      rfl
    · rw [exec_dackStrobe, dackStrobe_of_not_live hlive]
      rfl

/-- Settles O8: with the reset input not asserted `registerWrite` is its address's arm. -/
theorem registerWritesAct : Obligations.RegisterWritesAct := by
  intro s w hreset
  have harm {a b t : State} (ht : b = t) : Host.Outcome.next (if s.window.resetInput = true then a else b) =
      (.next t : Host.Outcome State Fault Refusal) :=
    congrArg Host.Outcome.next ((if_neg (Bool.eq_false_iff.mp hreset)).trans ht)
  exact ⟨harm rfl, harm rfl, harm rfl, harm rfl, harm rfl,
    fun a ha => congrArg Host.Outcome.next (registerWrite_of_ignored s w ha), harm rfl, harm rfl, harm rfl, harm rfl⟩

/-- Settles O9: PART STATUS by its two low bits, and each TABLE DATA access by the word it reaches before the index moves
on. -/
theorem windowReadsAct : Obligations.WindowReadsAct := by
  intro s hreset
  have hrun {a b : State} : (if s.window.resetInput = true then a else b) = b :=
    if_neg (Bool.eq_false_iff.mp hreset)
  have hlive := live_of_running hreset
  refine ⟨congrArg Host.Outcome.next hrun, ?_, ?_, fun w => ⟨_, congrArg Host.Outcome.next hrun, ?_, ?_, fun hne => ?_⟩⟩
  · rw [State.partStatus, partStatus_bits, Window.inInit_eq]
    simp only [Bool.not_eq_true', decide_eq_false_iff_not, ite_not]
  · refine (congrArg Host.Outcome.next hrun).trans ?_
    simp only [hlive, decide_eq_true_eq]
    rfl
  · split
    · exact congrArg (· + 1) (tableStore_window s _ _ w).1
    · rfl
  · split
    · exact (tableStore_window s _ _ w).2
    · rfl
  · rw [if_neg (by rw [hlive]; simpa using hne)]
    rfl

/-- Settles O11: the station table and a bank that is active or frozen are refused, and beyond its region a location is
none. -/
theorem tableWritesRefusedOrIgnored : Obligations.TableWritesRefusedOrIgnored := by
  intro s w hlive
  rw [exec_tableDataWrite hlive]
  refine ⟨fun h => ?_, fun r k h => ?_⟩
  · have hrefused : s.tableStore s.window.tableRegion s.window.tableIndex.toNat w = s.refuseTable := by
      rcases h with ⟨hregion, hk⟩ | ⟨p, hp, hregion, hk, hfrozen⟩
      · rw [hregion]
        exact if_pos hk
      · rw [hregion]
        exact tableStore_bank_refused (regionOfNumber_bank p hp) hk hfrozen w
    rw [hrefused]
    rfl
  · obtain ⟨hword, hstore⟩ := table_beyond s (fun _ hg => size_le_of_beyond h hg) w
    refine ⟨hword, fun hregion hindex => ?_⟩
    rw [hregion, hindex, hstore]
    rfl

/-- Settles O53: at reset every table and list is empty, every line is STOPPED and nothing is latched. -/
theorem invariantsAtReset : Obligations.InvariantsAtReset := by
  have hunconfigured (i : StationIndex) : (State.reset.entry i).state = .unconfigured := by
    rw [State.entry_reset]
    rfl
  have hidle (l : Line) : (State.reset.line l).current = none := by
    rw [State.line_reset]
    rfl
  refine ⟨fun l => ?_, Nat.zero_le _, BitVec.zero_and, fun i => ?_, fun i _ _ hi => absurd (hunconfigured i) hi,
    coherent_reset, Nat.zero_le _, fun i => ⟨fun hi => ?_, fun ⟨l, _, hc, _⟩ => ?_⟩, fun l _ _ hc => ?_,
    alertsLegal_resetEffects State.reset⟩
  · rw [State.line_reset]
    unfold Params.InRange
    decide
  · rw [State.entry_reset]
    exact Entry.legal_reset
  · rw [State.entry_reset] at hi
    cases hi
  · rw [hidle l] at hc
    cases hc
  · rw [hidle l] at hc
    cases hc

end Sys2Proof.Machine
end

section
/-! SUPPORT. The queue of commands not yet taken: no row of the opcode table touches it (log entry 21). -/

namespace Sys2Proof.Machine

/-! ### Shared operations -/

@[simp] theorem State.pending_finish (s : State) : s.finish.pending = s.pending :=
  (State.Evolves.finish s).pending

@[simp] theorem State.pending_serve (s : State) : s.serve.pending = s.pending :=
  (State.Evolves.serve s).pending

@[simp] theorem State.pending_releaseHead (s : State) : s.releaseHead.pending = s.pending :=
  State.pending_serve _

@[simp] theorem State.pending_enterStopped (s : State) (l : Line) : (s.enterStopped l).pending = s.pending :=
  (State.Evolves.enterStopped s l).pending

@[simp] theorem State.pending_discardPending (s : State) (l : Line) : (s.discardPending l).pending = s.pending :=
  (State.Evolves.discardPending s l).pending

@[simp] theorem State.pending_cutShort (s : State) (l : Line) : (s.cutShort l).pending = s.pending :=
  (State.Evolves.cutShort s l).pending

@[simp] theorem State.pending_resetStations (s : State) (l : Line) : (s.resetStations l).pending = s.pending := rfl

@[simp] theorem State.pending_advanceCursor (s : State) : s.advanceCursor.pending = s.pending := rfl

@[simp] theorem State.pending_resetEffects (s : State) : s.resetEffects.pending = s.pending := rfl

/-- A decision between two states, neither of which touches the queue of commands. -/
theorem pending_ite {s t u : State} {p : Prop} [Decidable p] (ht : t.pending = s.pending)
    (hu : u.pending = s.pending) : (if p then t else u).pending = s.pending := by
  split
  · exact ht
  · exact hu

/-! ### The commands -/

theorem pending_issue (s : State) (code : Word) {d : State → State} (hd : ∀ t : State, (d t).pending = t.pending) :
    (s.issue code d).pending = s.pending := by
  refine pending_ite rfl ?_
  split
  · rfl
  · exact hd _

theorem pending_withStation {s : State} {body : StationIndex → State} (hb : ∀ i, (body i).pending = s.pending) :
    (s.withStation body).pending = s.pending := by
  unfold State.withStation
  split
  · rfl
  · exact hb _

theorem pending_withLine {s : State} {body : Line → State} (hb : ∀ l, (body l).pending = s.pending) :
    (s.withLine body).pending = s.pending := by
  unfold State.withLine
  split
  · rfl
  · exact hb _

theorem pending_cmdStationConfigure (s : State) : s.cmdStationConfigure.pending = s.pending := by
  refine pending_withStation fun i => pending_ite rfl ?_
  split
  · rfl
  split
  · rfl
  split
  · rfl
  · rfl

theorem pending_cmdStationDisable (s : State) : s.cmdStationDisable.pending = s.pending :=
  pending_withStation fun i => pending_ite (pending_ite rfl (by simp)) (pending_ite rfl rfl)

theorem pending_cmdListSwap (s : State) : s.cmdListSwap.pending = s.pending := by
  unfold State.cmdListSwap
  split
  · rfl
  dsimp only
  split
  · rfl
  · exact pending_ite rfl (pending_ite (by simp) (by simp))

theorem pending_cmdSubmit (s : State) : s.cmdSubmit.pending = s.pending := by
  unfold State.cmdSubmit
  dsimp only
  split
  · rfl
  split
  · rfl
  split
  · rfl
  split
  · rfl
  · exact pending_ite rfl (by simp)

theorem pending_cmdDrainMode (s : State) : s.cmdDrainMode.pending = s.pending := by
  unfold State.cmdDrainMode
  split
  · rfl
  · exact pending_ite rfl rfl

theorem pending_cmdLineSet (s : State) : s.cmdLineSet.pending = s.pending := by
  refine pending_withLine fun l => ?_
  split
  · rfl
  · exact pending_ite rfl (pending_ite (by simp) rfl)

theorem pending_stopRunning (s : State) (l : Line) : (s.stopRunning l).pending = s.pending :=
  pending_ite (by simp) (pending_ite (by simp) (by simp))

theorem pending_cmdLineStop (s : State) : s.cmdLineStop.pending = s.pending := by
  refine pending_withLine fun l => ?_
  split
  · rfl
  · rfl
  · rfl
  · exact pending_stopRunning s l

/-- In READY no command touches the commands behind it, PART RESET among them (log entry 21). -/
theorem pending_decideCommand (s : State) (k : Command) : (s.decideCommand k).pending = s.pending := by
  cases k with
  | stationConfigure => exact pending_cmdStationConfigure s
  | stationEnable => exact pending_withStation fun i => pending_ite rfl rfl
  | stationDisable => exact pending_cmdStationDisable s
  | stationClear => exact pending_withStation fun i => pending_ite rfl rfl
  | stationZeroCounts => exact pending_withStation fun i => pending_ite rfl rfl
  | listSwap => exact pending_cmdListSwap s
  | submit => exact pending_cmdSubmit s
  | queueRelease => exact pending_ite rfl (pending_ite rfl (by simp))
  | queueFlush => exact pending_ite rfl rfl
  | queueSetThreshold => exact pending_ite rfl rfl
  | drainMode => exact pending_cmdDrainMode s
  | lineSet => exact pending_cmdLineSet s
  | lineStart => exact pending_withLine fun l => pending_ite (by simp) rfl
  | lineStop => exact pending_cmdLineStop s
  | lineHalt => exact pending_withLine fun l => pending_ite rfl (by simp)
  | lineReset => exact pending_withLine fun l => by simp
  | partReset => exact State.pending_resetEffects s

theorem pending_command (s : State) (k : Command) :
    (s.issue (commandCode k) fun t => t.decideCommand k).pending = s.pending :=
  pending_issue s _ fun t => pending_decideCommand t k

theorem pending_writeCommand (s : State) (code : Word) : (s.writeCommand code).pending = s.pending := by
  refine pending_issue s _ fun t => ?_
  unfold State.decideWord
  split
  · exact pending_decideCommand t _
  · rfl

/-! ### The accesses of the host -/

theorem pending_whenLive {s : State} {f : State → State} (h : (f s).pending = s.pending) :
    (s.whenLive f).pending = s.pending :=
  pending_ite h rfl

theorem pending_queueDataRead (s : State) : s.queueDataRead.pending = s.pending := by
  refine pending_ite ?_ rfl
  split
  · rfl
  · split
    · rfl
    · rfl
  · split
    · rfl
    · exact pending_ite (by simp) rfl

theorem pending_dackStrobe (s : State) : s.dackStrobe.pending = s.pending := by
  refine pending_ite ?_ rfl
  split
  · rfl
  · rfl
  · split
    · rfl
    · exact pending_ite (by simp) rfl

theorem pending_tableStore (s : State) (r : BitVec 4) (k : Nat) (w : Word) :
    (s.tableStore r k w).pending = s.pending := by
  unfold State.tableStore
  split
  · rfl
  · exact pending_ite rfl rfl
  · exact pending_ite (pending_ite (by simp) rfl) rfl
  · simp

theorem pending_tableDataWrite (s : State) (w : Word) : (s.tableDataWrite w).pending = s.pending :=
  pending_ite rfl ((State.pending_modWindow _ _).trans (pending_ite (pending_tableStore s _ _ w) rfl))

theorem pending_intAckWrite (s : State) (w : Word) : (s.intAckWrite w).pending = s.pending := by
  refine pending_whenLive ?_
  split
  · rfl
  · rfl
  · rfl

theorem pending_registerWrite (s : State) (a : BitVec 5) (w : Word) : (s.registerWrite a w).pending = s.pending := by
  refine pending_ite rfl ?_
  split
  · exact pending_writeCommand s w
  · rfl
  · rfl
  · rfl
  · rfl
  · rfl
  · exact pending_tableDataWrite s w
  · exact pending_whenLive rfl
  · exact pending_intAckWrite s w
  · rfl

end Sys2Proof.Machine
end

section
/-! PROOFS. Every row completes, and the queue of commands stands. -/

namespace Sys2Proof.Machine

/-- Settles O3: each row answers a next state, the events of the engines by `State.Evolves`, the commands by their
decision and the accesses of the host one by one. -/
theorem everyCommandAnswersNext : Obligations.EveryCommandAnswersNext := by
  intro c s
  cases c with
  | hardwareResetAssert => exact ⟨_, rfl, rfl⟩
  | hardwareResetRelease => exact ⟨_, rfl, pending_ite rfl rfl⟩
  | initEnd => exact ⟨_, rfl, pending_ite rfl rfl⟩
  | stationConfigure => exact ⟨_, rfl, pending_command s .stationConfigure⟩
  | stationEnable => exact ⟨_, rfl, pending_command s .stationEnable⟩
  | stationDisable => exact ⟨_, rfl, pending_command s .stationDisable⟩
  | stationClear => exact ⟨_, rfl, pending_command s .stationClear⟩
  | stationZeroCounts => exact ⟨_, rfl, pending_command s .stationZeroCounts⟩
  | listSwap => exact ⟨_, rfl, pending_command s .listSwap⟩
  | submit => exact ⟨_, rfl, pending_command s .submit⟩
  | queueRelease => exact ⟨_, rfl, pending_command s .queueRelease⟩
  | queueFlush => exact ⟨_, rfl, pending_command s .queueFlush⟩
  | queueSetThreshold => exact ⟨_, rfl, pending_command s .queueSetThreshold⟩
  | drainMode => exact ⟨_, rfl, pending_command s .drainMode⟩
  | lineSet => exact ⟨_, rfl, pending_command s .lineSet⟩
  | lineStart => exact ⟨_, rfl, pending_command s .lineStart⟩
  | lineStop => exact ⟨_, rfl, pending_command s .lineStop⟩
  | lineHalt => exact ⟨_, rfl, pending_command s .lineHalt⟩
  | lineReset => exact ⟨_, rfl, pending_command s .lineReset⟩
  | partReset => exact ⟨_, rfl, pending_command s .partReset⟩
  | unknownCommand code => exact ⟨_, rfl, pending_writeCommand s code⟩
  | queueDataRead => exact ⟨_, rfl, pending_queueDataRead s⟩
  | tableDataRead => exact ⟨_, rfl, pending_ite rfl rfl⟩
  | tableDataWrite w => exact ⟨_, rfl, pending_tableDataWrite s w⟩
  | partStatusRead => exact ⟨_, rfl, pending_ite rfl rfl⟩
  | intEnableWrite w => exact ⟨_, rfl, pending_whenLive rfl⟩
  | intAckWrite w => exact ⟨_, rfl, pending_intAckWrite s w⟩
  | registerWrite a w => exact ⟨_, rfl, pending_registerWrite s a w⟩
  | dackStrobe o => exact ⟨_, exec_dackStrobe s o, pending_dackStrobe s⟩
  | startDetected l => exact ⟨_, rfl, (State.Evolves.startDetected s l).pending⟩
  | character l v f => exact ⟨_, rfl, (State.Evolves.character s l v f).pending⟩
  | waitMarkEnd l => exact ⟨_, rfl, (State.Evolves.waitMarkEnd s l).pending⟩
  | quietReached l => exact ⟨_, rfl, (State.Evolves.quietReached s l).pending⟩
  | noiseLimitExpiry l => exact ⟨_, rfl, (State.Evolves.noiseLimitExpiry s l).pending⟩
  | transmitCharacterEnd l => exact ⟨_, rfl, (State.Evolves.transmitCharacterEnd s l).pending⟩
  | responseTimeout l => exact ⟨_, rfl, (State.Evolves.responseTimeout s l).pending⟩
  | gapLimitExpiry l => exact ⟨_, rfl, (State.Evolves.gapLimitExpiry s l).pending⟩
  | backoffEnd l => exact ⟨_, rfl, (State.Evolves.backoffEnd s l).pending⟩
  | settleEnd l => exact ⟨_, rfl, (State.Evolves.settleEnd s l).pending⟩
  | intervalElapsed l => exact ⟨_, rfl, (State.Evolves.intervalElapsed s l).pending⟩
  | unitStart l => exact ⟨_, rfl, (State.Evolves.unitStart s l).pending⟩
  | deferredDisable i => exact ⟨_, rfl, (State.Evolves.deferredDisable s i).pending⟩
  | stoppingLineStopped l => exact ⟨_, rfl, (State.Evolves.stoppingLineStopped s l).pending⟩
  | holdListGrant => exact ⟨_, rfl, (State.Evolves.holdListGrant s).pending⟩
  | workSelection l => exact ⟨_, rfl, (State.Evolves.workSelection s l).pending⟩
  | pendingSwapTakesEffect l => exact ⟨_, rfl, (State.Evolves.pendingSwapTakesEffect s l).pending⟩
  | cycleStart l => exact ⟨_, rfl, (State.Evolves.cycleStart s l).pending⟩

end Sys2Proof.Machine
end

section
/-! SUPPORT. One reference period: the level of TXD, the timers of a line, the events whose time has come with their
rows, and the order of the records of a period in which both lines act (chapters 1 and 2, R107, log entries 2 and 24). -/

namespace Sys2Proof.Machine

/-! ### TXD -/

/-- The bit times before the start bit (R4). -/
def Shifter.leadBits (r : Shifter) : Nat :=
  if r.lead = true then 1 else 0

/-- TXD by the bit times since the echo window opened: lead, start bit, data bits, stop bit (R3, R4). -/
theorem Shifter.level_eq (r : Shifter) : r.level =
    if r.elapsed / r.bitPeriods < r.leadBits then true
    else if r.elapsed / r.bitPeriods = r.leadBits then false
    else if r.elapsed / r.bitPeriods ≤ r.leadBits + 8 then r.char.getLsbD (r.elapsed / r.bitPeriods - r.leadBits - 1)
    else true := by
  unfold Shifter.level Shifter.leadBits
  generalize r.elapsed / r.bitPeriods = bits
  cases r.lead with
  | false => simp
  | true =>
    cases bits with
    | zero => simp
    | succ n => simp [Nat.lt_succ_iff]

theorem txd_of_silent {s : State} {l : Line} (h : (s.line l).shifter = none) : s.txd l = true := by
  rw [State.txd, h]

theorem txd_of_sending {s : State} {l : Line} {r : Shifter} (h : (s.line l).shifter = some r) :
    s.txd l = r.level := by
  rw [State.txd, h]

/-! ### The timers -/

theorem step_of_empty {s : State} (h : s.pending = []) : step s = .next s.passTime := by
  rw [step, h]

theorem passTime_of_reset {s : State} (h : s.window.resetInput = true) : s.passTime = s :=
  if_pos h

/-- In INIT the timers count and INIT goes on, or ends (R156). -/
theorem passTime_of_init {s : State} {n : Nat} (hreset : s.window.resetInput = false)
    (hinit : s.window.readiness = .init n) : s.passTime =
      { s with
        window := { s.window with readiness := if 4096 ≤ n + 1 then .ready else .init (n + 1) }
        lineA := s.lineA.tick, lineB := s.lineB.tick } := by
  simp only [State.passTime, hreset, hinit, State.modWindow]
  rfl

/-- In READY the timers count and the lines' events take their turn. -/
theorem passTime_of_ready {s : State} (hreset : s.window.resetInput = false) (hready : s.window.readiness = .ready) :
    s.passTime = State.fireBoth { s with lineA := s.lineA.tick, lineB := s.lineB.tick } := by
  simp only [State.passTime, hreset, hready]
  rfl

theorem pending_passTime (s : State) : s.passTime.pending = s.pending := by
  unfold State.passTime
  split
  · rfl
  split
  · simp
  · exact ((State.Evolves.tickLines s).trans (State.Evolves.fireBoth _)).pending

/-! ### The events whose time has come -/

/-- The row of a time-driven event. -/
def TimedEvent.row (l : Line) : TimedEvent → Instr
  | .characterSent => .transmitCharacterEnd l
  | .quiet => .quietReached l
  | .noise => .noiseLimitExpiry l
  | .response => .responseTimeout l
  | .gap => .gapLimitExpiry l
  | .backoff => .backoffEnd l
  | .settle => .settleEnd l
  | .interval => .intervalElapsed l

theorem exec_row (s : State) (l : Line) (e : TimedEvent) : exec (e.row l) s = .next (s.fire l e) := by
  cases e <;> rfl

/-- The row `c` is that of the event, if there is one. -/
def IsRowOf (l : Line) (c : Instr) (event : Option TimedEvent) : Prop :=
  ∃ e, event = some e ∧ c = e.row l

@[simp] theorem isRowOf_none (l : Line) (c : Instr) : ¬ IsRowOf l c none :=
  fun ⟨_, h, _⟩ => nomatch h

@[simp] theorem isRowOf_some (l : Line) (c : Instr) (e : TimedEvent) : IsRowOf l c (some e) ↔ c = e.row l := by
  simp [IsRowOf]

theorem isRowOf_ite (l : Line) (c : Instr) (p : Prop) [Decidable p] (e : TimedEvent)
    (rest : Option TimedEvent) :
    IsRowOf l c (if p then some e else rest) ↔ p ∧ c = e.row l ∨ ¬ p ∧ IsRowOf l c rest := by
  by_cases h : p <;> simp [h]

/-- The character in the shifter has stood its ten bit times, eleven with the lead (R3, R4). -/
def LineEngine.Sent (x : LineEngine) : Prop :=
  ∃ r, x.shifter = some r ∧ r.bitPeriods * (if r.lead = true then 11 else 10) ≤ r.elapsed

theorem LineEngine.characterDone_iff (x : LineEngine) : x.characterDone = true ↔ x.Sent := by
  unfold LineEngine.characterDone LineEngine.Sent
  cases x.shifter <;> simp [Shifter.windowPeriods]

/-- The time of the exchange phase's row `c` has come (R21, R22, R26, R27, R34, R36). -/
def LineEngine.TimerDue (l : Line) (x : LineEngine) (c : Instr) : Prop :=
  (∃ quiet noise, x.phase = .guard quiet noise ∧
    (3 * x.params.ct ≤ quiet ∧ x.receiver = .hunt ∧ c = .quietReached l ∨
      quiet < 3 * x.params.ct ∧ 64 * x.params.ct ≤ noise ∧ c = .noiseLimitExpiry l)) ∨
  (∃ n, x.phase = .await (some n) ∧ x.params.response * x.params.ct ≤ n ∧ c = .responseTimeout l) ∨
  (∃ b r n, x.phase = .receive b r (some n) ∧ 2 * x.params.ct < n ∧ c = .gapLimitExpiry l) ∨
  (∃ n, x.phase = .idle (.backoff n) ∧ 8 * x.params.ct ≤ n ∧ c = .backoffEnd l) ∨
  ∃ n, x.phase = .idle (.settle n) ∧ x.params.settle * x.params.ct ≤ n ∧ c = .settleEnd l

theorem LineEngine.timerDue_iff (l : Line) (x : LineEngine) (c : Instr) :
    x.TimerDue l c ↔ IsRowOf l c x.phaseEvent := by
  unfold LineEngine.TimerDue LineEngine.phaseEvent
  cases hp : x.phase with
  | idle wait =>
    cases wait with
    | none => simp
    | fallOfDe => simp
    | backoff n =>
      simp only [isRowOf_ite]
      simp [Config.backoffCt, TimedEvent.row]
    | settle n =>
      simp only [isRowOf_ite]
      simp [TimedEvent.row]
  | guard quiet noise =>
    have hgrowing : x.quietGrowing = true ↔ x.receiver = .hunt := by simp [x.quietGrowing_iff, hp]
    have hlacking : x.quietLacking = true ↔ quiet < 3 * x.params.ct := by
      simp [x.quietLacking_iff, hp, Params.ct]
    simp only [isRowOf_ite, hgrowing, hlacking]
    simp [Config.quietCt, Config.noiseCt, TimedEvent.row]
    rw [← Nat.not_le]
    tauto
  | send k e => simp
  | sendWaiting => simp
  | await timer =>
    cases timer with
    | none => simp
    | some n =>
      simp only [isRowOf_ite]
      simp [TimedEvent.row]
  | receive b crc gap =>
    cases gap with
    | none => simp
    | some n =>
      simp only [isRowOf_ite]
      simp [Config.gapCt, TimedEvent.row]

/-- The time of row `c` of line l has come. -/
def State.Due (l : Line) (s : State) (c : Instr) : Prop :=
  IsRowOf l c (s.line l).timedEvent

theorem State.due_iff (l : Line) (s : State) (c : Instr) : s.Due l c ↔
    (s.line l).Sent ∧ c = .transmitCharacterEnd l ∨
    ¬ (s.line l).Sent ∧ (s.line l).TimerDue l c ∨
    ¬ (s.line l).Sent ∧ (∀ d, ¬ (s.line l).TimerDue l d) ∧ (s.line l).runState = .running ∧
      (s.line l).current = none ∧ (s.line l).chosen = none ∧ (s.line l).condition = .waiting ∧
      max (s.line l).params.interval 1 * (160 * ((s.line l).params.rate + 1)) ≤ (s.line l).interval ∧
      c = .intervalElapsed l := by
  unfold State.Due LineEngine.timedEvent
  rw [isRowOf_ite, LineEngine.characterDone_iff]
  simp only [LineEngine.timerDue_iff]
  cases (s.line l).phaseEvent with
  | some e => simp [TimedEvent.row]
  | none =>
    simp [isRowOf_ite, TimedEvent.row, LineEngine.free_iff, LineEngine.intervalReached_iff, and_assoc]

/-! ### The turns of the lines -/

/-- The row whose time has come is the next event of its line. -/
theorem exec_of_due {s : State} {l : Line} {c : Instr} (h : s.Due l c) : exec c s = .next (s.fireNext l) := by
  obtain ⟨e, he, rfl⟩ := h
  rw [exec_row, State.fireNext, he]

theorem timedEvent_of_not_due {s : State} {l : Line} (h : ∀ c, ¬ s.Due l c) : (s.line l).timedEvent = none := by
  cases he : (s.line l).timedEvent with
  | none => rfl
  | some e => exact absurd ⟨e, he, rfl⟩ (h (e.row l))

theorem timedEvent_isSome {s : State} {l : Line} {c : Instr} (h : s.Due l c) :
    (s.line l).timedEvent.isSome = true := by
  obtain ⟨e, he, -⟩ := h
  rw [he]
  rfl

theorem fireNext_of_not_due {s : State} {l : Line} (h : ∀ c, ¬ s.Due l c) : s.fireNext l = s := by
  rw [State.fireNext, timedEvent_of_not_due h]

theorem fireDue_of_not_due {s : State} {l : Line} (h : ∀ c, ¬ s.Due l c) : s.fireDue l = s := by
  rw [State.fireDue, fireNext_of_not_due h, fireNext_of_not_due h]

/-- A line acts once where no second time has come. -/
theorem fireDue_of_once {s : State} {l : Line} (h : ∀ c, ¬ (s.fireNext l).Due l c) :
    s.fireDue l = s.fireNext l :=
  fireNext_of_not_due h

/-- Where the time of at most one line has come, nothing is free. -/
theorem fireBoth_in_order {s : State} {m : Line} (h : ∀ c, ¬ s.Due m c) :
    s.fireBoth = (s.fireDue .a).fireDue .b := by
  have hnone := timedEvent_of_not_due h
  rw [State.fireBoth, if_neg]
  cases m <;> simp_all

theorem fireBoth_of_not_due {s : State} (h : ∀ l c, ¬ s.Due l c) : s.fireBoth = s := by
  rw [fireBoth_in_order (h .a), fireDue_of_not_due (h .a), fireDue_of_not_due (h .b)]

/-- Where the time of one line alone has come, and its events bring about none of the other, they are the period's. -/
theorem fireBoth_of_alone {s : State} {l : Line} (hother : ∀ m c, m ≠ l → ¬ s.Due m c)
    (hafter : ∀ m c, m ≠ l → ¬ (s.fireDue l).Due m c) : s.fireBoth = s.fireDue l := by
  cases l with
  | a =>
    have hb : Line.b ≠ .a := nofun
    rw [fireBoth_in_order fun c => hother .b c hb, fireDue_of_not_due fun c => hafter .b c hb]
  | b =>
    have ha : Line.a ≠ .b := nofun
    rw [fireBoth_in_order fun c => hother .a c ha, fireDue_of_not_due fun c => hother .a c ha]

/-- Where the times of both lines have come, the free order says whose turn is first (log entry 6). -/
theorem fireBoth_of_both {s : State} {l m : Line} {c d : Instr} (hl : s.Due l c) (hm : s.Due m d) (hne : m ≠ l)
    (hfirst : Config.raceFirst s.raceCount = true ↔ l = .a) : s.fireBoth = s.nextRace.fireInTurn l m := by
  have hdl := timedEvent_isSome hl
  have hdm := timedEvent_isSome hm
  cases l with
  | a =>
    obtain rfl : m = .b := by cases m <;> trivial
    rw [State.fireBoth, if_pos (by rw [Bool.and_eq_true]; exact ⟨hdl, hdm⟩), if_pos (hfirst.2 rfl)]
  | b =>
    obtain rfl : m = .a := by cases m <;> trivial
    rw [State.fireBoth, if_pos (by rw [Bool.and_eq_true]; exact ⟨hdm, hdl⟩), if_neg (by rw [hfirst]; nofun)]

theorem due_nextRace (s : State) (l : Line) (c : Instr) : s.nextRace.Due l c ↔ s.Due l c := by
  cases l <;> rfl

/-! ### The order of the records -/

/-- Two records are those of one unit where the second is a STATE record of the line of the first, and the first a DATA,
CONFIRM or FAULT record (R107). -/
theorem recordsOfOneUnit_iff (own change : Record) : recordsOfOneUnit own change = true ↔
    own.line = change.line ∧ (∃ l o i old new cause n, change = .state l o i old new cause n) ∧
    ((∃ l o i g r a p n, own = .data l o i g r a p n) ∨ (∃ l i g r a b n, own = .confirm l i g r a b n) ∨
      ∃ l i g r cause n, own = .fault l i g r cause n) := by
  unfold recordsOfOneUnit
  rw [Bool.and_eq_true, decide_eq_true_eq]
  refine and_congr_right fun _ => ?_
  split
  · simp
  · simp
  · simp
  · next hdata hconfirm hfault =>
    refine iff_of_false Bool.false_ne_true ?_
    rintro ⟨⟨_, _, _, _, _, _, _, rfl⟩, ⟨_, _, _, _, _, _, _, _, rfl⟩ | ⟨_, _, _, _, _, _, _, rfl⟩ | ⟨_, _, _, _, _, _, rfl⟩⟩
    · exact hdata _ _ _ _ _ _ _ _ _ _ _ _ _ _ _ rfl rfl
    · exact hconfirm _ _ _ _ _ _ _ _ _ _ _ _ _ _ rfl rfl
    · exact hfault _ _ _ _ _ _ _ _ _ _ _ _ _ rfl rfl

/-- A record slips behind the newest records for as long as the free values say so. -/
theorem slipBack_eq (r : Record) : ∀ (n : Nat) (xs : List Record), ∃ newer older, xs = newer ++ older ∧
    slipBack r n xs = newer ++ r :: older ∧ (∀ k < newer.length, Config.raceFirst (n + k) = true) ∧
    (older ≠ [] → Config.raceFirst (n + newer.length) = false)
  | n, [] => ⟨[], [], rfl, rfl, nofun, fun h => absurd rfl h⟩
  | n, x :: xs => by
    by_cases hx : Config.raceFirst n = true
    · obtain ⟨newer, older, hxs, hslip, hbehind, hbefore⟩ := slipBack_eq r (n + 1) xs
      refine ⟨x :: newer, older, by rw [hxs]; rfl, by rw [slipBack, if_pos hx, hslip]; rfl, fun k hk => ?_, fun h => ?_⟩
      · cases k with
        | zero => exact hx
        | succ k =>
          rw [← Nat.add_assoc, Nat.add_right_comm]
          exact hbehind k (Nat.lt_of_succ_lt_succ hk)
      · rw [List.length_cons, Nat.add_comm newer.length, ← Nat.add_assoc]
        exact hbefore h
    · exact ⟨[], x :: xs, rfl, by rw [slipBack, if_neg hx]; rfl, nofun, fun _ => Bool.eq_false_iff.mpr hx⟩

/-- Where the line that acts second has not begun with the two records of a unit, every record stays where it is. -/
theorem recordsApart_of_no_unit {v : State} {before : Nat} {written : List Record} (hwritten : written <+: v.queue.records)
    (h : ∀ own change rest, v.queue.records = written ++ own :: change :: rest → ¬ recordsOfOneUnit own change = true) :
    v.recordsApart before written.length = v := by
  obtain ⟨added, hadded⟩ := hwritten
  have hdrop : v.queue.records.drop written.length = added := by rw [← hadded, List.drop_left]
  unfold State.recordsApart
  rw [hdrop]
  split
  · next own change rest => rw [if_neg (h own change rest hadded.symm)]
  · rfl

/-- Where it has, the first of the two comes before a free number of the records the other line wrote last (R107, log
entry 24). -/
theorem recordsApart_of_unit {v : State} {base first rest : List Record} {own change : Record}
    (hrecords : v.queue.records = base ++ first ++ own :: change :: rest) (hunit : recordsOfOneUnit own change = true) :
    ∃ front back, first = front ++ back ∧ (∀ n < back.length, Config.raceFirst (v.raceCount + n) = true) ∧
      (front ≠ [] → Config.raceFirst (v.raceCount + back.length) = false) ∧
      v.recordsApart base.length (base ++ first).length = { v with
        raceCount := v.raceCount + (front ++ back).length
        queue := { v.queue with
          records := base ++ front ++ own :: back ++ change :: rest
          cursor := if base = [] then 0 else v.queue.cursor } } := by
  obtain ⟨newer, older, hsplit, hslip, hbehind, hbefore⟩ := slipBack_eq own v.raceCount first.reverse
  have hfirst : first = older.reverse ++ newer.reverse := by
    rw [← List.reverse_append, ← hsplit, List.reverse_reverse]
  refine ⟨older.reverse, newer.reverse, hfirst, ?_, ?_, ?_⟩
  · rw [List.length_reverse]
    exact hbehind
  · rw [List.length_reverse]
    exact fun h => hbefore (mt List.reverse_eq_nil_iff.2 h)
  · have hdrop : v.queue.records.drop (base ++ first).length = own :: change :: rest := by
      rw [hrecords, List.drop_left]
    have htake : (v.queue.records.take (base ++ first).length).drop base.length = first := by
      rw [hrecords, List.take_left, List.drop_left]
    have hbase : v.queue.records.take base.length = base := by
      rw [hrecords, List.append_assoc, List.take_left]
    unfold State.recordsApart
    rw [hdrop]
    simp only [hunit, if_true, htake, hbase, hslip, ← hfirst, List.length_eq_zero_iff]
    simp

/-! ### The rows of one period -/

/-- Where the time of one line alone has come: its row, and a second one of the line if a second time has come. -/
theorem fireBoth_one_line {s : State} {l : Line} {c : Instr} (hc : s.Due l c)
    (hother : ∀ m d, m ≠ l → ¬ s.Due m d) : ∃ u, exec c s = .next u ∧
      ((∀ m d, ¬ u.Due m d) → s.fireBoth = u) ∧
      ∀ d, u.Due l d → ∃ v, exec d u = .next v ∧ ((∀ m d, m ≠ l → ¬ v.Due m d) → s.fireBoth = v) := by
  refine ⟨s.fireNext l, exec_of_due hc, fun hu => ?_, fun d hd => ⟨_, exec_of_due hd, fun hv => ?_⟩⟩
  · have honce : s.fireDue l = s.fireNext l := fireDue_of_once (hu l)
    rw [fireBoth_of_alone hother (by rw [honce]; exact fun m d _ => hu m d), honce]
  · exact fireBoth_of_alone hother hv

/-- Where the times of both lines have come, once each: the row of the line whose turn is first, that of the other, and
the order of what the two have written. -/
theorem fireBoth_two_lines {s : State} {l m : Line} {c : Instr} (hc : s.Due l c) (hm : ∃ d, s.Due m d) (hne : m ≠ l)
    (hfirst : Config.raceFirst s.raceCount = true ↔ l = .a) : ∃ u, exec c s.nextRace = .next u ∧
      ((∀ d, ¬ u.Due l d) → ∀ d, u.Due m d → ∃ v, exec d u = .next v ∧ ((∀ d, ¬ v.Due m d) →
        ((∀ own change rest, v.queue.records = u.queue.records ++ own :: change :: rest →
            ¬ recordsOfOneUnit own change = true) → s.fireBoth = v) ∧
        ∀ own change rest, v.queue.records = u.queue.records ++ own :: change :: rest →
          recordsOfOneUnit own change = true →
            ∃ front back, u.queue.records = s.queue.records ++ front ++ back ∧
              (∀ n < back.length, Config.raceFirst (v.raceCount + n) = true) ∧
              (front ≠ [] → Config.raceFirst (v.raceCount + back.length) = false) ∧
              s.fireBoth = { v with
                raceCount := v.raceCount + (front ++ back).length
                queue := { v.queue with
                  records := s.queue.records ++ front ++ own :: back ++ change :: rest
                  cursor := if s.queue.records = [] then 0 else v.queue.cursor } })) := by
  obtain ⟨d, hd⟩ := hm
  have hboth := fireBoth_of_both hc hd hne hfirst
  refine ⟨_, exec_of_due ((due_nextRace s l c).2 hc), fun hu e he => ⟨_, exec_of_due he, fun hv => ?_⟩⟩
  rw [State.fireInTurn, fireDue_of_once hu, fireDue_of_once hv] at hboth
  have hwritten := (State.Evolves.fireNext (s.nextRace.fireNext l) m).records
  obtain ⟨first, hrecords⟩ := (State.Evolves.fireNext s.nextRace l).records
  refine ⟨fun hnone => ?_, fun own change rest hrest hunit => ?_⟩
  · rw [hboth]
    exact recordsApart_of_no_unit hwritten hnone
  · rw [← hrecords] at hrest
    obtain ⟨front, back, hsplit, hbehind, hbefore, happart⟩ := recordsApart_of_unit hrest hunit
    rw [hrecords] at happart
    refine ⟨front, back, ?_, hbehind, hbefore, hboth.trans happart⟩
    rw [← hrecords, hsplit, List.append_assoc]
    rfl

end Sys2Proof.Machine
end

section
/-! PROOFS. The step on an empty queue: one reference period. -/

namespace Sys2Proof.Machine

/-- Settles O2: TXD by `Shifter.level_eq`; a period ticks both lines, and in READY their due rows take their turn as
`State.fireBoth` has it, the records of a period in which both act as `State.recordsApart` has them. -/
theorem stepIdlePassesOnePeriod : Obligations.StepIdlePassesOnePeriod := by
  refine ⟨fun s l => ⟨fun hsilent => ⟨txd_of_silent hsilent, ?_⟩, fun r hr => ?_⟩, fun s hpending => ?_⟩
  · rw [State.de, hsilent]
    rfl
  · intro bits lead
    have hlevel : s.txd l = if bits < lead then true else if bits = lead then false
        else if bits ≤ lead + 8 then r.char.getLsbD (bits - lead - 1) else true :=
      (txd_of_sending hr).trans r.level_eq
    rw [hlevel, State.de, hr]
    refine ⟨rfl, fun h => if_pos h, fun h => ?_, fun k hk h => ?_, fun h => ?_⟩
    · rw [if_neg (by omega), if_pos h]
    · rw [if_neg (by omega), if_neg (by omega), if_pos (by omega)]
      congr 1
      omega
    · rw [if_neg (by omega), if_neg (by omega), if_neg (by omega)]
  · intro ct later sent timer due oneUnit adv
    have hlater (x : LineEngine) : x.tick = later x := by
      have hphase : x.phase.tick x.receiver = (later x).phase := by
        dsimp only [later]
        rcases x.phase with (_ | _ | _ | _) | _ | _ | _ | (_ | _) | ⟨_, _, _ | _⟩ <;> rfl
      have hinterval : (if x.intervalRunning then min (x.interval + 1) (Config.intervalCapCt * x.params.ct)
          else x.interval) = (later x).interval := by
        simp only [x.intervalRunning_iff]
        rfl
      rw [LineEngine.tick, hphase, hinterval]
    have hadv : ({ s with lineA := s.lineA.tick, lineB := s.lineB.tick } : State) = adv := by
      rw [hlater, hlater]
    have hdue (l : Line) (t : State) (c : Instr) : due l t c ↔ t.Due l c := (t.due_iff l c).symm
    have hunit (own change : Record) : oneUnit own change ↔ recordsOfOneUnit own change = true :=
      (recordsOfOneUnit_iff own change).symm
    simp only [hdue, hunit]
    refine ⟨s.passTime, step_of_empty hpending, ?_, passTime_of_reset, fun hreset n hinit => ?_,
      fun hreset hready => ?_⟩
    · rw [pending_passTime, hpending]
    · rw [passTime_of_init hreset hinit, ← hadv]
    · rw [passTime_of_ready hreset hready, hadv]
      exact ⟨(State.Evolves.fireBoth adv).window, fireBoth_of_not_due, fun l c hc hother => fireBoth_one_line hc hother,
        fun l m c hc hm hne hfirst => fireBoth_two_lines hc hm hne hfirst⟩

end Sys2Proof.Machine
end

section
/-! SUPPORT. The causes in the order of their codes, the pending state of each, INT with its identity, and the two
registers the host writes (R160 to R165). -/

namespace Sys2Proof.Machine

/-! ### The codes of the causes (Table 10-1) -/

theorem mem_allCauses (c : Cause) : c ∈ allCauses := by
  cases c with
  | queueHeld => decide
  | queueThreshold => decide
  | lineFault l => cases l <;> decide
  | stationState l => cases l <;> decide
  | directedDone l => cases l <;> decide
  | lineStopped l => cases l <;> decide
  | cycleEnd l => cases l <;> decide

/-- The causes are listed highest rank first, so their codes rise along the list. -/
theorem pairwise_allCauses : allCauses.Pairwise (fun c d => causeCode c < causeCode d) := by
  decide

theorem causeCode_injective : Function.Injective causeCode := by
  have hlisted : ∀ c ∈ allCauses, ∀ d ∈ allCauses, causeCode c = causeCode d → c = d := by decide
  exact fun c d h => hlisted c (mem_allCauses c) d (mem_allCauses d) h

theorem causeCode_bounds (c : Cause) : 1 ≤ causeCode c ∧ causeCode c ≤ 12 := by
  have hlisted : ∀ c ∈ allCauses, 1 ≤ causeCode c ∧ causeCode c ≤ 12 := by decide
  exact hlisted c (mem_allCauses c)

theorem exists_causeCode_eq {n : Nat} (hpos : 1 ≤ n) (hle : n ≤ 12) : ∃ c, causeCode c = n := by
  have hcodes : ∀ n ∈ List.range' 1 12, ∃ c ∈ allCauses, causeCode c = n := by decide
  obtain ⟨c, -, hc⟩ := hcodes n (List.mem_range'_1.2 ⟨hpos, by omega⟩)
  exact ⟨c, hc⟩

theorem causeBit_getLsbD (c d : Cause) : (causeBit c).getLsbD (causeCode d - 1) = decide (c = d) := by
  obtain ⟨hc, hc'⟩ := causeCode_bounds c
  obtain ⟨hd, -⟩ := causeCode_bounds d
  have hsame : causeCode c - 1 = causeCode d - 1 ↔ c = d := by
    rw [← causeCode_injective.eq_iff]
    omega
  rw [causeBit, BitVec.getLsbD_twoPow, decide_eq_true (by omega : causeCode c - 1 < 12), Bool.true_and,
    decide_eq_decide.2 hsame]

/-- Searching the list finds the highest rank, which is the smallest code, among the causes that pass the test. -/
theorem find?_allCauses_eq_some {p : Cause → Bool} {c : Cause} :
    allCauses.find? p = some c ↔ p c = true ∧ ∀ d, p d = true → causeCode c ≤ causeCode d := by
  have hfound {c : Cause} (h : allCauses.find? p = some c) :
      p c = true ∧ ∀ d, p d = true → causeCode c ≤ causeCode d := by
    obtain ⟨hc, front, back, hsplit, hfront⟩ := List.find?_eq_some_iff_append.1 h
    refine ⟨hc, fun d hd => ?_⟩
    have hrise := pairwise_allCauses
    have hmem := mem_allCauses d
    rw [hsplit] at hrise hmem
    rcases List.mem_append.1 hmem with hd' | hd'
    · exact absurd hd (by simpa using hfront d hd')
    rcases List.mem_cons.1 hd' with rfl | hd'
    · exact Nat.le_refl _
    · exact Nat.le_of_lt (List.rel_of_pairwise_cons (List.pairwise_append.1 hrise).2.1 hd')
  refine ⟨hfound, fun ⟨hc, hleast⟩ => ?_⟩
  cases h : allCauses.find? p with
  | none => exact absurd hc (List.find?_eq_none.1 h c (mem_allCauses c))
  | some d =>
    obtain ⟨hd, hleast'⟩ := hfound h
    rw [causeCode_injective (Nat.le_antisymm (hleast' c hc) (hleast d hd))]

/-! ### What is pending (R160 to R162) -/

/-- A cause is pending by its latch, or, QUEUE THRESHOLD alone, by the level. -/
theorem isPending_eq (s : State) (c : Cause) : s.isPending c =
    (s.interrupts.latched.getLsbD (causeCode c - 1) || s.thresholdReached && decide (.queueThreshold = c)) := by
  rw [State.isPending, State.pendingCauses, BitVec.getLsbD_or]
  congr 1
  cases s.thresholdReached with
  | true => exact causeBit_getLsbD _ c
  | false => exact BitVec.getLsbD_zero

theorem isPending_of_ne_queueThreshold (s : State) {c : Cause} (hc : c ≠ .queueThreshold) :
    s.isPending c = s.interrupts.latched.getLsbD (causeCode c - 1) := by
  rw [isPending_eq, decide_eq_false hc.symm, Bool.and_false, Bool.or_false]

theorem latched_queueThreshold_eq_false {s : State} (h : s.NoThresholdLatch) :
    s.interrupts.latched.getLsbD (causeCode .queueThreshold - 1) = false := by
  have hbit := congrArg (fun x => x.getLsbD (causeCode .queueThreshold - 1)) h
  rwa [BitVec.getLsbD_and, causeBit_getLsbD, decide_eq_true rfl, Bool.and_true] at hbit

theorem isPending_queueThreshold {s : State} (h : s.NoThresholdLatch) :
    s.isPending .queueThreshold = s.thresholdReached := by
  rw [isPending_eq, latched_queueThreshold_eq_false h, decide_eq_true rfl, Bool.and_true, Bool.false_or]

/-! ### INT and its identity (R163, R164) -/

theorem int_iff (s : State) : s.int = true ↔ ∃ c, s.isPending c = true ∧ s.isEnabled c = true := by
  simp only [State.int, List.any_eq_true, Bool.and_eq_true, mem_allCauses, true_and]

/-- No code is 0, so an identity of 0 is a search that found nothing. -/
theorem identity_eq_zero_iff (s : State) : s.identity = 0 ↔ s.int = false := by
  rw [State.identity, State.int, List.any_eq_false, ← List.find?_eq_none]
  cases allCauses.find? (fun c => s.isPending c && s.isEnabled c) with
  | none => exact iff_of_true rfl rfl
  | some c => exact iff_of_false (Nat.ne_of_gt (causeCode_bounds c).1) (Option.some_ne_none c)

theorem identity_eq_causeCode_iff (s : State) (c : Cause) : s.identity = causeCode c ↔
    (s.isPending c = true ∧ s.isEnabled c = true) ∧
      ∀ d, s.isPending d = true ∧ s.isEnabled d = true → causeCode c ≤ causeCode d := by
  have hfind := find?_allCauses_eq_some (p := fun c => s.isPending c && s.isEnabled c) (c := c)
  simp only [Bool.and_eq_true] at hfind
  rw [← hfind, State.identity]
  cases allCauses.find? (fun c => s.isPending c && s.isEnabled c) with
  | none => exact iff_of_false (Nat.ne_of_lt (causeCode_bounds c).1) (Option.some_ne_none c).symm
  | some d => rw [causeCode_injective.eq_iff, Option.some_inj]

theorem identity_le (s : State) : s.identity ≤ 12 := by
  rw [State.identity]
  split
  · exact (causeCode_bounds _).2
  · exact Nat.zero_le 12

/-! ### The registers as read (Table 11-7) -/

theorem readRegister_intEnable {s : State} (h : s.window.resetInput = false) :
    s.readRegister 0x11 = (0 : BitVec 4) ++ s.interrupts.enables :=
  readRegister_of_running h 0x11

theorem readRegister_intIdentity {s : State} (h : s.window.resetInput = false) :
    (s.readRegister 0x12).toNat = s.identity := by
  have hreg : s.readRegister 0x12 = BitVec.ofNat 16 s.identity := readRegister_of_running h 0x12
  have hle := identity_le s
  rw [hreg, toNat_ofNat_of_lt (by omega)]

theorem readRegister_intAck {s : State} (h : s.window.resetInput = false) : s.readRegister 0x13 = 0 :=
  readRegister_of_running h 0x13

/-! ### Writes of INT ACK and INT ENABLE (R163, R165, R170) -/

theorem causeOfCode_eq_some {w : Word} {c : Cause} : causeOfCode w = some c ↔ causeCode c = w.toNat := by
  rw [causeOfCode, find?_allCauses_eq_some]
  simp only [decide_eq_true_eq]
  exact ⟨And.left, fun h => ⟨h, fun d hd => Nat.le_of_eq (h.trans hd.symm)⟩⟩

theorem intAckWrite_of_latched {s : State} {w : Word} {c : Cause} (hlive : s.live = true)
    (hw : causeCode c = w.toNat) (hc : c ≠ .queueThreshold) :
    s.intAckWrite w = { s with interrupts := s.interrupts.clear c } := by
  rw [State.intAckWrite, whenLive_of_live _ hlive, causeOfCode_eq_some.2 hw]
  cases c with
  | queueThreshold => exact absurd rfl hc
  | _ => rfl

theorem intAckWrite_of_other {s : State} {w : Word} (hlive : s.live = true)
    (hw : w.toNat = 0 ∨ w.toNat = 4 ∨ 12 < w.toNat) : s.intAckWrite w = s := by
  have hnamed : causeOfCode w = none ∨ causeOfCode w = some .queueThreshold := by
    cases h : causeOfCode w with
    | none => exact .inl rfl
    | some c =>
      have hcode := causeOfCode_eq_some.1 h
      have hbounds := causeCode_bounds c
      have hfour : causeCode c = causeCode .queueThreshold := by
        show causeCode c = 4
        omega
      exact .inr (congrArg some (causeCode_injective hfour))
  rw [State.intAckWrite, whenLive_of_live _ hlive]
  rcases hnamed with h | h <;> rw [h]

theorem intEnableWrite_of_live {s : State} (w : Word) (hlive : s.live = true) : s.intEnableWrite w =
    { s with interrupts := { s.interrupts with enables := w.extractLsb' 0 12 } } :=
  whenLive_of_live _ hlive

/-- Twelve bits with 0 above them are the word with its high four bits masked off. -/
theorem append_extractLsb'_eq_and (w : Word) : (0 : BitVec 4) ++ w.extractLsb' 0 12 = w &&& 0x0FFF := by
  refine BitVec.eq_of_toNat_eq ?_
  rw [BitVec.toNat_append, BitVec.toNat_and, BitVec.extractLsb'_toNat]
  exact (Nat.zero_or _).trans (Nat.and_two_pow_sub_one_eq_mod _ 12).symm

end Sys2Proof.Machine
end

section
/-! PROOFS. The interrupt unit: its outputs, and the registers the host writes. -/

namespace Sys2Proof.Machine

/-- Settles O20: a search of the causes by rank (`find?_allCauses_eq_some`), and the level of QUEUE THRESHOLD beside
the latches (`isPending_eq`). -/
theorem interruptOutputs : Obligations.InterruptOutputs := by
  refine ⟨by decide, fun s => ⟨int_iff s, identity_eq_zero_iff s, fun c => ?_, readRegister_intIdentity,
    fun hlatch => ⟨?_, fun c => isPending_of_ne_queueThreshold s⟩⟩⟩
  · simp only [identity_eq_causeCode_iff, and_assoc, and_imp]
  · rw [isPending_queueThreshold hlatch, State.thresholdReached, decide_eq_true_eq, State.recordCount]

/-- Settles O19: the word names the cause of its code and no other (`causeOfCode_eq_some`), and the codes 1 to 12 but
4 are the latched causes. -/
theorem interruptWritesAct : Obligations.InterruptWritesAct := by
  intro s w hlive
  have hreset := ((live_iff s).1 hlive).1
  have hack : exec (.intAckWrite w) s = .next (s.intAckWrite w) := rfl
  have henable : exec (.intEnableWrite w) s = .next (s.intEnableWrite w) := rfl
  refine ⟨fun hpos hle hne => ?_, fun hw => ?_, readRegister_intAck hreset, s.intEnableWrite w, henable,
    intEnableWrite_of_live w hlive, fun c => ?_, ?_⟩
  · obtain ⟨c, hc⟩ := exists_causeCode_eq hpos hle
    have hlatched : c ≠ .queueThreshold := by
      rintro rfl
      exact hne hc.symm
    rw [hack, intAckWrite_of_latched hlive hc hlatched, InterruptUnit.clear, causeBit, hc]
  · rw [hack, intAckWrite_of_other hlive hw]
  · have hle := (causeCode_bounds c).2
    rw [intEnableWrite_of_live w hlive, State.isEnabled, BitVec.getLsbD_extractLsb', Nat.zero_add,
      decide_eq_true (by omega : causeCode c - 1 < 12), Bool.true_and]
  · have hafter := intEnableWrite_of_live w hlive
    have hrunning : (s.intEnableWrite w).window.resetInput = false := by
      rw [hafter]
      exact hreset
    rw [readRegister_intEnable hrunning, hafter, append_extractLsb'_eq_and]

end Sys2Proof.Machine
end
